-- ==== Sys2Proof/Word.lean ====
section
/-! DEFINITION. The words of the block and their plainest arithmetic (00_scope.md R7, R10). All
quantities are unsigned. -/

namespace Sys2Proof

/-- One byte of the byte view of the DMA window (20_memory.md R66). -/
abbrev Byte := BitVec 8

/-- A command word, a data word, a module register value, a counter (`WORD_W`, `COUNTER_W`,
`BASE_W` of R7). -/
abbrev Word := BitVec 32

/-- A word pointer, the `u30` of R7 (`PTR_W`): `base`, `get`, `put`, `end`. -/
abbrev Ptr := BitVec 30

/-- A channel number, `0..7`. -/
abbrev Chan := Fin 8

/-- The word of the bytes `b3 b2 b1 b0`, `b0` at the lowest address (20_memory.md R66). -/
def wordOfBytes (b0 b1 b2 b3 : Byte) : Word := b3 ++ b2 ++ b1 ++ b0

/-- The bytes of a word, the lowest address first (20_memory.md R66). -/
def bytesOfWord (w : Word) : List Byte :=
  [w.extractLsb' 0 8, w.extractLsb' 8 8, w.extractLsb' 16 8, w.extractLsb' 24 8]

end Sys2Proof
end

