-- ==== Sys2Proof/Syntax.lean ====
section
/-! DEFINITION. The whole syntax: the command words of spec/opcode_table.json (30_encoding.md R92 to
R98, R103, R104), the assembler's items (R108), the operations of the host and of module handlers
(00_scope.md R12, 42_fifo_registry.md R189) and the events that drive the block (R9). -/

namespace Sys2Proof

/-- The command words, one constructor per row of spec/opcode_table.json. Every constructor keeps
all 28 bits below the opcode, the ignored ones too (30_encoding.md R105), which is the model's own choice
(assumption log 1): a fault records the whole opcode word (60_exceptions.md R301). -/
inductive Instr where
  /-- SETCLASS, format C (R93, R221). -/
  | setclass (offset : BitVec 12) (classId : BitVec 10) (mask : BitVec 6)
  /-- INCR, format W (R94, R222). -/
  | incr (offset : BitVec 12) (count : BitVec 16)
  /-- NONINCR, format W (R94, R223). -/
  | nonincr (offset : BitVec 12) (count : BitVec 16)
  /-- MASK, format W (R94, R224). -/
  | mask (offset : BitVec 12) (bits : BitVec 16)
  /-- IMM, format W (R94, R225). -/
  | imm (offset : BitVec 12) (immdata : BitVec 16)
  /-- RESTART, format J (R97, R265, R266). -/
  | restart (offset : BitVec 28)
  /-- GATHER with `insert = 0`, format G (R95, R244); `offset` and `incr` are ignored. -/
  | gatherInline (offset : BitVec 12) (incr : BitVec 1) (count : BitVec 14)
  /-- GATHER with `insert = 1`, format G (R95, R243). -/
  | gatherInsert (offset : BitVec 12) (incr : BitVec 1) (count : BitVec 14)
  /-- A word of opcode `0x7`, which names no instruction (R103, R207). -/
  | unknown7 (low : BitVec 28)
  /-- A word of opcode `0x8`, which names no instruction (R103, R207). -/
  | unknown8 (low : BitVec 28)
  /-- A word of opcode `0x9`, which names no instruction (R103, R207). -/
  | unknown9 (low : BitVec 28)
  /-- A word of opcode `0xA`, which names no instruction (R103, R207). -/
  | unknownA (low : BitVec 28)
  /-- A word of opcode `0xB`, which names no instruction (R103, R207). -/
  | unknownB (low : BitVec 28)
  /-- A word of opcode `0xC`, which names no instruction (R103, R207). -/
  | unknownC (low : BitVec 28)
  /-- A word of opcode `0xD`, which names no instruction (R103, R207). -/
  | unknownD (low : BitVec 28)
  /-- EXTEND with `subop = 0`, format X (R96, R256); `value[23:4]` is ignored. -/
  | acquireMlock (value : BitVec 24)
  /-- EXTEND with `subop = 1`, format X (R96, R257); `value[23:4]` is ignored. -/
  | releaseMlock (value : BitVec 24)
  /-- EXTEND with the undefined `subop = 0x2` (R104, R258). -/
  | extendUndef2 (value : BitVec 24)
  /-- EXTEND with the undefined `subop = 0x3` (R104, R258). -/
  | extendUndef3 (value : BitVec 24)
  /-- EXTEND with the undefined `subop = 0x4` (R104, R258). -/
  | extendUndef4 (value : BitVec 24)
  /-- EXTEND with the undefined `subop = 0x5` (R104, R258). -/
  | extendUndef5 (value : BitVec 24)
  /-- EXTEND with the undefined `subop = 0x6` (R104, R258). -/
  | extendUndef6 (value : BitVec 24)
  /-- EXTEND with the undefined `subop = 0x7` (R104, R258). -/
  | extendUndef7 (value : BitVec 24)
  /-- EXTEND with the undefined `subop = 0x8` (R104, R258). -/
  | extendUndef8 (value : BitVec 24)
  /-- EXTEND with the undefined `subop = 0x9` (R104, R258). -/
  | extendUndef9 (value : BitVec 24)
  /-- EXTEND with the undefined `subop = 0xA` (R104, R258). -/
  | extendUndefA (value : BitVec 24)
  /-- EXTEND with the undefined `subop = 0xB` (R104, R258). -/
  | extendUndefB (value : BitVec 24)
  /-- EXTEND with the undefined `subop = 0xC` (R104, R258). -/
  | extendUndefC (value : BitVec 24)
  /-- EXTEND with the undefined `subop = 0xD` (R104, R258). -/
  | extendUndefD (value : BitVec 24)
  /-- EXTEND with the undefined `subop = 0xE` (R104, R258). -/
  | extendUndefE (value : BitVec 24)
  /-- EXTEND with the undefined `subop = 0xF` (R104, R258). -/
  | extendUndefF (value : BitVec 24)
  /-- CHDONE, format N (R98, R267); the 28 bits are ignored. -/
  | chdone (ignored : BitVec 28)
  deriving DecidableEq, Repr

/-- An item of the assembly notation (30_encoding.md R108): `MNEMONIC(field=value, ...)` with
unbounded field values, or a bare data word. -/
inductive Asm where
  | setclass (classId mask offset : Nat)
  | incr (offset count : Nat)
  | nonincr (offset count : Nat)
  | mask (offset mask : Nat)
  | imm (offset immdata : Nat)
  | restart (offset : Nat)
  | gather (offset insert incr count : Nat)
  | acquireMlock (id : Nat)
  | releaseMlock (id : Nat)
  | extend (subop value : Nat)
  | chdone
  | word (value : Nat)
  deriving DecidableEq, Repr

/-- An operation of the sync-point store, the waits and the bases (40_syncpt.md). Identifiers are
unbounded: one out of range has no meaning (R141). -/
inductive SyncReq where
  | increment (id : Nat)
  | setCounter (id : Nat) (value : Word)
  | getCounter (id : Nat)
  | setThreshold (id : Nat) (value : Word)
  | getThreshold (id : Nat)
  | thresholdCrossed (id : Nat)
  | wait (id : Nat) (threshold : Word)
  | waitBaseRelative (id baseId : Nat) (offset : Word)
  | waitNextIncrement (id : Nat)
  | baseSet (baseId : Nat) (value : Word)
  | baseIncrement (baseId : Nat) (delta : Word)
  | baseGet (baseId : Nat)
  deriving DecidableEq, Repr

/-- A request a module handler may make of the core (42_fifo_registry.md R189): an operation of
40_syncpt.md, or a push into the FIFO of the calling worker's own channel. -/
inductive CoreReq where
  | sync (r : SyncReq)
  | push (value : Word)
  deriving DecidableEq, Repr

/-- One line of a write handler given as a table: a write of `value` to `off` yields `reqs`. -/
structure WriteRule where
  off : Word
  value : Word
  reqs : List CoreReq
  deriving DecidableEq, Repr

/-- How a module's write handler behaves towards the core, a parameter of the model (R8, R189):
`table` lists the writes that yield requests, every other write yielding none; `platform id` leaves
every write's requests to the free value `Config.handlerRequests` (assumption log 8). -/
inductive WriteHandler where
  | table (rules : List WriteRule)
  | platform (id : Nat)
  deriving DecidableEq, Repr

/-- A Module record of the registry (10_state.md R38): class id, write handler, read handler (a
number that the free value `Config.moduleRead` is applied to) and the opaque context. -/
structure Module where
  classId : BitVec 16
  write : WriteHandler
  read : Nat
  context : Word
  deriving DecidableEq, Repr

/-- Who can own a Waiter record (40_syncpt.md R129): the worker of a channel, or a host context. -/
inductive AgentId where
  | worker (c : Chan)
  | ctx (h : Nat)
  deriving DecidableEq, Repr

/-- The operations the host may issue (00_scope.md R12; 60_exceptions.md R320: all of them but
`channel_acquire` and `channel_release`). Identifiers are unbounded: one out of range has no
meaning. -/
inductive HostOp where
  | init (c : Nat)
  | setBase (c : Nat) (value : Word)
  | setPut (c : Nat) (value : Word)
  | setEnd (c : Nat) (value : Word)
  | control (c : Nat) (stop resetGet initGetFromPut : Bool)
  | sync (r : SyncReq)
  | unlockWaiter (c : Nat)
  | unlockWaiterForced (c : Nat)
  | cpuTryAcquire (k : Nat)
  | cpuRelease (k : Nat)
  | cpuGetRaw (k : Nat)
  | wakeAllChannelWaiters
  | register (m : Module)
  | lookup (classId : BitVec 16)
  | dispatchWrite (classId : BitVec 16) (off value : Word)
  | dispatchRead (classId : BitVec 16) (off : Word)
  | push (c : Nat) (value : Word)
  | pop (c : Nat)
  | popNonempty (c : Nat)
  | irqSetDest (p : Nat) (mask : Word)
  | irqGetDest (p : Nat)
  | irqGetStatus (p : Nat)
  | irqClearStatus (p : Nat) (mask : Word)
  | subsystemReset
  deriving DecidableEq, Repr

/-- What happens next (00_scope.md R9): the worker of a channel is scheduled; host context `h`
issues an operation; host context `h`, held inside one, is scheduled; or the owner of the DMA window
stores bytes into it (20_memory.md R61, R71). -/
inductive Event where
  | worker (c : Chan)
  | host (h : Nat) (op : HostOp)
  | resume (h : Nat)
  | store (addr : BitVec 32) (bytes : List Byte)
  deriving DecidableEq, Repr, Inhabited

end Sys2Proof
end

