-- ==== Sys2Proof/Config.lean ====
section
/-! DEFINITION. The parameters of 00_scope.md R7 and R8 and the number table of 30_encoding.md R92: the
nineteen counts and widths of this hardware and its opcode numbers, as records of constants; the two
parameters the source leaves open, as fields of `Config`; the platform's behaviour and the schedule, as
free values without a body. -/

namespace Sys2Proof

/-- `SECTION_GRANULARITY` (00_scope.md R7, 43_interpreter_loop.md R206 (a), D15): whether a worker
keeps the global interpreter section for one instruction or for its run. -/
inductive Granularity where
  | instruction
  | run
  deriving DecidableEq, Repr

/-- The two open parameters (R7). A machine has one `Config` and no step changes it; statements hold
for every value (assumption log 7). -/
structure Config where
  /-- `RESTART_SHIFT`, left shift from the RESTART offset field to `get` (R265, D4). -/
  restartShift : Nat
  /-- `SECTION_GRANULARITY` (R206, D15). -/
  granularity : Granularity
  deriving DecidableEq, Repr

/-- The defaults of R7: shift 0, one instruction. -/
def Config.default : Config := ⟨0, .instruction⟩

/-- The parameters of R7 with one value in this hardware, one field each. -/
structure Parameters where
  /-- `NB_SYNCPTS`. -/
  nbSyncpts : Nat
  /-- `NB_BASES`. -/
  nbBases : Nat
  /-- `NB_MLOCKS`. -/
  nbMlocks : Nat
  /-- `NB_CHANNELS`. -/
  nbChannels : Nat
  /-- `NB_CPUS`. -/
  nbCpus : Nat
  /-- `COUNTER_W`. -/
  counterW : Nat
  /-- `CMP_W`. -/
  cmpW : Nat
  /-- `BASE_W`. -/
  baseW : Nat
  /-- `PTR_W`. -/
  ptrW : Nat
  /-- `WORD_W`. -/
  wordW : Nat
  /-- `OPCODE_W`. -/
  opcodeW : Nat
  /-- `OFFSET_W`. -/
  offsetW : Nat
  /-- `CLASS_W`. -/
  classW : Nat
  /-- `REG_CLASS_W`. -/
  regClassW : Nat
  /-- `CHID_W`. -/
  chidW : Nat
  /-- `FIFO_SLOTS`. -/
  fifoSlots : Nat
  /-- `FIFO_USABLE` (D24). -/
  fifoUsable : Nat
  /-- `GATHER_COUNT_W`. -/
  gatherCountW : Nat
  /-- `MAX_NEST`. -/
  maxNest : Nat
  deriving DecidableEq, Repr

/-- The values this hardware takes (R7). Lean's types cannot depend on a record that varies without a
cast in every rule, so the types of `Word`, `Syntax` and `State` repeat them as numerals, and
Laws/Config.lean proves each type equal to the one this record gives. -/
def Config.fixed : Parameters where
  nbSyncpts := 32
  nbBases := 8
  nbMlocks := 16
  nbChannels := 8
  nbCpus := 2
  counterW := 32
  cmpW := 16
  baseW := 32
  ptrW := 30
  wordW := 32
  opcodeW := 4
  offsetW := 12
  classW := 10
  regClassW := 16
  chidW := 4
  fifoSlots := 32
  fifoUsable := 31
  gatherCountW := 14
  maxNest := 1

/-- The entries a FIFO can hold at once (R7, D24). -/
def Config.fifoUsable : Nat := Config.fixed.fifoUsable

/-- The greatest module register offset with a meaning (`OFFSET_W` of R7, R226). -/
def Config.maxOffset : Word := .ofNat 32 (2 ^ Config.fixed.offsetW - 1)

/-- The number table of the command words (30_encoding.md R92, R96, decisions D1, D2; assumption log 1):
the nine opcodes, and the two sub-operations of EXTEND. Decoder, encoder and assembler read it. -/
structure Opcodes where
  setclass : BitVec 4
  incr : BitVec 4
  nonincr : BitVec 4
  mask : BitVec 4
  imm : BitVec 4
  restart : BitVec 4
  gather : BitVec 4
  extend : BitVec 4
  chdone : BitVec 4
  acquireMlock : BitVec 4
  releaseMlock : BitVec 4
  deriving DecidableEq, Repr

/-- The numbers of R92 and R96. -/
def Config.opcodes : Opcodes where
  setclass := 0x0
  incr := 0x1
  nonincr := 0x2
  mask := 0x3
  imm := 0x4
  restart := 0x5
  gather := 0x6
  extend := 0xE
  chdone := 0xF
  acquireMlock := 0x0
  releaseMlock := 0x1

/-- FREE VALUE (assumption log 4): the event that happens when the agenda is empty; the schedule
and the host's inputs are parameters (00_scope.md R8, R9). -/
opaque Config.schedule : Nat → Event

/-- FREE VALUE (assumption log 8): the requests the write handler `id` with context `context` makes
when `value` is written to `off` (42_fifo_registry.md R189, 93 U3); the last argument lets the answer
differ from one call to the next. -/
opaque Config.handlerRequests (id : Nat) (context off value : Word) (n : Nat) : List CoreReq

/-- FREE VALUE (assumption log 24): what the read handler `id` returns (93 U3, 42_fifo_registry.md
R190). -/
opaque Config.moduleRead (id : Nat) (context off : Word) (n : Nat) : Word

end Sys2Proof
end

