-- ==== Sys2Proof/WellFormed.lean ====
section
/-! DEFINITION. Well-formedness: of a command word (44_module_write_opcodes.md R226: its register
writes stay within the 12-bit offset space) and of an assembly item (30_encoding.md R109: every field
value fits its width). -/

namespace Sys2Proof

/-- No write of a burst of `count` words from `offset` up goes beyond `0xFFF` (R226). -/
def burstInRange (offset : BitVec 12) (count : Nat) : Bool := offset.toNat + count ≤ 0x1000

/-- No write of a masked write from `offset` up goes beyond `0xFFF` (R226). -/
def maskInRange (offset : BitVec 12) (bits : BitVec 16) : Bool :=
  (List.range 16).all fun i => !bits.getLsbD i || offset.toNat + i ≤ 0xFFF

/-- R226: "A well-formed stream keeps `offset + count - 1 <= 0xFFF` for INCR and `offset + (index of
the highest set mask bit) <= 0xFFF` for MASK and SETCLASS"; the insert form of GATHER with `incr = 1`
is a burst (45_gather.md R243). The other command words have nothing to check: their field widths are
in their types. -/
def Instr.wellFormed : Instr → Bool
  | .setclass offset _ bits => maskInRange offset (bits.setWidth 16)
  | .incr offset count => burstInRange offset count.toNat
  | .nonincr _ _ => true
  | .mask offset bits => maskInRange offset bits
  | .imm _ _ => true
  | .restart _ => true
  | .gatherInline _ _ _ => true
  | .gatherInsert offset inc count => inc == 0 || burstInRange offset count.toNat
  | .unknown7 _ => true
  | .unknown8 _ => true
  | .unknown9 _ => true
  | .unknownA _ => true
  | .unknownB _ => true
  | .unknownC _ => true
  | .unknownD _ => true
  | .acquireMlock _ => true
  | .releaseMlock _ => true
  | .extendUndef2 _ => true
  | .extendUndef3 _ => true
  | .extendUndef4 _ => true
  | .extendUndef5 _ => true
  | .extendUndef6 _ => true
  | .extendUndef7 _ => true
  | .extendUndef8 _ => true
  | .extendUndef9 _ => true
  | .extendUndefA _ => true
  | .extendUndefB _ => true
  | .extendUndefC _ => true
  | .extendUndefD _ => true
  | .extendUndefE _ => true
  | .extendUndefF _ => true
  | .chdone _ => true

/-- R109: "An assembler refuses a field value that does not fit its width"; the widths are those of
R93 to R97, and a lock id is the 4 bits `value[3:0]` (R96). -/
def Asm.wellFormed : Asm → Bool
  | .setclass classId bits offset => classId < 2 ^ 10 && bits < 2 ^ 6 && offset < 2 ^ 12
  | .incr offset count => offset < 2 ^ 12 && count < 2 ^ 16
  | .nonincr offset count => offset < 2 ^ 12 && count < 2 ^ 16
  | .mask offset bits => offset < 2 ^ 12 && bits < 2 ^ 16
  | .imm offset immdata => offset < 2 ^ 12 && immdata < 2 ^ 16
  | .restart offset => offset < 2 ^ 28
  | .gather offset insert inc count =>
    offset < 2 ^ 12 && insert < 2 && inc < 2 && count < 2 ^ 14
  | .acquireMlock id => id < 2 ^ 4
  | .releaseMlock id => id < 2 ^ 4
  | .extend subop value => subop < 2 ^ 4 && value < 2 ^ 24
  | .chdone => true
  | .word value => value < 2 ^ 32

end Sys2Proof
end

