-- ==== Sys2Proof/Decode.lean ====
section
/-! DEFINITION. Decoding (43_interpreter_loop.md R204), total on any bytes, and after it the encoder
(30_encoding.md R93 to R98, R109) and the assembler (R108). -/

namespace Sys2Proof

/-- Why bytes are no command word. -/
inductive DecodeError where
  /-- Fewer than the four bytes of a command word (R90). Safe: nothing is decoded. -/
  | truncated
  deriving DecidableEq, Repr

/-- The offset field, bits 27:16, of formats C, W and G (R93 to R95). -/
def fieldOffset (w : Word) : BitVec 12 := w.extractLsb' 16 12

/-- The 28 bits below the opcode (R97, R98). -/
def fieldLow28 (w : Word) : BitVec 28 := w.extractLsb' 0 28

/-- The 16-bit payload of format W (R94). -/
def fieldPayload (w : Word) : BitVec 16 := w.extractLsb' 0 16

/-- The `value` field of format X (R96). -/
def fieldValue (w : Word) : BitVec 24 := w.extractLsb' 0 24

/-- An undefined sub-operation of EXTEND, by its number (R104). The last arm is sub-operation 15: the
numbers below 2 are those of R96. -/
def decodeUndefined (w : Word) : Instr :=
  match (w.extractLsb' 24 4).toNat with
  | 2 => .extendUndef2 (fieldValue w)
  | 3 => .extendUndef3 (fieldValue w)
  | 4 => .extendUndef4 (fieldValue w)
  | 5 => .extendUndef5 (fieldValue w)
  | 6 => .extendUndef6 (fieldValue w)
  | 7 => .extendUndef7 (fieldValue w)
  | 8 => .extendUndef8 (fieldValue w)
  | 9 => .extendUndef9 (fieldValue w)
  | 10 => .extendUndefA (fieldValue w)
  | 11 => .extendUndefB (fieldValue w)
  | 12 => .extendUndefC (fieldValue w)
  | 13 => .extendUndefD (fieldValue w)
  | 14 => .extendUndefE (fieldValue w)
  | _ => .extendUndefF (fieldValue w)

/-- EXTEND: the sub-operation, bits 27:24, selects (R96, R204). -/
def decodeExtend (w : Word) : Instr :=
  let subop := w.extractLsb' 24 4
  if subop = Config.opcodes.acquireMlock then .acquireMlock (fieldValue w)
  else if subop = Config.opcodes.releaseMlock then .releaseMlock (fieldValue w)
  else decodeUndefined w

/-- GATHER: bit 15 selects the form (R95, R204). -/
def decodeGather (w : Word) : Instr :=
  if w.getLsbD 15 then .gatherInsert (fieldOffset w) (w.extractLsb' 14 1) (w.extractLsb' 0 14)
  else .gatherInline (fieldOffset w) (w.extractLsb' 14 1) (w.extractLsb' 0 14)

/-- A word whose opcode names no instruction, by its opcode (R103). The last arm is opcode 13: the other
numbers are those of R92. -/
def decodeUnknown (w : Word) : Instr :=
  match (w.extractLsb' 28 4).toNat with
  | 7 => .unknown7 (fieldLow28 w)
  | 8 => .unknown8 (fieldLow28 w)
  | 9 => .unknown9 (fieldLow28 w)
  | 10 => .unknownA (fieldLow28 w)
  | 11 => .unknownB (fieldLow28 w)
  | 12 => .unknownC (fieldLow28 w)
  | _ => .unknownD (fieldLow28 w)

/-- `Decode(w)` (R204): the opcode, bits 31:28, selects by the number table (R92). -/
def decodeWord (w : Word) : Instr :=
  let opcode := w.extractLsb' 28 4
  if opcode = Config.opcodes.setclass then
    .setclass (fieldOffset w) (w.extractLsb' 6 10) (w.extractLsb' 0 6)
  else if opcode = Config.opcodes.incr then .incr (fieldOffset w) (fieldPayload w)
  else if opcode = Config.opcodes.nonincr then .nonincr (fieldOffset w) (fieldPayload w)
  else if opcode = Config.opcodes.mask then .mask (fieldOffset w) (fieldPayload w)
  else if opcode = Config.opcodes.imm then .imm (fieldOffset w) (fieldPayload w)
  else if opcode = Config.opcodes.restart then .restart (fieldLow28 w)
  else if opcode = Config.opcodes.gather then decodeGather w
  else if opcode = Config.opcodes.extend then decodeExtend w
  else if opcode = Config.opcodes.chdone then .chdone (fieldLow28 w)
  else decodeUnknown w

/-- The command word at the head of a list of bytes, with the bytes after it (20_memory.md R66,
30_encoding.md R90, R107). -/
def decode : List Byte → Except DecodeError (Instr × List Byte)
  | b0 :: b1 :: b2 :: b3 :: rest => .ok (decodeWord (wordOfBytes b0 b1 b2 b3), rest)
  | _ => .error .truncated

/-- The opcode word of an instruction: opcode, then the fields of its format from bit 27 down (R93
to R98, R109). -/
def encode : Instr → Word
  | .setclass offset classId bits => Config.opcodes.setclass ++ offset ++ classId ++ bits
  | .incr offset count => Config.opcodes.incr ++ offset ++ count
  | .nonincr offset count => Config.opcodes.nonincr ++ offset ++ count
  | .mask offset bits => Config.opcodes.mask ++ offset ++ bits
  | .imm offset immdata => Config.opcodes.imm ++ offset ++ immdata
  | .restart offset => Config.opcodes.restart ++ offset
  | .gatherInline offset inc count => Config.opcodes.gather ++ offset ++ 0#1 ++ inc ++ count
  | .gatherInsert offset inc count => Config.opcodes.gather ++ offset ++ 1#1 ++ inc ++ count
  | .unknown7 low => 0x7#4 ++ low
  | .unknown8 low => 0x8#4 ++ low
  | .unknown9 low => 0x9#4 ++ low
  | .unknownA low => 0xA#4 ++ low
  | .unknownB low => 0xB#4 ++ low
  | .unknownC low => 0xC#4 ++ low
  | .unknownD low => 0xD#4 ++ low
  | .acquireMlock value => Config.opcodes.extend ++ Config.opcodes.acquireMlock ++ value
  | .releaseMlock value => Config.opcodes.extend ++ Config.opcodes.releaseMlock ++ value
  | .extendUndef2 value => Config.opcodes.extend ++ 0x2#4 ++ value
  | .extendUndef3 value => Config.opcodes.extend ++ 0x3#4 ++ value
  | .extendUndef4 value => Config.opcodes.extend ++ 0x4#4 ++ value
  | .extendUndef5 value => Config.opcodes.extend ++ 0x5#4 ++ value
  | .extendUndef6 value => Config.opcodes.extend ++ 0x6#4 ++ value
  | .extendUndef7 value => Config.opcodes.extend ++ 0x7#4 ++ value
  | .extendUndef8 value => Config.opcodes.extend ++ 0x8#4 ++ value
  | .extendUndef9 value => Config.opcodes.extend ++ 0x9#4 ++ value
  | .extendUndefA value => Config.opcodes.extend ++ 0xA#4 ++ value
  | .extendUndefB value => Config.opcodes.extend ++ 0xB#4 ++ value
  | .extendUndefC value => Config.opcodes.extend ++ 0xC#4 ++ value
  | .extendUndefD value => Config.opcodes.extend ++ 0xD#4 ++ value
  | .extendUndefE value => Config.opcodes.extend ++ 0xE#4 ++ value
  | .extendUndefF value => Config.opcodes.extend ++ 0xF#4 ++ value
  | .chdone ignored => Config.opcodes.chdone ++ ignored

/-- The data words an instruction is followed by, if it is not cut short (R92, R102). -/
def dataWords : Instr → Nat
  | .setclass _ _ bits => ((List.range 6).filter bits.getLsbD).length
  | .incr _ count => count.toNat
  | .nonincr _ count => count.toNat
  | .mask _ bits => ((List.range 16).filter bits.getLsbD).length
  | .imm _ _ => 0
  | .restart _ => 0
  | .gatherInline _ _ _ => 1
  | .gatherInsert _ _ _ => 1
  | .unknown7 _ => 0
  | .unknown8 _ => 0
  | .unknown9 _ => 0
  | .unknownA _ => 0
  | .unknownB _ => 0
  | .unknownC _ => 0
  | .unknownD _ => 0
  | .acquireMlock _ => 0
  | .releaseMlock _ => 0
  | .extendUndef2 _ => 0
  | .extendUndef3 _ => 0
  | .extendUndef4 _ => 0
  | .extendUndef5 _ => 0
  | .extendUndef6 _ => 0
  | .extendUndef7 _ => 0
  | .extendUndef8 _ => 0
  | .extendUndef9 _ => 0
  | .extendUndefA _ => 0
  | .extendUndefB _ => 0
  | .extendUndefC _ => 0
  | .extendUndefD _ => 0
  | .extendUndefE _ => 0
  | .extendUndefF _ => 0
  | .chdone _ => 0

/-- The opcode field of the word of an assembly item (R92, R109). -/
def opcodeBits (opcode : BitVec 4) : Nat := opcode.toNat <<< 28

/-- The word of an assembly item, by the shifts and ors of R109. -/
def assembleBits : Asm → Word
  | .setclass classId bits offset =>
    .ofNat 32 (opcodeBits Config.opcodes.setclass ||| offset <<< 16 ||| classId <<< 6 ||| bits)
  | .incr offset count => .ofNat 32 (opcodeBits Config.opcodes.incr ||| offset <<< 16 ||| count)
  | .nonincr offset count =>
    .ofNat 32 (opcodeBits Config.opcodes.nonincr ||| offset <<< 16 ||| count)
  | .mask offset bits => .ofNat 32 (opcodeBits Config.opcodes.mask ||| offset <<< 16 ||| bits)
  | .imm offset immdata => .ofNat 32 (opcodeBits Config.opcodes.imm ||| offset <<< 16 ||| immdata)
  | .restart offset => .ofNat 32 (opcodeBits Config.opcodes.restart ||| offset)
  | .gather offset insert inc count =>
    .ofNat 32 (opcodeBits Config.opcodes.gather |||
      offset <<< 16 ||| insert <<< 15 ||| inc <<< 14 ||| count)
  | .acquireMlock id =>
    .ofNat 32 (opcodeBits Config.opcodes.extend ||| Config.opcodes.acquireMlock.toNat <<< 24 ||| id)
  | .releaseMlock id =>
    .ofNat 32 (opcodeBits Config.opcodes.extend ||| Config.opcodes.releaseMlock.toNat <<< 24 ||| id)
  | .extend subop value => .ofNat 32 (opcodeBits Config.opcodes.extend ||| subop <<< 24 ||| value)
  | .chdone => .ofNat 32 (opcodeBits Config.opcodes.chdone)
  | .word value => .ofNat 32 value

/-- The assembler (R108, R109): it refuses an item with a field value that does not fit. -/
def assemble (a : Asm) : Option Word := if a.wellFormed then some (assembleBits a) else none

/-- A program is a list of items (R108). -/
def assembleProgram (l : List Asm) : Option (List Word) := l.mapM assemble

/-- The mnemonic of an instruction, as spec/opcode_table.json spells it. -/
def mnemonic : Instr → String
  | .setclass _ _ _ => "SETCLASS"
  | .incr _ _ => "INCR"
  | .nonincr _ _ => "NONINCR"
  | .mask _ _ => "MASK"
  | .imm _ _ => "IMM"
  | .restart _ => "RESTART"
  | .gatherInline _ _ _ => "GATHER.inline"
  | .gatherInsert _ _ _ => "GATHER.insert"
  | .unknown7 _ => "UNKNOWN_7"
  | .unknown8 _ => "UNKNOWN_8"
  | .unknown9 _ => "UNKNOWN_9"
  | .unknownA _ => "UNKNOWN_A"
  | .unknownB _ => "UNKNOWN_B"
  | .unknownC _ => "UNKNOWN_C"
  | .unknownD _ => "UNKNOWN_D"
  | .acquireMlock _ => "ACQUIRE_MLOCK"
  | .releaseMlock _ => "RELEASE_MLOCK"
  | .extendUndef2 _ => "EXTEND_UNDEF_2"
  | .extendUndef3 _ => "EXTEND_UNDEF_3"
  | .extendUndef4 _ => "EXTEND_UNDEF_4"
  | .extendUndef5 _ => "EXTEND_UNDEF_5"
  | .extendUndef6 _ => "EXTEND_UNDEF_6"
  | .extendUndef7 _ => "EXTEND_UNDEF_7"
  | .extendUndef8 _ => "EXTEND_UNDEF_8"
  | .extendUndef9 _ => "EXTEND_UNDEF_9"
  | .extendUndefA _ => "EXTEND_UNDEF_A"
  | .extendUndefB _ => "EXTEND_UNDEF_B"
  | .extendUndefC _ => "EXTEND_UNDEF_C"
  | .extendUndefD _ => "EXTEND_UNDEF_D"
  | .extendUndefE _ => "EXTEND_UNDEF_E"
  | .extendUndefF _ => "EXTEND_UNDEF_F"
  | .chdone _ => "CHDONE"

/-- A row of spec/opcode_table.json: its mask, its match, its mnemonic. -/
structure OpcodeRow where
  mask : Word
  pattern : Word
  name : String
  deriving DecidableEq, Repr

/-- The rows of spec/opcode_table.json, in its order: a transcription of its own, which statements hold
the decoder and its number table against. -/
def opcodeTable : List OpcodeRow :=
  [⟨0xF0000000, 0x00000000, "SETCLASS"⟩,
    ⟨0xF0000000, 0x10000000, "INCR"⟩,
    ⟨0xF0000000, 0x20000000, "NONINCR"⟩,
    ⟨0xF0000000, 0x30000000, "MASK"⟩,
    ⟨0xF0000000, 0x40000000, "IMM"⟩,
    ⟨0xF0000000, 0x50000000, "RESTART"⟩,
    ⟨0xF0008000, 0x60000000, "GATHER.inline"⟩,
    ⟨0xF0008000, 0x60008000, "GATHER.insert"⟩,
    ⟨0xF0000000, 0x70000000, "UNKNOWN_7"⟩,
    ⟨0xF0000000, 0x80000000, "UNKNOWN_8"⟩,
    ⟨0xF0000000, 0x90000000, "UNKNOWN_9"⟩,
    ⟨0xF0000000, 0xA0000000, "UNKNOWN_A"⟩,
    ⟨0xF0000000, 0xB0000000, "UNKNOWN_B"⟩,
    ⟨0xF0000000, 0xC0000000, "UNKNOWN_C"⟩,
    ⟨0xF0000000, 0xD0000000, "UNKNOWN_D"⟩,
    ⟨0xFF000000, 0xE0000000, "ACQUIRE_MLOCK"⟩] ++
  [⟨0xFF000000, 0xE1000000, "RELEASE_MLOCK"⟩,
    ⟨0xFF000000, 0xE2000000, "EXTEND_UNDEF_2"⟩,
    ⟨0xFF000000, 0xE3000000, "EXTEND_UNDEF_3"⟩,
    ⟨0xFF000000, 0xE4000000, "EXTEND_UNDEF_4"⟩,
    ⟨0xFF000000, 0xE5000000, "EXTEND_UNDEF_5"⟩,
    ⟨0xFF000000, 0xE6000000, "EXTEND_UNDEF_6"⟩,
    ⟨0xFF000000, 0xE7000000, "EXTEND_UNDEF_7"⟩,
    ⟨0xFF000000, 0xE8000000, "EXTEND_UNDEF_8"⟩,
    ⟨0xFF000000, 0xE9000000, "EXTEND_UNDEF_9"⟩,
    ⟨0xFF000000, 0xEA000000, "EXTEND_UNDEF_A"⟩,
    ⟨0xFF000000, 0xEB000000, "EXTEND_UNDEF_B"⟩,
    ⟨0xFF000000, 0xEC000000, "EXTEND_UNDEF_C"⟩,
    ⟨0xFF000000, 0xED000000, "EXTEND_UNDEF_D"⟩,
    ⟨0xFF000000, 0xEE000000, "EXTEND_UNDEF_E"⟩,
    ⟨0xFF000000, 0xEF000000, "EXTEND_UNDEF_F"⟩,
    ⟨0xF0000000, 0xF0000000, "CHDONE"⟩]

/-- The bytes of the low `nbits` bits of `w`, whole words of four bytes, the lowest address first;
bits above `nbits` are 0. -/
def tableBytes (nbits w : Nat) : List Byte := bytesOfWord (.ofNat 32 (w % 2 ^ min nbits 32))

/-- The instruction the decoder reads from an opcode-table row's bits `w` (bit 0 the least
significant), laid out as the DMA window holds them (20_memory.md R66). -/
def decodeTableWord (nbits w : Nat) : Option Instr :=
  match decode (tableBytes nbits w) with
  | .ok (i, _) => some i
  | .error _ => none

end Sys2Proof
end

