-- ==== Sys2Proof/Machine/State.lean ====
section
/-! DEFINITION. The state of the block as plain data (10_state.md R20 to R44), the reasons a step can
stop, and the state after subsystem init. -/

namespace Sys2Proof.Machine

/-- A `DmaGather` (R21, R24): a region of command words and the cursor into it. -/
structure Gather where
  /-- First word of the region. -/
  base : Ptr
  /-- Read cursor, relative to `base`: the program counter (R23). -/
  get : Ptr
  /-- Write-visible end, relative to `base`. -/
  put : Ptr
  /-- Whether this is an inlined gather. -/
  inlined : Bool
  deriving DecidableEq, Repr

/-- The tag of an inner gather (R24): executed as a nested stream, or written out as a burst from
register `off`. -/
inductive InnerKind where
  | inline
  | insert (off : Word) (incr : Bool)
  deriving DecidableEq, Repr

/-- The one-level recursion stack of a channel (R24). -/
structure Inner where
  g : Gather
  kind : InnerKind
  deriving DecidableEq, Repr

/-- The three waiter lists of a sync-point (R33). -/
inductive WaitList where
  | abs
  | rel
  | inc
  deriving DecidableEq, Repr

/-- A Waiter record (R28, 40_syncpt.md R129). -/
structure Waiter where
  threshold : Word
  baseId : Option (Fin 8)
  signalled : Bool
  /-- `where` of R28: the list that holds the record. -/
  place : Option (Fin 32 × WaitList)
  deriving DecidableEq, Repr

/-- The position of a worker inside an instruction (R30). -/
inductive Pos where
  | idle
  | burst (off : Word) (left : BitVec 16) (incr : Bool)
  | mask (off : Word) (bits : BitVec 16) (i : Nat)
  | gatherBase (offset : BitVec 12) (insert : Bool) (incr : Bool) (count : BitVec 14)
  | insertBurst
  | inAcquire (k : Fin 16)
  | inRelease (k : Fin 16)
  deriving DecidableEq, Repr

/-- The hold a handler's call stands in: a sync-point wait, the wait for the global section after it
(40_syncpt.md R130 step C), or a `push` on a full FIFO. `inWait` and `inPush` are the positions of those
names of R30. -/
inductive Phase where
  | inWait
  | reacquire
  | inPush
  deriving DecidableEq, Repr

/-- A module handler's call that holds its worker (42_fifo_registry.md R189): the requests still to be
performed once the hold ends, and the hold. -/
structure Call where
  reqs : List CoreReq
  phase : Phase
  deriving DecidableEq, Repr

/-- The four fatal conditions (60_exceptions.md R301). -/
inductive Cause where
  | unknownOpcode
  | unknownExtendSubop
  | nestedGather
  | endReached
  deriving DecidableEq, Repr

/-- The fault register's contents (R29). -/
structure FaultRec where
  cause : Cause
  info : Word
  deriving DecidableEq, Repr

/-- A command FIFO (R37). -/
structure Fifo where
  buf : Vector Word 32
  rd : BitVec 5
  wr : BitVec 5
  deriving DecidableEq, Repr

/-- The record `ch[c]` (R21 to R30, R37). -/
structure Channel where
  gather : Gather
  /-- `ch[c].end` (R21). -/
  endPtr : Ptr
  enabled : Bool
  start : Bool
  stopped : Bool
  running : Bool
  inner : Option Inner
  cur : Option (BitVec 10)
  waiter : Waiter
  fault : Option FaultRec
  pos : Pos
  call : Option Call
  fifo : Fifo
  deriving DecidableEq, Repr

/-- A sync-point (R32) and its waiter lists (R33). -/
structure SyncPoint where
  counter : Word
  threshold : BitVec 16
  wAbs : List AgentId
  wRel : List AgentId
  wInc : List AgentId
  deriving DecidableEq, Repr

/-- A mutex slot (R35). -/
structure Mlock where
  channelOwns : Bool
  cpuOwns : Bool
  /-- `owner_channel_id`. -/
  owner : BitVec 4
  deriving DecidableEq, Repr

/-- The IRQ router's registers (R36). -/
structure Irq where
  dest : Vector Word 2
  pending : Vector Word 2
  line : Vector Bool 2
  deriving DecidableEq, Repr

/-- The diagnostic counters (R40). -/
structure Diag where
  droppedWrites : Word
  foreignRelease : Word
  deriving DecidableEq, Repr

/-- The hold a host context stands in (R9): none, a sync-point wait with the requests of the handler
that asked for it still to be performed (none for a wait the context issued itself), step 2 of
`control(stop=true)` (48_cdma.md R281), a blocking `pop` (R182) or a `push` on a full FIFO (R181). -/
inductive HostJob where
  | idle
  | inWait (reqs : List CoreReq)
  | inControl (c : Chan) (resetGet initGetFromPut : Bool)
  | inPop (c : Chan)
  | inPush (c : Chan) (value : Word)
  deriving DecidableEq, Repr

/-- A host context: its own Waiter record (40_syncpt.md R129) and what it is doing. -/
structure HostCtx where
  waiter : Waiter
  job : HostJob
  deriving DecidableEq, Repr

/-- What an operation returns. -/
inductive Reply where
  /-- The operation has returned and carries no value. -/
  | done
  | word (v : Word)
  | flag (b : Bool)
  | mutex (channelOwns cpuOwns : Bool) (owner : BitVec 4)
  | found (m : Option Module)
  deriving DecidableEq, Repr

/-- What crosses the boundary of the block (00_scope.md R6): a module write by the worker or host
context `a`; a module read by the host; the raise and lower callbacks of the line of CPU `p`
(60_exceptions.md R316); the diagnostic record of a dropped write (R309); what an operation returned
to the host context that issued it, and the value a handler's request returned, if it carries one. -/
inductive Output where
  | modWrite (a : AgentId) (classId : BitVec 16) (off value : Word)
  | modRead (a : AgentId) (classId : BitVec 16) (off value : Word)
  | irqRaise (p : Fin 2)
  | irqLower (p : Fin 2)
  | droppedWrite (a : AgentId) (off value : Word)
  | reply (a : AgentId) (r : Reply)
  deriving DecidableEq, Repr

/-- The DMA window: bytes by byte address, in the canonical form of `Memory.wf`. -/
abbrev Memory := List Host.Cell

/-- The machine. The fields up to `diag` are the block's (R20); `mem`, `cfg` and `hosts` are the
parameters and agents around it (R8, R9); `active`, `agenda`, `out` and `fresh` are the model's own
(assumption logs 4, 5, 6, 13). -/
structure State where
  chs : Vector Channel 8
  sps : Vector SyncPoint 32
  bases : Vector Word 8
  mls : Vector Mlock 16
  irq : Irq
  /-- The module registry (R38), in order of registration. -/
  registry : List Module
  /-- `interp_owner` (R39). -/
  owner : Option Chan
  diag : Diag
  mem : Memory
  cfg : Config
  /-- The host contexts that are not at rest, numbers strictly rising. -/
  hosts : List (Nat × HostCtx)
  /-- The channel whose worker takes the step. -/
  active : Chan
  /-- The events still to happen, the next one first. -/
  agenda : List Event
  /-- What crossed the boundary so far, the last one first. -/
  out : List Output
  /-- The argument of the next free value. -/
  fresh : Nat
  deriving DecidableEq, Repr

/-- Why the machine stops with a fault: no reason. Each fatal condition of 60_exceptions.md is recorded in
`ch[c].fault` and the machine goes on (R303, assumption log 19), and a situation without a meaning is
refused (00_scope.md R13). -/
inductive Fault where
  deriving DecidableEq, Repr

/-- Why the spec gives a step no meaning (00_scope.md R13, `refuse`). Each is safe: nothing is proved
about what follows. -/
inductive Refusal where
  /-- Raised by `exec` for an instruction without a meaning. -/
  | notModelled (mnemonic : String)
  /-- Raised by the fetch of a word of which some byte is not in the memory (20_memory.md R62: "a read
  the launch memory of the model does not admit has no meaning", 93 U9; assumption log 3). -/
  | memoryNotAdmitted (addr : Nat)
  /-- Raised by a module write whose offset exceeds 0xFFF (R188, R226, 93 U4). -/
  | offsetBeyond12 (off : Word)
  /-- Raised by an operation with an identifier out of range (R141, R167, R275, 93 U6). -/
  | badIdentifier (id : Nat)
  /-- Raised by `unlock_waiter` on a record in no list (R135, 93 U5). -/
  | waiterNotEnqueued
  /-- Raised by `unlock_waiter` and `unlock_waiter_forced` on an enqueued record of a channel that is not
  disabled (R137: "the only cancellation path is the channel-disable path"; assumption log 34). -/
  | cancelWithoutStop
  /-- Raised by `pop_nonempty` on an empty FIFO (R183, 93 U7). -/
  | popEmpty
  /-- Raised by the registration of a class id already registered (R185, 93 U8). -/
  | duplicateClass (classId : BitVec 16)
  /-- Raised by a registration while a worker runs, whose lookup it could meet (R77, 93 U10). -/
  | registerWhileRunning
  /-- Raised by a module read of an unregistered class (R190, 93 U11). -/
  | readUnregistered (classId : BitVec 16)
  /-- Raised by a `control` on a channel that another `control` holds on (R281, 93 U12). -/
  | controlOverlap
  /-- Raised by subsystem reset while a host context is held (R343, 93 U1). -/
  | resetDuringHold
  /-- Raised by `cdma.init` on a channel that is not in the reset state (R275; assumption log 16). -/
  | initAfterUse
  /-- Raised by an operation of a host context that is held in an earlier one (R129: "One context has
  at most one wait in progress"; assumption log 10). -/
  | contextBusy
  /-- Raised by a push requested by a handler that the host called: R189 gives the push for a worker's
  own channel only (assumption log 11). -/
  | hostHandlerPush
  deriving DecidableEq, Repr

/-- The outcome of a step. -/
abbrev Res := Host.Outcome State Fault Refusal

/-- The reset value of a Waiter record (R44). -/
def Waiter.reset : Waiter := ⟨0, none, false, none⟩

/-- The reset value of `ch[c]` (R44); the FIFO's storage, unspecified there, is 0 (assumption log
12). -/
def Channel.reset : Channel where
  gather := ⟨0, 0, 0, false⟩
  endPtr := 0
  enabled := false
  start := false
  stopped := true
  running := false
  inner := none
  cur := none
  waiter := Waiter.reset
  fault := none
  pos := .idle
  call := none
  fifo := ⟨Vector.replicate 32 0, 0, 0⟩

/-- A host context at rest. -/
def HostCtx.rest : HostCtx := ⟨Waiter.reset, .idle⟩

/-- The block after subsystem init (R44, 70_reset_and_hazards.md R340, R341), the DMA window empty
and nothing on the agenda (assumption log 13). -/
def State.reset : State where
  chs := Vector.replicate 8 Channel.reset
  sps := Vector.replicate 32 ⟨0, 0, [], [], []⟩
  bases := Vector.replicate 8 0
  mls := Vector.replicate 16 ⟨false, false, 0⟩
  irq := ⟨Vector.replicate 2 0, Vector.replicate 2 0, Vector.replicate 2 false⟩
  registry := []
  owner := none
  diag := ⟨0, 0⟩
  mem := []
  cfg := Config.default
  hosts := []
  active := 0
  agenda := []
  out := []
  fresh := 0

end Sys2Proof.Machine
end

