-- ==== Sys2Proof/Machine/Flags.lean ====
section
/-! DEFINITION. The block has no flags and no condition codes (10_state.md R31). Here stand the
conditions its rules compute instead: the threshold comparison (40_syncpt.md R121), the stop condition
(43_interpreter_loop.md R202), a FIFO's empty and full (10_state.md R37), the level of an IRQ line
(60_exceptions.md R316), the fault signal (R304), the run condition (48_cdma.md R280), and the hold
conditions of the mutex operations (41_mlock.md R164, R165). -/

namespace Sys2Proof.Machine

/-- `reached16(cnt, thr)` (R121), the source's formula. -/
def reached16 (cnt : Word) (thr : BitVec 16) : Bool :=
  let diff := thr - cnt.setWidth 16
  let overflow := diff.getLsbD 15
  let isZero := diff.setWidth 15 == 0
  (overflow && !isZero) || (!overflow && isZero)

/-- What the stop condition answers (R202). -/
inductive Verdict where
  | fatal
  | stop
  | go
  deriving DecidableEq, Repr

/-- `Stopped(c, g)` (R202): disabled, then drained, then the end boundary of an outer gather. -/
def stopped (x : Channel) (g : Gather) : Verdict :=
  if !x.enabled then .stop
  else if g.get = g.put then .stop
  else if !g.inlined && g.get = x.endPtr then .fatal
  else .go

/-- R37: empty is `rd == wr`. -/
def Fifo.empty (f : Fifo) : Bool := f.rd == f.wr

/-- R37: full is `(wr + 1) mod 32 == rd`. -/
def Fifo.full (f : Fifo) : Bool := f.wr + 1 == f.rd

/-- R37: the number of entries held is `(wr - rd) mod 32`. -/
def Fifo.held (f : Fifo) : Nat := (f.wr - f.rd).toNat

/-- `fault_out[c]` (R304). -/
def Channel.faultOut (x : Channel) : Bool := x.fault.isSome

/-- The condition of `run(c)` (R280). -/
def Channel.runnable (x : Channel) : Bool :=
  x.enabled && x.gather.get != x.gather.put && !x.running && !x.start && x.fault.isNone

/-- The hold condition of `channel_acquire` (R164). -/
def acquireHolds (m : Mlock) (enabled : Bool) : Bool := (m.cpuOwns || m.channelOwns) && enabled

/-- Another channel than `c` owns the slot (R165). -/
def foreignOwned (m : Mlock) (c : Chan) : Bool := m.channelOwns && m.owner != BitVec.ofNat 4 c

/-- The hold condition of `channel_release` (R165). -/
def releaseHolds (m : Mlock) (c : Chan) (enabled : Bool) : Bool :=
  enabled && (m.cpuOwns || foreignOwned m c)

/-- The code of a fault cause (R301). -/
def Cause.code : Cause → Nat
  | .unknownOpcode => 1
  | .unknownExtendSubop => 2
  | .nestedGather => 3
  | .endReached => 4

/-- The level of a line: the OR of its CPU's pending bits (R316). -/
def lineLevel (pending : Word) : Bool := pending != 0

/-- The states of a channel (48_cdma.md R276). -/
inductive ChannelState where
  | disabled
  | idle
  | running
  | stopping
  | faulted
  deriving DecidableEq, Repr

/-- R276: the state of a channel in terms of its bits. -/
def Channel.state (x : Channel) : ChannelState :=
  if x.faultOut then .faulted
  else match x.enabled, x.running with
    | false, false => .disabled
    | true, false => .idle
    | true, true => .running
    | false, true => .stopping

end Sys2Proof.Machine
end

