-- ==== Sys2Proof/Machine/Operands.lean ====
section
/-! DEFINITION. Every form an operand takes (30_encoding.md R99 to R101): module register offsets and
values, byte addresses as word pointers, the RESTART target, the mutex slot of EXTEND, the bits of a
mask, and identifiers (40_syncpt.md R141). -/

namespace Sys2Proof.Machine

/-- A 12-bit offset field as a module register offset, zero-extended and unscaled (R99). -/
def offsetOperand (offset : BitVec 12) : Word := offset.setWidth 32

/-- The literal of IMM, zero-extended (R99, R225). -/
def immOperand (immdata : BitVec 16) : Word := immdata.setWidth 32

/-- A class id field as a registry class id, zero-extended (R99). -/
def classOperand (classId : BitVec 10) : BitVec 16 := classId.setWidth 16

/-- The mask of SETCLASS as a MASK mask (R221). -/
def setclassMask (mask : BitVec 6) : BitVec 16 := mask.setWidth 16

/-- The `incr` bit. -/
def incrOperand (incr : BitVec 1) : Bool := incr == 1

/-- A 32-bit byte address or byte offset as a word pointer: bits 31:2, bits 1:0 dropped (R67, R101,
48_cdma.md R277). -/
def ptrOfByteAddr (v : Word) : Ptr := v.extractLsb' 2 30

/-- The new `get` of RESTART: `(zext_30(offset) << RESTART_SHIFT) mod 2^30` (R99, R265). -/
def restartTarget (shift : Nat) (offset : BitVec 28) : Ptr := offset.setWidth 30 <<< shift

/-- The mutex slot of ACQUIRE_MLOCK and RELEASE_MLOCK: `value[3:0]` (R96, R255). -/
def lockOperand (value : BitVec 24) : Fin 16 := (value.extractLsb' 0 4).toFin

/-- The `put` of a new gather: its word count (R241). -/
def countOperand (count : BitVec 14) : Ptr := count.setWidth 30

/-- The amount a burst's register offset grows per word (R222, R243). -/
def incrStep (incr : Bool) : Word := if incr then 1 else 0

/-- The smallest index at or above `i` whose bit is set in `bits`, if any (R224). -/
def nextBit (bits : BitVec 16) (i : Nat) : Option Nat :=
  (List.range 16).find? fun j => i ≤ j && bits.getLsbD j

/-- An identifier in range (R141, R167, R275). -/
def checkId (n id : Nat) : Option (Fin n) := if h : id < n then some ⟨id, h⟩ else none

end Sys2Proof.Machine
end

