-- ==== Sys2Proof/Machine/Ops.lean ====
section
/-! DEFINITION. The named operations over the memory and the registers that every rule is written
over: sparse maps, the DMA window (20_memory.md), access to each register file, the global interpreter
section (43_interpreter_loop.md R201, R206), raising a fault (60_exceptions.md R303) and beside it the
one thing that clears it, subsystem reset (R307, 70_reset_and_hazards.md R340), and fetching a word
(R203). -/

namespace Sys2Proof.Machine

/-! ### Sparse maps: lists of keys and values, the keys strictly rising -/

/-- The value at key `k`. -/
def sparseGet {α : Type} (k : Nat) : List (Nat × α) → Option α
  | [] => none
  | (j, x) :: rest => if j = k then some x else sparseGet k rest

/-- The map with `x` at key `k`. -/
def sparseSet {α : Type} (k : Nat) (x : α) : List (Nat × α) → List (Nat × α)
  | [] => [(k, x)]
  | (j, y) :: rest =>
    if k < j then (k, x) :: (j, y) :: rest
    else if k = j then (k, x) :: rest
    else (j, y) :: sparseSet k x rest

/-- The map without key `k`. -/
def sparseErase {α : Type} (k : Nat) : List (Nat × α) → List (Nat × α)
  | [] => []
  | (j, y) :: rest => if j = k then sparseErase k rest else (j, y) :: sparseErase k rest

/-- All keys are above `k`, strictly rising. -/
def risingFrom {α : Type} (k : Nat) : List (Nat × α) → Bool
  | [] => true
  | (j, _) :: rest => k ≤ j && risingFrom (j + 1) rest

/-! ### The DMA window -/

/-- What an address that is not listed reads as: nothing (R62: a read the memory does not admit has no
meaning; assumption log 3). -/
def Memory.unlisted : Option Byte := none

/-- The canonical form: addresses strictly rising and below 2^32, no entry equal to what an unlisted
address reads as. -/
def Memory.wf (m : Memory) : Bool :=
  risingFrom 0 m && m.all fun e => decide (e.1 < 2 ^ 32) && decide (some e.2 ≠ Memory.unlisted)

/-- The byte at a byte address. -/
def Memory.read (m : Memory) (a : BitVec 32) : Option Byte :=
  match sparseGet a.toNat m with
  | some b => some b
  | none => Memory.unlisted

/-- A byte stored at a byte address, by the owner of the window (R61). -/
def Memory.write (m : Memory) (a : BitVec 32) (b : Byte) : Memory :=
  if some b = Memory.unlisted then sparseErase a.toNat m else sparseSet a.toNat b m

/-- Bytes stored at consecutive addresses from `a` up. -/
def Memory.writeBytes (m : Memory) (a : BitVec 32) : List Byte → Memory
  | [] => m
  | b :: rest => Memory.writeBytes (m.write a b) (a + 1) rest

/-- The byte address of a word index: `wi * 4` (R63). -/
def byteAddr (wi : Ptr) : BitVec 32 := wi ++ 0#2

/-- `MemRead(wi * 4, 4)` (R62, R66): the four bytes of one moment, little-endian. -/
def Memory.readWord (m : Memory) (wi : Ptr) : Option Word :=
  let a := byteAddr wi
  match m.read a, m.read (a + 1), m.read (a + 2), m.read (a + 3) with
  | some b0, some b1, some b2, some b3 => some (wordOfBytes b0 b1 b2 b3)
  | _, _, _, _ => none

/-! ### Register files -/

/-- `ch[c]`. -/
def State.ch (s : State) (c : Chan) : Channel := s.chs[c]

/-- `ch[c] <- x`. -/
def State.setCh (s : State) (c : Chan) (x : Channel) : State := { s with chs := s.chs.set c x }

/-- `sp[i]`. -/
def State.sp (s : State) (i : Fin 32) : SyncPoint := s.sps[i]

/-- `sp[i] <- x`. -/
def State.setSp (s : State) (i : Fin 32) (x : SyncPoint) : State := { s with sps := s.sps.set i x }

/-- `spbase[j]`. -/
def State.base (s : State) (j : Fin 8) : Word := s.bases[j]

/-- `spbase[j] <- v`. -/
def State.setBase (s : State) (j : Fin 8) (v : Word) : State := { s with bases := s.bases.set j v }

/-- `ml[k]`. -/
def State.ml (s : State) (k : Fin 16) : Mlock := s.mls[k]

/-- `ml[k] <- x`. -/
def State.setMl (s : State) (k : Fin 16) (x : Mlock) : State := { s with mls := s.mls.set k x }

/-- `irq.dest[p]`. -/
def State.dest (s : State) (p : Fin 2) : Word := s.irq.dest[p]

/-- `irq.pending[p]`. -/
def State.pending (s : State) (p : Fin 2) : Word := s.irq.pending[p]

/-- `irq.line[p]`. -/
def State.line (s : State) (p : Fin 2) : Bool := s.irq.line[p]

/-- `irq.dest[p] <- v`. -/
def State.setDest (s : State) (p : Fin 2) (v : Word) : State :=
  { s with irq := { s.irq with dest := s.irq.dest.set p v } }

/-- `irq.pending[p] <- v`. -/
def State.setPending (s : State) (p : Fin 2) (v : Word) : State :=
  { s with irq := { s.irq with pending := s.irq.pending.set p v } }

/-- `irq.line[p] <- b`. -/
def State.setLine (s : State) (p : Fin 2) (b : Bool) : State :=
  { s with irq := { s.irq with line := s.irq.line.set p b } }

/-- `interp_owner <- o`. -/
def State.setOwner (s : State) (o : Option Chan) : State := { s with owner := o }

/-- Host context `h` (at rest if not listed). -/
def State.ctx (s : State) (h : Nat) : HostCtx := (sparseGet h s.hosts).getD HostCtx.rest

/-- Host context `h` becomes `x`; a context at rest is not listed. -/
def State.setCtx (s : State) (h : Nat) (x : HostCtx) : State :=
  { s with hosts := if x = HostCtx.rest then sparseErase h s.hosts else sparseSet h x s.hosts }

/-- Something crosses the boundary of the block (00_scope.md R6). -/
def State.emit (s : State) (o : Output) : State := { s with out := o :: s.out }

/-- The channel whose worker takes the step is `c`. -/
def State.setActive (s : State) (c : Chan) : State := { s with active := c }

/-- The events still to happen are `l`. -/
def State.setAgenda (s : State) (l : List Event) : State := { s with agenda := l }

/-- `diag <- d`. -/
def State.setDiag (s : State) (d : Diag) : State := { s with diag := d }

/-- The DMA window holds `m`. -/
def State.setMem (s : State) (m : Memory) : State := { s with mem := m }

/-- `registry <- l`. -/
def State.setRegistry (s : State) (l : List Module) : State := { s with registry := l }

/-- A free value has been read. -/
def State.bumpFresh (s : State) : State := { s with fresh := s.fresh + 1 }

/-- The Waiter record of an agent (40_syncpt.md R129). -/
def State.waiter (s : State) : AgentId → Waiter
  | .worker c => (s.ch c).waiter
  | .ctx h => (s.ctx h).waiter

/-- The Waiter record of an agent becomes `w`. -/
def State.setWaiter (s : State) (a : AgentId) (w : Waiter) : State :=
  match a with
  | .worker c => s.setCh c { s.ch c with waiter := w }
  | .ctx h => s.setCtx h { s.ctx h with waiter := w }

/-! ### The global interpreter section and the end of an instruction -/

/-- `Release(c)` (43_interpreter_loop.md R201). -/
def release (c : Chan) (s : State) : State := if s.owner = some c then s.setOwner none else s

/-- `EndInstr(c)` (R201): under `SECTION_GRANULARITY = run` the section is kept. -/
def endInstr (c : Chan) (s : State) : State :=
  match s.cfg.granularity with
  | .instruction => release c s
  | .run => s

/-- `ch[c].pos <- p` (10_state.md R30). -/
def setPos (c : Chan) (p : Pos) (s : State) : State := s.setCh c { s.ch c with pos := p }

/-- An instruction is complete or abandoned (R201, R205): the worker is between instructions and the
section is given up under `instruction` granularity. -/
def complete (c : Chan) (s : State) : State := endInstr c (setPos c .idle s)

/-! ### Faults and reset -/

/-- `raise Fault(c, cause, info)` (60_exceptions.md R303): the one way a fatal condition is taken. -/
def raiseFault (c : Chan) (cause : Cause) (info : Word) (s : State) : State :=
  let t := release c s
  t.setCh c
    { t.ch c with
      fault := some ⟨cause, info⟩
      inner := none
      pos := .idle
      call := none
      running := false
      stopped := true }

/-- Subsystem reset (70_reset_and_hazards.md R340 (b), R341, R342): every element of the block but the
registry is put into its reset state. There is no return from a fault; this alone clears one (R307).
The memory, the configuration and the host are outside the block (assumption log 20). -/
def subsystemReset (s : State) : State :=
  { State.reset with
    registry := s.registry
    mem := s.mem
    cfg := s.cfg
    hosts := s.hosts
    active := s.active
    agenda := s.agenda
    out := s.out
    fresh := s.fresh }

/-! ### Fetching -/

/-- Which gather of a channel is read. -/
inductive Reader where
  | outer
  | inner
  deriving DecidableEq, Repr

/-- The gather the interpreter works on (43_interpreter_loop.md R200): the inner one if it is present
and executed inline, else the outer one. -/
def Channel.reader (x : Channel) : Reader :=
  match x.inner with
  | some ⟨_, .inline⟩ => .inner
  | _ => .outer

/-- The gather read through `r`. -/
def Channel.view (x : Channel) (r : Reader) : Gather :=
  match r, x.inner with
  | .inner, some y => y.g
  | _, _ => x.gather

/-- The cursor after one word: `get <- (get + 1) mod 2^30` (10_state.md R23, R203). -/
def Gather.next (g : Gather) : Gather := { g with get := g.get + 1 }

/-- The channel after one word was read through `r`. -/
def Channel.advance (x : Channel) (r : Reader) : Channel :=
  match r, x.inner with
  | .inner, some y => { x with inner := some { y with g := y.g.next } }
  | _, _ => { x with gather := x.gather.next }

/-- The word index a gather reads next: `(base + get) mod 2^30` (20_memory.md R63). -/
def Gather.wordIndex (g : Gather) : Ptr := g.base + g.get

/-- `Fetch(c, g)` (R203): read one word and advance; none if the memory does not admit the read. -/
def fetch (c : Chan) (r : Reader) (s : State) : Option (Word × State) :=
  match s.mem.readWord ((s.ch c).view r).wordIndex with
  | some w => some (w, s.setCh c ((s.ch c).advance r))
  | none => none

/-- The outcome of a fetch the memory does not admit (R62, 93 U9; assumption log 3). -/
def fetchRefused (c : Chan) (r : Reader) (s : State) : Res :=
  .refused (.memoryNotAdmitted (byteAddr ((s.ch c).view r).wordIndex).toNat)

/-! ### Identifiers -/

/-- An operation on an identified element; an identifier out of range has no meaning (40_syncpt.md
R141, 41_mlock.md R167, 48_cdma.md R275). -/
def withId (n id : Nat) (k : Fin n → Res) : Res :=
  match checkId n id with
  | some i => k i
  | none => .refused (.badIdentifier id)

/-- An operation returns `r` to agent `a`. -/
def returns (a : AgentId) (r : Reply) (s : State) : Res := .next (s.emit (.reply a r))

end Sys2Proof.Machine
end

