-- ==== Sys2Proof/Machine/Sync.lean ====
section
/-! DEFINITION. The IRQ router (60_exceptions.md R313 to R316), the sync-point store, the waiter
mechanism and the sync-point bases (40_syncpt.md). -/

namespace Sys2Proof.Machine

/-! ### The IRQ router -/

/-- `UpdateLines()` for one CPU (R316): the callback is invoked once, on a change. -/
def updateLine (p : Fin 2) (s : State) : State :=
  let level := lineLevel (s.pending p)
  if level = s.line p then s
  else (s.setLine p level).emit (if level then .irqRaise p else .irqLower p)

/-- `UpdateLines()` (R316). Where both lines change in one step, line 0's callback is recorded before line
1's: R316 gives no order (91_not_in_source.md N6), and the order is the model's DESIGN CHOICE (assumption
log 32). -/
def updateLines (s : State) : State := updateLine 1 (updateLine 0 s)

/-- `threshold_crossed(id)` (40_syncpt.md R128). -/
def thresholdCrossed (i : Fin 32) (s : State) : Bool :=
  reached16 (s.sp i).counter (s.sp i).threshold

/-- The pending bits of CPU `p` after sync-point `i` is latched, if it is routed there (R313). -/
def latched (i : Fin 32) (p : Fin 2) (s : State) : Word :=
  s.pending p ||| (s.dest p &&& 1 <<< i.val)

/-- `IrqLatch(id)` (R313). -/
def irqLatch (i : Fin 32) (s : State) : State :=
  updateLines
    (if thresholdCrossed i s then
      (s.setPending 0 (latched i 0 s)).setPending 1 (latched i 1 s)
    else s)

/-- `irq_set_dest(p, mask)` (R314). -/
def irqSetDest (p : Fin 2) (mask : Word) (s : State) : State := s.setDest p mask

/-- `irq_clear_status(p, mask)` (R315). -/
def irqClearStatus (p : Fin 2) (mask : Word) (s : State) : State :=
  updateLines (s.setPending p (s.pending p &&& ~~~mask))

/-! ### Waiters -/

/-- The waiter list of a sync-point (10_state.md R33). -/
def SyncPoint.list (x : SyncPoint) : WaitList → List AgentId
  | .abs => x.wAbs
  | .rel => x.wRel
  | .inc => x.wInc

/-- A waiter list of a sync-point becomes `l`. -/
def SyncPoint.setList (x : SyncPoint) (k : WaitList) (l : List AgentId) : SyncPoint :=
  match k with
  | .abs => { x with wAbs := l }
  | .rel => { x with wRel := l }
  | .inc => { x with wInc := l }

/-- The record of agent `a` leaves a waiter list. -/
def unlist (a : AgentId) (i : Fin 32) (k : WaitList) (s : State) : State :=
  s.setSp i ((s.sp i).setList k (((s.sp i).list k).filter (· ≠ a)))

/-- `Wake(w)` (R127) of the record of agent `a`. -/
def wake (a : AgentId) (s : State) : State :=
  let t := match (s.waiter a).place with
    | some (i, k) => unlist a i k s
    | none => s
  t.setWaiter a { t.waiter a with place := none, signalled := true }

/-- The threshold a record is judged against (R127, R132): for a base-relative one, the sum with the
value its base holds now. -/
def effectiveThreshold (w : Waiter) (s : State) : BitVec 16 :=
  match w.baseId with
  | some j => (s.base j + w.threshold).setWidth 16
  | none => w.threshold.setWidth 16

/-- Whether sync-point `i` satisfies the record of agent `a` (R127). -/
def satisfied (i : Fin 32) (s : State) (a : AgentId) : Bool :=
  reached16 (s.sp i).counter (effectiveThreshold (s.waiter a) s)

/-- Wake every agent of a list that passes a test. -/
def wakeWhere (test : State → AgentId → Bool) (l : List AgentId) (s : State) : State :=
  l.foldl (fun s a => if test s a then wake a s else s) s

/-- `Reevaluate(id, incremented)` (R127). -/
def reevaluate (i : Fin 32) (incremented : Bool) (s : State) : State :=
  let s1 := irqLatch i s
  let s2 := wakeWhere (satisfied i) (s1.sp i).wAbs s1
  let s3 := wakeWhere (satisfied i) (s2.sp i).wRel s2
  if incremented then wakeWhere (fun _ _ => true) (s3.sp i).wInc s3 else s3

/-- The lists of a sync-point hold the record of agent `a`. -/
def SyncPoint.holds (x : SyncPoint) (a : AgentId) : Bool :=
  x.wAbs.contains a || x.wRel.contains a || x.wInc.contains a

/-- `unlock_waiter_forced(w)` (R136): a scan of every list of every sync-point, in one step. -/
def unlockForced (a : AgentId) (s : State) : State :=
  if (List.finRange 32).any fun i => (s.sp i).holds a then wake a s else s

/-- Step A of a wait that is not satisfied (R130): the record is enqueued and a worker gives the global
section up. -/
def enqueue (a : AgentId) (i : Fin 32) (k : WaitList) (threshold : Word) (baseId : Option (Fin 8))
    (s : State) : State :=
  let t := s.setWaiter a ⟨threshold, baseId, false, some (i, k)⟩
  let u := t.setSp i ((t.sp i).setList k (a :: (t.sp i).list k))
  match a with
  | .worker c => release c u
  | .ctx _ => u

/-! ### The operations -/

/-- `syncpt.increment(id)` (R122). -/
def syncIncrement (i : Fin 32) (s : State) : State :=
  reevaluate i true (s.setSp i { s.sp i with counter := (s.sp i).counter + 1 })

/-- `syncpt.set_counter(id, value)` (R123). -/
def syncSetCounter (i : Fin 32) (value : Word) (s : State) : State :=
  reevaluate i false (s.setSp i { s.sp i with counter := value })

/-- `syncpt.set_threshold(id, value)` (R125): the value is truncated to 16 bits. -/
def syncSetThreshold (i : Fin 32) (value : Word) (s : State) : State :=
  reevaluate i false (s.setSp i { s.sp i with threshold := value.setWidth 16 })

/-- What an operation of 40_syncpt.md does: it returns a value, holds its caller in a wait (R130 step
B), or has no meaning. -/
inductive SyncResult where
  | returned (s : State) (r : Reply)
  | held (s : State)
  | refused (r : Refusal)

/-- An operation on an identified element of the store (R141). -/
def withSyncId (n id : Nat) (k : Fin n → SyncResult) : SyncResult :=
  match checkId n id with
  | some i => k i
  | none => .refused (.badIdentifier id)

/-- Step A of a wait (R130): return at once if satisfied, else enqueue and hold. -/
def waitStepA (a : AgentId) (i : Fin 32) (k : WaitList) (threshold : Word)
    (baseId : Option (Fin 8)) (satisfiedNow : Bool) (s : State) : SyncResult :=
  if satisfiedNow then .returned s .done else .held (enqueue a i k threshold baseId s)

/-- An operation of the sync-point store issued by agent `a` (R122 to R133, R138 to R140). -/
def syncOp (a : AgentId) (s : State) : SyncReq → SyncResult
  | .increment id => withSyncId 32 id fun i => .returned (syncIncrement i s) .done
  | .setCounter id value => withSyncId 32 id fun i => .returned (syncSetCounter i value s) .done
  | .getCounter id => withSyncId 32 id fun i => .returned s (.word (s.sp i).counter)
  | .setThreshold id value => withSyncId 32 id fun i => .returned (syncSetThreshold i value s) .done
  | .getThreshold id => withSyncId 32 id fun i => .returned s (.word ((s.sp i).threshold.setWidth 32))
  | .thresholdCrossed id => withSyncId 32 id fun i => .returned s (.flag (thresholdCrossed i s))
  | .wait id threshold => withSyncId 32 id fun i =>
    waitStepA a i .abs threshold none (reached16 (s.sp i).counter (threshold.setWidth 16)) s
  | .waitBaseRelative id baseId offset => withSyncId 32 id fun i => withSyncId 8 baseId fun j =>
    waitStepA a i .rel offset (some j)
      (reached16 (s.sp i).counter ((s.base j + offset).setWidth 16)) s
  | .waitNextIncrement id => withSyncId 32 id fun i => waitStepA a i .inc 0 none false s
  | .baseSet baseId value => withSyncId 8 baseId fun j => .returned (s.setBase j value) .done
  | .baseIncrement baseId delta => withSyncId 8 baseId fun j =>
    .returned (s.setBase j (s.base j + delta)) .done
  | .baseGet baseId => withSyncId 8 baseId fun j => .returned s (.word (s.base j))

end Sys2Proof.Machine
end

