-- ==== Sys2Proof/Machine/Modules.lean ====
section
/-! DEFINITION. The command FIFO, the module registry, and a module write with what its handler asks
of the core (42_fifo_registry.md). -/

namespace Sys2Proof.Machine

/-! ### The command FIFO -/

/-- The storage slot an index names. -/
def fifoSlot (i : BitVec 5) : Fin 32 := i.toFin

/-- `push(f, v)` once it does not hold (R181). -/
def Fifo.push (f : Fifo) (v : Word) : Fifo :=
  { f with buf := f.buf.set (fifoSlot f.wr) v, wr := f.wr + 1 }

/-- The word `pop(f)` returns (R182). -/
def Fifo.front (f : Fifo) : Word := f.buf[fifoSlot f.rd]

/-- `pop(f)` once it does not hold (R182). -/
def Fifo.pop (f : Fifo) : Fifo := { f with rd := f.rd + 1 }

/-- The entries of a FIFO, the next to leave first (R184). -/
def Fifo.entries (f : Fifo) : List Word :=
  (List.range f.held).map fun n => f.buf[fifoSlot (f.rd + BitVec.ofNat 5 n)]

/-- `push(ch[c].fifo, v)`, not full. -/
def fifoPush (c : Chan) (v : Word) (s : State) : State :=
  s.setCh c { s.ch c with fifo := (s.ch c).fifo.push v }

/-- `pop(ch[c].fifo)`, not empty. -/
def fifoPop (c : Chan) (s : State) : State :=
  s.setCh c { s.ch c with fifo := (s.ch c).fifo.pop }

/-! ### The module registry -/

/-- `module_registry.lookup(class_id)` (R186). -/
def lookupModule (classId : BitVec 16) (s : State) : Option Module :=
  s.registry.find? fun m => m.classId == classId

/-- `module_registry.register` of a class not yet registered (R185). -/
def registerModule (m : Module) (s : State) : State := s.setRegistry (s.registry ++ [m])

/-- SETCLASS's selection (44_module_write_opcodes.md R221): the class if it is registered, else none. -/
def selectClass (c : Chan) (classId : BitVec 10) (s : State) : State :=
  s.setCh c
    { s.ch c with cur := if (lookupModule (classOperand classId) s).isSome then some classId else none }

/-- The current module of a channel (10_state.md R25). -/
def currentModule (c : Chan) (s : State) : Option Module :=
  match (s.ch c).cur with
  | some classId => lookupModule (classOperand classId) s
  | none => none

/-! ### Module writes -/

/-- The requests a write handler makes of the core (R189), a parameter of the model. -/
def handlerRequests (m : Module) (off value : Word) (n : Nat) : List CoreReq :=
  match m.write with
  | .table rules =>
    match rules.find? fun r => r.off == off && r.value == value with
    | some r => r.reqs
    | none => []
  | .platform id => Config.handlerRequests id m.context off value n

/-- The write reaches the module (00_scope.md R6); the free value of its handler has been read. -/
def moduleWritten (a : AgentId) (m : Module) (off value : Word) (s : State) : State :=
  (s.emit (.modWrite a m.classId off value)).bumpFresh

/-- A write with no module selected is logged, counted and dropped (R188, 60_exceptions.md R309). -/
def dropWrite (a : AgentId) (off value : Word) (s : State) : State :=
  (s.emit (.droppedWrite a off value)).setDiag
    { s.diag with droppedWrites := s.diag.droppedWrites + 1 }

/-- `ch[c].call <- k`. -/
def setCall (c : Chan) (k : Option Call) (s : State) : State := s.setCh c { s.ch c with call := k }

/-- `ch[c].inner <- y`. -/
def setInner (c : Chan) (y : Option Inner) (s : State) : State := s.setCh c { s.ch c with inner := y }

/-- What follows a module write once it is complete: IMM is complete (R225); a burst moves on to its
next offset and word (R222); a mask moves past the bit just written (R224); an inserted gather moves on,
and is dropped when all its words are read (45_gather.md R243). -/
def afterWrite (c : Chan) (s : State) : State :=
  match (s.ch c).pos with
  | .burst off left inc =>
    if left - 1 = 0 then complete c s else setPos c (.burst (off + incrStep inc) (left - 1) inc) s
  | .mask off bits i =>
    match nextBit bits (i + 1) with
    | none => complete c s
    | some _ => setPos c (.mask off bits (i + 1)) s
  | .insertBurst =>
    match (s.ch c).inner with
    | some ⟨g, .insert off inc⟩ =>
      if g.get = g.put then complete c (setInner c none s)
      else setInner c (some ⟨g, .insert (off + incrStep inc) inc⟩) s
    | _ => complete c s
  | _ => complete c s

/-! ### The requests of a handler -/

/-- The value a handler's request returned to its agent, if it carries one. -/
def answer (a : AgentId) (r : Reply) (s : State) : State :=
  match r with
  | .done => s
  | r => s.emit (.reply a r)

/-- How far the requests of a handler have come: all have returned; one of them holds its agent, and
`reqs` are to be performed when the hold ends; or one of them has no meaning. -/
inductive Ran where
  | returned (s : State)
  | held (reqs : List CoreReq) (phase : Phase) (s : State)
  | refused (r : Refusal)

/-- The requests of a handler, in order, in the context of agent `a` and inside the step that called it,
up to the first that holds (R189, 00_scope.md R9 (c); assumption log 9). A push is given for a worker's own
channel only (assumption log 11). -/
def runRequests (a : AgentId) : List CoreReq → State → Ran
  | [], s => .returned s
  | .sync r :: rest, s =>
    match syncOp a s r with
    | .returned t v => runRequests a rest (answer a v t)
    | .held t => .held rest .inWait t
    | .refused e => .refused e
  | .push v :: rest, s =>
    match a with
    | .worker c =>
      if (s.ch c).fifo.full then .held (.push v :: rest) .inPush s
      else runRequests a rest (fifoPush c v s)
    | .ctx _ => .refused .hostHandlerPush

/-- What follows the requests of a handler that worker `c` called (R189): the module write is complete, or
the worker holds. -/
def continueCall (c : Chan) (r : Ran) : Res :=
  match r with
  | .returned s => .next (afterWrite c s)
  | .held reqs phase s => .next (setCall c (some ⟨reqs, phase⟩) s)
  | .refused e => .refused e

/-- The hold of worker `c` has ended: the requests left are performed (R189). -/
def resumeCall (c : Chan) (reqs : List CoreReq) (s : State) : Res :=
  continueCall c (runRequests (.worker c) reqs (setCall c none s))

/-- `ModWrite(c, off, v)` (R188) by the worker of channel `c`, with the requests of the handler (R189). -/
def modWrite (c : Chan) (off value : Word) (s : State) : Res :=
  if Config.maxOffset < off then .refused (.offsetBeyond12 off)
  else match currentModule c s with
    | none => .next (afterWrite c (dropWrite (.worker c) off value s))
    | some m =>
      continueCall c (runRequests (.worker c) (handlerRequests m off value s.fresh)
        (moduleWritten (.worker c) m off value s))

/-- The end of a sync-point wait of worker `c` that has been woken (40_syncpt.md R130 step C): it takes
the section back as soon as it is free. -/
def reacquire (c : Chan) (reqs : List CoreReq) (s : State) : Res :=
  match s.owner with
  | none => resumeCall c reqs (s.setOwner (some c))
  | some _ => .next (setCall c (some ⟨reqs, .reacquire⟩) s)

/-- A step of worker `c` in a hold of a module handler's call: the hold, or its end (40_syncpt.md R130
steps B and C, R181; assumption log 17). -/
def callStep (c : Chan) (k : Call) (s : State) : Res :=
  match k.phase with
  | .inWait =>
    if (s.ch c).waiter.signalled then
      reacquire c k.reqs (s.setWaiter (.worker c) { (s.ch c).waiter with signalled := false })
    else .next s
  | .reacquire => reacquire c k.reqs s
  | .inPush => resumeCall c k.reqs s

/-! ### The DATA step -/

/-- The recorded value of an `END_REACHED` fault: `get`, zero-extended (60_exceptions.md R301). -/
def endInfo (g : Gather) : Word := g.get.setWidth 32

/-- A DATA step on the gather `r` (43_interpreter_loop.md R205): fault at the end boundary, abandon the
instruction if stopped (`onStop`), else fetch one word and use it. -/
def dataStep (c : Chan) (r : Reader) (onStop : State) (use : Word → State → Res) (s : State) : Res :=
  match stopped (s.ch c) ((s.ch c).view r) with
  | .fatal => .next (raiseFault c .endReached (endInfo ((s.ch c).view r)) s)
  | .stop => .next onStop
  | .go =>
    match fetch c r s with
    | some (w, t) => use w t
    | none => fetchRefused c r s

end Sys2Proof.Machine
end

