-- ==== Sys2Proof/Machine/Control.lean ====
section
/-! DEFINITION. RESTART and CHDONE (47_restart_chdone.md), and the words that name no instruction
(43_interpreter_loop.md R207). -/

namespace Sys2Proof.Machine

/-- RESTART relocates the outer cursor (R265, R266). -/
def relocate (c : Chan) (target : Ptr) (s : State) : State :=
  s.setCh c { s.ch c with gather := { (s.ch c).gather with get := target } }

/-- In an inlined gather RESTART drops it (R266). -/
def dropInline (c : Chan) (s : State) : State :=
  match (s.ch c).reader with
  | .inner => setInner c none s
  | .outer => s

/-- RESTART (R265; in an inlined gather R266). -/
def execRestart (offset : BitVec 28) (s : State) : Res :=
  .next (complete s.active
    (dropInline s.active (relocate s.active (restartTarget s.cfg.restartShift offset) s)))

/-- CHDONE (R267): nothing. -/
def execChdone (_ignored : BitVec 28) (s : State) : Res := .next (complete s.active s)

/-- A word of an opcode that names no instruction (R207). -/
def unknownOpcode (i : Instr) (s : State) : Res :=
  .next (raiseFault s.active .unknownOpcode (encode i) s)

/-- A word of opcode `0x7` (R207). -/
def execUnknown7 (low : BitVec 28) (s : State) : Res := unknownOpcode (.unknown7 low) s

/-- A word of opcode `0x8` (R207). -/
def execUnknown8 (low : BitVec 28) (s : State) : Res := unknownOpcode (.unknown8 low) s

/-- A word of opcode `0x9` (R207). -/
def execUnknown9 (low : BitVec 28) (s : State) : Res := unknownOpcode (.unknown9 low) s

/-- A word of opcode `0xA` (R207). -/
def execUnknownA (low : BitVec 28) (s : State) : Res := unknownOpcode (.unknownA low) s

/-- A word of opcode `0xB` (R207). -/
def execUnknownB (low : BitVec 28) (s : State) : Res := unknownOpcode (.unknownB low) s

/-- A word of opcode `0xC` (R207). -/
def execUnknownC (low : BitVec 28) (s : State) : Res := unknownOpcode (.unknownC low) s

/-- A word of opcode `0xD` (R207). -/
def execUnknownD (low : BitVec 28) (s : State) : Res := unknownOpcode (.unknownD low) s

end Sys2Proof.Machine
end

