-- ==== Sys2Proof/Machine/Extend.lean ====
section
/-! DEFINITION. The hardware mutex table (41_mlock.md) and EXTEND (46_extend.md). -/

namespace Sys2Proof.Machine

/-! ### The channel flavour of the mutex operations -/

/-- A `channel_acquire` that does not hold (R164): acquired, or abandoned if the channel is disabled. -/
def channelAcquire (c : Chan) (k : Fin 16) (s : State) : State :=
  if (s.ch c).enabled then s.setMl k { s.ml k with channelOwns := true, owner := BitVec.ofNat 4 c }
  else s

/-- A `channel_release` that does not hold (R165): released, the owner's number kept, or abandoned if the
channel is disabled. -/
def channelRelease (c : Chan) (k : Fin 16) (s : State) : State :=
  if (s.ch c).enabled then s.setMl k { s.ml k with channelOwns := false } else s

/-- The foreign-release counter, when the hold begins (R165, 10_state.md R40). -/
def countForeign (c : Chan) (k : Fin 16) (s : State) : State :=
  if (s.ch c).enabled && foreignOwned (s.ml k) c then
    s.setDiag { s.diag with foreignRelease := s.diag.foreignRelease + 1 }
  else s

/-- ACQUIRE_MLOCK from its position `in_acquire(k)` (46_extend.md R256): hold, or acquire and complete
in one step. -/
def acquireStep (c : Chan) (k : Fin 16) (s : State) : State :=
  if acquireHolds (s.ml k) (s.ch c).enabled then s else complete c (channelAcquire c k s)

/-- RELEASE_MLOCK from its position `in_release(k)` (R257). -/
def releaseStep (c : Chan) (k : Fin 16) (s : State) : State :=
  if releaseHolds (s.ml k) c (s.ch c).enabled then s else complete c (channelRelease c k s)

/-- ACQUIRE_MLOCK (R256). -/
def execAcquireMlock (value : BitVec 24) (s : State) : Res :=
  .next (acquireStep s.active (lockOperand value) (setPos s.active (.inAcquire (lockOperand value)) s))

/-- RELEASE_MLOCK (R257). -/
def execReleaseMlock (value : BitVec 24) (s : State) : Res :=
  .next (releaseStep s.active (lockOperand value)
    (countForeign s.active (lockOperand value)
      (setPos s.active (.inRelease (lockOperand value)) s)))

/-! ### The CPU flavour -/

/-- The slot after `mlock.cpu_try_acquire(id)` (R161): unchanged if a channel owns it. -/
def cpuTryAcquire (k : Fin 16) (s : State) : State :=
  if (s.ml k).channelOwns then s else s.setMl k { s.ml k with cpuOwns := true }

/-- `mlock.cpu_release(id)` (R162). -/
def cpuRelease (k : Fin 16) (s : State) : State := s.setMl k { s.ml k with cpuOwns := false }

/-- `cpu_get_raw(id)` (R163). -/
def cpuGetRaw (k : Fin 16) (s : State) : Reply :=
  .mutex (s.ml k).channelOwns (s.ml k).cpuOwns (s.ml k).owner

/-- `wake_all_channel_waiters()` (R166): holds are re-evaluated by every step of their worker, so the
broadcast writes no state. -/
def wakeAllChannelWaiters (s : State) : State := s

/-! ### EXTEND with an undefined sub-operation -/

/-- EXTEND with `subop` in `0x2..0xF` (R258). -/
def extendUndef (i : Instr) (s : State) : Res :=
  .next (raiseFault s.active .unknownExtendSubop (encode i) s)

/-- EXTEND with `subop = 0x2` (R258). -/
def execExtendUndef2 (value : BitVec 24) (s : State) : Res := extendUndef (.extendUndef2 value) s

/-- EXTEND with `subop = 0x3` (R258). -/
def execExtendUndef3 (value : BitVec 24) (s : State) : Res := extendUndef (.extendUndef3 value) s

/-- EXTEND with `subop = 0x4` (R258). -/
def execExtendUndef4 (value : BitVec 24) (s : State) : Res := extendUndef (.extendUndef4 value) s

/-- EXTEND with `subop = 0x5` (R258). -/
def execExtendUndef5 (value : BitVec 24) (s : State) : Res := extendUndef (.extendUndef5 value) s

/-- EXTEND with `subop = 0x6` (R258). -/
def execExtendUndef6 (value : BitVec 24) (s : State) : Res := extendUndef (.extendUndef6 value) s

/-- EXTEND with `subop = 0x7` (R258). -/
def execExtendUndef7 (value : BitVec 24) (s : State) : Res := extendUndef (.extendUndef7 value) s

/-- EXTEND with `subop = 0x8` (R258). -/
def execExtendUndef8 (value : BitVec 24) (s : State) : Res := extendUndef (.extendUndef8 value) s

/-- EXTEND with `subop = 0x9` (R258). -/
def execExtendUndef9 (value : BitVec 24) (s : State) : Res := extendUndef (.extendUndef9 value) s

/-- EXTEND with `subop = 0xA` (R258). -/
def execExtendUndefA (value : BitVec 24) (s : State) : Res := extendUndef (.extendUndefA value) s

/-- EXTEND with `subop = 0xB` (R258). -/
def execExtendUndefB (value : BitVec 24) (s : State) : Res := extendUndef (.extendUndefB value) s

/-- EXTEND with `subop = 0xC` (R258). -/
def execExtendUndefC (value : BitVec 24) (s : State) : Res := extendUndef (.extendUndefC value) s

/-- EXTEND with `subop = 0xD` (R258). -/
def execExtendUndefD (value : BitVec 24) (s : State) : Res := extendUndef (.extendUndefD value) s

/-- EXTEND with `subop = 0xE` (R258). -/
def execExtendUndefE (value : BitVec 24) (s : State) : Res := extendUndef (.extendUndefE value) s

/-- EXTEND with `subop = 0xF` (R258). -/
def execExtendUndefF (value : BitVec 24) (s : State) : Res := extendUndef (.extendUndefF value) s

end Sys2Proof.Machine
end

