-- ==== Sys2Proof/Machine/GatherOps.lean ====
section
/-! DEFINITION. GATHER in its two forms, and the recursion stack (45_gather.md). -/

namespace Sys2Proof.Machine

/-- The gather channel `c` interprets (43_interpreter_loop.md R200). -/
def currentGather (c : Chan) (s : State) : Gather := (s.ch c).view (s.ch c).reader

/-- The head of GATHER (R240): fatal in an inlined gather, else the base word comes next. -/
def gatherHead (c : Chan) (i : Instr) (offset : BitVec 12) (insert : Bool) (inc : BitVec 1)
    (count : BitVec 14) (s : State) : State :=
  if (currentGather c s).inlined then raiseFault c .nestedGather (encode i) s
  else setPos c (.gatherBase offset insert (incrOperand inc) count) s

/-- GATHER, inline form, head (R240, R244). -/
def execGatherInline (offset : BitVec 12) (inc : BitVec 1) (count : BitVec 14) (s : State) : Res :=
  .next (gatherHead s.active (.gatherInline offset inc count) offset false inc count s)

/-- GATHER, insert form, head (R240, R243). -/
def execGatherInsert (offset : BitVec 12) (inc : BitVec 1) (count : BitVec 14) (s : State) : Res :=
  .next (gatherHead s.active (.gatherInsert offset inc count) offset true inc count s)

/-- The gather a base word and a count describe (R241). -/
def newGather (b : Word) (count : BitVec 14) : Gather :=
  ⟨ptrOfByteAddr b, 0, countOperand count, true⟩

/-- What the base word does (R241, R242, R244): nothing for `count = 0`; the insert form becomes a burst;
the inline form becomes the current gather and gives the section up. -/
def enterGather (c : Chan) (offset : BitVec 12) (insert inc : Bool) (count : BitVec 14) (b : Word)
    (s : State) : State :=
  if count = 0 then complete c s
  else if insert then
    setPos c .insertBurst
      (setInner c (some ⟨newGather b count, .insert (offsetOperand offset) inc⟩) s)
  else release c (setPos c .idle (setInner c (some ⟨newGather b count, .inline⟩) s))

/-- The DATA step of the base word (R241), on the outer gather. -/
def dataGatherBase (c : Chan) (offset : BitVec 12) (insert inc : Bool) (count : BitVec 14)
    (s : State) : Res :=
  dataStep c .outer (complete c s) (fun b t => .next (enterGather c offset insert inc count b t)) s

/-- The DATA step of an inserted gather (R243); a stop drops it. -/
def dataInsert (c : Chan) (s : State) : Res :=
  match (s.ch c).inner with
  | some ⟨_, .insert off _⟩ =>
    dataStep c .inner (complete c (setInner c none s)) (fun w t => modWrite c off w t) s
  | _ => .next (complete c s)

end Sys2Proof.Machine
end

