-- ==== Sys2Proof/Machine/RegisterWrite.lean ====
section
/-! DEFINITION. The register-write instructions SETCLASS, INCR, NONINCR, MASK, IMM
(44_module_write_opcodes.md): the heads, run in the BOUNDARY step that fetched the opcode word for the
channel `s.active`, and the DATA steps. -/

namespace Sys2Proof.Machine

/-- The head of a burst (R222, R223). -/
def startBurst (c : Chan) (offset : BitVec 12) (count : BitVec 16) (inc : Bool) (s : State) : State :=
  if count = 0 then complete c s else setPos c (.burst (offsetOperand offset) count inc) s

/-- The head of a masked write (R221, R224). -/
def startMask (c : Chan) (offset : BitVec 12) (bits : BitVec 16) (s : State) : State :=
  if bits = 0 then complete c s else setPos c (.mask (offsetOperand offset) bits 0) s

/-- SETCLASS, head (R221): the class is recorded before the first data word is fetched. -/
def execSetclass (offset : BitVec 12) (classId : BitVec 10) (bits : BitVec 6) (s : State) : Res :=
  .next (startMask s.active offset (setclassMask bits) (selectClass s.active classId s))

/-- INCR, head (R222). -/
def execIncr (offset : BitVec 12) (count : BitVec 16) (s : State) : Res :=
  .next (startBurst s.active offset count true s)

/-- NONINCR, head (R223). -/
def execNonincr (offset : BitVec 12) (count : BitVec 16) (s : State) : Res :=
  .next (startBurst s.active offset count false s)

/-- MASK, head (R224). -/
def execMask (offset : BitVec 12) (bits : BitVec 16) (s : State) : Res :=
  .next (startMask s.active offset bits s)

/-- IMM (R225): one write, no data word. -/
def execImm (offset : BitVec 12) (immdata : BitVec 16) (s : State) : Res :=
  modWrite s.active (offsetOperand offset) (immOperand immdata) s

/-- The DATA step of INCR and NONINCR (R222, R223). -/
def dataBurst (c : Chan) (off : Word) (s : State) : Res :=
  dataStep c (s.ch c).reader (complete c s) (fun w t => modWrite c off w t) s

/-- The DATA step of MASK and SETCLASS (R224): the word goes to the lowest set bit not yet written. -/
def dataMask (c : Chan) (off : Word) (bits : BitVec 16) (i : Nat) (s : State) : Res :=
  match nextBit bits i with
  | none => .next (complete c s)
  | some j =>
    dataStep c (s.ch c).reader (complete c s)
      (fun w t => modWrite c (off + BitVec.ofNat 32 j) w (setPos c (.mask off bits j) t)) s

end Sys2Proof.Machine
end

