-- ==== Sys2Proof/Machine/Dispatch.lean ====
section
/-! DEFINITION. The dispatch: the head of every command word, run for the channel `s.active`. -/

namespace Sys2Proof.Machine

/-- "execute the head of Decode(w)" (43_interpreter_loop.md R201). -/
def exec (i : Instr) (s : State) : Host.Outcome State Fault Refusal :=
  match i with
  | .setclass offset classId bits => Sys2Proof.Machine.execSetclass offset classId bits s
  | .incr offset count => Sys2Proof.Machine.execIncr offset count s
  | .nonincr offset count => Sys2Proof.Machine.execNonincr offset count s
  | .mask offset bits => Sys2Proof.Machine.execMask offset bits s
  | .imm offset immdata => Sys2Proof.Machine.execImm offset immdata s
  | .restart offset => Sys2Proof.Machine.execRestart offset s
  | .gatherInline offset inc count => Sys2Proof.Machine.execGatherInline offset inc count s
  | .gatherInsert offset inc count => Sys2Proof.Machine.execGatherInsert offset inc count s
  | .unknown7 low => Sys2Proof.Machine.execUnknown7 low s
  | .unknown8 low => Sys2Proof.Machine.execUnknown8 low s
  | .unknown9 low => Sys2Proof.Machine.execUnknown9 low s
  | .unknownA low => Sys2Proof.Machine.execUnknownA low s
  | .unknownB low => Sys2Proof.Machine.execUnknownB low s
  | .unknownC low => Sys2Proof.Machine.execUnknownC low s
  | .unknownD low => Sys2Proof.Machine.execUnknownD low s
  | .acquireMlock value => Sys2Proof.Machine.execAcquireMlock value s
  | .releaseMlock value => Sys2Proof.Machine.execReleaseMlock value s
  | .extendUndef2 value => Sys2Proof.Machine.execExtendUndef2 value s
  | .extendUndef3 value => Sys2Proof.Machine.execExtendUndef3 value s
  | .extendUndef4 value => Sys2Proof.Machine.execExtendUndef4 value s
  | .extendUndef5 value => Sys2Proof.Machine.execExtendUndef5 value s
  | .extendUndef6 value => Sys2Proof.Machine.execExtendUndef6 value s
  | .extendUndef7 value => Sys2Proof.Machine.execExtendUndef7 value s
  | .extendUndef8 value => Sys2Proof.Machine.execExtendUndef8 value s
  | .extendUndef9 value => Sys2Proof.Machine.execExtendUndef9 value s
  | .extendUndefA value => Sys2Proof.Machine.execExtendUndefA value s
  | .extendUndefB value => Sys2Proof.Machine.execExtendUndefB value s
  | .extendUndefC value => Sys2Proof.Machine.execExtendUndefC value s
  | .extendUndefD value => Sys2Proof.Machine.execExtendUndefD value s
  | .extendUndefE value => Sys2Proof.Machine.execExtendUndefE value s
  | .extendUndefF value => Sys2Proof.Machine.execExtendUndefF value s
  | .chdone ignored => Sys2Proof.Machine.execChdone ignored s

end Sys2Proof.Machine
end

