-- ==== Sys2Proof/Machine/Worker.lean ====
section
/-! DEFINITION. The worker of a channel: START and FINISH (48_cdma.md R282, R283), the BOUNDARY step and
the DATA steps (43_interpreter_loop.md R201, R205), and its holds. A worker that is scheduled without an
enabled step leaves the state as it is (00_scope.md R13, `hold`). -/

namespace Sys2Proof.Machine

/-- START (R282). -/
def startRun (c : Chan) (s : State) : State :=
  s.setCh c
    { s.ch c with
      start := false
      stopped := false
      running := true
      inner := none
      pos := .idle
      call := none }

/-- `FINISH(c)` (R283). -/
def finishRun (c : Chan) (s : State) : State :=
  let t := release c s
  t.setCh c { t.ch c with running := false, stopped := true }

/-- The stop of the current gather (43_interpreter_loop.md R201, R209): an inlined gather is dropped, the
outer one ends the run. -/
def stopGather (c : Chan) (s : State) : State :=
  match (s.ch c).reader with
  | .inner => release c (setInner c none s)
  | .outer => finishRun c s

/-- Worker `c` holds the section and takes the step. -/
def takeSection (c : Chan) (s : State) : State := (s.setOwner (some c)).setActive c

/-- The section is held by another worker than `c` (R206 (d)). -/
def sectionTaken (c : Chan) (s : State) : Bool := s.owner != none && s.owner != some c

/-- The rest of a BOUNDARY step on a gather that is not stopped (R201): hold while the section is taken,
else take it, fetch the opcode word and run its head. -/
def fetchAndExec (c : Chan) (s : State) : Res :=
  if sectionTaken c s then .next s
  else match fetch c (s.ch c).reader (takeSection c s) with
    | some (w, t) => exec (decodeWord w) t
    | none => fetchRefused c (s.ch c).reader s

/-- The BOUNDARY step of worker `c` (R201). -/
def boundary (c : Chan) (s : State) : Res :=
  match stopped (s.ch c) (currentGather c s) with
  | .fatal => .next (raiseFault c .endReached (endInfo (currentGather c s)) s)
  | .stop => .next (stopGather c s)
  | .go => fetchAndExec c s

/-- The next step of worker `c` inside or between instructions, no handler being in progress (R201,
R205). -/
def instrStep (c : Chan) (s : State) : Res :=
  match (s.ch c).pos with
  | .idle => boundary c s
  | .burst off _ _ => dataBurst c off s
  | .mask off bits i => dataMask c off bits i s
  | .gatherBase offset insert inc count => dataGatherBase c offset insert inc count s
  | .insertBurst => dataInsert c s
  | .inAcquire k => .next (acquireStep c k s)
  | .inRelease k => .next (releaseStep c k s)

/-- The next step of worker `c` (R9 (a)): parked until it is started, then the steps of its run. -/
def workerStep (c : Chan) (s : State) : Res :=
  if (s.ch c).running then
    match (s.ch c).call with
    | some k => callStep c k s
    | none => instrStep c s
  else if (s.ch c).start then .next (startRun c s)
  else .next s

end Sys2Proof.Machine
end

