-- ==== Sys2Proof/Machine/HostOps.lean ====
section
/-! DEFINITION. The operations of the host (00_scope.md R12): the CDMA control protocol (48_cdma.md),
the store, waits and bases (40_syncpt.md), the CPU mutex flavour (41_mlock.md), the FIFO and the registry
(42_fifo_registry.md), the IRQ router (60_exceptions.md), and subsystem reset (70_reset_and_hazards.md).
An operation that cannot go on leaves its context in a `HostJob`, and goes on when the context is
scheduled again. -/

namespace Sys2Proof.Machine

/-! ### The CDMA engine -/

/-- `run(c)` (R280). -/
def cdmaRun (c : Chan) (s : State) : State :=
  if (s.ch c).runnable then s.setCh c { s.ch c with start := true } else s

/-- `cdma.set_base(value)` (R277). -/
def cdmaSetBase (c : Chan) (value : Word) (s : State) : State :=
  cdmaRun c (s.setCh c { s.ch c with gather := { (s.ch c).gather with base := ptrOfByteAddr value } })

/-- `cdma.set_put(value)` (R278). -/
def cdmaSetPut (c : Chan) (value : Word) (s : State) : State :=
  cdmaRun c (s.setCh c { s.ch c with gather := { (s.ch c).gather with put := ptrOfByteAddr value } })

/-- `cdma.set_end(value)` (R279). -/
def cdmaSetEnd (c : Chan) (value : Word) (s : State) : State :=
  s.setCh c { s.ch c with endPtr := ptrOfByteAddr value }

/-- Step 1 of `cdma.control` with `stop` (R281). -/
def controlStop (c : Chan) (s : State) : State :=
  unlockForced (.worker c)
    (wakeAllChannelWaiters (s.setCh c { s.ch c with enabled := false }))

/-- The `reset_get` part of step 3 (R281). -/
def controlResetGet (c : Chan) (resetGet fromPut : Bool) (s : State) : State :=
  if resetGet then
    s.setCh c
      { s.ch c with
        gather := { (s.ch c).gather with get := if fromPut then (s.ch c).gather.put else 0 } }
  else s

/-- Step 3 of `cdma.control` without `stop` (R281). -/
def controlEnable (c : Chan) (resetGet fromPut : Bool) (s : State) : State :=
  let t := controlResetGet c resetGet fromPut s
  cdmaRun c (t.setCh c { t.ch c with enabled := true })

/-- A `control` on channel `c` has not returned (R281, 93 U12). -/
def controlPending (c : Chan) (s : State) : Bool :=
  s.hosts.any fun e => match e.2.job with
    | .inControl d _ _ => d == c
    | _ => false

/-- `cdma.control` issued by context `h` (R281). -/
def hostControl (h : Nat) (c : Chan) (stop resetGet fromPut : Bool) (s : State) : Res :=
  if controlPending c s then .refused .controlOverlap
  else if stop then
    let t := controlStop c s
    .next (t.setCtx h { t.ctx h with job := .inControl c resetGet fromPut })
  else returns (.ctx h) .done (controlEnable c resetGet fromPut s)

/-! ### Host contexts -/

/-- Context `h` is doing `j`. -/
def setJob (h : Nat) (j : HostJob) (s : State) : State := s.setCtx h { s.ctx h with job := j }

/-- The operation context `h` was in returns `r` (R9). -/
def finishJob (h : Nat) (r : Reply) (s : State) : Res :=
  returns (.ctx h) r (setJob h .idle s)

/-- An operation of 40_syncpt.md issued by context `h`; a wait that is not satisfied holds it. -/
def hostSync (h : Nat) (r : SyncReq) (s : State) : Res :=
  match syncOp (.ctx h) s r with
  | .returned t v => returns (.ctx h) v t
  | .held t => .next (setJob h (.inWait []) t)
  | .refused e => .refused e

/-- What follows the requests of a handler that context `h` called (42_fifo_registry.md R189): its operation
returns, or it holds. -/
def continueHost (h : Nat) (r : Ran) : Res :=
  match r with
  | .returned s => returns (.ctx h) .done s
  | .held reqs _ s => .next (setJob h (.inWait reqs) s)
  | .refused e => .refused e

/-- `dispatch_write(module, offset, value)` issued by context `h` (R188; assumption log 11), with the
requests of the handler (R189). -/
def hostDispatchWrite (h : Nat) (classId : BitVec 16) (off value : Word) (s : State) : Res :=
  if Config.maxOffset < off then .refused (.offsetBeyond12 off)
  else match lookupModule classId s with
    | none => returns (.ctx h) .done (dropWrite (.ctx h) off value s)
    | some m =>
      continueHost h (runRequests (.ctx h) (handlerRequests m off value s.fresh)
        (moduleWritten (.ctx h) m off value s))

/-- A module read issued by context `h` (R190): what it returns is a free value (93 U3). It is performed at
every offset: R65 gives an offset above 0xFFF no meaning as a register, R188, R226 and 93 U4 refuse writes
there, and nothing is said of reads; that such a read is not refused is the model's DESIGN CHOICE (assumption
log 24). -/
def hostDispatchRead (h : Nat) (classId : BitVec 16) (off : Word) (s : State) : Res :=
  match lookupModule classId s with
  | none => .refused (.readUnregistered classId)
  | some m =>
    let v := Config.moduleRead m.read m.context off s.fresh
    returns (.ctx h) (.word v) ((s.emit (.modRead (.ctx h) classId off v)).bumpFresh)

/-- A step of context `h` in a wait (40_syncpt.md R130 steps B and C; a host context holds no global
section): the hold, or its end and what is left of the handler's requests. -/
def hostWaitStep (h : Nat) (reqs : List CoreReq) (s : State) : Res :=
  if (s.ctx h).waiter.signalled then
    continueHost h (runRequests (.ctx h) reqs
      (s.setCtx h { waiter := { (s.ctx h).waiter with signalled := false }, job := .idle }))
  else .next s

/-- Context `h` is scheduled: it goes on with the operation it is held in, if it can. -/
def hostResume (h : Nat) (s : State) : Res :=
  match (s.ctx h).job with
  | .idle => .next s
  | .inWait reqs => hostWaitStep h reqs s
  | .inControl c resetGet fromPut =>
    if (s.ch c).stopped then finishJob h .done (controlResetGet c resetGet fromPut s) else .next s
  | .inPop c =>
    if (s.ch c).fifo.empty then .next s
    else finishJob h (.word (s.ch c).fifo.front) (fifoPop c s)
  | .inPush c value =>
    if (s.ch c).fifo.full then .next s else finishJob h .done (fifoPush c value s)

/-! ### FIFO, registry and reset operations -/

/-- `push(f, v)` issued by context `h` (R181). -/
def hostPush (h : Nat) (c : Chan) (value : Word) (s : State) : Res :=
  if (s.ch c).fifo.full then .next (setJob h (.inPush c value) s)
  else returns (.ctx h) .done (fifoPush c value s)

/-- `pop(f)`, blocking form, issued by context `h` (R182). -/
def hostPop (h : Nat) (c : Chan) (s : State) : Res :=
  if (s.ch c).fifo.empty then .next (setJob h (.inPop c) s)
  else returns (.ctx h) (.word (s.ch c).fifo.front) (fifoPop c s)

/-- `pop_nonempty(f)` (R183). -/
def hostPopNonempty (h : Nat) (c : Chan) (s : State) : Res :=
  if (s.ch c).fifo.empty then .refused .popEmpty
  else returns (.ctx h) (.word (s.ch c).fifo.front) (fifoPop c s)

/-- Some worker is in a run. -/
def anyRunning (s : State) : Bool := (List.finRange 8).any fun c => (s.ch c).running

/-- `module_registry.register` (R185, R77). -/
def hostRegister (h : Nat) (m : Module) (s : State) : Res :=
  if (lookupModule m.classId s).isSome then .refused (.duplicateClass m.classId)
  else if anyRunning s then .refused .registerWhileRunning
  else returns (.ctx h) .done (registerModule m s)

/-- `cdma.init(channel_id)` (48_cdma.md R275). -/
def hostInit (h : Nat) (c : Chan) (s : State) : Res :=
  if s.ch c = Channel.reset then returns (.ctx h) .done (s.setCh c Channel.reset)
  else .refused .initAfterUse

/-- Some host context is held inside an operation (70_reset_and_hazards.md R343). A context counts as held
until its operation has returned, so also when the condition of its hold is already met and it has not been
scheduled since: R343 does not say where the hold ends, and this is the model's DESIGN CHOICE (assumption
log 33). -/
def anyHostHeld (s : State) : Bool := s.hosts.any fun e => e.2.job != .idle

/-- Subsystem reset issued by context `h` (R340, R343). -/
def hostReset (h : Nat) (s : State) : Res :=
  if anyHostHeld s then .refused .resetDuringHold else returns (.ctx h) .done (subsystemReset s)

/-- An enqueued wait is cancelled on the channel-disable path only (40_syncpt.md R137, decision D40;
assumption log 34): the waiter of channel `c` is enqueued and the channel is not disabled. -/
def cancelRefused (c : Chan) (s : State) : Bool :=
  (s.ch c).enabled && (s.ch c).waiter.place.isSome

/-- `unlock_waiter(w)` on the record of channel `c` (R135, R137). -/
def hostUnlockWaiter (h : Nat) (c : Chan) (s : State) : Res :=
  if (s.ch c).waiter.place = none then .refused .waiterNotEnqueued
  else if cancelRefused c s then .refused .cancelWithoutStop
  else returns (.ctx h) .done (wake (.worker c) s)

/-- `unlock_waiter_forced(w)` on the record of channel `c` (R136, R137). -/
def hostUnlockForced (h : Nat) (c : Chan) (s : State) : Res :=
  if cancelRefused c s then .refused .cancelWithoutStop
  else returns (.ctx h) .done (unlockForced (.worker c) s)

/-- The operation `op` issued by context `h`, which is in no other (00_scope.md R12). -/
def hostOp (h : Nat) (op : HostOp) (s : State) : Res :=
  match op with
  | .init c => withId 8 c fun c => hostInit h c s
  | .setBase c value => withId 8 c fun c => returns (.ctx h) .done (cdmaSetBase c value s)
  | .setPut c value => withId 8 c fun c => returns (.ctx h) .done (cdmaSetPut c value s)
  | .setEnd c value => withId 8 c fun c => returns (.ctx h) .done (cdmaSetEnd c value s)
  | .control c stop resetGet fromPut => withId 8 c fun c => hostControl h c stop resetGet fromPut s
  | .sync r => hostSync h r s
  | .unlockWaiter c => withId 8 c fun c => hostUnlockWaiter h c s
  | .unlockWaiterForced c => withId 8 c fun c => hostUnlockForced h c s
  | .cpuTryAcquire k => withId 16 k fun k =>
    returns (.ctx h) (.flag (!(s.ml k).channelOwns)) (cpuTryAcquire k s)
  | .cpuRelease k => withId 16 k fun k => returns (.ctx h) .done (cpuRelease k s)
  | .cpuGetRaw k => withId 16 k fun k => returns (.ctx h) (cpuGetRaw k s) s
  | .wakeAllChannelWaiters => returns (.ctx h) .done (wakeAllChannelWaiters s)
  | .register m => hostRegister h m s
  | .lookup classId => returns (.ctx h) (.found (lookupModule classId s)) s
  | .dispatchWrite classId off value => hostDispatchWrite h classId off value s
  | .dispatchRead classId off => hostDispatchRead h classId off s
  | .push c value => withId 8 c fun c => hostPush h c value s
  | .pop c => withId 8 c fun c => hostPop h c s
  | .popNonempty c => withId 8 c fun c => hostPopNonempty h c s
  | .irqSetDest p mask => withId 2 p fun p => returns (.ctx h) .done (irqSetDest p mask s)
  | .irqGetDest p => withId 2 p fun p => returns (.ctx h) (.word (s.dest p)) s
  | .irqGetStatus p => withId 2 p fun p => returns (.ctx h) (.word (s.pending p)) s
  | .irqClearStatus p mask => withId 2 p fun p => returns (.ctx h) .done (irqClearStatus p mask s)
  | .subsystemReset => hostReset h s

/-- Context `h` issues `op`; a context held in an operation can issue none (R129; assumption log 10). -/
def hostIssue (h : Nat) (op : HostOp) (s : State) : Res :=
  if (s.ctx h).job = .idle then hostOp h op s else .refused .contextBusy

/-- The owner of the DMA window stores bytes into it (20_memory.md R61, R71). -/
def storeBytes (addr : BitVec 32) (bytes : List Byte) (s : State) : State :=
  s.setMem (s.mem.writeBytes addr bytes)

/-- An event happens (00_scope.md R9). -/
def perform (e : Event) (s : State) : Res :=
  match e with
  | .worker c => workerStep c s
  | .host h op => hostIssue h op s
  | .resume h => hostResume h s
  | .store addr bytes => .next (storeBytes addr bytes s)

/-- The event of this step and the state it happens in: the head of the agenda, or, with the agenda
empty, a free value (assumption log 4). -/
def nextEvent (s : State) : Event × State :=
  match s.agenda with
  | e :: rest => (e, s.setAgenda rest)
  | [] => (Config.schedule s.fresh, s.bumpFresh)

/-! ### Placing an instruction where the next step fetches it -/

/-- The words of an instruction placed for the next step: the opcode word, then as many words of zeros
as the widest mask asks for. -/
def placedWords (w : Word) : List Byte :=
  bytesOfWord w ++ List.replicate 64 0

/-- Channel `x` in a run, between instructions of its outer gather, with 17 words queued from its
cursor and its end boundary just behind the cursor. -/
def placedChannel (x : Channel) : Channel :=
  { x with
    gather := { x.gather with put := x.gather.get + 17, inlined := false }
    endPtr := x.gather.get - 1
    enabled := true
    start := false
    stopped := false
    running := true
    inner := none
    fault := none
    pos := .idle
    call := none }

/-- `s` with the command word `w` where worker 0 fetches next, worker 0 scheduled next and the global
section free (assumption log 14). -/
def placeWord (w : Word) (s : State) : State :=
  let t := (s.setCh 0 (placedChannel (s.ch 0))).setOwner none
  (t.setMem (s.mem.writeBytes (byteAddr (s.ch 0).gather.wordIndex) (placedWords w))).setAgenda
    (.worker 0 :: s.agenda)

end Sys2Proof.Machine
end

