-- ==== Sys2Proof/Machine/Step.lean ====
section
/-! DEFINITION. One step of the machine, and an instruction placed where the next step fetches it. -/

namespace Sys2Proof.Machine

/-- One step (00_scope.md R9): the next event happens. -/
def step (s : State) : Host.Outcome State Fault Refusal := perform (nextEvent s).1 (nextEvent s).2

/-- `s` with the instruction whose low `nbits` bits are `w` placed where `step` fetches next
(assumption log 14). -/
def State.withFetchWord (s : State) (nbits w : Nat) : State :=
  placeWord (.ofNat 32 (w % 2 ^ min nbits 32)) s

end Sys2Proof.Machine
end

