-- ==== Sys2Proof/Safety.lean ====
section
/-! DEFINITION. The terms claims are stated in: what a safe state is, the invariants every step keeps,
what an operation leaves unchanged, and runs of the machine along an agenda. -/

namespace Sys2Proof.Machine

/-! ### Faulted states -/

/-- Some `fault_out[c]` is set (60_exceptions.md R304). -/
def State.faulted (s : State) : Bool := (List.finRange 8).any fun c => (s.ch c).faultOut

/-! ### Invariants -/

/-- At most one of the CPU and a channel owns a mutex slot, and the recorded owner is a channel
(41_mlock.md R160, R167). -/
def MutexExclusive (s : State) : Prop :=
  ∀ k, ¬((s.ml k).cpuOwns = true ∧ (s.ml k).channelOwns = true) ∧ (s.ml k).owner.toNat < 8

/-- Each IRQ line is at the level its pending word gives (10_state.md R36). -/
def LinesFollowPending (s : State) : Prop := ∀ p, s.line p = lineLevel (s.pending p)

/-- An inner gather of kind `insert`. -/
def Inner.isInsert (y : Inner) : Bool :=
  match y.kind with
  | .insert _ _ => true
  | .inline => false

/-- What holds of a channel's run at any time (10_state.md R24, R27, 43_interpreter_loop.md R208,
45_gather.md R246, 60_exceptions.md R303, R307): stopped when not running, no start pending in a run, a
faulted channel neither running nor about to, nothing in progress outside a run, the outer gather not
inlined and the inner one inlined, an inserted gather exactly during its burst, and none while a base
word is awaited. -/
structure Channel.Lawful (x : Channel) : Prop where
  stopped_eq : x.stopped = !x.running
  start_false : x.running = true → x.start = false
  fault_dead : x.fault.isSome = true → x.running = false ∧ x.start = false
  rest : x.running = false → x.inner = none ∧ x.pos = .idle ∧ x.call = none
  outer_plain : x.gather.inlined = false
  inner_inlined : ∀ y, x.inner = some y → y.g.inlined = true
  insert_iff : x.pos = .insertBurst ↔ ∃ y, x.inner = some y ∧ y.isInsert = true
  base_outer : ∀ o i n k, x.pos = .gatherBase o i n k → x.inner = none

/-- Every channel is lawful. -/
def ChannelsLawful (s : State) : Prop := ∀ c, (s.ch c).Lawful

/-- The worker's handler call is held in a wait, or past it and without the section (40_syncpt.md
R130, R134). -/
def Channel.sectionGivenUp (x : Channel) : Bool :=
  match x.call with
  | some ⟨_, .inWait⟩ => true
  | some ⟨_, .reacquire⟩ => true
  | _ => false

/-- The worker stands between the fetch of an opcode word and the completion of its instruction and is
not in a sync-point wait. -/
def Channel.inInstruction (x : Channel) : Bool :=
  (x.pos != .idle || x.call.isSome) && !x.sectionGivenUp

/-- The global interpreter section has one owner, whose worker runs, and every worker inside an
instruction is that owner (43_interpreter_loop.md R206). -/
def SectionExclusive (s : State) : Prop :=
  (∀ c, s.owner = some c → (s.ch c).running = true) ∧
    ∀ c, (s.ch c).inInstruction = true → s.owner = some c

/-- The agent is in the hold of a sync-point wait (40_syncpt.md R130 step B). -/
def State.inWait (s : State) : AgentId → Bool
  | .worker c => match (s.ch c).call with
    | some ⟨_, .inWait⟩ => true
    | _ => false
  | .ctx h => match (s.ctx h).job with
    | .inWait _ => true
    | _ => false

/-- The waiter lists and the records agree (10_state.md R28, R33, 40_syncpt.md R129): an agent is in a
list exactly if its record says so, and at most once; only an agent held in a wait is; an agent held in a
wait is signalled exactly when it is in no list, and no other agent is signalled; exactly the records in
base-relative lists name a base. -/
structure WaitersCoherent (s : State) : Prop where
  listed_iff : ∀ a i k, a ∈ (s.sp i).list k ↔ (s.waiter a).place = some (i, k)
  nodup : ∀ i k, ((s.sp i).list k).Nodup
  held : ∀ a, (s.waiter a).place ≠ none → s.inWait a = true
  signalled_iff : ∀ a, s.inWait a = true →
    ((s.waiter a).signalled = true ↔ (s.waiter a).place = none)
  quiet : ∀ a, s.inWait a = false → (s.waiter a).signalled = false
  based : ∀ a i k, (s.waiter a).place = some (i, k) → ((s.waiter a).baseId.isSome = true ↔ k = .rel)

/-- While step 2 of a `control(stop=true)` is pending on a channel, the channel is disabled (48_cdma.md
R281, R285). -/
def StopsPending (s : State) : Prop :=
  ∀ h c resetGet fromPut, (s.ctx h).job = .inControl c resetGet fromPut → (s.ch c).enabled = false

/-- The host contexts' list is in its canonical form. -/
def HostsCanonical (s : State) : Prop :=
  risingFrom 0 s.hosts = true ∧ ∀ e ∈ s.hosts, e.2 ≠ HostCtx.rest

/-- No class id is registered twice (10_state.md R38). -/
def RegistryUnique (s : State) : Prop := (s.registry.map Module.classId).Nodup

/-! ### Frames -/

/-- Nothing but channel `c`'s record and the owner of the global section differs: every other channel,
every sync-point, base, mutex slot, IRQ register, the registry, the counters, every byte of the memory,
the host contexts, the outputs and the model's own fields are as before. -/
structure OnlyChannel (c : Chan) (s t : State) : Prop where
  rest : t = { s with chs := t.chs, owner := t.owner }
  others : ∀ d, d ≠ c → t.ch d = s.ch d
  bytes : ∀ a, t.mem.read a = s.mem.read a

/-! ### The states claims name as outcomes -/

/-- The owner of the section after `Release(c)` (43_interpreter_loop.md R201). -/
def ownerReleased (c : Chan) (s : State) : Option Chan := if s.owner = some c then none else s.owner

/-- The owner of the section after `EndInstr(c)` (R201): given up under `instruction` granularity. -/
def ownerAfterEnd (c : Chan) (s : State) : Option Chan :=
  if s.cfg.granularity = .instruction then ownerReleased c s else s.owner

/-- The instruction of worker `c` has ended and nothing else has changed (R201, R205). -/
def instrDone (c : Chan) (s : State) : State :=
  (s.setCh c { s.ch c with pos := .idle }).setOwner (ownerAfterEnd c s)

/-- Worker `c` stands at position `p` and nothing else has changed (10_state.md R30). -/
def standing (c : Chan) (p : Pos) (s : State) : State := s.setCh c { s.ch c with pos := p }

/-- What `raise Fault(c, cause, info)` leaves (60_exceptions.md R303). -/
def faultTaken (c : Chan) (cause : Cause) (info : Word) (s : State) : State :=
  (s.setCh c
    { s.ch c with
      fault := some ⟨cause, info⟩
      inner := none
      pos := .idle
      call := none
      running := false
      stopped := true }).setOwner (ownerReleased c s)

/-- What FINISH leaves (48_cdma.md R283). -/
def runFinished (c : Chan) (s : State) : State :=
  (s.setCh c { s.ch c with running := false, stopped := true }).setOwner (ownerReleased c s)

/-! ### The conditions a worker's step is stated under -/

/-- The next event is a step of worker `c`, and `rest` is what follows it. -/
def Scheduled (c : Chan) (rest : List Event) (s : State) : Prop := s.agenda = .worker c :: rest

/-- The next event is that host context `h`, in no other operation, issues `op`. -/
def Issued (h : Nat) (op : HostOp) (rest : List Event) (s : State) : Prop :=
  s.agenda = .host h op :: rest ∧ (s.ctx h).job = .idle

/-- Worker `c` is in a run at position `p`, no handler being in progress. -/
def AtPos (c : Chan) (p : Pos) (s : State) : Prop :=
  (s.ch c).running = true ∧ (s.ch c).call = none ∧ (s.ch c).pos = p

/-- The gather `g` of channel `c` has at least `n` more words that its stop condition lets through and
the memory admits, and they are `ws` (43_interpreter_loop.md R202, R203). -/
def WordsAhead (c : Chan) (g : Gather) (ws : List Word) (s : State) : Prop :=
  (s.ch c).enabled = true ∧
    ∀ (j : Nat) (h : j < ws.length),
      g.get + BitVec.ofNat 30 j ≠ g.put ∧
      (g.inlined = true ∨ g.get + BitVec.ofNat 30 j ≠ (s.ch c).endPtr) ∧
      s.mem.readWord (g.wordIndex + BitVec.ofNat 30 j) = some ws[j]

/-- The write of `value` to `off` by channel `c` is complete in its step: the channel's module asks
nothing of the core. -/
def Silent (c : Chan) (off value : Word) (s : State) : Prop :=
  ∀ m, currentModule c s = some m → handlerRequests m off value s.fresh = []

/-- The module of channel `c`, if any, never asks anything of the core (95_test_vectors.md, notation). -/
def AlwaysSilent (c : Chan) (s : State) : Prop :=
  ∀ m, currentModule c s = some m → m.write = .table []

/-- What a write of `value` to `off` by channel `c` shows outside: the write if a module is selected, a
dropped-write record if none is. -/
def writeOutput (c : Chan) (s : State) (off value : Word) : Output :=
  match currentModule c s with
  | some m => .modWrite (.worker c) m.classId off value
  | none => .droppedWrite (.worker c) off value

/-- The counters after `n` writes by channel `c`, each counted if no module is selected (R188, 60 R309). -/
def diagAfter (c : Chan) (n : Nat) (s : State) : Diag :=
  match currentModule c s with
  | some _ => s.diag
  | none => { s.diag with droppedWrites := s.diag.droppedWrites + BitVec.ofNat 32 n }

/-- The channel with the cursor of the gather it reads, the inlined one if there is one, moved past `n`
words (43_interpreter_loop.md R200, R203). -/
def Channel.readOn (x : Channel) (n : Nat) : Channel :=
  match x.inner with
  | some ⟨g, .inline⟩ =>
    { x with inner := some ⟨{ g with get := g.get + BitVec.ofNat 30 n }, .inline⟩ }
  | _ => { x with gather := { x.gather with get := x.gather.get + BitVec.ofNat 30 n } }

/-- Request `r` of agent `a` does not hold, and in `s` it leaves `t` (42_fifo_registry.md R189): a mutation of a
sync-point and its re-evaluation (40_syncpt.md R122, R123, R125), a write of a base (R138, R139), or a read,
whose value is the agent's reply (R124, R126, R128, R140). -/
inductive Performed (a : AgentId) (s : State) : SyncReq → State → Prop where
  | increment (i : Fin 32) : Performed a s (.increment i)
      (reevaluate i true (s.setSp i { s.sp i with counter := (s.sp i).counter + 1 }))
  | setCounter (i : Fin 32) (v : Word) : Performed a s (.setCounter i v)
      (reevaluate i false (s.setSp i { s.sp i with counter := v }))
  | setThreshold (i : Fin 32) (v : Word) : Performed a s (.setThreshold i v)
      (reevaluate i false (s.setSp i { s.sp i with threshold := v.setWidth 16 }))
  | baseSet (j : Fin 8) (v : Word) : Performed a s (.baseSet j v) { s with bases := s.bases.set j v }
  | baseIncrement (j : Fin 8) (v : Word) : Performed a s (.baseIncrement j v)
      { s with bases := s.bases.set j (s.base j + v) }
  | getCounter (i : Fin 32) : Performed a s (.getCounter i)
      { s with out := .reply a (.word (s.sp i).counter) :: s.out }
  | getThreshold (i : Fin 32) : Performed a s (.getThreshold i)
      { s with out := .reply a (.word ((s.sp i).threshold.setWidth 32)) :: s.out }
  | thresholdCrossed (i : Fin 32) : Performed a s (.thresholdCrossed i)
      { s with out := .reply a (.flag (reached16 (s.sp i).counter (s.sp i).threshold)) :: s.out }
  | baseGet (j : Fin 8) : Performed a s (.baseGet j)
      { s with out := .reply a (.word (s.base j)) :: s.out }

/-! ### Runs -/

/-- The outcome of `n` steps (Host/Core.lean). -/
def runSteps (n : Nat) (s : State) : Res := Sys2Proof.core.run n s

/-! ### Fair runs -/

/-- The event that is agent `a`'s own next step (00_scope.md R9). -/
def ownStep : AgentId → Event
  | .worker c => .worker c
  | .ctx h => .resume h

/-- Agent `a` has an enabled step: scheduled, it does not hold (R9, R13). -/
def Enabled (a : AgentId) (s : State) : Prop := perform (ownStep a) s ≠ .next s

/-- An infinite run: the events `e`, one after the other, from the state `σ 0`. -/
def InfiniteRun (σ : Nat → State) (e : Nat → Event) : Prop :=
  ∀ n, perform (e n) (σ n) = .next (σ (n + 1))

/-- Weak fairness, the one thing assumed of the schedule (R9, decision D31): an agent whose step stays
enabled is eventually scheduled. -/
def WeaklyFair (σ : Nat → State) (e : Nat → Event) : Prop :=
  ∀ a n, (∀ m, n ≤ m → Enabled a (σ m)) → ∃ m, n ≤ m ∧ e m = ownStep a

end Sys2Proof.Machine
end

