-- ==== Sys2Proof/Certificates/Slice0/Obligations.lean ====
section
/-! DEFINITION. The statements for the provers. Each docstring names the rule of spec/ it formalises, and
the decision or the log entry where a clause rests on one. -/

open Sys2Proof
open Sys2Proof.Machine

/-! ### Encoding -/

/-- Every instruction, with every operand at every value, is read back from the bytes of its opcode word,
and the bytes after it are left (30_encoding.md R93 to R98, 43_interpreter_loop.md R204). The numbers of
the opcodes and the byte order are the spec's decisions D1 to D3 and D6 (assumption logs 1, 2). -/
def Obligations.DecodeEncodeAgree : Prop :=
  ∀ (i : Instr) (rest : List Byte), decode (bytesOfWord (encode i) ++ rest) = .ok (i, rest)

/-- Every word is the opcode word of the instruction it decodes to. R204's own decoding drops the bits R105
calls ignored; that the model's syntax keeps them, so that no bit is lost, is the model's choice (the
docstring of `Instr`; assumption log 1, which also names the numbers of the table). -/
def Obligations.EncodeDecodeAgree : Prop := ∀ w : Word, encode (decodeWord w) = w

/-- A word decodes to the instruction of a row of spec/opcode_table.json exactly if it has that row's
fixed bits (R92, R96, R103, R104, R107). -/
def Obligations.DecoderFollowsOpcodeTable : Prop :=
  ∀ r ∈ opcodeTable, ∀ w : Word, w &&& r.mask = r.pattern ↔ mnemonic (decodeWord w) = r.name

/-- The assembler's shifts and ors give the opcode word of the instruction the item names, a bare word is
itself, and of every item a field value that does not fit its width is refused (R108, R109); that a lock id
of 16 or more does not fit is assumption log 28. -/
def Obligations.AssemblerEncodes : Prop :=
  (∀ (offset : BitVec 12) (classId : BitVec 10) (bits : BitVec 6),
    assemble (.setclass classId.toNat bits.toNat offset.toNat) =
      some (encode (.setclass offset classId bits))) ∧
  (∀ (offset : BitVec 12) (n : BitVec 16),
    assemble (.incr offset.toNat n.toNat) = some (encode (.incr offset n)) ∧
    assemble (.nonincr offset.toNat n.toNat) = some (encode (.nonincr offset n)) ∧
    assemble (.mask offset.toNat n.toNat) = some (encode (.mask offset n)) ∧
    assemble (.imm offset.toNat n.toNat) = some (encode (.imm offset n))) ∧
  (∀ offset : BitVec 28, assemble (.restart offset.toNat) = some (encode (.restart offset))) ∧
  (∀ (offset : BitVec 12) (inc : BitVec 1) (n : BitVec 14),
    assemble (.gather offset.toNat 0 inc.toNat n.toNat) =
      some (encode (.gatherInline offset inc n)) ∧
    assemble (.gather offset.toNat 1 inc.toNat n.toNat) =
      some (encode (.gatherInsert offset inc n))) ∧
  (∀ k : Fin 16,
    assemble (.acquireMlock k) = some (encode (.acquireMlock (BitVec.ofNat 24 k))) ∧
    assemble (.releaseMlock k) = some (encode (.releaseMlock (BitVec.ofNat 24 k)))) ∧
  (∀ (subop : BitVec 4) (value : BitVec 24),
    assemble (.extend subop.toNat value.toNat) = some (0xE#4 ++ subop ++ value)) ∧
  assemble .chdone = some (encode (.chdone 0)) ∧
  (∀ v : Word, assemble (.word v.toNat) = some v) ∧
  (∀ classId bits offset : Nat, 2 ^ 10 ≤ classId ∨ 2 ^ 6 ≤ bits ∨ 2 ^ 12 ≤ offset →
    assemble (.setclass classId bits offset) = none) ∧
  (∀ offset n : Nat, 2 ^ 12 ≤ offset ∨ 2 ^ 16 ≤ n →
    assemble (.incr offset n) = none ∧ assemble (.nonincr offset n) = none ∧
    assemble (.mask offset n) = none ∧ assemble (.imm offset n) = none) ∧
  (∀ offset : Nat, 2 ^ 28 ≤ offset → assemble (.restart offset) = none) ∧
  (∀ offset insert inc n : Nat, 2 ^ 12 ≤ offset ∨ 2 ≤ insert ∨ 2 ≤ inc ∨ 2 ^ 14 ≤ n →
    assemble (.gather offset insert inc n) = none) ∧
  (∀ k : Nat, 16 ≤ k → assemble (.acquireMlock k) = none ∧ assemble (.releaseMlock k) = none) ∧
  (∀ subop value : Nat, 2 ^ 4 ≤ subop ∨ 2 ^ 24 ≤ value → assemble (.extend subop value) = none) ∧
  ∀ v : Nat, 2 ^ 32 ≤ v → assemble (.word v) = none

/-- Words written out from the encoding tables of 30_encoding.md decode to the instructions they stand
for: one per family (a sanity statement). -/
def Obligations.WrittenWordsDecode : Prop :=
  decodeWord 0x00200145 = .setclass 0x20 5 0b000101 ∧
  decodeWord 0x10100002 = .incr 0x10 2 ∧
  decodeWord 0x31008005 = .mask 0x100 0x8005 ∧
  decodeWord 0x6030C004 = .gatherInsert 0x30 1 4 ∧
  decodeWord 0x6ABC4003 = .gatherInline 0xABC 1 3 ∧
  decodeWord 0x5FFFFFFF = .restart 0xFFFFFFF ∧
  decodeWord 0xE1FFFFF5 = .releaseMlock 0xFFFFF5 ∧
  decodeWord 0xEF123456 = .extendUndefF 0x123456 ∧
  decodeWord 0xFFFFFFFF = .chdone 0xFFFFFFF

/-! ### The BOUNDARY step -/

/-- When the scheduled worker is between instructions, its gather is not stopped and the section is free or
its own: if the four bytes at the cursor decode to an instruction, the step takes the section, moves the
cursor past the word, and is `exec` of that instruction (43_interpreter_loop.md R201, R203, R204); if the
memory does not admit the word the step is refused (20_memory.md R62, 93 U9, assumption log 3). -/
def Obligations.StepRunsDecodedInstruction : Prop :=
  ∀ (s : State) (c : Chan) (rest : List Event),
    Scheduled c rest s → AtPos c .idle s →
    stopped (s.ch c) (currentGather c s) = .go → sectionTaken c s = false →
    (∀ (b0 b1 b2 b3 : Byte) (i : Instr),
      s.mem.read (byteAddr (currentGather c s).wordIndex) = some b0 →
      s.mem.read (byteAddr (currentGather c s).wordIndex + 1) = some b1 →
      s.mem.read (byteAddr (currentGather c s).wordIndex + 2) = some b2 →
      s.mem.read (byteAddr (currentGather c s).wordIndex + 3) = some b3 →
      decode [b0, b1, b2, b3] = .ok (i, []) →
      ∃ t, step s = exec i t ∧
        t = { s with
          agenda := rest
          owner := some c
          active := c
          chs := s.chs.set c ((s.ch c).advance (s.ch c).reader) } ∧
        currentGather c t = { currentGather c s with get := (currentGather c s).get + 1 }) ∧
    (s.mem.readWord (currentGather c s).wordIndex = none →
      step s = .refused (.memoryNotAdmitted (byteAddr (currentGather c s).wordIndex).toNat))

/-- A worker that finds its gather not stopped and the section taken holds: nothing but the schedule
moves (R201, R206 (d); 00_scope.md R13). -/
def Obligations.TakenSectionHolds : Prop :=
  ∀ (s : State) (c d : Chan) (rest : List Event),
    Scheduled c rest s → AtPos c .idle s → stopped (s.ch c) (currentGather c s) = .go →
    s.owner = some d → d ≠ c → step s = .next { s with agenda := rest }

/-- The stop condition at a BOUNDARY of the outer gather, in the order of R202 (decision D8): disabled or
drained ends the run and never faults; only then the end boundary is fatal, and nothing is fetched
(60_exceptions.md R301, R308). -/
def Obligations.BoundaryStopsInOrder : Prop :=
  ∀ (s : State) (c : Chan) (rest : List Event),
    Scheduled c rest s → AtPos c .idle s → (s.ch c).inner = none →
    (s.ch c).gather.inlined = false →
    if (s.ch c).enabled = false ∨ (s.ch c).gather.get = (s.ch c).gather.put then
      step s = .next (runFinished c { s with agenda := rest })
    else (s.ch c).gather.get = (s.ch c).endPtr →
      step s = .next
        (faultTaken c .endReached ((s.ch c).gather.get.setWidth 32) { s with agenda := rest })

/-- A stop in the middle of an instruction (R205, decision D9): disabled or drained, a burst, a masked write
and a GATHER that awaits its base word are abandoned, and an inserted gather is dropped (45_gather.md R241,
R243); an outer gather at the end boundary faults. In all cases the cursor, the memory and what was written
stay. -/
def Obligations.DataWordStops : Prop :=
  ∀ (s : State) (c : Chan) (rest : List Event) (p : Pos), Scheduled c rest s → AtPos c p s →
    let u := { s with agenda := rest }
    let stops := fun (g : Gather) (left : State) =>
      if (s.ch c).enabled = false ∨ g.get = g.put then step s = .next (instrDone c left)
      else g.inlined = false ∧ g.get = (s.ch c).endPtr →
        step s = .next (faultTaken c .endReached (g.get.setWidth 32) u)
    ((∃ off left inc, p = .burst off left inc) ∨
      (∃ off bits i, p = .mask off bits i ∧ nextBit bits i ≠ none) → stops (currentGather c s) u) ∧
    ((∃ o ins inc n, p = .gatherBase o ins inc n) → stops (s.ch c).gather u) ∧
    ∀ g off inc, p = .insertBurst → (s.ch c).inner = some ⟨g, .insert off inc⟩ →
      stops g (u.setCh c { s.ch c with inner := none })

/-- START (48_cdma.md R282) of a parked worker; a worker without `start` has no step; and in every weakly
fair run (00_scope.md R9, decision D31) a worker whose `start` is raised takes START, unless the block is
reset first. -/
def Obligations.WorkerStartsOnSignal : Prop :=
  (∀ (s : State) (c : Chan) (rest : List Event), Scheduled c rest s → (s.ch c).running = false →
    if (s.ch c).start = true then
      step s = .next (State.setCh { s with agenda := rest } c
        { s.ch c with
          start := false
          stopped := false
          running := true
          inner := none
          pos := .idle
          call := none })
    else step s = .next { s with agenda := rest }) ∧
  ∀ (σ : Nat → State) (e : Nat → Event) (n : Nat) (c : Chan),
    InfiniteRun σ e → WeaklyFair σ e → ((σ n).ch c).running = false → ((σ n).ch c).start = true →
    ∃ m, n ≤ m ∧ ((e m = .worker c ∧ ((σ m).ch c).running = false ∧ ((σ (m + 1)).ch c).running = true) ∨
      ∃ h, e m = .host h .subsystemReset)

/-! ### Register-write instructions -/

/-- SETCLASS (44_module_write_opcodes.md R221, decision D14): it completes, selects the class if some
module is registered under it and no class if none is, and awaits the masked writes if there are any. -/
def Obligations.SetclassSelects : Prop :=
  ∀ (s : State) (offset : BitVec 12) (classId : BitVec 10) (bits : BitVec 6),
    ∃ t, exec (.setclass offset classId bits) s = .next t ∧ OnlyChannel s.active s t ∧
      (let cur := if s.registry.any (fun m => m.classId == classId.setWidth 16) then some classId
        else none
      let u := s.setCh s.active { s.ch s.active with cur := cur }
      t = if bits = 0 then instrDone s.active u
        else standing s.active (.mask (offset.setWidth 32) (bits.setWidth 16) 0) u)

/-- The heads of INCR and NONINCR (R222, R223): complete with `count = 0`, else a burst of `count` words
from `offset`; nothing else changes. -/
def Obligations.BurstHeadsComplete : Prop :=
  ∀ (s : State) (offset : BitVec 12) (n : BitVec 16),
    (∃ t, exec (.incr offset n) s = .next t ∧ OnlyChannel s.active s t ∧
      t = if n = 0 then instrDone s.active s
        else standing s.active (.burst (offset.setWidth 32) n true) s) ∧
    ∃ t, exec (.nonincr offset n) s = .next t ∧ OnlyChannel s.active s t ∧
      t = if n = 0 then instrDone s.active s
        else standing s.active (.burst (offset.setWidth 32) n false) s

/-- The head of MASK (R224): complete with `mask = 0`, else the masked writes follow; nothing else
changes. -/
def Obligations.MaskHeadCompletes : Prop :=
  ∀ (s : State) (offset : BitVec 12) (bits : BitVec 16),
    ∃ t, exec (.mask offset bits) s = .next t ∧ OnlyChannel s.active s t ∧
      t = if bits = 0 then instrDone s.active s
        else standing s.active (.mask (offset.setWidth 32) bits 0) s

/-- IMM (R225, R188, decision D12): the literal, zero-extended, is written to `offset` of the current
module. With no module selected the write is dropped and counted, and the instruction is complete; with a
module, what its handler asks of the core is performed in the same step up to the first request that holds
(R189, R9 (c); assumption log 9), and if it asks nothing the instruction is complete. -/
def Obligations.ImmWritesLiteral : Prop :=
  ∀ (s : State) (offset : BitVec 12) (v : BitVec 16), (s.ch s.active).pos = .idle →
    match currentModule s.active s with
    | none => ∃ t, exec (.imm offset v) s = .next t ∧ (∀ a, t.mem.read a = s.mem.read a) ∧
        t = instrDone s.active { s with
          out := .droppedWrite (.worker s.active) (offset.setWidth 32) (v.setWidth 32) :: s.out
          diag := { s.diag with droppedWrites := s.diag.droppedWrites + 1 } }
    | some m =>
      let reqs := handlerRequests m (offset.setWidth 32) (v.setWidth 32) s.fresh
      let u := { s with
        out := .modWrite (.worker s.active) m.classId (offset.setWidth 32) (v.setWidth 32) :: s.out
        fresh := s.fresh + 1 }
      exec (.imm offset v) s = continueCall s.active (runRequests (.worker s.active) reqs u) ∧
      (reqs = [] → ∃ t, exec (.imm offset v) s = .next t ∧ (∀ a, t.mem.read a = s.mem.read a) ∧
        t = instrDone s.active u)

/-- One data word of INCR and NONINCR, of MASK and SETCLASS, and of an inserted gather (R205, R222, R223,
R224, 45_gather.md R243): the cursor moves by one and the word is written to the burst's offset, to the
lowest set bit not yet written, or to the inserted gather's offset. With an offset above 0xFFF that has no
meaning (R226, decision D11); else, on a module that asks nothing of the core, the write shows outside or is
dropped and counted (R188), the instruction moves on or, at its last word, is complete, and nothing else
changes. -/
def Obligations.BurstDataWord : Prop :=
  ∀ (s : State) (c : Chan) (rest : List Event) (w : Word), Scheduled c rest s →
    let u := { s with agenda := rest }
    let word := fun (off : Word) (before after : Channel) (ended : Bool) =>
      step s = modWrite c off w (u.setCh c before) ∧
      if 0xFFF < off.toNat then step s = .refused (.offsetBeyond12 off)
      else Silent c off w s → ∃ n, step s = .next (State.setCh { u with
        owner := if ended then ownerAfterEnd c s else s.owner
        out := writeOutput c s off w :: s.out
        diag := diagAfter c 1 s
        fresh := n } c after)
    let x := (s.ch c).readOn 1
    (∀ off left inc, AtPos c (.burst off left inc) s → WordsAhead c (currentGather c s) [w] s →
      word off x
        { x with pos := if left = 1 then .idle else .burst (off + if inc then 1 else 0) (left - 1) inc }
        (left == 1)) ∧
    (∀ off bits i j, AtPos c (.mask off bits i) s → nextBit bits i = some j →
      WordsAhead c (currentGather c s) [w] s →
      word (off + BitVec.ofNat 32 j) { x with pos := .mask off bits j }
        { x with pos := if nextBit bits (j + 1) = none then .idle else .mask off bits (j + 1) }
        (nextBit bits (j + 1)).isNone) ∧
    ∀ g off inc, AtPos c .insertBurst s → (s.ch c).inner = some ⟨g, .insert off inc⟩ →
      WordsAhead c g [w] s →
      let h := { g with get := g.get + 1 }
      word off { s.ch c with inner := some ⟨h, .insert off inc⟩ }
        (if h.get = g.put then { s.ch c with inner := none, pos := .idle }
          else { s.ch c with inner := some ⟨h, .insert (off + if inc then 1 else 0) inc⟩ })
        (h.get == g.put)

/-- INCR and NONINCR from the fetch of their opcode word on (43 R201, R205, 44 R222, R223): run without
interruption on a module that asks nothing of the core, they write their `count` data words in stream
order, INCR to consecutive registers, NONINCR all to `offset`; they are complete with the cursor past the
last word, each dropped write is counted (R188), and nothing else changes. -/
def Obligations.BurstsWriteEveryWord : Prop :=
  ∀ (s : State) (c : Chan) (rest : List Event) (offset : BitVec 12) (n : BitVec 16)
    (ws : List Word) (inc : Bool),
    s.agenda = List.replicate (n.toNat + 1) (.worker c) ++ rest → AtPos c .idle s →
    sectionTaken c s = false → ws.length = n.toNat →
    WordsAhead c (currentGather c s)
      (encode (if inc then .incr offset n else .nonincr offset n) :: ws) s →
    (inc = true → offset.toNat + n.toNat ≤ 0x1000) → AlwaysSilent c s →
    ∃ m, runSteps (n.toNat + 1) s = .next (State.setCh { s with
      agenda := rest
      active := c
      owner := if s.cfg.granularity = .instruction then none else some c
      out := (List.zipWith
        (fun j w => writeOutput c s (offset.setWidth 32 + if inc then BitVec.ofNat 32 j else 0) w)
        (List.range n.toNat) ws).reverse ++ s.out
      diag := diagAfter c n.toNat s
      fresh := m } c ((s.ch c).readOn (n.toNat + 1)))

/-- MASK and SETCLASS from the fetch of their opcode word on (44 R221, R224): run without interruption on a
module that asks nothing of the core, they write one data word per set bit, the first to the lowest, to
`offset` plus the bit's number, SETCLASS to the module it has just selected; they are complete with the
cursor past the last word, each dropped write is counted (R188), and nothing else changes. -/
def Obligations.MaskWritesAscending : Prop :=
  ∀ (s : State) (c : Chan) (rest : List Event) (i : Instr) (offset : BitVec 12) (bits : BitVec 16)
    (cur : Option (BitVec 10)) (ws : List Word),
    (i = .mask offset bits ∧ cur = (s.ch c).cur) ∨
      (∃ k b, i = .setclass offset k b ∧ bits = b.setWidth 16 ∧
        cur = if s.registry.any (fun m => m.classId == k.setWidth 16) then some k else none) →
    s.agenda = List.replicate (ws.length + 1) (.worker c) ++ rest → AtPos c .idle s →
    sectionTaken c s = false →
    ws.length = ((List.range 16).filter bits.getLsbD).length →
    WordsAhead c (currentGather c s) (encode i :: ws) s →
    (∀ j, j < 16 → bits.getLsbD j = true → offset.toNat + j ≤ 0xFFF) →
    let u := s.setCh c { s.ch c with cur := cur }
    AlwaysSilent c u →
    ∃ m, runSteps (ws.length + 1) s = .next (State.setCh { s with
      agenda := rest
      active := c
      owner := if s.cfg.granularity = .instruction then none else some c
      out := (List.zipWith
        (fun j w => writeOutput c u (offset.setWidth 32 + BitVec.ofNat 32 j) w)
        ((List.range 16).filter bits.getLsbD) ws).reverse ++ s.out
      diag := diagAfter c ws.length u
      fresh := m } c ((u.ch c).readOn (ws.length + 1)))

/-! ### GATHER -/

/-- The heads of both forms of GATHER in a gather that is not inlined (45_gather.md R240): the base word
comes next; nothing else changes. -/
def Obligations.GatherHeadsAwaitBase : Prop :=
  ∀ (s : State) (offset : BitVec 12) (inc : BitVec 1) (n : BitVec 14),
    (currentGather s.active s).inlined = false →
    (∃ t, exec (.gatherInline offset inc n) s = .next t ∧ OnlyChannel s.active s t ∧
      t = standing s.active (.gatherBase offset false (inc == 1) n) s) ∧
    ∃ t, exec (.gatherInsert offset inc n) s = .next t ∧ OnlyChannel s.active s t ∧
      t = standing s.active (.gatherBase offset true (inc == 1) n) s

/-- A GATHER of either form and any count in an inlined gather is fatal, at decode (R240, 60 R301; the
record is decision D16). -/
def Obligations.NestedGatherFaults : Prop :=
  ∀ (s : State) (offset : BitVec 12) (inc : BitVec 1) (n : BitVec 14),
    (currentGather s.active s).inlined = true →
    exec (.gatherInline offset inc n) s =
      .next (faultTaken s.active .nestedGather (encode (.gatherInline offset inc n)) s) ∧
    exec (.gatherInsert offset inc n) s =
      .next (faultTaken s.active .nestedGather (encode (.gatherInsert offset inc n)) s)

/-- The base word of GATHER (R241, R242, R243, R244, decisions D5, D10, D37): it is consumed; `count = 0`
does nothing more; the insert form becomes a burst over the region, the section kept; the inline form
makes the region the current gather and gives the section up. -/
def Obligations.GatherBaseWord : Prop :=
  ∀ (s : State) (c : Chan) (rest : List Event) (offset : BitVec 12) (ins inc : Bool)
    (n : BitVec 14) (b : Word),
    Scheduled c rest s → AtPos c (.gatherBase offset ins inc n) s →
    WordsAhead c (s.ch c).gather [b] s →
    ∃ t, step s = .next t ∧ OnlyChannel c { s with agenda := rest } t ∧
      (let x := { s.ch c with
        gather := { (s.ch c).gather with get := (s.ch c).gather.get + 1 } }
      let g : Gather := ⟨b.extractLsb' 2 30, 0, n.setWidth 30, true⟩
      t.ch c = (if n = 0 then { x with pos := .idle }
        else if ins then
          { x with inner := some ⟨g, .insert (offset.setWidth 32) inc⟩, pos := .insertBurst }
        else { x with inner := some ⟨g, .inline⟩, pos := .idle }) ∧
      t.owner = if n = 0 then ownerAfterEnd c s else if ins then s.owner else ownerReleased c s)

/-- An inserted gather (R243): run without interruption on a module that asks nothing of the core, every
word left in its region is written, to consecutive registers or all to one; the outer cursor does not
move, the inner gather is gone, each dropped write is counted (R188), and nothing else changes. -/
def Obligations.InsertedGatherWritesEveryWord : Prop :=
  ∀ (s : State) (c : Chan) (rest : List Event) (g : Gather) (off : Word) (inc : Bool)
    (ws : List Word),
    s.agenda = List.replicate ws.length (.worker c) ++ rest → AtPos c .insertBurst s →
    (s.ch c).inner = some ⟨g, .insert off inc⟩ → g.inlined = true →
    ws ≠ [] → g.put = g.get + BitVec.ofNat 30 ws.length → WordsAhead c g ws s →
    (if inc then off.toNat + ws.length ≤ 0x1000 else off.toNat ≤ 0xFFF) → AlwaysSilent c s →
    ∃ m, runSteps ws.length s = .next (State.setCh { s with
      agenda := rest
      owner := ownerAfterEnd c s
      out := (List.zipWith
        (fun j w => writeOutput c s (off + if inc then BitVec.ofNat 32 j else 0) w)
        (List.range ws.length) ws).reverse ++ s.out
      diag := diagAfter c ws.length s
      fresh := m } c { s.ch c with inner := none, pos := .idle })

/-- The end of an inlined gather (43 R201, R209, 45 R244): drained, or the channel disabled, it is dropped
and the section is free of this worker; the outer cursor is as it was. -/
def Obligations.InlineGatherReturns : Prop :=
  ∀ (s : State) (c : Chan) (rest : List Event) (g : Gather),
    Scheduled c rest s → AtPos c .idle s → (s.ch c).inner = some ⟨g, .inline⟩ →
    (s.ch c).enabled = false ∨ g.get = g.put →
    ∃ t, step s = .next t ∧ OnlyChannel c { s with agenda := rest } t ∧
      t.ch c = { s.ch c with inner := none } ∧ t.owner = ownerReleased c s

/-! ### RESTART, CHDONE -/

/-- RESTART (47_restart_chdone.md R265, R266; the shift is the open parameter `RESTART_SHIFT` of decision D4,
a field of the configuration, assumption log 7, and the statement holds for every value of it): the
outer cursor is relocated, in an inlined gather that gather is dropped, and the instruction is complete;
nothing else changes. -/
def Obligations.RestartRelocates : Prop :=
  ∀ (s : State) (offset : BitVec 28),
    ∃ t, exec (.restart offset) s = .next t ∧ OnlyChannel s.active s t ∧
      (let target : Ptr := offset.setWidth 30 <<< s.cfg.restartShift
      let x := { s.ch s.active with
        gather := { (s.ch s.active).gather with get := target }
        pos := .idle }
      t.ch s.active = (match (s.ch s.active).inner with
        | some ⟨_, .inline⟩ => { x with inner := none }
        | _ => x) ∧
      t.owner = ownerAfterEnd s.active s)

/-- CHDONE (R267): its head ends the instruction and writes nothing else; and the step that fetches it
writes no state but the cursor's advance, taking the section and giving it up as every instruction does. -/
def Obligations.ChdoneChangesNothing : Prop :=
  (∀ (s : State) (ignored : BitVec 28),
    ∃ t, exec (.chdone ignored) s = .next t ∧ OnlyChannel s.active s t ∧ t = instrDone s.active s) ∧
  ∀ (s : State) (c : Chan) (rest : List Event) (ignored : BitVec 28),
    Scheduled c rest s → AtPos c .idle s → stopped (s.ch c) (currentGather c s) = .go →
    sectionTaken c s = false →
    s.mem.readWord (currentGather c s).wordIndex = some (0xF#4 ++ ignored) →
    step s = .next { s with
      agenda := rest
      active := c
      owner := if s.cfg.granularity = .instruction then none else some c
      chs := s.chs.set c ((s.ch c).advance (s.ch c).reader) }

/-! ### EXTEND and the mutex table -/

/-- ACQUIRE_MLOCK (46_extend.md R256, 41_mlock.md R164): on an enabled channel a free slot is acquired in
one step, a slot the CPU or any channel owns holds the worker with the section kept; on a disabled channel
it is abandoned (decision D23). Nothing but the slot and the worker's position changes. -/
def Obligations.AcquireMlock : Prop :=
  ∀ (s : State) (value : BitVec 24),
    let c := s.active
    let k : Fin 16 := (value.extractLsb' 0 4).toFin
    ∃ t, exec (.acquireMlock value) s = .next t ∧ (∀ a, t.mem.read a = s.mem.read a) ∧
      t = if (s.ch c).enabled = false then instrDone c s
        else if (s.ml k).cpuOwns = true ∨ (s.ml k).channelOwns = true then
          standing c (.inAcquire k) s
        else instrDone c (s.setMl k ⟨true, false, BitVec.ofNat 4 c⟩)

/-- RELEASE_MLOCK (R257, R165): on an enabled channel its own slot is released, the owner's number kept,
and a free slot is left as it is; a slot the CPU or another channel owns holds the worker, and the foreign
channel's case is counted once; on a disabled channel it is abandoned (decision D23). Nothing else
changes. -/
def Obligations.ReleaseMlock : Prop :=
  ∀ (s : State) (value : BitVec 24),
    let c := s.active
    let k : Fin 16 := (value.extractLsb' 0 4).toFin
    let foreign := (s.ml k).channelOwns = true ∧ (s.ml k).owner ≠ BitVec.ofNat 4 c
    ∃ t, exec (.releaseMlock value) s = .next t ∧ (∀ a, t.mem.read a = s.mem.read a) ∧
      t = if (s.ch c).enabled = false then instrDone c s
        else if foreign then
          standing c (.inRelease k)
            { s with diag := { s.diag with foreignRelease := s.diag.foreignRelease + 1 } }
        else if (s.ml k).cpuOwns = true then standing c (.inRelease k) s
        else instrDone c (s.setMl k { s.ml k with channelOwns := false })

/-- A worker held in ACQUIRE_MLOCK or RELEASE_MLOCK (R164, R165): scheduled again it holds without a change
while its condition holds; when it does not, the step acquires or releases the slot, or abandons if the
channel is disabled, and completes. -/
def Obligations.HeldMutexInstructionReevaluates : Prop :=
  ∀ (s : State) (c : Chan) (rest : List Event) (k : Fin 16), Scheduled c rest s →
    let u := { s with agenda := rest }
    (AtPos c (.inAcquire k) s →
      step s = .next
        (if (s.ch c).enabled = false then instrDone c u
        else if (s.ml k).cpuOwns = true ∨ (s.ml k).channelOwns = true then u
        else instrDone c (u.setMl k ⟨true, false, BitVec.ofNat 4 c⟩))) ∧
    (AtPos c (.inRelease k) s →
      step s = .next
        (if (s.ch c).enabled = false then instrDone c u
        else if (s.ml k).cpuOwns = true ∨
          ((s.ml k).channelOwns = true ∧ (s.ml k).owner ≠ BitVec.ofNat 4 c) then u
        else instrDone c (u.setMl k { s.ml k with channelOwns := false })))

/-- EXTEND with an undefined sub-operation (46_extend.md R258, 60 R301, R303; the record is decision D16):
it takes the fault UNKNOWN_EXTEND_SUBOP with the opcode word, and changes nothing else. -/
def Obligations.UndefinedSubopsFault : Prop :=
  ∀ (s : State) (v : BitVec 24),
    exec (.extendUndef2 v) s =
      .next (faultTaken s.active .unknownExtendSubop (0xE#4 ++ 0x2#4 ++ v) s) ∧
    exec (.extendUndef3 v) s =
      .next (faultTaken s.active .unknownExtendSubop (0xE#4 ++ 0x3#4 ++ v) s) ∧
    exec (.extendUndef4 v) s =
      .next (faultTaken s.active .unknownExtendSubop (0xE#4 ++ 0x4#4 ++ v) s) ∧
    exec (.extendUndef5 v) s =
      .next (faultTaken s.active .unknownExtendSubop (0xE#4 ++ 0x5#4 ++ v) s) ∧
    exec (.extendUndef6 v) s =
      .next (faultTaken s.active .unknownExtendSubop (0xE#4 ++ 0x6#4 ++ v) s) ∧
    exec (.extendUndef7 v) s =
      .next (faultTaken s.active .unknownExtendSubop (0xE#4 ++ 0x7#4 ++ v) s) ∧
    exec (.extendUndef8 v) s =
      .next (faultTaken s.active .unknownExtendSubop (0xE#4 ++ 0x8#4 ++ v) s) ∧
    exec (.extendUndef9 v) s =
      .next (faultTaken s.active .unknownExtendSubop (0xE#4 ++ 0x9#4 ++ v) s) ∧
    exec (.extendUndefA v) s =
      .next (faultTaken s.active .unknownExtendSubop (0xE#4 ++ 0xA#4 ++ v) s) ∧
    exec (.extendUndefB v) s =
      .next (faultTaken s.active .unknownExtendSubop (0xE#4 ++ 0xB#4 ++ v) s) ∧
    exec (.extendUndefC v) s =
      .next (faultTaken s.active .unknownExtendSubop (0xE#4 ++ 0xC#4 ++ v) s) ∧
    exec (.extendUndefD v) s =
      .next (faultTaken s.active .unknownExtendSubop (0xE#4 ++ 0xD#4 ++ v) s) ∧
    exec (.extendUndefE v) s =
      .next (faultTaken s.active .unknownExtendSubop (0xE#4 ++ 0xE#4 ++ v) s) ∧
    exec (.extendUndefF v) s =
      .next (faultTaken s.active .unknownExtendSubop (0xE#4 ++ 0xF#4 ++ v) s)

/-- A word whose opcode names no instruction (43_interpreter_loop.md R207, 60 R301, R303; the record is
decision D16): it takes the fault UNKNOWN_OPCODE with the opcode word, and changes nothing else. -/
def Obligations.UnknownOpcodesFault : Prop :=
  ∀ (s : State) (v : BitVec 28),
    exec (.unknown7 v) s = .next (faultTaken s.active .unknownOpcode (0x7#4 ++ v) s) ∧
    exec (.unknown8 v) s = .next (faultTaken s.active .unknownOpcode (0x8#4 ++ v) s) ∧
    exec (.unknown9 v) s = .next (faultTaken s.active .unknownOpcode (0x9#4 ++ v) s) ∧
    exec (.unknownA v) s = .next (faultTaken s.active .unknownOpcode (0xA#4 ++ v) s) ∧
    exec (.unknownB v) s = .next (faultTaken s.active .unknownOpcode (0xB#4 ++ v) s) ∧
    exec (.unknownC v) s = .next (faultTaken s.active .unknownOpcode (0xC#4 ++ v) s) ∧
    exec (.unknownD v) s = .next (faultTaken s.active .unknownOpcode (0xD#4 ++ v) s)

/-- Once `fault_out[c]` is set no step but subsystem reset clears or changes it, and the channel takes no
further run (60_exceptions.md R304, R307, decision D16). -/
def Obligations.FaultPersistsUntilReset : Prop :=
  ∀ (s t : State) (c : Chan) (f : FaultRec),
    ChannelsLawful s → step s = .next t → (∀ h, (nextEvent s).1 ≠ .host h .subsystemReset) →
    (s.ch c).fault = some f → (t.ch c).fault = some f ∧ (t.ch c).running = false

/-! ### The sync-point store -/

/-- The threshold comparison (40_syncpt.md R121): the source's formula over the 16-bit difference, its
four cases, and the half window they make. -/
def Obligations.ThresholdComparison : Prop :=
  ∀ (cnt : Word) (thr : BitVec 16),
    let diff := thr - cnt.setWidth 16
    let overflow := diff.getLsbD 15
    let isZero := decide (diff.setWidth 15 = 0)
    reached16 cnt thr = ((overflow && !isZero) || (!overflow && isZero)) ∧
    (diff = 0 → reached16 cnt thr = true) ∧
    (1 ≤ diff.toNat ∧ diff.toNat ≤ 0x7FFF → reached16 cnt thr = false) ∧
    (diff = 0x8000 → reached16 cnt thr = false) ∧
    (0x8001 ≤ diff.toNat → reached16 cnt thr = true) ∧
    reached16 cnt thr = decide ((cnt.setWidth 16 - thr).toNat ≤ 0x7FFF)

/-- `increment`, `set_counter` and `set_threshold` (R122, R123, R125; the truncation is decision D17)
complete, write their register of their sync-point and no other counter or threshold, and touch nothing
of the channels but their waiter records; an identifier out of range is refused (R141, decision D33). -/
def Obligations.StoreOperationsWrite : Prop :=
  ∀ (s : State) (h : Nat) (rest : List Event) (i : Fin 32) (r : SyncReq) (v : Word),
    Issued h (.sync r) rest s →
    (r = .increment i ∨ r = .setCounter i v ∨ r = .setThreshold i v →
      ∃ t, step s = .next t ∧ t.out.head? = some (.reply (.ctx h) .done) ∧
        (t.sp i).counter = (match r with
          | .increment _ => (s.sp i).counter + 1
          | .setCounter _ _ => v
          | _ => (s.sp i).counter) ∧
        (t.sp i).threshold = (match r with
          | .setThreshold _ _ => v.setWidth 16
          | _ => (s.sp i).threshold) ∧
        (∀ j, j ≠ i → (t.sp j).counter = (s.sp j).counter ∧
          (t.sp j).threshold = (s.sp j).threshold) ∧
        (∀ c, t.ch c = { s.ch c with waiter := (t.ch c).waiter }) ∧
        (∀ a, t.mem.read a = s.mem.read a) ∧ t.bases = s.bases ∧ t.mls = s.mls ∧
        t.irq.dest = s.irq.dest ∧ t.registry = s.registry ∧ t.owner = s.owner ∧ t.diag = s.diag) ∧
    (∀ id, 32 ≤ id → r = .increment id ∨ r = .setCounter id v ∨ r = .setThreshold id v →
      step s = .refused (.badIdentifier id))

/-- `n` increments of a sync-point add exactly `n` to its counter modulo 2^32, whatever waiters they wake
(R122). -/
def Obligations.IncrementsAddUp : Prop :=
  ∀ (s : State) (h n : Nat) (rest : List Event) (i : Fin 32),
    s.agenda = List.replicate n (.host h (.sync (.increment i))) ++ rest →
    (s.ctx h).job = .idle →
    ∃ t, runSteps n s = .next t ∧ t.agenda = rest ∧
      (t.sp i).counter = (s.sp i).counter + BitVec.ofNat 32 n

/-- The three waits issued by a host context (R130 to R133, decision D39): satisfied, they return at once
and touch nothing; else the context's record is enqueued in the list of its kind and the context holds. The
spec's lists have no order (R33, decision D30); that the record is put at the head of the list is the model's
DESIGN CHOICE (assumption log 18). -/
def Obligations.WaitsReturnOrEnqueue : Prop :=
  ∀ (s : State) (h : Nat) (rest : List Event) (i : Fin 32) (j : Fin 8) (v : Word),
    let cnt := (s.sp i).counter
    ∀ (r : SyncReq) (kind : WaitList) (w : Waiter) (now : Bool),
      ((r = .wait i v ∧ kind = .abs ∧ w = ⟨v, none, false, some (i, .abs)⟩ ∧
          now = reached16 cnt (v.setWidth 16)) ∨
        (r = .waitBaseRelative i j v ∧ kind = .rel ∧ w = ⟨v, some j, false, some (i, .rel)⟩ ∧
          now = reached16 cnt ((s.base j + v).setWidth 16)) ∨
        (r = .waitNextIncrement i ∧ kind = .inc ∧ w = ⟨0, none, false, some (i, .inc)⟩ ∧
          now = false)) →
      Issued h (.sync r) rest s →
      step s = .next
        (if now then { s with agenda := rest, out := .reply (.ctx h) .done :: s.out }
        else (State.setSp { s with agenda := rest } i
          ((s.sp i).setList kind (.ctx h :: (s.sp i).list kind))).setCtx h
            ⟨w, .inWait []⟩)

/-- The re-evaluation that ends a mutation (R127): of the lists of its sync-point exactly the waiters the
rule names leave and are signalled, every other record and every other sync-point stay as they were. -/
def Obligations.ReevaluationWakesExactly : Prop :=
  ∀ (s : State) (i : Fin 32) (incremented : Bool), WaitersCoherent s →
    let t := reevaluate i incremented s
    let wakes : AgentId → Prop := fun a =>
      (a ∈ (s.sp i).wAbs ∧
        reached16 (s.sp i).counter ((s.waiter a).threshold.setWidth 16) = true) ∨
      (a ∈ (s.sp i).wRel ∧ ∃ j, (s.waiter a).baseId = some j ∧
        reached16 (s.sp i).counter ((s.base j + (s.waiter a).threshold).setWidth 16) = true) ∨
      (a ∈ (s.sp i).wInc ∧ incremented = true)
    (∀ a k, a ∈ (t.sp i).list k ↔ a ∈ (s.sp i).list k ∧ ¬ wakes a) ∧
    (∀ a, wakes a → t.waiter a = { s.waiter a with place := none, signalled := true }) ∧
    (∀ a, ¬ wakes a → t.waiter a = s.waiter a) ∧
    (∀ j, j ≠ i → t.sp j = s.sp j) ∧
    (t.sp i).counter = (s.sp i).counter ∧ (t.sp i).threshold = (s.sp i).threshold

/-- The first request of a module handler's call and those after it, `qs` (42_fifo_registry.md R189), in the
step that made the write (R9 (c); assumption log 9, DEDUCED). A request that does not hold (`Performed`):
its effect happens, what it returns goes to its agent, and the step goes on with `qs`, for a worker's handler
and a host's alike; with an identifier out of range the step is refused (R141). A wait (R130 to R134): satisfied, the step
goes on with `qs` and the section is kept; else the worker's record is enqueued, at the head of its list by
the model's choice (assumption log 18, DESIGN CHOICE), the section is given up and `qs` are left for the end
of the wait. A push (R181, R206 (c), 70 R354): with room it adds its word and the step goes on; on a full
FIFO the worker holds with the section kept. After the last request the module write is complete, and with
it IMM and the last word of a burst. -/
def Obligations.HandlerWaitGivesUpSection : Prop :=
  (∀ (s : State) (c : Chan) (off v : Word) (m : Module) (q : CoreReq) (qs : List CoreReq),
    off.toNat ≤ 0xFFF → currentModule c s = some m → handlerRequests m off v s.fresh = q :: qs →
    let u := { s with
      out := .modWrite (.worker c) m.classId off v :: s.out
      fresh := s.fresh + 1 }
    let go := fun (t : State) => continueCall c (runRequests (.worker c) qs t)
    (∀ (i : Fin 32) (j : Fin 8) (th : Word) (r : SyncReq) (kind : WaitList) (w : Waiter) (now : Bool),
      q = .sync r →
      (r = .wait i th ∧ kind = .abs ∧ w = ⟨th, none, false, some (i, .abs)⟩ ∧
          now = reached16 (s.sp i).counter (th.setWidth 16)) ∨
        (r = .waitBaseRelative i j th ∧ kind = .rel ∧ w = ⟨th, some j, false, some (i, .rel)⟩ ∧
          now = reached16 (s.sp i).counter ((s.base j + th).setWidth 16)) ∨
        (r = .waitNextIncrement i ∧ kind = .inc ∧ w = ⟨0, none, false, some (i, .inc)⟩ ∧
          now = false) →
      modWrite c off v s =
        if now then go u
        else .next ((State.setCh { u with owner := ownerReleased c s } c
          { s.ch c with waiter := w, call := some ⟨qs, .inWait⟩ }).setSp i
            ((s.sp i).setList kind (.worker c :: (s.sp i).list kind)))) ∧
    (∀ w, q = .push w →
      modWrite c off v s =
        if (s.ch c).fifo.full then .next (u.setCh c { s.ch c with call := some ⟨q :: qs, .inPush⟩ })
        else go (u.setCh c { s.ch c with fifo := (s.ch c).fifo.push w })) ∧
    (∀ r t, q = .sync r → Performed (.worker c) u r t → modWrite c off v s = go t) ∧
    ∀ r id x, q = .sync r → 32 ≤ id →
      r = .increment id ∨ r = .setCounter id x ∨ r = .setThreshold id x →
      modWrite c off v s = .refused (.badIdentifier id)) ∧
  (∀ (a : AgentId) (s t : State) (r : SyncReq) (qs : List CoreReq), Performed a s r t →
    runRequests a (.sync r :: qs) s = runRequests a qs t ∧
    ∀ (i : Fin 32) (x : Word),
      (r = .increment i → (t.sp i).counter = (s.sp i).counter + 1) ∧
      (r = .setCounter i x → (t.sp i).counter = x) ∧
      (r = .setThreshold i x → (t.sp i).threshold = x.setWidth 16)) ∧
  ∀ (s : State) (c : Chan),
    ((s.ch c).pos = .idle ∨ ∃ off inc, (s.ch c).pos = .burst off 1 inc) →
    continueCall c (runRequests (.worker c) [] s) = .next (instrDone c s)

/-- The end of a hold inside a module write, with the requests `qs` left (none after a wait that was the last
request). A wait (R130 steps B and C, R134): not signalled, the worker holds; signalled, it takes the section
back if that is free and goes on with `qs` in the same step, and else keeps waiting for it; that `signalled`
is cleared first, and the section taken back in a later step if it is not free, is assumption log 17
(DEDUCED), and that `qs` are performed in the step that ends the hold is assumption log 9 (DEDUCED). With
`qs` empty that ends IMM and the last word of a burst. A push (R181): the worker holds while its FIFO is full
and then goes on. A host context (R129, decision D40) holds no section: signalled, it goes on at once. -/
def Obligations.WokenWorkerRetakesSection : Prop :=
  (∀ (s : State) (c : Chan) (rest : List Event) (qs : List CoreReq),
    Scheduled c rest s → (s.ch c).running = true →
    let u := { s with agenda := rest }
    let awake := { s.ch c with waiter := { (s.ch c).waiter with signalled := false } }
    let retaken := fun (x : Channel) => (u.setCh c { x with call := none }).setOwner (some c)
    let go := fun (t : State) => continueCall c (runRequests (.worker c) qs t)
    ((s.ch c).call = some ⟨qs, .inWait⟩ →
      step s =
        (if (s.ch c).waiter.signalled = false then .next u
        else if s.owner = none then go (retaken awake)
        else .next (u.setCh c { awake with call := some ⟨qs, .reacquire⟩ }))) ∧
    ((s.ch c).call = some ⟨qs, .reacquire⟩ →
      step s = (if s.owner = none then go (retaken (s.ch c)) else .next u)) ∧
    ((s.ch c).call = some ⟨[], .inWait⟩ → (s.ch c).waiter.signalled = true → s.owner = none →
      (s.ch c).pos = .idle ∨ (∃ off inc, (s.ch c).pos = .burst off 1 inc) →
      step s = .next (instrDone c (retaken awake))) ∧
    ∀ w, (s.ch c).call = some ⟨.push w :: qs, .inPush⟩ →
      step s =
        (if (s.ch c).fifo.full then .next u
        else go (u.setCh c { s.ch c with call := none, fifo := (s.ch c).fifo.push w }))) ∧
  ∀ (s : State) (h : Nat) (rest : List Event) (qs : List CoreReq),
    s.agenda = .resume h :: rest → (s.ctx h).job = .inWait qs →
    let u := { s with agenda := rest }
    let t := u.setCtx h ⟨{ (s.ctx h).waiter with signalled := false }, .idle⟩
    step s =
      (if (s.ctx h).waiter.signalled = false then .next u
      else continueHost h (runRequests (.ctx h) qs t)) ∧
    ((s.ctx h).waiter.signalled = true → qs = [] →
      step s = .next (t.emit (.reply (.ctx h) .done)))

/-- `base_set` and `base_increment` (R138, R139): they write the one base, and re-evaluate no waiter
(decisions D18, D29). -/
def Obligations.BasesDoNotWake : Prop :=
  ∀ (s : State) (h : Nat) (rest : List Event) (j : Fin 8) (v : Word),
    (Issued h (.sync (.baseSet j v)) rest s →
      step s = .next { s with
        agenda := rest
        bases := s.bases.set j v
        out := .reply (.ctx h) .done :: s.out }) ∧
    (Issued h (.sync (.baseIncrement j v)) rest s →
      step s = .next { s with
        agenda := rest
        bases := s.bases.set j (s.base j + v)
        out := .reply (.ctx h) .done :: s.out })

/-- `get_counter`, `get_threshold`, `threshold_crossed` and `base_get` (R124, R126, R128, R140): they
return the counter, the threshold zero-extended, the comparison, the base, write no state and never hold;
after reset `threshold_crossed` is true for every sync-point. -/
def Obligations.StoreReadsChangeNothing : Prop :=
  (∀ (s : State) (h : Nat) (rest : List Event) (i : Fin 32) (j : Fin 8),
    let answered := fun (r : Reply) => Host.Outcome.next (ρ := Refusal) (φ := Fault)
      { s with agenda := rest, out := .reply (.ctx h) r :: s.out }
    (Issued h (.sync (.getCounter i)) rest s → step s = answered (.word (s.sp i).counter)) ∧
    (Issued h (.sync (.getThreshold i)) rest s →
      step s = answered (.word ((s.sp i).threshold.setWidth 32))) ∧
    (Issued h (.sync (.thresholdCrossed i)) rest s →
      step s = answered (.flag (reached16 (s.sp i).counter (s.sp i).threshold))) ∧
    (Issued h (.sync (.baseGet j)) rest s → step s = answered (.word (s.base j)))) ∧
  ∀ i, thresholdCrossed i State.reset = true

/-- Step 1 of `control(stop=true)` (48_cdma.md R281, 40_syncpt.md R136): a channel whose worker is enqueued in
a sync-point wait is released, although the counter has not moved; a channel whose worker is not is disabled
and nothing else happens; either way the context holds for the worker's end. A `control` on a channel that
another holds on is refused (93 U12). An enqueued wait is cancelled on this path only (R137, decision D40):
`unlock_waiter` and `unlock_waiter_forced` wake the record of a disabled channel and are refused on that of
an enabled one, which is assumption log 34 (DEDUCED); a record that is not enqueued has no `unlock_waiter`
(R135, 93 U5), and `unlock_waiter_forced` leaves it (R136). -/
def Obligations.ForcedStopReleasesWaiter : Prop :=
  ∀ (s : State) (h : Nat) (c : Chan) (rest : List Event) (stop rg fp : Bool), WaitersCoherent s →
    let u := { s with agenda := rest }
    let freed := fun (t : State) =>
      (t.ch c).waiter = { (s.ch c).waiter with place := none, signalled := true } ∧
      (∀ j l, AgentId.worker c ∉ (t.sp j).list l) ∧
      (∀ j l a, a ≠ .worker c → (a ∈ (t.sp j).list l ↔ a ∈ (s.sp j).list l)) ∧
      (∀ j, (t.sp j).counter = (s.sp j).counter)
    (Issued h (.control c true rg fp) rest s → controlPending c s = false →
      if (s.ch c).waiter.place = none then
        step s = .next ((u.setCh c { s.ch c with enabled := false }).setCtx h
          { s.ctx h with job := .inControl c rg fp })
      else ∃ t, step s = .next t ∧ (t.ch c).enabled = false ∧ freed t ∧
        (t.ctx h).job = .inControl c rg fp) ∧
    (Issued h (.control c stop rg fp) rest s → controlPending c s = true →
      step s = .refused .controlOverlap) ∧
    (Issued h (.unlockWaiter c) rest s ∨ Issued h (.unlockWaiterForced c) rest s →
      (s.ch c).waiter.place ≠ none →
      if (s.ch c).enabled = true then step s = .refused .cancelWithoutStop
      else ∃ t, step s = .next t ∧ freed t) ∧
    ((s.ch c).waiter.place = none →
      (Issued h (.unlockWaiter c) rest s → step s = .refused .waiterNotEnqueued) ∧
      (Issued h (.unlockWaiterForced c) rest s →
        step s = .next { u with out := .reply (.ctx h) .done :: s.out }))

/-! ### The IRQ router -/

/-- Latching and the lines (60_exceptions.md R313, R316, decision D20): a re-evaluation sets the pending
bit of its sync-point on every CPU it is routed to if the threshold is reached, changes no other pending
bit, leaves the lines at the level of the pending words, and invokes a line's callback once if that line has
changed, raise or lower, and not otherwise. Where both lines change their callbacks stand in the order of
assumption log 32 (DESIGN CHOICE). -/
def Obligations.ReevaluationLatches : Prop :=
  ∀ (s : State) (i : Fin 32) (incremented : Bool),
    let t := reevaluate i incremented s
    let callback := fun (p : Fin 2) => if t.line p = s.line p then []
      else if t.line p then [Output.irqRaise p] else [Output.irqLower p]
    (∀ p n, n < 32 → (t.pending p).getLsbD n =
      ((s.pending p).getLsbD n || (decide (n = i.val) && (s.dest p).getLsbD n &&
        reached16 (s.sp i).counter (s.sp i).threshold))) ∧
    (∀ p, t.dest p = s.dest p ∧ t.line p = decide (t.pending p ≠ 0)) ∧
    t.out = callback 1 ++ callback 0 ++ s.out

/-- The router's registers (R314, R315, R316, decision D20): setting a destination mask latches nothing;
reading changes nothing; clearing clears the bits of its mask only, and moves the line with one callback
if its level changes. -/
def Obligations.RouterRegisters : Prop :=
  ∀ (s : State) (h : Nat) (rest : List Event) (p : Fin 2) (m : Word), LinesFollowPending s →
    (Issued h (.irqSetDest p m) rest s →
      step s = .next { s with
        agenda := rest
        irq := { s.irq with dest := s.irq.dest.set p m }
        out := .reply (.ctx h) .done :: s.out }) ∧
    (Issued h (.irqGetDest p) rest s →
      step s = .next { s with agenda := rest, out := .reply (.ctx h) (.word (s.dest p)) :: s.out }) ∧
    (Issued h (.irqGetStatus p) rest s →
      step s = .next { s with
        agenda := rest
        out := .reply (.ctx h) (.word (s.pending p)) :: s.out }) ∧
    (Issued h (.irqClearStatus p m) rest s →
      step s = .next { s with
        agenda := rest
        irq := { s.irq with
          pending := s.irq.pending.set p (s.pending p &&& ~~~m)
          line := s.irq.line.set p (decide (s.pending p &&& ~~~m ≠ 0)) }
        out := .reply (.ctx h) .done ::
          if s.pending p ≠ 0 ∧ s.pending p &&& ~~~m = 0 then .irqLower p :: s.out else s.out })

/-! ### The CPU mutex flavour, the FIFOs, the registry -/

/-- `cpu_try_acquire`, `cpu_release` and `cpu_get_raw` (41_mlock.md R161, R162, R163, decision D21). -/
def Obligations.CpuMutexOperations : Prop :=
  ∀ (s : State) (h : Nat) (rest : List Event) (k : Fin 16),
    let reply := fun (r : Reply) (t : State) => { t with agenda := rest, out := .reply (.ctx h) r :: t.out }
    (Issued h (.cpuTryAcquire k) rest s →
      step s = .next (if (s.ml k).channelOwns = true then reply (.flag false) s
        else reply (.flag true) (s.setMl k { s.ml k with cpuOwns := true }))) ∧
    (Issued h (.cpuRelease k) rest s →
      step s = .next (reply .done (s.setMl k { s.ml k with cpuOwns := false }))) ∧
    (Issued h (.cpuGetRaw k) rest s →
      step s = .next
        (reply (.mutex (s.ml k).channelOwns (s.ml k).cpuOwns (s.ml k).owner) s))

/-- A FIFO is first in, first out (42_fifo_registry.md R184): a push that does not hold adds at the end and a
pop that does not hold takes the front, so no entry is lost, duplicated or reordered; the number of entries
is `(wr - rd) mod 32`. -/
def Obligations.FifoKeepsOrder : Prop :=
  ∀ (f : Fifo) (v : Word),
    (f.full = false → (f.push v).entries = f.entries ++ [v]) ∧
    (f.empty = false → f.entries = f.front :: f.pop.entries) ∧
    f.entries.length = (f.wr - f.rd).toNat ∧ f.entries.length ≤ 31

/-- `push` and `pop` issued by a host context (R181, R182, R183): they return at once, or hold on a full or an
empty FIFO and change no FIFO; scheduled again they go on as soon as they can. Full is 31 entries, empty is
none (decision D24). -/
def Obligations.FifoOperationsHold : Prop :=
  ∀ (s : State) (h : Nat) (c : Chan) (rest : List Event) (v : Word),
    let u := { s with agenda := rest }
    let pushed := fun (t : State) => t.setCh c { t.ch c with fifo := (t.ch c).fifo.push v }
    let popped := fun (t : State) => t.setCh c { t.ch c with fifo := (t.ch c).fifo.pop }
    ((s.ch c).fifo.full = true ↔ (s.ch c).fifo.entries.length = Config.fifoUsable) ∧
    ((s.ch c).fifo.empty = true ↔ (s.ch c).fifo.entries = []) ∧
    (Issued h (.push c v) rest s →
      step s = .next (if (s.ch c).fifo.full then u.setCtx h { s.ctx h with job := .inPush c v }
        else (pushed u).emit (.reply (.ctx h) .done))) ∧
    (Issued h (.pop c) rest s →
      step s = .next (if (s.ch c).fifo.empty then u.setCtx h { s.ctx h with job := .inPop c }
        else (popped u).emit (.reply (.ctx h) (.word (s.ch c).fifo.front)))) ∧
    (s.agenda = .resume h :: rest → (s.ctx h).job = .inPush c v →
      step s = .next (if (s.ch c).fifo.full then u
        else ((pushed u).setCtx h { s.ctx h with job := .idle }).emit (.reply (.ctx h) .done))) ∧
    (s.agenda = .resume h :: rest → (s.ctx h).job = .inPop c →
      step s = .next (if (s.ch c).fifo.empty then u
        else ((popped u).setCtx h { s.ctx h with job := .idle }).emit
          (.reply (.ctx h) (.word (s.ch c).fifo.front)))) ∧
    (Issued h (.popNonempty c) rest s →
      step s = (if (s.ch c).fifo.empty then .refused .popEmpty
        else .next ((popped u).emit (.reply (.ctx h) (.word (s.ch c).fifo.front)))))

/-- `register` and `lookup` (R185, R186; the refusals are decision D25 and 93 U8, U10): before any worker
runs a class not yet registered is registered, a class registered is refused, and a lookup finds exactly
what is registered; and every step keeps the class ids of the registry distinct (10_state.md R38). -/
def Obligations.RegistryOperations : Prop :=
  (∀ (s : State) (h : Nat) (rest : List Event) (m : Module) (classId : BitVec 16),
    (Issued h (.register m) rest s → anyRunning s = false →
      step s = if m.classId ∈ s.registry.map Module.classId then
          .refused (.duplicateClass m.classId)
        else .next { s with
          agenda := rest
          registry := s.registry ++ [m]
          out := .reply (.ctx h) .done :: s.out }) ∧
    (RegistryUnique s → Issued h (.lookup classId) rest s →
      ∃ r, step s = .next { s with agenda := rest, out := .reply (.ctx h) (.found r) :: s.out } ∧
        ∀ n, r = some n ↔ n ∈ s.registry ∧ n.classId = classId)) ∧
  ∀ s t : State, RegistryUnique s → step s = .next t → RegistryUnique t

/-- Module accesses issued by a host context (R188, R190; 60 R309). A write beyond 0xFFF is refused (decision
D11); one to an unregistered class is dropped and counted, which R309 says of a channel's write and
assumption log 22 (DESIGN CHOICE) of a host's; one to a module reaches it, what its handler asks is performed
in the context of the caller (R189; assumption logs 9 and 11), a first request that does not hold with its
effect, and if it asks nothing the operation returns. Of another host context only the Waiter record may
change, which a request of the handler may wake (40_syncpt.md R127), and nothing if the handler asks nothing.
A read of an unregistered class is refused (93 U11), and what another read returns is free, at every offset
(assumption log 24, DESIGN CHOICE). -/
def Obligations.HostModuleAccess : Prop :=
  ∀ (s : State) (h : Nat) (rest : List Event) (k : BitVec 16) (off v : Word),
    (Issued h (.dispatchWrite k off v) rest s →
      if 0xFFF < off.toNat then step s = .refused (.offsetBeyond12 off)
      else match lookupModule k s with
      | none => step s = .next { s with
          agenda := rest
          out := .reply (.ctx h) .done :: .droppedWrite (.ctx h) off v :: s.out
          diag := { s.diag with droppedWrites := s.diag.droppedWrites + 1 } }
      | some m =>
        let u := { s with
          agenda := rest
          out := .modWrite (.ctx h) k off v :: s.out
          fresh := s.fresh + 1 }
        step s = continueHost h (runRequests (.ctx h) (handlerRequests m off v s.fresh) u) ∧
        (handlerRequests m off v s.fresh = [] →
          step s = .next { u with out := .reply (.ctx h) .done :: u.out }) ∧
        (∀ r qs t, handlerRequests m off v s.fresh = .sync r :: qs → Performed (.ctx h) u r t →
          step s = continueHost h (runRequests (.ctx h) qs t) ∧
          (qs = [] → step s = .next { t with out := .reply (.ctx h) .done :: t.out })) ∧
        ∀ t g, g ≠ h → step s = .next t → (t.ctx g).job = (s.ctx g).job ∧
          (handlerRequests m off v s.fresh = [] → t.ctx g = s.ctx g)) ∧
    (Issued h (.dispatchRead k off) rest s →
      match lookupModule k s with
      | none => step s = .refused (.readUnregistered k)
      | some _ => ∃ r, step s = .next { s with
          agenda := rest
          out := .reply (.ctx h) (.word r) :: .modRead (.ctx h) k off r :: s.out
          fresh := s.fresh + 1 })

/-! ### The CDMA engine -/

/-- `set_base`, `set_put` and `set_end` (48_cdma.md R277, R278, R279, R280, decisions D5, D16): bits 31:2 are
recorded; the first two raise `start` on an enabled, idle, not faulted channel with words queued; nothing
else changes. -/
def Obligations.PointerRegistersAreSet : Prop :=
  ∀ (s : State) (h : Nat) (c : Chan) (rest : List Event) (v : Word),
    let p : Ptr := v.extractLsb' 2 30
    let g := (s.ch c).gather
    let raised := fun (x : Channel) =>
      if x.enabled = true ∧ x.gather.get ≠ x.gather.put ∧ x.running = false ∧ x.fault = none then
        { x with start := true }
      else x
    let done := fun (x : Channel) => Host.Outcome.next (ρ := Refusal) (φ := Fault)
      ((State.setCh { s with agenda := rest } c x).emit (.reply (.ctx h) .done))
    (Issued h (.setBase c v) rest s →
      step s = done (raised { s.ch c with gather := { g with base := p } })) ∧
    (Issued h (.setPut c v) rest s →
      step s = done (raised { s.ch c with gather := { g with put := p } })) ∧
    (Issued h (.setEnd c v) rest s → step s = done { s.ch c with endPtr := p })

/-- `control` without `stop` (R281): `get` is set to 0 or to `put` if `reset_get` asks for it, the channel
is enabled, and a run starts if words are queued; nothing else changes. -/
def Obligations.ControlEnables : Prop :=
  ∀ (s : State) (h : Nat) (c : Chan) (rest : List Event) (rg fp : Bool),
    Issued h (.control c false rg fp) rest s → controlPending c s = false →
    let g := (s.ch c).gather
    let get := if rg then (if fp then g.put else 0) else g.get
    let x := { s.ch c with
      gather := { g with get := get }
      enabled := true
      start := (s.ch c).start || (get != g.put && !(s.ch c).running && (s.ch c).fault.isNone) }
    step s = .next
      ((State.setCh { s with agenda := rest } c x).emit (.reply (.ctx h) .done))

/-- When `control(stop=true)` returns (R281, R285): it returned because the worker has ended its run; the
channel is disabled, has no inner gather, does not own the section and is in no waiter list; and `get` is
kept, 0 or `put` as asked. Until then the context holds. -/
def Obligations.StopIsSynchronous : Prop :=
  ∀ (s : State) (h : Nat) (c : Chan) (rest : List Event) (rg fp : Bool),
    s.agenda = .resume h :: rest → (s.ctx h).job = .inControl c rg fp →
    ChannelsLawful s → SectionExclusive s → WaitersCoherent s → StopsPending s →
    if (s.ch c).running = true then step s = .next { s with agenda := rest }
    else ∃ t, step s = .next t ∧ (t.ctx h).job = .idle ∧
      t.out = .reply (.ctx h) .done :: s.out ∧
      (t.ch c).enabled = false ∧ (t.ch c).running = false ∧ (t.ch c).inner = none ∧
      t.owner ≠ some c ∧ (t.ch c).waiter.place = none ∧
      (t.ch c).gather = { (s.ch c).gather with
        get := if rg then (if fp then (s.ch c).gather.put else 0) else (s.ch c).gather.get }

/-- Who writes the outer cursor (R286): the worker's own fetch (plus one) and its RESTART, which it has
fetched at a BOUNDARY from the cursor of the gather it interprets, to that RESTART's target (R265; the shift
is the open parameter of decision D4, assumption log 7), and `control` (to 0 or to `put`); beyond these,
subsystem reset puts it to 0. The other host operations, and `init`, which runs on a channel in its reset
state only (assumption log 16), and stores leave it. -/
def Obligations.OnlyTheseWriteGet : Prop :=
  ∀ (s t : State) (c : Chan), step s = .next t →
    let get := (s.ch c).gather.get
    let get' := (t.ch c).gather.get
    match (nextEvent s).1 with
    | .worker d => get' = get ∨ (d = c ∧ (get' = get + 1 ∨
        ∃ (w : Word) (offset : BitVec 28),
          AtPos c .idle s ∧ stopped (s.ch c) (currentGather c s) = .go ∧
          s.mem.readWord (currentGather c s).wordIndex = some w ∧ decodeWord w = .restart offset ∧
          get' = offset.setWidth 30 <<< s.cfg.restartShift))
    | .host _ (.control d _ true fp) =>
      get' = get ∨ (d = c.val ∧ get' = if fp then (s.ch c).gather.put else 0)
    | .host _ .subsystemReset => get' = 0
    | .resume h => get' = get ∨ ∃ fp, (s.ctx h).job = .inControl c true fp ∧
        get' = if fp then (s.ch c).gather.put else 0
    | _ => get' = get

/-! ### Reset -/

/-- The state after subsystem init (10_state.md R44, 70_reset_and_hazards.md R340, R341). Only the counters
and Disabled are the source's; the rest is the spec's decision D26. -/
def Obligations.ResetValues : Prop :=
  (∀ i, State.reset.sp i = ⟨0, 0, [], [], []⟩) ∧ (∀ j, State.reset.base j = 0) ∧
  (∀ k, State.reset.ml k = ⟨false, false, 0⟩) ∧
  (∀ p, State.reset.dest p = 0 ∧ State.reset.pending p = 0 ∧ State.reset.line p = false) ∧
  (∀ c, (State.reset.ch c).gather = ⟨0, 0, 0, false⟩ ∧ (State.reset.ch c).endPtr = 0 ∧
    (State.reset.ch c).enabled = false ∧ (State.reset.ch c).running = false ∧
    (State.reset.ch c).start = false ∧ (State.reset.ch c).stopped = true ∧
    (State.reset.ch c).cur = none ∧ (State.reset.ch c).inner = none ∧
    (State.reset.ch c).pos = .idle ∧ (State.reset.ch c).fault = none ∧
    (State.reset.ch c).waiter = ⟨0, none, false, none⟩ ∧ (State.reset.ch c).fifo.empty = true ∧
    (State.reset.ch c).state = .disabled) ∧
  State.reset.registry = [] ∧ State.reset.owner = none ∧ State.reset.diag = ⟨0, 0⟩ ∧
  ∀ i, thresholdCrossed i State.reset = true

/-- Subsystem reset (70 R340 (b), R342, R343, decision D26; the memory, the configuration and the host
stay, and no callback is made, assumption log 20, DESIGN CHOICE): with no host context held, every element of
the block but the registry takes its reset value; with one held it is refused. That a context counts as held
until its operation has returned is assumption log 33 (DESIGN CHOICE), and that a FIFO's storage, which the
rules leave unspecified, becomes 0 is assumption log 12 (DESIGN CHOICE). -/
def Obligations.SubsystemResetClears : Prop :=
  ∀ (s : State) (h : Nat) (rest : List Event), Issued h .subsystemReset rest s →
    if ∃ e ∈ s.hosts, e.2.job ≠ .idle then step s = .refused .resetDuringHold
    else step s = .next { s with
      agenda := rest
      chs := State.reset.chs
      sps := State.reset.sps
      bases := State.reset.bases
      mls := State.reset.mls
      irq := State.reset.irq
      owner := none
      diag := ⟨0, 0⟩
      out := .reply (.ctx h) .done :: s.out }

/-! ### Invariants -/

/-- Every step keeps the memory in canonical form. The form, and what an unlisted address reads as, are the
model's own representation of the DMA window (assumption logs 3 and 13, DESIGN CHOICE): R61 and R62 give the
window and its reads, and no form. -/
def Obligations.StepKeepsMemoryCanonical : Prop :=
  ∀ s t : State, s.mem.wf = true → step s = .next t → t.mem.wf = true

/-- The block never writes the DMA window, and nothing changes the configuration (20_memory.md R61,
00_scope.md R7): the memory of the next state is the old one unless the event is a store by the window's
owner, which always completes, changes nothing but the memory, leaves there exactly the bytes it stores, for
any later fetch to see (R71), and changes no byte outside them. -/
def Obligations.BlockNeverWritesMemory : Prop :=
  (∀ s t : State, step s = .next t → t.cfg = s.cfg ∧
    match (nextEvent s).1 with
    | .store addr bytes =>
      (∀ a : BitVec 32, bytes.length ≤ (a - addr).toNat → t.mem.read a = s.mem.read a) ∧
        (bytes.length ≤ 2 ^ 32 → ∀ (k : Nat) (h : k < bytes.length),
          t.mem.read (addr + BitVec.ofNat 32 k) = some bytes[k])
    | _ => t.mem = s.mem) ∧
  ∀ (s : State) (addr : BitVec 32) (bytes : List Byte) (rest : List Event),
    s.agenda = .store addr bytes :: rest →
    ∃ t, step s = .next t ∧ t = { s with agenda := rest, mem := t.mem }

/-- Every step keeps the mutex table exclusive (41_mlock.md R160). -/
def Obligations.StepKeepsMutexExclusive : Prop :=
  ∀ s t : State, MutexExclusive s → step s = .next t → MutexExclusive t

/-- Every step keeps the IRQ lines at the level of the pending words (10_state.md R36, 60 R316). -/
def Obligations.StepKeepsLines : Prop :=
  ∀ s t : State, LinesFollowPending s → step s = .next t → LinesFollowPending t

/-- Every step keeps every channel lawful and the global section exclusive: at most one worker stands
inside an instruction outside a sync-point wait, so no two module writes overlap (43_interpreter_loop.md
R206, 20_memory.md R72; 10_state.md R24, R27; 60 R307). -/
def Obligations.StepKeepsSectionExclusive : Prop :=
  ∀ s t : State, ChannelsLawful s → SectionExclusive s → step s = .next t →
    ChannelsLawful t ∧ SectionExclusive t

/-- Every step keeps the waiter lists and the waiter records coherent, and the channels of pending stops
disabled (10_state.md R28, R33, 40_syncpt.md R129, 48_cdma.md R285). -/
def Obligations.StepKeepsWaitersCoherent : Prop :=
  ∀ s t : State, ChannelsLawful s → HostsCanonical s → WaitersCoherent s → StopsPending s →
    step s = .next t → HostsCanonical t ∧ WaitersCoherent t ∧ StopsPending t

/-- The state after subsystem init has every invariant. -/
def Obligations.ResetHasInvariants : Prop :=
  State.reset.mem.wf = true ∧ MutexExclusive State.reset ∧ LinesFollowPending State.reset ∧
  ChannelsLawful State.reset ∧ SectionExclusive State.reset ∧ HostsCanonical State.reset ∧
  WaitersCoherent State.reset ∧ StopsPending State.reset ∧ RegistryUnique State.reset
end

