-- ==== Sys2Proof/Laws/Config.lean ====
section
/-! SUPPORT. The types of the model are those the parameters of 00_scope.md R7 give: one lemma per
parameter. -/

namespace Sys2Proof.Machine

theorem nbSyncpts_eq (s : State) : s.sps.size = Config.fixed.nbSyncpts := rfl
theorem nbBases_eq (s : State) : s.bases.size = Config.fixed.nbBases := rfl
theorem nbMlocks_eq (s : State) : s.mls.size = Config.fixed.nbMlocks := rfl
theorem nbChannels_eq (s : State) :
    s.chs.size = Config.fixed.nbChannels ∧ Chan = Fin Config.fixed.nbChannels := ⟨rfl, rfl⟩
theorem nbCpus_eq (s : State) : s.irq.dest.size = Config.fixed.nbCpus ∧
    s.irq.pending.size = Config.fixed.nbCpus ∧ s.irq.line.size = Config.fixed.nbCpus :=
  ⟨rfl, rfl, rfl⟩

theorem counterW_eq :
    SyncPoint.counter = (SyncPoint.counter : SyncPoint → BitVec Config.fixed.counterW) := rfl
theorem cmpW_eq :
    SyncPoint.threshold = (SyncPoint.threshold : SyncPoint → BitVec Config.fixed.cmpW) := rfl
theorem baseW_eq : State.base = (State.base : State → Fin 8 → BitVec Config.fixed.baseW) := rfl
theorem ptrW_eq : Ptr = BitVec Config.fixed.ptrW := rfl
theorem wordW_eq : Word = BitVec Config.fixed.wordW := rfl
theorem chidW_eq : Mlock.owner = (Mlock.owner : Mlock → BitVec Config.fixed.chidW) := rfl
theorem regClassW_eq :
    Module.classId = (Module.classId : Module → BitVec Config.fixed.regClassW) := rfl
theorem classW_eq :
    Channel.cur = (Channel.cur : Channel → Option (BitVec Config.fixed.classW)) := rfl

theorem opcodeW_eq :
    Opcodes.setclass = (Opcodes.setclass : Opcodes → BitVec Config.fixed.opcodeW) := rfl
theorem offsetW_eq : fieldOffset = (fieldOffset : Word → BitVec Config.fixed.offsetW) ∧
    Config.maxOffset.toNat = 2 ^ Config.fixed.offsetW - 1 := ⟨rfl, rfl⟩
theorem gatherCountW_eq : Instr.gatherInline =
    (Instr.gatherInline : BitVec 12 → BitVec 1 → BitVec Config.fixed.gatherCountW → Instr) := rfl

theorem fifoSlots_eq (f : Fifo) : f.buf.size = Config.fixed.fifoSlots := rfl
/-- A FIFO holds at most `FIFO_USABLE` entries, and is full with that many (10_state.md R37). -/
theorem fifoUsable_eq (f : Fifo) :
    f.held ≤ Config.fixed.fifoUsable ∧ (f.full = true ↔ f.held = Config.fixed.fifoUsable) := by
  have h : f.full = true ↔ f.held = 31 := by
    have h1 : (1 : BitVec 5).toNat = 1 := rfl
    simp only [Fifo.full, Fifo.held, beq_iff_eq, ← BitVec.toNat_inj, BitVec.toNat_add,
      BitVec.toNat_sub]
    have := f.rd.isLt; have := f.wr.isLt
    omega
  refine ⟨?_, h⟩
  have := (f.wr - f.rd).isLt
  show (f.wr - f.rd).toNat ≤ 31
  omega
/-- At most `MAX_NEST` inner gathers (10_state.md R24). -/
theorem maxNest_eq (x : Channel) : x.inner.toList.length ≤ Config.fixed.maxNest := by
  cases x.inner <;> simp [Config.fixed]

end Sys2Proof.Machine
end

