-- ==== Sys2Proof/Laws/State.lean ====
section
/-! SUPPORT. One lemma per field, and per register file, per update of the state: true by `rfl`, or by
the law of the register file that is written. -/

namespace Sys2Proof.Machine

/-! ### `setCh` -/

@[simp] theorem setCh_sps (s : State) (c : Chan) (x : Channel) : (s.setCh c x).sps = s.sps := rfl
@[simp] theorem setCh_bases (s : State) (c : Chan) (x : Channel) : (s.setCh c x).bases = s.bases := rfl
@[simp] theorem setCh_mls (s : State) (c : Chan) (x : Channel) : (s.setCh c x).mls = s.mls := rfl
@[simp] theorem setCh_irq (s : State) (c : Chan) (x : Channel) : (s.setCh c x).irq = s.irq := rfl
@[simp] theorem setCh_registry (s : State) (c : Chan) (x : Channel) : (s.setCh c x).registry = s.registry := rfl
@[simp] theorem setCh_owner (s : State) (c : Chan) (x : Channel) : (s.setCh c x).owner = s.owner := rfl
@[simp] theorem setCh_diag (s : State) (c : Chan) (x : Channel) : (s.setCh c x).diag = s.diag := rfl
@[simp] theorem setCh_mem (s : State) (c : Chan) (x : Channel) : (s.setCh c x).mem = s.mem := rfl
@[simp] theorem setCh_cfg (s : State) (c : Chan) (x : Channel) : (s.setCh c x).cfg = s.cfg := rfl
@[simp] theorem setCh_hosts (s : State) (c : Chan) (x : Channel) : (s.setCh c x).hosts = s.hosts := rfl
@[simp] theorem setCh_active (s : State) (c : Chan) (x : Channel) : (s.setCh c x).active = s.active := rfl
@[simp] theorem setCh_agenda (s : State) (c : Chan) (x : Channel) : (s.setCh c x).agenda = s.agenda := rfl
@[simp] theorem setCh_out (s : State) (c : Chan) (x : Channel) : (s.setCh c x).out = s.out := rfl
@[simp] theorem setCh_fresh (s : State) (c : Chan) (x : Channel) : (s.setCh c x).fresh = s.fresh := rfl
@[simp] theorem sp_setCh (s : State) (c : Chan) (x : Channel) (i₁ : Fin 32) : (s.setCh c x).sp i₁ = s.sp i₁ := rfl
@[simp] theorem base_setCh (s : State) (c : Chan) (x : Channel) (j₁ : Fin 8) : (s.setCh c x).base j₁ = s.base j₁ := rfl
@[simp] theorem ml_setCh (s : State) (c : Chan) (x : Channel) (k₁ : Fin 16) : (s.setCh c x).ml k₁ = s.ml k₁ := rfl
@[simp] theorem dest_setCh (s : State) (c : Chan) (x : Channel) (p₁ : Fin 2) : (s.setCh c x).dest p₁ = s.dest p₁ := rfl
@[simp] theorem pending_setCh (s : State) (c : Chan) (x : Channel) (p₁ : Fin 2) : (s.setCh c x).pending p₁ = s.pending p₁ := rfl
@[simp] theorem line_setCh (s : State) (c : Chan) (x : Channel) (p₁ : Fin 2) : (s.setCh c x).line p₁ = s.line p₁ := rfl
@[simp] theorem ctx_setCh (s : State) (c : Chan) (x : Channel) (h₁ : Nat) : (s.setCh c x).ctx h₁ = s.ctx h₁ := rfl

/-! ### `setSp` -/

@[simp] theorem setSp_chs (s : State) (i : Fin 32) (x : SyncPoint) : (s.setSp i x).chs = s.chs := rfl
@[simp] theorem setSp_bases (s : State) (i : Fin 32) (x : SyncPoint) : (s.setSp i x).bases = s.bases := rfl
@[simp] theorem setSp_mls (s : State) (i : Fin 32) (x : SyncPoint) : (s.setSp i x).mls = s.mls := rfl
@[simp] theorem setSp_irq (s : State) (i : Fin 32) (x : SyncPoint) : (s.setSp i x).irq = s.irq := rfl
@[simp] theorem setSp_registry (s : State) (i : Fin 32) (x : SyncPoint) : (s.setSp i x).registry = s.registry := rfl
@[simp] theorem setSp_owner (s : State) (i : Fin 32) (x : SyncPoint) : (s.setSp i x).owner = s.owner := rfl
@[simp] theorem setSp_diag (s : State) (i : Fin 32) (x : SyncPoint) : (s.setSp i x).diag = s.diag := rfl
@[simp] theorem setSp_mem (s : State) (i : Fin 32) (x : SyncPoint) : (s.setSp i x).mem = s.mem := rfl
@[simp] theorem setSp_cfg (s : State) (i : Fin 32) (x : SyncPoint) : (s.setSp i x).cfg = s.cfg := rfl
@[simp] theorem setSp_hosts (s : State) (i : Fin 32) (x : SyncPoint) : (s.setSp i x).hosts = s.hosts := rfl
@[simp] theorem setSp_active (s : State) (i : Fin 32) (x : SyncPoint) : (s.setSp i x).active = s.active := rfl
@[simp] theorem setSp_agenda (s : State) (i : Fin 32) (x : SyncPoint) : (s.setSp i x).agenda = s.agenda := rfl
@[simp] theorem setSp_out (s : State) (i : Fin 32) (x : SyncPoint) : (s.setSp i x).out = s.out := rfl
@[simp] theorem setSp_fresh (s : State) (i : Fin 32) (x : SyncPoint) : (s.setSp i x).fresh = s.fresh := rfl
@[simp] theorem ch_setSp (s : State) (i : Fin 32) (x : SyncPoint) (c₁ : Chan) : (s.setSp i x).ch c₁ = s.ch c₁ := rfl
@[simp] theorem base_setSp (s : State) (i : Fin 32) (x : SyncPoint) (j₁ : Fin 8) : (s.setSp i x).base j₁ = s.base j₁ := rfl
@[simp] theorem ml_setSp (s : State) (i : Fin 32) (x : SyncPoint) (k₁ : Fin 16) : (s.setSp i x).ml k₁ = s.ml k₁ := rfl
@[simp] theorem dest_setSp (s : State) (i : Fin 32) (x : SyncPoint) (p₁ : Fin 2) : (s.setSp i x).dest p₁ = s.dest p₁ := rfl
@[simp] theorem pending_setSp (s : State) (i : Fin 32) (x : SyncPoint) (p₁ : Fin 2) : (s.setSp i x).pending p₁ = s.pending p₁ := rfl
@[simp] theorem line_setSp (s : State) (i : Fin 32) (x : SyncPoint) (p₁ : Fin 2) : (s.setSp i x).line p₁ = s.line p₁ := rfl
@[simp] theorem ctx_setSp (s : State) (i : Fin 32) (x : SyncPoint) (h₁ : Nat) : (s.setSp i x).ctx h₁ = s.ctx h₁ := rfl

/-! ### `setBase` -/

@[simp] theorem setBase_chs (s : State) (j : Fin 8) (v : Word) : (s.setBase j v).chs = s.chs := rfl
@[simp] theorem setBase_sps (s : State) (j : Fin 8) (v : Word) : (s.setBase j v).sps = s.sps := rfl
@[simp] theorem setBase_mls (s : State) (j : Fin 8) (v : Word) : (s.setBase j v).mls = s.mls := rfl
@[simp] theorem setBase_irq (s : State) (j : Fin 8) (v : Word) : (s.setBase j v).irq = s.irq := rfl
@[simp] theorem setBase_registry (s : State) (j : Fin 8) (v : Word) : (s.setBase j v).registry = s.registry := rfl
@[simp] theorem setBase_owner (s : State) (j : Fin 8) (v : Word) : (s.setBase j v).owner = s.owner := rfl
@[simp] theorem setBase_diag (s : State) (j : Fin 8) (v : Word) : (s.setBase j v).diag = s.diag := rfl
@[simp] theorem setBase_mem (s : State) (j : Fin 8) (v : Word) : (s.setBase j v).mem = s.mem := rfl
@[simp] theorem setBase_cfg (s : State) (j : Fin 8) (v : Word) : (s.setBase j v).cfg = s.cfg := rfl
@[simp] theorem setBase_hosts (s : State) (j : Fin 8) (v : Word) : (s.setBase j v).hosts = s.hosts := rfl
@[simp] theorem setBase_active (s : State) (j : Fin 8) (v : Word) : (s.setBase j v).active = s.active := rfl
@[simp] theorem setBase_agenda (s : State) (j : Fin 8) (v : Word) : (s.setBase j v).agenda = s.agenda := rfl
@[simp] theorem setBase_out (s : State) (j : Fin 8) (v : Word) : (s.setBase j v).out = s.out := rfl
@[simp] theorem setBase_fresh (s : State) (j : Fin 8) (v : Word) : (s.setBase j v).fresh = s.fresh := rfl
@[simp] theorem ch_setBase (s : State) (j : Fin 8) (v : Word) (c₁ : Chan) : (s.setBase j v).ch c₁ = s.ch c₁ := rfl
@[simp] theorem sp_setBase (s : State) (j : Fin 8) (v : Word) (i₁ : Fin 32) : (s.setBase j v).sp i₁ = s.sp i₁ := rfl
@[simp] theorem ml_setBase (s : State) (j : Fin 8) (v : Word) (k₁ : Fin 16) : (s.setBase j v).ml k₁ = s.ml k₁ := rfl
@[simp] theorem dest_setBase (s : State) (j : Fin 8) (v : Word) (p₁ : Fin 2) : (s.setBase j v).dest p₁ = s.dest p₁ := rfl
@[simp] theorem pending_setBase (s : State) (j : Fin 8) (v : Word) (p₁ : Fin 2) : (s.setBase j v).pending p₁ = s.pending p₁ := rfl
@[simp] theorem line_setBase (s : State) (j : Fin 8) (v : Word) (p₁ : Fin 2) : (s.setBase j v).line p₁ = s.line p₁ := rfl
@[simp] theorem ctx_setBase (s : State) (j : Fin 8) (v : Word) (h₁ : Nat) : (s.setBase j v).ctx h₁ = s.ctx h₁ := rfl

/-! ### `setMl` -/

@[simp] theorem setMl_chs (s : State) (k : Fin 16) (x : Mlock) : (s.setMl k x).chs = s.chs := rfl
@[simp] theorem setMl_sps (s : State) (k : Fin 16) (x : Mlock) : (s.setMl k x).sps = s.sps := rfl
@[simp] theorem setMl_bases (s : State) (k : Fin 16) (x : Mlock) : (s.setMl k x).bases = s.bases := rfl
@[simp] theorem setMl_irq (s : State) (k : Fin 16) (x : Mlock) : (s.setMl k x).irq = s.irq := rfl
@[simp] theorem setMl_registry (s : State) (k : Fin 16) (x : Mlock) : (s.setMl k x).registry = s.registry := rfl
@[simp] theorem setMl_owner (s : State) (k : Fin 16) (x : Mlock) : (s.setMl k x).owner = s.owner := rfl
@[simp] theorem setMl_diag (s : State) (k : Fin 16) (x : Mlock) : (s.setMl k x).diag = s.diag := rfl
@[simp] theorem setMl_mem (s : State) (k : Fin 16) (x : Mlock) : (s.setMl k x).mem = s.mem := rfl
@[simp] theorem setMl_cfg (s : State) (k : Fin 16) (x : Mlock) : (s.setMl k x).cfg = s.cfg := rfl
@[simp] theorem setMl_hosts (s : State) (k : Fin 16) (x : Mlock) : (s.setMl k x).hosts = s.hosts := rfl
@[simp] theorem setMl_active (s : State) (k : Fin 16) (x : Mlock) : (s.setMl k x).active = s.active := rfl
@[simp] theorem setMl_agenda (s : State) (k : Fin 16) (x : Mlock) : (s.setMl k x).agenda = s.agenda := rfl
@[simp] theorem setMl_out (s : State) (k : Fin 16) (x : Mlock) : (s.setMl k x).out = s.out := rfl
@[simp] theorem setMl_fresh (s : State) (k : Fin 16) (x : Mlock) : (s.setMl k x).fresh = s.fresh := rfl
@[simp] theorem ch_setMl (s : State) (k : Fin 16) (x : Mlock) (c₁ : Chan) : (s.setMl k x).ch c₁ = s.ch c₁ := rfl
@[simp] theorem sp_setMl (s : State) (k : Fin 16) (x : Mlock) (i₁ : Fin 32) : (s.setMl k x).sp i₁ = s.sp i₁ := rfl
@[simp] theorem base_setMl (s : State) (k : Fin 16) (x : Mlock) (j₁ : Fin 8) : (s.setMl k x).base j₁ = s.base j₁ := rfl
@[simp] theorem dest_setMl (s : State) (k : Fin 16) (x : Mlock) (p₁ : Fin 2) : (s.setMl k x).dest p₁ = s.dest p₁ := rfl
@[simp] theorem pending_setMl (s : State) (k : Fin 16) (x : Mlock) (p₁ : Fin 2) : (s.setMl k x).pending p₁ = s.pending p₁ := rfl
@[simp] theorem line_setMl (s : State) (k : Fin 16) (x : Mlock) (p₁ : Fin 2) : (s.setMl k x).line p₁ = s.line p₁ := rfl
@[simp] theorem ctx_setMl (s : State) (k : Fin 16) (x : Mlock) (h₁ : Nat) : (s.setMl k x).ctx h₁ = s.ctx h₁ := rfl

/-! ### `setDest` -/

@[simp] theorem setDest_chs (s : State) (p : Fin 2) (v : Word) : (s.setDest p v).chs = s.chs := rfl
@[simp] theorem setDest_sps (s : State) (p : Fin 2) (v : Word) : (s.setDest p v).sps = s.sps := rfl
@[simp] theorem setDest_bases (s : State) (p : Fin 2) (v : Word) : (s.setDest p v).bases = s.bases := rfl
@[simp] theorem setDest_mls (s : State) (p : Fin 2) (v : Word) : (s.setDest p v).mls = s.mls := rfl
@[simp] theorem setDest_registry (s : State) (p : Fin 2) (v : Word) : (s.setDest p v).registry = s.registry := rfl
@[simp] theorem setDest_owner (s : State) (p : Fin 2) (v : Word) : (s.setDest p v).owner = s.owner := rfl
@[simp] theorem setDest_diag (s : State) (p : Fin 2) (v : Word) : (s.setDest p v).diag = s.diag := rfl
@[simp] theorem setDest_mem (s : State) (p : Fin 2) (v : Word) : (s.setDest p v).mem = s.mem := rfl
@[simp] theorem setDest_cfg (s : State) (p : Fin 2) (v : Word) : (s.setDest p v).cfg = s.cfg := rfl
@[simp] theorem setDest_hosts (s : State) (p : Fin 2) (v : Word) : (s.setDest p v).hosts = s.hosts := rfl
@[simp] theorem setDest_active (s : State) (p : Fin 2) (v : Word) : (s.setDest p v).active = s.active := rfl
@[simp] theorem setDest_agenda (s : State) (p : Fin 2) (v : Word) : (s.setDest p v).agenda = s.agenda := rfl
@[simp] theorem setDest_out (s : State) (p : Fin 2) (v : Word) : (s.setDest p v).out = s.out := rfl
@[simp] theorem setDest_fresh (s : State) (p : Fin 2) (v : Word) : (s.setDest p v).fresh = s.fresh := rfl
@[simp] theorem ch_setDest (s : State) (p : Fin 2) (v : Word) (c₁ : Chan) : (s.setDest p v).ch c₁ = s.ch c₁ := rfl
@[simp] theorem sp_setDest (s : State) (p : Fin 2) (v : Word) (i₁ : Fin 32) : (s.setDest p v).sp i₁ = s.sp i₁ := rfl
@[simp] theorem base_setDest (s : State) (p : Fin 2) (v : Word) (j₁ : Fin 8) : (s.setDest p v).base j₁ = s.base j₁ := rfl
@[simp] theorem ml_setDest (s : State) (p : Fin 2) (v : Word) (k₁ : Fin 16) : (s.setDest p v).ml k₁ = s.ml k₁ := rfl
@[simp] theorem pending_setDest (s : State) (p : Fin 2) (v : Word) (p₁ : Fin 2) : (s.setDest p v).pending p₁ = s.pending p₁ := rfl
@[simp] theorem line_setDest (s : State) (p : Fin 2) (v : Word) (p₁ : Fin 2) : (s.setDest p v).line p₁ = s.line p₁ := rfl
@[simp] theorem ctx_setDest (s : State) (p : Fin 2) (v : Word) (h₁ : Nat) : (s.setDest p v).ctx h₁ = s.ctx h₁ := rfl

/-! ### `setPending` -/

@[simp] theorem setPending_chs (s : State) (p : Fin 2) (v : Word) : (s.setPending p v).chs = s.chs := rfl
@[simp] theorem setPending_sps (s : State) (p : Fin 2) (v : Word) : (s.setPending p v).sps = s.sps := rfl
@[simp] theorem setPending_bases (s : State) (p : Fin 2) (v : Word) : (s.setPending p v).bases = s.bases := rfl
@[simp] theorem setPending_mls (s : State) (p : Fin 2) (v : Word) : (s.setPending p v).mls = s.mls := rfl
@[simp] theorem setPending_registry (s : State) (p : Fin 2) (v : Word) : (s.setPending p v).registry = s.registry := rfl
@[simp] theorem setPending_owner (s : State) (p : Fin 2) (v : Word) : (s.setPending p v).owner = s.owner := rfl
@[simp] theorem setPending_diag (s : State) (p : Fin 2) (v : Word) : (s.setPending p v).diag = s.diag := rfl
@[simp] theorem setPending_mem (s : State) (p : Fin 2) (v : Word) : (s.setPending p v).mem = s.mem := rfl
@[simp] theorem setPending_cfg (s : State) (p : Fin 2) (v : Word) : (s.setPending p v).cfg = s.cfg := rfl
@[simp] theorem setPending_hosts (s : State) (p : Fin 2) (v : Word) : (s.setPending p v).hosts = s.hosts := rfl
@[simp] theorem setPending_active (s : State) (p : Fin 2) (v : Word) : (s.setPending p v).active = s.active := rfl
@[simp] theorem setPending_agenda (s : State) (p : Fin 2) (v : Word) : (s.setPending p v).agenda = s.agenda := rfl
@[simp] theorem setPending_out (s : State) (p : Fin 2) (v : Word) : (s.setPending p v).out = s.out := rfl
@[simp] theorem setPending_fresh (s : State) (p : Fin 2) (v : Word) : (s.setPending p v).fresh = s.fresh := rfl
@[simp] theorem ch_setPending (s : State) (p : Fin 2) (v : Word) (c₁ : Chan) : (s.setPending p v).ch c₁ = s.ch c₁ := rfl
@[simp] theorem sp_setPending (s : State) (p : Fin 2) (v : Word) (i₁ : Fin 32) : (s.setPending p v).sp i₁ = s.sp i₁ := rfl
@[simp] theorem base_setPending (s : State) (p : Fin 2) (v : Word) (j₁ : Fin 8) : (s.setPending p v).base j₁ = s.base j₁ := rfl
@[simp] theorem ml_setPending (s : State) (p : Fin 2) (v : Word) (k₁ : Fin 16) : (s.setPending p v).ml k₁ = s.ml k₁ := rfl
@[simp] theorem dest_setPending (s : State) (p : Fin 2) (v : Word) (p₁ : Fin 2) : (s.setPending p v).dest p₁ = s.dest p₁ := rfl
@[simp] theorem line_setPending (s : State) (p : Fin 2) (v : Word) (p₁ : Fin 2) : (s.setPending p v).line p₁ = s.line p₁ := rfl
@[simp] theorem ctx_setPending (s : State) (p : Fin 2) (v : Word) (h₁ : Nat) : (s.setPending p v).ctx h₁ = s.ctx h₁ := rfl

/-! ### `setLine` -/

@[simp] theorem setLine_chs (s : State) (p : Fin 2) (b : Bool) : (s.setLine p b).chs = s.chs := rfl
@[simp] theorem setLine_sps (s : State) (p : Fin 2) (b : Bool) : (s.setLine p b).sps = s.sps := rfl
@[simp] theorem setLine_bases (s : State) (p : Fin 2) (b : Bool) : (s.setLine p b).bases = s.bases := rfl
@[simp] theorem setLine_mls (s : State) (p : Fin 2) (b : Bool) : (s.setLine p b).mls = s.mls := rfl
@[simp] theorem setLine_registry (s : State) (p : Fin 2) (b : Bool) : (s.setLine p b).registry = s.registry := rfl
@[simp] theorem setLine_owner (s : State) (p : Fin 2) (b : Bool) : (s.setLine p b).owner = s.owner := rfl
@[simp] theorem setLine_diag (s : State) (p : Fin 2) (b : Bool) : (s.setLine p b).diag = s.diag := rfl
@[simp] theorem setLine_mem (s : State) (p : Fin 2) (b : Bool) : (s.setLine p b).mem = s.mem := rfl
@[simp] theorem setLine_cfg (s : State) (p : Fin 2) (b : Bool) : (s.setLine p b).cfg = s.cfg := rfl
@[simp] theorem setLine_hosts (s : State) (p : Fin 2) (b : Bool) : (s.setLine p b).hosts = s.hosts := rfl
@[simp] theorem setLine_active (s : State) (p : Fin 2) (b : Bool) : (s.setLine p b).active = s.active := rfl
@[simp] theorem setLine_agenda (s : State) (p : Fin 2) (b : Bool) : (s.setLine p b).agenda = s.agenda := rfl
@[simp] theorem setLine_out (s : State) (p : Fin 2) (b : Bool) : (s.setLine p b).out = s.out := rfl
@[simp] theorem setLine_fresh (s : State) (p : Fin 2) (b : Bool) : (s.setLine p b).fresh = s.fresh := rfl
@[simp] theorem ch_setLine (s : State) (p : Fin 2) (b : Bool) (c₁ : Chan) : (s.setLine p b).ch c₁ = s.ch c₁ := rfl
@[simp] theorem sp_setLine (s : State) (p : Fin 2) (b : Bool) (i₁ : Fin 32) : (s.setLine p b).sp i₁ = s.sp i₁ := rfl
@[simp] theorem base_setLine (s : State) (p : Fin 2) (b : Bool) (j₁ : Fin 8) : (s.setLine p b).base j₁ = s.base j₁ := rfl
@[simp] theorem ml_setLine (s : State) (p : Fin 2) (b : Bool) (k₁ : Fin 16) : (s.setLine p b).ml k₁ = s.ml k₁ := rfl
@[simp] theorem dest_setLine (s : State) (p : Fin 2) (b : Bool) (p₁ : Fin 2) : (s.setLine p b).dest p₁ = s.dest p₁ := rfl
@[simp] theorem pending_setLine (s : State) (p : Fin 2) (b : Bool) (p₁ : Fin 2) : (s.setLine p b).pending p₁ = s.pending p₁ := rfl
@[simp] theorem ctx_setLine (s : State) (p : Fin 2) (b : Bool) (h₁ : Nat) : (s.setLine p b).ctx h₁ = s.ctx h₁ := rfl

/-! ### `setOwner` -/

@[simp] theorem setOwner_chs (s : State) (o : Option Chan) : (s.setOwner o).chs = s.chs := rfl
@[simp] theorem setOwner_sps (s : State) (o : Option Chan) : (s.setOwner o).sps = s.sps := rfl
@[simp] theorem setOwner_bases (s : State) (o : Option Chan) : (s.setOwner o).bases = s.bases := rfl
@[simp] theorem setOwner_mls (s : State) (o : Option Chan) : (s.setOwner o).mls = s.mls := rfl
@[simp] theorem setOwner_irq (s : State) (o : Option Chan) : (s.setOwner o).irq = s.irq := rfl
@[simp] theorem setOwner_registry (s : State) (o : Option Chan) : (s.setOwner o).registry = s.registry := rfl
@[simp] theorem setOwner_diag (s : State) (o : Option Chan) : (s.setOwner o).diag = s.diag := rfl
@[simp] theorem setOwner_mem (s : State) (o : Option Chan) : (s.setOwner o).mem = s.mem := rfl
@[simp] theorem setOwner_cfg (s : State) (o : Option Chan) : (s.setOwner o).cfg = s.cfg := rfl
@[simp] theorem setOwner_hosts (s : State) (o : Option Chan) : (s.setOwner o).hosts = s.hosts := rfl
@[simp] theorem setOwner_active (s : State) (o : Option Chan) : (s.setOwner o).active = s.active := rfl
@[simp] theorem setOwner_agenda (s : State) (o : Option Chan) : (s.setOwner o).agenda = s.agenda := rfl
@[simp] theorem setOwner_out (s : State) (o : Option Chan) : (s.setOwner o).out = s.out := rfl
@[simp] theorem setOwner_fresh (s : State) (o : Option Chan) : (s.setOwner o).fresh = s.fresh := rfl
@[simp] theorem ch_setOwner (s : State) (o : Option Chan) (c₁ : Chan) : (s.setOwner o).ch c₁ = s.ch c₁ := rfl
@[simp] theorem sp_setOwner (s : State) (o : Option Chan) (i₁ : Fin 32) : (s.setOwner o).sp i₁ = s.sp i₁ := rfl
@[simp] theorem base_setOwner (s : State) (o : Option Chan) (j₁ : Fin 8) : (s.setOwner o).base j₁ = s.base j₁ := rfl
@[simp] theorem ml_setOwner (s : State) (o : Option Chan) (k₁ : Fin 16) : (s.setOwner o).ml k₁ = s.ml k₁ := rfl
@[simp] theorem dest_setOwner (s : State) (o : Option Chan) (p₁ : Fin 2) : (s.setOwner o).dest p₁ = s.dest p₁ := rfl
@[simp] theorem pending_setOwner (s : State) (o : Option Chan) (p₁ : Fin 2) : (s.setOwner o).pending p₁ = s.pending p₁ := rfl
@[simp] theorem line_setOwner (s : State) (o : Option Chan) (p₁ : Fin 2) : (s.setOwner o).line p₁ = s.line p₁ := rfl
@[simp] theorem ctx_setOwner (s : State) (o : Option Chan) (h₁ : Nat) : (s.setOwner o).ctx h₁ = s.ctx h₁ := rfl

/-! ### `setCtx` -/

@[simp] theorem setCtx_chs (s : State) (h : Nat) (x : HostCtx) : (s.setCtx h x).chs = s.chs := rfl
@[simp] theorem setCtx_sps (s : State) (h : Nat) (x : HostCtx) : (s.setCtx h x).sps = s.sps := rfl
@[simp] theorem setCtx_bases (s : State) (h : Nat) (x : HostCtx) : (s.setCtx h x).bases = s.bases := rfl
@[simp] theorem setCtx_mls (s : State) (h : Nat) (x : HostCtx) : (s.setCtx h x).mls = s.mls := rfl
@[simp] theorem setCtx_irq (s : State) (h : Nat) (x : HostCtx) : (s.setCtx h x).irq = s.irq := rfl
@[simp] theorem setCtx_registry (s : State) (h : Nat) (x : HostCtx) : (s.setCtx h x).registry = s.registry := rfl
@[simp] theorem setCtx_owner (s : State) (h : Nat) (x : HostCtx) : (s.setCtx h x).owner = s.owner := rfl
@[simp] theorem setCtx_diag (s : State) (h : Nat) (x : HostCtx) : (s.setCtx h x).diag = s.diag := rfl
@[simp] theorem setCtx_mem (s : State) (h : Nat) (x : HostCtx) : (s.setCtx h x).mem = s.mem := rfl
@[simp] theorem setCtx_cfg (s : State) (h : Nat) (x : HostCtx) : (s.setCtx h x).cfg = s.cfg := rfl
@[simp] theorem setCtx_active (s : State) (h : Nat) (x : HostCtx) : (s.setCtx h x).active = s.active := rfl
@[simp] theorem setCtx_agenda (s : State) (h : Nat) (x : HostCtx) : (s.setCtx h x).agenda = s.agenda := rfl
@[simp] theorem setCtx_out (s : State) (h : Nat) (x : HostCtx) : (s.setCtx h x).out = s.out := rfl
@[simp] theorem setCtx_fresh (s : State) (h : Nat) (x : HostCtx) : (s.setCtx h x).fresh = s.fresh := rfl
@[simp] theorem ch_setCtx (s : State) (h : Nat) (x : HostCtx) (c₁ : Chan) : (s.setCtx h x).ch c₁ = s.ch c₁ := rfl
@[simp] theorem sp_setCtx (s : State) (h : Nat) (x : HostCtx) (i₁ : Fin 32) : (s.setCtx h x).sp i₁ = s.sp i₁ := rfl
@[simp] theorem base_setCtx (s : State) (h : Nat) (x : HostCtx) (j₁ : Fin 8) : (s.setCtx h x).base j₁ = s.base j₁ := rfl
@[simp] theorem ml_setCtx (s : State) (h : Nat) (x : HostCtx) (k₁ : Fin 16) : (s.setCtx h x).ml k₁ = s.ml k₁ := rfl
@[simp] theorem dest_setCtx (s : State) (h : Nat) (x : HostCtx) (p₁ : Fin 2) : (s.setCtx h x).dest p₁ = s.dest p₁ := rfl
@[simp] theorem pending_setCtx (s : State) (h : Nat) (x : HostCtx) (p₁ : Fin 2) : (s.setCtx h x).pending p₁ = s.pending p₁ := rfl
@[simp] theorem line_setCtx (s : State) (h : Nat) (x : HostCtx) (p₁ : Fin 2) : (s.setCtx h x).line p₁ = s.line p₁ := rfl

/-! ### `emit` -/

@[simp] theorem emit_chs (s : State) (o : Output) : (s.emit o).chs = s.chs := rfl
@[simp] theorem emit_sps (s : State) (o : Output) : (s.emit o).sps = s.sps := rfl
@[simp] theorem emit_bases (s : State) (o : Output) : (s.emit o).bases = s.bases := rfl
@[simp] theorem emit_mls (s : State) (o : Output) : (s.emit o).mls = s.mls := rfl
@[simp] theorem emit_irq (s : State) (o : Output) : (s.emit o).irq = s.irq := rfl
@[simp] theorem emit_registry (s : State) (o : Output) : (s.emit o).registry = s.registry := rfl
@[simp] theorem emit_owner (s : State) (o : Output) : (s.emit o).owner = s.owner := rfl
@[simp] theorem emit_diag (s : State) (o : Output) : (s.emit o).diag = s.diag := rfl
@[simp] theorem emit_mem (s : State) (o : Output) : (s.emit o).mem = s.mem := rfl
@[simp] theorem emit_cfg (s : State) (o : Output) : (s.emit o).cfg = s.cfg := rfl
@[simp] theorem emit_hosts (s : State) (o : Output) : (s.emit o).hosts = s.hosts := rfl
@[simp] theorem emit_active (s : State) (o : Output) : (s.emit o).active = s.active := rfl
@[simp] theorem emit_agenda (s : State) (o : Output) : (s.emit o).agenda = s.agenda := rfl
@[simp] theorem emit_fresh (s : State) (o : Output) : (s.emit o).fresh = s.fresh := rfl
@[simp] theorem ch_emit (s : State) (o : Output) (c₁ : Chan) : (s.emit o).ch c₁ = s.ch c₁ := rfl
@[simp] theorem sp_emit (s : State) (o : Output) (i₁ : Fin 32) : (s.emit o).sp i₁ = s.sp i₁ := rfl
@[simp] theorem base_emit (s : State) (o : Output) (j₁ : Fin 8) : (s.emit o).base j₁ = s.base j₁ := rfl
@[simp] theorem ml_emit (s : State) (o : Output) (k₁ : Fin 16) : (s.emit o).ml k₁ = s.ml k₁ := rfl
@[simp] theorem dest_emit (s : State) (o : Output) (p₁ : Fin 2) : (s.emit o).dest p₁ = s.dest p₁ := rfl
@[simp] theorem pending_emit (s : State) (o : Output) (p₁ : Fin 2) : (s.emit o).pending p₁ = s.pending p₁ := rfl
@[simp] theorem line_emit (s : State) (o : Output) (p₁ : Fin 2) : (s.emit o).line p₁ = s.line p₁ := rfl
@[simp] theorem ctx_emit (s : State) (o : Output) (h₁ : Nat) : (s.emit o).ctx h₁ = s.ctx h₁ := rfl

/-! ### `setActive` -/

@[simp] theorem setActive_chs (s : State) (c : Chan) : (s.setActive c).chs = s.chs := rfl
@[simp] theorem setActive_sps (s : State) (c : Chan) : (s.setActive c).sps = s.sps := rfl
@[simp] theorem setActive_bases (s : State) (c : Chan) : (s.setActive c).bases = s.bases := rfl
@[simp] theorem setActive_mls (s : State) (c : Chan) : (s.setActive c).mls = s.mls := rfl
@[simp] theorem setActive_irq (s : State) (c : Chan) : (s.setActive c).irq = s.irq := rfl
@[simp] theorem setActive_registry (s : State) (c : Chan) : (s.setActive c).registry = s.registry := rfl
@[simp] theorem setActive_owner (s : State) (c : Chan) : (s.setActive c).owner = s.owner := rfl
@[simp] theorem setActive_diag (s : State) (c : Chan) : (s.setActive c).diag = s.diag := rfl
@[simp] theorem setActive_mem (s : State) (c : Chan) : (s.setActive c).mem = s.mem := rfl
@[simp] theorem setActive_cfg (s : State) (c : Chan) : (s.setActive c).cfg = s.cfg := rfl
@[simp] theorem setActive_hosts (s : State) (c : Chan) : (s.setActive c).hosts = s.hosts := rfl
@[simp] theorem setActive_agenda (s : State) (c : Chan) : (s.setActive c).agenda = s.agenda := rfl
@[simp] theorem setActive_out (s : State) (c : Chan) : (s.setActive c).out = s.out := rfl
@[simp] theorem setActive_fresh (s : State) (c : Chan) : (s.setActive c).fresh = s.fresh := rfl
@[simp] theorem ch_setActive (s : State) (c : Chan) (c₁ : Chan) : (s.setActive c).ch c₁ = s.ch c₁ := rfl
@[simp] theorem sp_setActive (s : State) (c : Chan) (i₁ : Fin 32) : (s.setActive c).sp i₁ = s.sp i₁ := rfl
@[simp] theorem base_setActive (s : State) (c : Chan) (j₁ : Fin 8) : (s.setActive c).base j₁ = s.base j₁ := rfl
@[simp] theorem ml_setActive (s : State) (c : Chan) (k₁ : Fin 16) : (s.setActive c).ml k₁ = s.ml k₁ := rfl
@[simp] theorem dest_setActive (s : State) (c : Chan) (p₁ : Fin 2) : (s.setActive c).dest p₁ = s.dest p₁ := rfl
@[simp] theorem pending_setActive (s : State) (c : Chan) (p₁ : Fin 2) : (s.setActive c).pending p₁ = s.pending p₁ := rfl
@[simp] theorem line_setActive (s : State) (c : Chan) (p₁ : Fin 2) : (s.setActive c).line p₁ = s.line p₁ := rfl
@[simp] theorem ctx_setActive (s : State) (c : Chan) (h₁ : Nat) : (s.setActive c).ctx h₁ = s.ctx h₁ := rfl

/-! ### `setAgenda` -/

@[simp] theorem setAgenda_chs (s : State) (l : List Event) : (s.setAgenda l).chs = s.chs := rfl
@[simp] theorem setAgenda_sps (s : State) (l : List Event) : (s.setAgenda l).sps = s.sps := rfl
@[simp] theorem setAgenda_bases (s : State) (l : List Event) : (s.setAgenda l).bases = s.bases := rfl
@[simp] theorem setAgenda_mls (s : State) (l : List Event) : (s.setAgenda l).mls = s.mls := rfl
@[simp] theorem setAgenda_irq (s : State) (l : List Event) : (s.setAgenda l).irq = s.irq := rfl
@[simp] theorem setAgenda_registry (s : State) (l : List Event) : (s.setAgenda l).registry = s.registry := rfl
@[simp] theorem setAgenda_owner (s : State) (l : List Event) : (s.setAgenda l).owner = s.owner := rfl
@[simp] theorem setAgenda_diag (s : State) (l : List Event) : (s.setAgenda l).diag = s.diag := rfl
@[simp] theorem setAgenda_mem (s : State) (l : List Event) : (s.setAgenda l).mem = s.mem := rfl
@[simp] theorem setAgenda_cfg (s : State) (l : List Event) : (s.setAgenda l).cfg = s.cfg := rfl
@[simp] theorem setAgenda_hosts (s : State) (l : List Event) : (s.setAgenda l).hosts = s.hosts := rfl
@[simp] theorem setAgenda_active (s : State) (l : List Event) : (s.setAgenda l).active = s.active := rfl
@[simp] theorem setAgenda_out (s : State) (l : List Event) : (s.setAgenda l).out = s.out := rfl
@[simp] theorem setAgenda_fresh (s : State) (l : List Event) : (s.setAgenda l).fresh = s.fresh := rfl
@[simp] theorem ch_setAgenda (s : State) (l : List Event) (c₁ : Chan) : (s.setAgenda l).ch c₁ = s.ch c₁ := rfl
@[simp] theorem sp_setAgenda (s : State) (l : List Event) (i₁ : Fin 32) : (s.setAgenda l).sp i₁ = s.sp i₁ := rfl
@[simp] theorem base_setAgenda (s : State) (l : List Event) (j₁ : Fin 8) : (s.setAgenda l).base j₁ = s.base j₁ := rfl
@[simp] theorem ml_setAgenda (s : State) (l : List Event) (k₁ : Fin 16) : (s.setAgenda l).ml k₁ = s.ml k₁ := rfl
@[simp] theorem dest_setAgenda (s : State) (l : List Event) (p₁ : Fin 2) : (s.setAgenda l).dest p₁ = s.dest p₁ := rfl
@[simp] theorem pending_setAgenda (s : State) (l : List Event) (p₁ : Fin 2) : (s.setAgenda l).pending p₁ = s.pending p₁ := rfl
@[simp] theorem line_setAgenda (s : State) (l : List Event) (p₁ : Fin 2) : (s.setAgenda l).line p₁ = s.line p₁ := rfl
@[simp] theorem ctx_setAgenda (s : State) (l : List Event) (h₁ : Nat) : (s.setAgenda l).ctx h₁ = s.ctx h₁ := rfl

/-! ### `setDiag` -/

@[simp] theorem setDiag_chs (s : State) (d : Diag) : (s.setDiag d).chs = s.chs := rfl
@[simp] theorem setDiag_sps (s : State) (d : Diag) : (s.setDiag d).sps = s.sps := rfl
@[simp] theorem setDiag_bases (s : State) (d : Diag) : (s.setDiag d).bases = s.bases := rfl
@[simp] theorem setDiag_mls (s : State) (d : Diag) : (s.setDiag d).mls = s.mls := rfl
@[simp] theorem setDiag_irq (s : State) (d : Diag) : (s.setDiag d).irq = s.irq := rfl
@[simp] theorem setDiag_registry (s : State) (d : Diag) : (s.setDiag d).registry = s.registry := rfl
@[simp] theorem setDiag_owner (s : State) (d : Diag) : (s.setDiag d).owner = s.owner := rfl
@[simp] theorem setDiag_mem (s : State) (d : Diag) : (s.setDiag d).mem = s.mem := rfl
@[simp] theorem setDiag_cfg (s : State) (d : Diag) : (s.setDiag d).cfg = s.cfg := rfl
@[simp] theorem setDiag_hosts (s : State) (d : Diag) : (s.setDiag d).hosts = s.hosts := rfl
@[simp] theorem setDiag_active (s : State) (d : Diag) : (s.setDiag d).active = s.active := rfl
@[simp] theorem setDiag_agenda (s : State) (d : Diag) : (s.setDiag d).agenda = s.agenda := rfl
@[simp] theorem setDiag_out (s : State) (d : Diag) : (s.setDiag d).out = s.out := rfl
@[simp] theorem setDiag_fresh (s : State) (d : Diag) : (s.setDiag d).fresh = s.fresh := rfl
@[simp] theorem ch_setDiag (s : State) (d : Diag) (c₁ : Chan) : (s.setDiag d).ch c₁ = s.ch c₁ := rfl
@[simp] theorem sp_setDiag (s : State) (d : Diag) (i₁ : Fin 32) : (s.setDiag d).sp i₁ = s.sp i₁ := rfl
@[simp] theorem base_setDiag (s : State) (d : Diag) (j₁ : Fin 8) : (s.setDiag d).base j₁ = s.base j₁ := rfl
@[simp] theorem ml_setDiag (s : State) (d : Diag) (k₁ : Fin 16) : (s.setDiag d).ml k₁ = s.ml k₁ := rfl
@[simp] theorem dest_setDiag (s : State) (d : Diag) (p₁ : Fin 2) : (s.setDiag d).dest p₁ = s.dest p₁ := rfl
@[simp] theorem pending_setDiag (s : State) (d : Diag) (p₁ : Fin 2) : (s.setDiag d).pending p₁ = s.pending p₁ := rfl
@[simp] theorem line_setDiag (s : State) (d : Diag) (p₁ : Fin 2) : (s.setDiag d).line p₁ = s.line p₁ := rfl
@[simp] theorem ctx_setDiag (s : State) (d : Diag) (h₁ : Nat) : (s.setDiag d).ctx h₁ = s.ctx h₁ := rfl

/-! ### `setMem` -/

@[simp] theorem setMem_chs (s : State) (m : Memory) : (s.setMem m).chs = s.chs := rfl
@[simp] theorem setMem_sps (s : State) (m : Memory) : (s.setMem m).sps = s.sps := rfl
@[simp] theorem setMem_bases (s : State) (m : Memory) : (s.setMem m).bases = s.bases := rfl
@[simp] theorem setMem_mls (s : State) (m : Memory) : (s.setMem m).mls = s.mls := rfl
@[simp] theorem setMem_irq (s : State) (m : Memory) : (s.setMem m).irq = s.irq := rfl
@[simp] theorem setMem_registry (s : State) (m : Memory) : (s.setMem m).registry = s.registry := rfl
@[simp] theorem setMem_owner (s : State) (m : Memory) : (s.setMem m).owner = s.owner := rfl
@[simp] theorem setMem_diag (s : State) (m : Memory) : (s.setMem m).diag = s.diag := rfl
@[simp] theorem setMem_cfg (s : State) (m : Memory) : (s.setMem m).cfg = s.cfg := rfl
@[simp] theorem setMem_hosts (s : State) (m : Memory) : (s.setMem m).hosts = s.hosts := rfl
@[simp] theorem setMem_active (s : State) (m : Memory) : (s.setMem m).active = s.active := rfl
@[simp] theorem setMem_agenda (s : State) (m : Memory) : (s.setMem m).agenda = s.agenda := rfl
@[simp] theorem setMem_out (s : State) (m : Memory) : (s.setMem m).out = s.out := rfl
@[simp] theorem setMem_fresh (s : State) (m : Memory) : (s.setMem m).fresh = s.fresh := rfl
@[simp] theorem ch_setMem (s : State) (m : Memory) (c₁ : Chan) : (s.setMem m).ch c₁ = s.ch c₁ := rfl
@[simp] theorem sp_setMem (s : State) (m : Memory) (i₁ : Fin 32) : (s.setMem m).sp i₁ = s.sp i₁ := rfl
@[simp] theorem base_setMem (s : State) (m : Memory) (j₁ : Fin 8) : (s.setMem m).base j₁ = s.base j₁ := rfl
@[simp] theorem ml_setMem (s : State) (m : Memory) (k₁ : Fin 16) : (s.setMem m).ml k₁ = s.ml k₁ := rfl
@[simp] theorem dest_setMem (s : State) (m : Memory) (p₁ : Fin 2) : (s.setMem m).dest p₁ = s.dest p₁ := rfl
@[simp] theorem pending_setMem (s : State) (m : Memory) (p₁ : Fin 2) : (s.setMem m).pending p₁ = s.pending p₁ := rfl
@[simp] theorem line_setMem (s : State) (m : Memory) (p₁ : Fin 2) : (s.setMem m).line p₁ = s.line p₁ := rfl
@[simp] theorem ctx_setMem (s : State) (m : Memory) (h₁ : Nat) : (s.setMem m).ctx h₁ = s.ctx h₁ := rfl

/-! ### `setRegistry` -/

@[simp] theorem setRegistry_chs (s : State) (l : List Module) : (s.setRegistry l).chs = s.chs := rfl
@[simp] theorem setRegistry_sps (s : State) (l : List Module) : (s.setRegistry l).sps = s.sps := rfl
@[simp] theorem setRegistry_bases (s : State) (l : List Module) : (s.setRegistry l).bases = s.bases := rfl
@[simp] theorem setRegistry_mls (s : State) (l : List Module) : (s.setRegistry l).mls = s.mls := rfl
@[simp] theorem setRegistry_irq (s : State) (l : List Module) : (s.setRegistry l).irq = s.irq := rfl
@[simp] theorem setRegistry_owner (s : State) (l : List Module) : (s.setRegistry l).owner = s.owner := rfl
@[simp] theorem setRegistry_diag (s : State) (l : List Module) : (s.setRegistry l).diag = s.diag := rfl
@[simp] theorem setRegistry_mem (s : State) (l : List Module) : (s.setRegistry l).mem = s.mem := rfl
@[simp] theorem setRegistry_cfg (s : State) (l : List Module) : (s.setRegistry l).cfg = s.cfg := rfl
@[simp] theorem setRegistry_hosts (s : State) (l : List Module) : (s.setRegistry l).hosts = s.hosts := rfl
@[simp] theorem setRegistry_active (s : State) (l : List Module) : (s.setRegistry l).active = s.active := rfl
@[simp] theorem setRegistry_agenda (s : State) (l : List Module) : (s.setRegistry l).agenda = s.agenda := rfl
@[simp] theorem setRegistry_out (s : State) (l : List Module) : (s.setRegistry l).out = s.out := rfl
@[simp] theorem setRegistry_fresh (s : State) (l : List Module) : (s.setRegistry l).fresh = s.fresh := rfl
@[simp] theorem ch_setRegistry (s : State) (l : List Module) (c₁ : Chan) : (s.setRegistry l).ch c₁ = s.ch c₁ := rfl
@[simp] theorem sp_setRegistry (s : State) (l : List Module) (i₁ : Fin 32) : (s.setRegistry l).sp i₁ = s.sp i₁ := rfl
@[simp] theorem base_setRegistry (s : State) (l : List Module) (j₁ : Fin 8) : (s.setRegistry l).base j₁ = s.base j₁ := rfl
@[simp] theorem ml_setRegistry (s : State) (l : List Module) (k₁ : Fin 16) : (s.setRegistry l).ml k₁ = s.ml k₁ := rfl
@[simp] theorem dest_setRegistry (s : State) (l : List Module) (p₁ : Fin 2) : (s.setRegistry l).dest p₁ = s.dest p₁ := rfl
@[simp] theorem pending_setRegistry (s : State) (l : List Module) (p₁ : Fin 2) : (s.setRegistry l).pending p₁ = s.pending p₁ := rfl
@[simp] theorem line_setRegistry (s : State) (l : List Module) (p₁ : Fin 2) : (s.setRegistry l).line p₁ = s.line p₁ := rfl
@[simp] theorem ctx_setRegistry (s : State) (l : List Module) (h₁ : Nat) : (s.setRegistry l).ctx h₁ = s.ctx h₁ := rfl

/-! ### `bumpFresh` -/

@[simp] theorem bumpFresh_chs (s : State) : (s.bumpFresh ).chs = s.chs := rfl
@[simp] theorem bumpFresh_sps (s : State) : (s.bumpFresh ).sps = s.sps := rfl
@[simp] theorem bumpFresh_bases (s : State) : (s.bumpFresh ).bases = s.bases := rfl
@[simp] theorem bumpFresh_mls (s : State) : (s.bumpFresh ).mls = s.mls := rfl
@[simp] theorem bumpFresh_irq (s : State) : (s.bumpFresh ).irq = s.irq := rfl
@[simp] theorem bumpFresh_registry (s : State) : (s.bumpFresh ).registry = s.registry := rfl
@[simp] theorem bumpFresh_owner (s : State) : (s.bumpFresh ).owner = s.owner := rfl
@[simp] theorem bumpFresh_diag (s : State) : (s.bumpFresh ).diag = s.diag := rfl
@[simp] theorem bumpFresh_mem (s : State) : (s.bumpFresh ).mem = s.mem := rfl
@[simp] theorem bumpFresh_cfg (s : State) : (s.bumpFresh ).cfg = s.cfg := rfl
@[simp] theorem bumpFresh_hosts (s : State) : (s.bumpFresh ).hosts = s.hosts := rfl
@[simp] theorem bumpFresh_active (s : State) : (s.bumpFresh ).active = s.active := rfl
@[simp] theorem bumpFresh_agenda (s : State) : (s.bumpFresh ).agenda = s.agenda := rfl
@[simp] theorem bumpFresh_out (s : State) : (s.bumpFresh ).out = s.out := rfl
@[simp] theorem ch_bumpFresh (s : State) (c₁ : Chan) : (s.bumpFresh ).ch c₁ = s.ch c₁ := rfl
@[simp] theorem sp_bumpFresh (s : State) (i₁ : Fin 32) : (s.bumpFresh ).sp i₁ = s.sp i₁ := rfl
@[simp] theorem base_bumpFresh (s : State) (j₁ : Fin 8) : (s.bumpFresh ).base j₁ = s.base j₁ := rfl
@[simp] theorem ml_bumpFresh (s : State) (k₁ : Fin 16) : (s.bumpFresh ).ml k₁ = s.ml k₁ := rfl
@[simp] theorem dest_bumpFresh (s : State) (p₁ : Fin 2) : (s.bumpFresh ).dest p₁ = s.dest p₁ := rfl
@[simp] theorem pending_bumpFresh (s : State) (p₁ : Fin 2) : (s.bumpFresh ).pending p₁ = s.pending p₁ := rfl
@[simp] theorem line_bumpFresh (s : State) (p₁ : Fin 2) : (s.bumpFresh ).line p₁ = s.line p₁ := rfl
@[simp] theorem ctx_bumpFresh (s : State) (h₁ : Nat) : (s.bumpFresh ).ctx h₁ = s.ctx h₁ := rfl

/-! ### Reading what was written -/

theorem ch_setCh (s : State) (c d : Chan) (x : Channel) :
    (s.setCh c x).ch d = if d = c then x else s.ch d := by
  simp only [State.ch, State.setCh, Fin.getElem_fin, Vector.getElem_set, Fin.val_inj, eq_comm]

@[simp] theorem ch_setCh_self (s : State) (c : Chan) (x : Channel) : (s.setCh c x).ch c = x := by
  simp [ch_setCh]

@[simp] theorem ch_setCh_ne (s : State) (c d : Chan) (x : Channel) (h : d ≠ c) :
    (s.setCh c x).ch d = s.ch d := by
  simp [ch_setCh, h]

@[simp] theorem setCh_setCh (s : State) (c : Chan) (x y : Channel) :
    (s.setCh c x).setCh c y = s.setCh c y := by
  simp [State.setCh, Vector.set_set]

theorem sp_setSp (s : State) (i d : Fin 32) (x : SyncPoint) :
    (s.setSp i x).sp d = if d = i then x else s.sp d := by
  simp only [State.sp, State.setSp, Fin.getElem_fin, Vector.getElem_set, Fin.val_inj, eq_comm]

@[simp] theorem sp_setSp_self (s : State) (i : Fin 32) (x : SyncPoint) : (s.setSp i x).sp i = x := by
  simp [sp_setSp]

@[simp] theorem sp_setSp_ne (s : State) (i d : Fin 32) (x : SyncPoint) (h : d ≠ i) :
    (s.setSp i x).sp d = s.sp d := by
  simp [sp_setSp, h]

@[simp] theorem setSp_setSp (s : State) (i : Fin 32) (x y : SyncPoint) :
    (s.setSp i x).setSp i y = s.setSp i y := by
  simp [State.setSp, Vector.set_set]

theorem base_setBase (s : State) (j d : Fin 8) (x : Word) :
    (s.setBase j x).base d = if d = j then x else s.base d := by
  simp only [State.base, State.setBase, Fin.getElem_fin, Vector.getElem_set, Fin.val_inj, eq_comm]

@[simp] theorem base_setBase_self (s : State) (j : Fin 8) (x : Word) : (s.setBase j x).base j = x := by
  simp [base_setBase]

@[simp] theorem base_setBase_ne (s : State) (j d : Fin 8) (x : Word) (h : d ≠ j) :
    (s.setBase j x).base d = s.base d := by
  simp [base_setBase, h]

@[simp] theorem setBase_setBase (s : State) (j : Fin 8) (x y : Word) :
    (s.setBase j x).setBase j y = s.setBase j y := by
  simp [State.setBase, Vector.set_set]

theorem ml_setMl (s : State) (k d : Fin 16) (x : Mlock) :
    (s.setMl k x).ml d = if d = k then x else s.ml d := by
  simp only [State.ml, State.setMl, Fin.getElem_fin, Vector.getElem_set, Fin.val_inj, eq_comm]

@[simp] theorem ml_setMl_self (s : State) (k : Fin 16) (x : Mlock) : (s.setMl k x).ml k = x := by
  simp [ml_setMl]

@[simp] theorem ml_setMl_ne (s : State) (k d : Fin 16) (x : Mlock) (h : d ≠ k) :
    (s.setMl k x).ml d = s.ml d := by
  simp [ml_setMl, h]

@[simp] theorem setMl_setMl (s : State) (k : Fin 16) (x y : Mlock) :
    (s.setMl k x).setMl k y = s.setMl k y := by
  simp [State.setMl, Vector.set_set]

theorem dest_setDest (s : State) (p d : Fin 2) (x : Word) :
    (s.setDest p x).dest d = if d = p then x else s.dest d := by
  simp only [State.dest, State.setDest, Fin.getElem_fin, Vector.getElem_set, Fin.val_inj, eq_comm]

@[simp] theorem dest_setDest_self (s : State) (p : Fin 2) (x : Word) : (s.setDest p x).dest p = x := by
  simp [dest_setDest]

@[simp] theorem dest_setDest_ne (s : State) (p d : Fin 2) (x : Word) (h : d ≠ p) :
    (s.setDest p x).dest d = s.dest d := by
  simp [dest_setDest, h]

@[simp] theorem setDest_setDest (s : State) (p : Fin 2) (x y : Word) :
    (s.setDest p x).setDest p y = s.setDest p y := by
  simp [State.setDest, Vector.set_set]

theorem pending_setPending (s : State) (p d : Fin 2) (x : Word) :
    (s.setPending p x).pending d = if d = p then x else s.pending d := by
  simp only [State.pending, State.setPending, Fin.getElem_fin, Vector.getElem_set, Fin.val_inj, eq_comm]

@[simp] theorem pending_setPending_self (s : State) (p : Fin 2) (x : Word) : (s.setPending p x).pending p = x := by
  simp [pending_setPending]

@[simp] theorem pending_setPending_ne (s : State) (p d : Fin 2) (x : Word) (h : d ≠ p) :
    (s.setPending p x).pending d = s.pending d := by
  simp [pending_setPending, h]

@[simp] theorem setPending_setPending (s : State) (p : Fin 2) (x y : Word) :
    (s.setPending p x).setPending p y = s.setPending p y := by
  simp [State.setPending, Vector.set_set]

theorem line_setLine (s : State) (p d : Fin 2) (x : Bool) :
    (s.setLine p x).line d = if d = p then x else s.line d := by
  simp only [State.line, State.setLine, Fin.getElem_fin, Vector.getElem_set, Fin.val_inj, eq_comm]

@[simp] theorem line_setLine_self (s : State) (p : Fin 2) (x : Bool) : (s.setLine p x).line p = x := by
  simp [line_setLine]

@[simp] theorem line_setLine_ne (s : State) (p d : Fin 2) (x : Bool) (h : d ≠ p) :
    (s.setLine p x).line d = s.line d := by
  simp [line_setLine, h]

@[simp] theorem setLine_setLine (s : State) (p : Fin 2) (x y : Bool) :
    (s.setLine p x).setLine p y = s.setLine p y := by
  simp [State.setLine, Vector.set_set]

@[simp] theorem setOwner_owner (s : State) (o : Option Chan) : (s.setOwner o).owner = o := rfl
@[simp] theorem emit_out (s : State) (o : Output) : (s.emit o).out = o :: s.out := rfl
@[simp] theorem setActive_active (s : State) (c : Chan) : (s.setActive c).active = c := rfl
@[simp] theorem setAgenda_agenda (s : State) (l : List Event) : (s.setAgenda l).agenda = l := rfl
@[simp] theorem setDiag_diag (s : State) (d : Diag) : (s.setDiag d).diag = d := rfl
@[simp] theorem setMem_mem (s : State) (m : Memory) : (s.setMem m).mem = m := rfl
@[simp] theorem setRegistry_registry (s : State) (l : List Module) : (s.setRegistry l).registry = l := rfl
@[simp] theorem bumpFresh_fresh (s : State) : s.bumpFresh.fresh = s.fresh + 1 := rfl

/-- Two states with the same fields and register files are the same. -/
theorem State.ext_ch {s t : State} (h : t = { s with chs := t.chs }) (hc : ∀ c, t.ch c = s.ch c) :
    t = s := by
  have : t.chs = s.chs := by
    ext i hi
    simpa [State.ch] using hc ⟨i, hi⟩
  rw [h, this]

end Sys2Proof.Machine
end

