-- ==== Sys2Proof/Laws/Memory.lean ====
section
/-! SUPPORT. The laws of sparse maps, of the DMA window and of the host contexts: what a write leaves to
be read, and that every write keeps the canonical form. -/

namespace Sys2Proof.Machine

/-! ### Sparse maps -/

@[simp] theorem sparseGet_set_self {α : Type} (k : Nat) (x : α) (l : List (Nat × α)) :
    sparseGet k (sparseSet k x l) = some x := by
  induction l with
  | nil => simp [sparseSet, sparseGet]
  | cons e rest ih =>
    obtain ⟨j, y⟩ := e
    simp only [sparseSet]
    split
    · simp [sparseGet]
    · split
      · simp [sparseGet]
      · simp [sparseGet, ih, Ne.symm ‹¬ k = j›]

theorem sparseGet_set_ne {α : Type} {k m : Nat} (h : m ≠ k) (x : α) (l : List (Nat × α)) :
    sparseGet m (sparseSet k x l) = sparseGet m l := by
  induction l with
  | nil => simp [sparseSet, sparseGet, h.symm]
  | cons e rest ih =>
    obtain ⟨j, y⟩ := e
    simp only [sparseSet]
    split
    · simp [sparseGet, h.symm]
    · split
      · subst ‹k = j›; simp [sparseGet, h.symm]
      · simp [sparseGet, ih]

@[simp] theorem sparseGet_erase_self {α : Type} (k : Nat) (l : List (Nat × α)) :
    sparseGet k (sparseErase k l) = none := by
  induction l with
  | nil => rfl
  | cons e rest ih =>
    obtain ⟨j, y⟩ := e
    by_cases hj : j = k <;> simp [sparseErase, sparseGet, hj, ih]

theorem sparseGet_erase_ne {α : Type} {k m : Nat} (h : m ≠ k) (l : List (Nat × α)) :
    sparseGet m (sparseErase k l) = sparseGet m l := by
  induction l with
  | nil => rfl
  | cons e rest ih =>
    obtain ⟨j, y⟩ := e
    by_cases hj : j = k
    · subst hj; simp [sparseErase, sparseGet, ih, h.symm]
    · simp [sparseErase, sparseGet, hj, ih]

theorem risingFrom_mono {α : Type} {n m : Nat} (h : m ≤ n) {l : List (Nat × α)}
    (hl : risingFrom n l = true) : risingFrom m l = true := by
  cases l with
  | nil => rfl
  | cons e rest =>
    obtain ⟨j, y⟩ := e
    simp only [risingFrom, Bool.and_eq_true, decide_eq_true_eq] at hl ⊢
    exact ⟨h.trans hl.1, hl.2⟩

theorem risingFrom_set {α : Type} {n k : Nat} (hk : n ≤ k) (x : α) {l : List (Nat × α)}
    (hl : risingFrom n l = true) : risingFrom n (sparseSet k x l) = true := by
  induction l generalizing n with
  | nil => simp [sparseSet, risingFrom, hk]
  | cons e rest ih =>
    obtain ⟨j, y⟩ := e
    simp only [risingFrom, Bool.and_eq_true, decide_eq_true_eq] at hl
    simp only [sparseSet]
    split
    · simp [risingFrom, hk, hl.2]; omega
    · split
      · subst ‹k = j›; simp [risingFrom, hk, hl.2]
      · simp [risingFrom, hl.1, ih (n := j + 1) (by omega) hl.2]

theorem risingFrom_erase {α : Type} {n : Nat} (k : Nat) {l : List (Nat × α)}
    (hl : risingFrom n l = true) : risingFrom n (sparseErase k l) = true := by
  induction l generalizing n with
  | nil => rfl
  | cons e rest ih =>
    obtain ⟨j, y⟩ := e
    simp only [risingFrom, Bool.and_eq_true, decide_eq_true_eq] at hl
    simp only [sparseErase]
    split
    · exact risingFrom_mono (by omega) (ih hl.2)
    · simp [risingFrom, hl.1, ih hl.2]

theorem mem_sparseSet {α : Type} {k : Nat} {x : α} {l : List (Nat × α)} {e : Nat × α}
    (h : e ∈ sparseSet k x l) : e = (k, x) ∨ e ∈ l := by
  induction l with
  | nil => simpa [sparseSet] using h
  | cons e' rest ih =>
    obtain ⟨j, y⟩ := e'
    simp only [sparseSet] at h
    split at h
    · simpa using h
    · split at h
      · rcases List.mem_cons.1 h with h | h
        · exact .inl h
        · exact .inr (List.mem_cons_of_mem _ h)
      · rcases List.mem_cons.1 h with h | h
        · exact .inr (h ▸ List.mem_cons_self)
        · rcases ih h with h | h
          · exact .inl h
          · exact .inr (List.mem_cons_of_mem _ h)

theorem mem_sparseErase {α : Type} {k : Nat} {l : List (Nat × α)} {e : Nat × α}
    (h : e ∈ sparseErase k l) : e ∈ l := by
  induction l with
  | nil => exact h
  | cons e' rest ih =>
    obtain ⟨j, y⟩ := e'
    simp only [sparseErase] at h
    split at h
    · exact List.mem_cons_of_mem _ (ih h)
    · rcases List.mem_cons.1 h with h | h
      · exact h ▸ List.mem_cons_self
      · exact List.mem_cons_of_mem _ (ih h)

/-- Of two values written to one key the last one stands. -/
theorem sparseSet_sparseSet {α : Type} (k : Nat) (x y : α) (l : List (Nat × α)) :
    sparseSet k x (sparseSet k y l) = sparseSet k x l := by
  induction l with
  | nil => simp [sparseSet]
  | cons e rest ih =>
    obtain ⟨j, z⟩ := e
    simp only [sparseSet]
    split
    · simp [sparseSet]
    · split
      · simp [sparseSet]
      · simp [sparseSet, *]

/-! ### The DMA window -/

/-- A byte stored is read back. -/
@[simp] theorem read_write_self (m : Memory) (a : BitVec 32) (b : Byte) :
    (m.write a b).read a = some b := by
  simp [Memory.write, Memory.read, Memory.unlisted]

/-- A byte stored leaves every other address as it was. -/
theorem read_write_ne (m : Memory) {a c : BitVec 32} (h : c ≠ a) (b : Byte) :
    (m.write a b).read c = m.read c := by
  have : c.toNat ≠ a.toNat := fun e => h (BitVec.eq_of_toNat_eq e)
  simp [Memory.write, Memory.read, Memory.unlisted, sparseGet_set_ne this]

/-- A stored byte keeps the canonical form. -/
theorem wf_write {m : Memory} (h : m.wf = true) (a : BitVec 32) (b : Byte) :
    (m.write a b).wf = true := by
  simp only [Memory.wf, Bool.and_eq_true, List.all_eq_true, decide_eq_true_eq] at h ⊢
  have hw : m.write a b = sparseSet a.toNat b m := by simp [Memory.write, Memory.unlisted]
  rw [hw]
  refine ⟨risingFrom_set (Nat.zero_le _) b h.1, fun e he => ?_⟩
  rcases mem_sparseSet he with rfl | he
  · exact ⟨a.isLt, by simp [Memory.unlisted]⟩
  · exact h.2 e he

/-- Stored bytes keep the canonical form. -/
theorem wf_writeBytes {m : Memory} (h : m.wf = true) (a : BitVec 32) (l : List Byte) :
    (m.writeBytes a l).wf = true := by
  induction l generalizing m a with
  | nil => exact h
  | cons b rest ih => exact ih (wf_write h a b) (a + 1)

/-- Bytes stored leave every address outside them as it was. -/
theorem read_writeBytes_outside (m : Memory) (addr : BitVec 32) (l : List Byte) (a : BitVec 32)
    (h : l.length ≤ (a - addr).toNat) : (m.writeBytes addr l).read a = m.read a := by
  induction l generalizing m addr with
  | nil => rfl
  | cons b rest ih =>
    simp only [List.length_cons] at h
    have hne : a ≠ addr := by rintro rfl; simp at h
    rw [Memory.writeBytes, ih _ _ (by bv_omega), read_write_ne _ hne]

/-- Bytes stored are read back, each at its own address. -/
theorem read_writeBytes_inside (m : Memory) (addr : BitVec 32) (l : List Byte) (hl : l.length ≤ 2 ^ 32)
    (k : Nat) (hk : k < l.length) : (m.writeBytes addr l).read (addr + BitVec.ofNat 32 k) = some l[k] := by
  induction l generalizing m addr k with
  | nil => cases hk
  | cons b rest ih =>
    simp only [List.length_cons] at hl hk
    cases k with
    | zero =>
      rw [Memory.writeBytes, read_writeBytes_outside _ _ _ _ (by bv_omega)]
      simp
    | succ k =>
      have := ih (m.write addr b) (addr + 1) (by omega) k (by omega)
      rw [show addr + BitVec.ofNat 32 (k + 1) = addr + 1 + BitVec.ofNat 32 k by bv_omega]
      exact this

/-- The empty memory is in canonical form. -/
theorem wf_reset : State.reset.mem.wf = true := rfl

/-- A word read comes from its four bytes (20_memory.md R66), and from nothing else. -/
theorem readWord_eq_some {m : Memory} {wi : Ptr} {w : Word} :
    m.readWord wi = some w ↔
      ∃ b0 b1 b2 b3, m.read (byteAddr wi) = some b0 ∧ m.read (byteAddr wi + 1) = some b1 ∧
        m.read (byteAddr wi + 2) = some b2 ∧ m.read (byteAddr wi + 3) = some b3 ∧
        wordOfBytes b0 b1 b2 b3 = w := by
  simp only [Memory.readWord]
  constructor
  · intro h
    split at h
    · rename_i b0 b1 b2 b3 h0 h1 h2 h3
      exact ⟨b0, b1, b2, b3, h0, h1, h2, h3, Option.some.inj h⟩
    · cases h
  · rintro ⟨b0, b1, b2, b3, h0, h1, h2, h3, rfl⟩
    rw [h0, h1, h2, h3]

/-! ### Host contexts -/

@[simp] theorem ctx_setCtx_self (s : State) (h : Nat) (x : HostCtx) : (s.setCtx h x).ctx h = x := by
  by_cases hx : x = HostCtx.rest <;> simp [State.ctx, State.setCtx, hx]

@[simp] theorem ctx_setCtx_ne (s : State) (h g : Nat) (x : HostCtx) (hg : g ≠ h) :
    (s.setCtx h x).ctx g = s.ctx g := by
  by_cases hx : x = HostCtx.rest <;>
    simp [State.ctx, State.setCtx, hx, sparseGet_erase_ne hg, sparseGet_set_ne hg]

theorem ctx_setCtx (s : State) (h g : Nat) (x : HostCtx) :
    (s.setCtx h x).ctx g = if g = h then x else s.ctx g := by
  by_cases hg : g = h
  · subst hg; simp
  · simp [hg]

/-- Of two updates of one host context the last one stands. -/
theorem setCtx_setCtx (s : State) (h : Nat) {x y : HostCtx} (hx : x ≠ HostCtx.rest)
    (hy : y ≠ HostCtx.rest) : (s.setCtx h y).setCtx h x = s.setCtx h x := by
  simp [State.setCtx, hx, hy, sparseSet_sparseSet]

/-- An update of a host context keeps the canonical form of their list. -/
theorem hostsCanonical_setCtx {s : State} (hs : HostsCanonical s) (h : Nat) (x : HostCtx) :
    HostsCanonical (s.setCtx h x) := by
  by_cases hx : x = HostCtx.rest
  · refine ⟨by simpa [State.setCtx, hx] using risingFrom_erase h hs.1, fun e he => ?_⟩
    simp only [State.setCtx, hx, if_true] at he
    exact hs.2 e (mem_sparseErase he)
  · refine ⟨by simpa [State.setCtx, hx] using risingFrom_set (Nat.zero_le h) x hs.1, fun e he => ?_⟩
    simp only [State.setCtx, hx, if_false] at he
    rcases mem_sparseSet he with rfl | he
    · exact hx
    · exact hs.2 e he

/-! ### Waiter records -/

@[simp] theorem waiter_worker (s : State) (c : Chan) : s.waiter (.worker c) = (s.ch c).waiter := rfl
@[simp] theorem waiter_ctx (s : State) (h : Nat) : s.waiter (.ctx h) = (s.ctx h).waiter := rfl
@[simp] theorem setWaiter_worker (s : State) (c : Chan) (w : Waiter) :
    s.setWaiter (.worker c) w = s.setCh c { s.ch c with waiter := w } := rfl
@[simp] theorem setWaiter_ctx (s : State) (h : Nat) (w : Waiter) :
    s.setWaiter (.ctx h) w = s.setCtx h { s.ctx h with waiter := w } := rfl

end Sys2Proof.Machine
end

