-- ==== Sys2Proof/Laws/Ops.lean ====
section
/-! SUPPORT. What each shared operation of a worker can do, said once: the states it leaves, by name, and
its frame (`OnlyChannel`, `WriteFrame`). Later proofs cite these and unfold no operation. -/

namespace Sys2Proof.Machine

/-! ### Writing back what is there -/

@[simp] theorem setCh_ch (s : State) (c : Chan) : s.setCh c (s.ch c) = s := by
  simp [State.setCh, State.ch]

@[simp] theorem setOwner_self (s : State) : s.setOwner s.owner = s := rfl

@[simp] theorem setOwner_setOwner (s : State) (o p : Option Chan) :
    (s.setOwner o).setOwner p = s.setOwner p := rfl

theorem setOwner_setCh (s : State) (o : Option Chan) (c : Chan) (x : Channel) :
    (s.setOwner o).setCh c x = (s.setCh c x).setOwner o := rfl

/-! ### The states the operations leave -/

theorem release_eq (c : Chan) (s : State) : release c s = s.setOwner (ownerReleased c s) := by
  unfold release ownerReleased; split <;> rfl

theorem endInstr_eq (c : Chan) (s : State) : endInstr c s = s.setOwner (ownerAfterEnd c s) := by
  unfold endInstr ownerAfterEnd
  cases h : s.cfg.granularity <;> simp [release_eq]

theorem setPos_eq (c : Chan) (p : Pos) (s : State) : setPos c p s = standing c p s := rfl

/-- `complete` ends the instruction (43_interpreter_loop.md R201). -/
theorem complete_eq (c : Chan) (s : State) : complete c s = instrDone c s := by
  rw [complete, endInstr_eq]; rfl

/-- `raiseFault` leaves the faulted state (60_exceptions.md R303). -/
theorem raiseFault_eq (c : Chan) (k : Cause) (v : Word) (s : State) :
    raiseFault c k v s = faultTaken c k v s := by
  simp [raiseFault, release_eq, faultTaken, setOwner_setCh]

/-- `finishRun` ends the run (48_cdma.md R283). -/
theorem finishRun_eq (c : Chan) (s : State) : finishRun c s = runFinished c s := by
  simp [finishRun, release_eq, runFinished, setOwner_setCh]

theorem ownerReleased_ne (c : Chan) (s : State) : ownerReleased c s ≠ some c := by
  unfold ownerReleased; split <;> simp_all

/-- What gives the section up keeps no owner but the old one. -/
theorem ownerReleased_eq_some {c d : Chan} {s : State} :
    ownerReleased c s = some d ↔ s.owner = some d ∧ d ≠ c := by
  unfold ownerReleased
  split <;> rename_i h
  · simp [h]; intro e; exact e ▸ rfl
  · constructor
    · exact fun e => ⟨e, fun he => h (he ▸ e)⟩
    · exact And.left

theorem ownerAfterEnd_cases (c : Chan) (s : State) :
    ownerAfterEnd c s = s.owner ∨ ownerAfterEnd c s = ownerReleased c s := by
  unfold ownerAfterEnd; split <;> simp

/-! ### The frame of the operations on one channel -/

theorem OnlyChannel.refl (c : Chan) (s : State) : OnlyChannel c s s := ⟨rfl, fun _ _ => rfl, fun _ => rfl⟩

theorem OnlyChannel.trans {c : Chan} {s t u : State} (h : OnlyChannel c s t) (g : OnlyChannel c t u) :
    OnlyChannel c s u :=
  ⟨g.rest.trans (by rw [h.rest]), fun d hd => (g.others d hd).trans (h.others d hd),
    fun a => (g.bytes a).trans (h.bytes a)⟩

theorem onlyChannel_setCh (c : Chan) (x : Channel) (s : State) : OnlyChannel c s (s.setCh c x) :=
  ⟨rfl, fun d hd => ch_setCh_ne s c d x hd, fun _ => rfl⟩

theorem onlyChannel_setOwner (c : Chan) (o : Option Chan) (s : State) : OnlyChannel c s (s.setOwner o) :=
  ⟨rfl, fun _ _ => rfl, fun _ => rfl⟩

section
variable {c : Chan} {s t : State} (h : OnlyChannel c s t)
include h

theorem OnlyChannel.sps : t.sps = s.sps := by rw [h.rest]
theorem OnlyChannel.bases : t.bases = s.bases := by rw [h.rest]
theorem OnlyChannel.mls : t.mls = s.mls := by rw [h.rest]
theorem OnlyChannel.irq : t.irq = s.irq := by rw [h.rest]
theorem OnlyChannel.registry : t.registry = s.registry := by rw [h.rest]
theorem OnlyChannel.diag : t.diag = s.diag := by rw [h.rest]
theorem OnlyChannel.mem : t.mem = s.mem := by rw [h.rest]
theorem OnlyChannel.cfg : t.cfg = s.cfg := by rw [h.rest]
theorem OnlyChannel.hosts : t.hosts = s.hosts := by rw [h.rest]
theorem OnlyChannel.active : t.active = s.active := by rw [h.rest]
theorem OnlyChannel.agenda : t.agenda = s.agenda := by rw [h.rest]
theorem OnlyChannel.out : t.out = s.out := by rw [h.rest]
theorem OnlyChannel.fresh : t.fresh = s.fresh := by rw [h.rest]

end

theorem onlyChannel_release (c : Chan) (s : State) : OnlyChannel c s (release c s) := by
  rw [release_eq]; exact onlyChannel_setOwner c _ s

theorem onlyChannel_setPos (c : Chan) (p : Pos) (s : State) : OnlyChannel c s (setPos c p s) :=
  onlyChannel_setCh c _ s

theorem onlyChannel_instrDone (c : Chan) (s : State) : OnlyChannel c s (instrDone c s) :=
  (onlyChannel_setCh c _ s).trans (onlyChannel_setOwner c _ _)

theorem onlyChannel_complete (c : Chan) (s : State) : OnlyChannel c s (complete c s) := by
  rw [complete_eq]; exact onlyChannel_instrDone c s

theorem onlyChannel_raiseFault (c : Chan) (k : Cause) (v : Word) (s : State) :
    OnlyChannel c s (raiseFault c k v s) := by
  rw [raiseFault_eq]; exact (onlyChannel_setCh c _ s).trans (onlyChannel_setOwner c _ _)

theorem onlyChannel_startRun (c : Chan) (s : State) : OnlyChannel c s (startRun c s) :=
  onlyChannel_setCh c _ s

theorem onlyChannel_finishRun (c : Chan) (s : State) : OnlyChannel c s (finishRun c s) := by
  rw [finishRun_eq]; exact (onlyChannel_setCh c _ s).trans (onlyChannel_setOwner c _ _)

theorem onlyChannel_setCall (c : Chan) (k : Option Call) (s : State) : OnlyChannel c s (setCall c k s) :=
  onlyChannel_setCh c _ s

theorem onlyChannel_setInner (c : Chan) (y : Option Inner) (s : State) : OnlyChannel c s (setInner c y s) :=
  onlyChannel_setCh c _ s

theorem onlyChannel_stopGather (c : Chan) (s : State) : OnlyChannel c s (stopGather c s) := by
  unfold stopGather
  split
  · exact (onlyChannel_setInner c none s).trans (onlyChannel_release c _)
  · exact onlyChannel_finishRun c s

theorem onlyChannel_afterWrite (c : Chan) (s : State) : OnlyChannel c s (afterWrite c s) := by
  unfold afterWrite
  cases h : (s.ch c).pos with
  | burst off left inc =>
    simp only
    split_ifs
    · exact onlyChannel_complete c s
    · exact onlyChannel_setPos c _ s
  | mask off bits i =>
    simp only
    cases nextBit bits (i + 1) with
    | none => exact onlyChannel_complete c s
    | some _ => exact onlyChannel_setPos c _ s
  | insertBurst =>
    simp only
    split
    · split_ifs
      · exact (onlyChannel_setInner c none s).trans (onlyChannel_complete c _)
      · exact onlyChannel_setInner c _ s
    · exact onlyChannel_complete c s
  | _ => exact onlyChannel_complete c s

theorem onlyChannel_startBurst (c : Chan) (o : BitVec 12) (n : BitVec 16) (b : Bool) (s : State) :
    OnlyChannel c s (startBurst c o n b s) := by
  unfold startBurst
  split
  · exact onlyChannel_complete c s
  · exact onlyChannel_setPos c _ s

theorem onlyChannel_startMask (c : Chan) (o : BitVec 12) (bits : BitVec 16) (s : State) :
    OnlyChannel c s (startMask c o bits s) := by
  unfold startMask
  split
  · exact onlyChannel_complete c s
  · exact onlyChannel_setPos c _ s

theorem onlyChannel_gatherHead (c : Chan) (i : Instr) (o : BitVec 12) (b : Bool) (n : BitVec 1)
    (k : BitVec 14) (s : State) : OnlyChannel c s (gatherHead c i o b n k s) := by
  unfold gatherHead
  split
  · exact onlyChannel_raiseFault c _ _ s
  · exact onlyChannel_setPos c _ s

theorem onlyChannel_enterGather (c : Chan) (o : BitVec 12) (ins inc : Bool) (n : BitVec 14) (b : Word)
    (s : State) : OnlyChannel c s (enterGather c o ins inc n b s) := by
  unfold enterGather
  split
  · exact onlyChannel_complete c s
  · split
    · exact (onlyChannel_setInner c _ s).trans (onlyChannel_setPos c _ _)
    · exact ((onlyChannel_setInner c _ s).trans (onlyChannel_setPos c _ _)).trans
        (onlyChannel_release c _)

theorem onlyChannel_restart (c : Chan) (p : Ptr) (s : State) :
    OnlyChannel c s (complete c (dropInline c (relocate c p s))) := by
  refine OnlyChannel.trans ?_ (onlyChannel_complete c _)
  refine OnlyChannel.trans (t := relocate c p s) (onlyChannel_setCh c _ s) ?_
  unfold dropInline
  split
  · exact onlyChannel_setInner c none _
  · exact OnlyChannel.refl c _

/-! ### Fetching and the DATA step -/

@[simp] theorem advance_endPtr (x : Channel) (r : Reader) : (x.advance r).endPtr = x.endPtr := by
  rcases hx : x.inner with _ | ⟨g, _ | _⟩ <;> cases r <;> simp [Channel.advance, hx]

@[simp] theorem advance_enabled (x : Channel) (r : Reader) : (x.advance r).enabled = x.enabled := by
  rcases hx : x.inner with _ | ⟨g, _ | _⟩ <;> cases r <;> simp [Channel.advance, hx]

@[simp] theorem advance_start (x : Channel) (r : Reader) : (x.advance r).start = x.start := by
  rcases hx : x.inner with _ | ⟨g, _ | _⟩ <;> cases r <;> simp [Channel.advance, hx]

@[simp] theorem advance_stopped (x : Channel) (r : Reader) : (x.advance r).stopped = x.stopped := by
  rcases hx : x.inner with _ | ⟨g, _ | _⟩ <;> cases r <;> simp [Channel.advance, hx]

@[simp] theorem advance_running (x : Channel) (r : Reader) : (x.advance r).running = x.running := by
  rcases hx : x.inner with _ | ⟨g, _ | _⟩ <;> cases r <;> simp [Channel.advance, hx]

@[simp] theorem advance_cur (x : Channel) (r : Reader) : (x.advance r).cur = x.cur := by
  rcases hx : x.inner with _ | ⟨g, _ | _⟩ <;> cases r <;> simp [Channel.advance, hx]

@[simp] theorem advance_waiter (x : Channel) (r : Reader) : (x.advance r).waiter = x.waiter := by
  rcases hx : x.inner with _ | ⟨g, _ | _⟩ <;> cases r <;> simp [Channel.advance, hx]

@[simp] theorem advance_fault (x : Channel) (r : Reader) : (x.advance r).fault = x.fault := by
  rcases hx : x.inner with _ | ⟨g, _ | _⟩ <;> cases r <;> simp [Channel.advance, hx]

@[simp] theorem advance_pos (x : Channel) (r : Reader) : (x.advance r).pos = x.pos := by
  rcases hx : x.inner with _ | ⟨g, _ | _⟩ <;> cases r <;> simp [Channel.advance, hx]

@[simp] theorem advance_call (x : Channel) (r : Reader) : (x.advance r).call = x.call := by
  rcases hx : x.inner with _ | ⟨g, _ | _⟩ <;> cases r <;> simp [Channel.advance, hx]

@[simp] theorem advance_fifo (x : Channel) (r : Reader) : (x.advance r).fifo = x.fifo := by
  rcases hx : x.inner with _ | ⟨g, _ | _⟩ <;> cases r <;> simp [Channel.advance, hx]

/-- The gather an interpreter reads after one word is that gather past the word (R203). -/
theorem view_advance (x : Channel) :
    (x.advance x.reader).view (x.advance x.reader).reader = (x.view x.reader).next := by
  rcases hx : x.inner with _ | ⟨g, _ | _⟩ <;> simp [Channel.advance, Channel.reader, Channel.view, hx]

/-- The gather read does not depend on the position. -/
theorem view_pos (x : Channel) (p : Pos) :
    ({ x with pos := p } : Channel).view ({ x with pos := p } : Channel).reader = x.view x.reader := rfl

/-- A fetch reads the word at the cursor and moves the cursor by one (43_interpreter_loop.md R203). -/
theorem fetch_eq_some {c : Chan} {r : Reader} {s t : State} {w : Word} :
    fetch c r s = some (w, t) ↔
      s.mem.readWord ((s.ch c).view r).wordIndex = some w ∧
        t = s.setCh c ((s.ch c).advance r) := by
  unfold fetch
  cases s.mem.readWord ((s.ch c).view r).wordIndex <;> simp [eq_comm]

/-- A cursor that is not stopped: enabled, not drained, not at the end boundary of an outer gather
(R202). -/
theorem stopped_eq_go {x : Channel} {g : Gather} :
    stopped x g = .go ↔ x.enabled = true ∧ g.get ≠ g.put ∧ (g.inlined = true ∨ g.get ≠ x.endPtr) := by
  unfold stopped
  cases x.enabled <;> cases g.inlined <;> by_cases h : g.get = g.put <;>
    by_cases h' : g.get = x.endPtr <;> simp_all

theorem stopped_eq_stop {x : Channel} {g : Gather} :
    stopped x g = .stop ↔ x.enabled = false ∨ g.get = g.put := by
  unfold stopped
  cases x.enabled <;> cases g.inlined <;> by_cases h : g.get = g.put <;>
    by_cases h' : g.get = x.endPtr <;> simp_all

theorem stopped_eq_fatal {x : Channel} {g : Gather} :
    stopped x g = .fatal ↔
      x.enabled = true ∧ g.get ≠ g.put ∧ g.inlined = false ∧ g.get = x.endPtr := by
  unfold stopped
  cases x.enabled <;> cases g.inlined <;> by_cases h : g.get = g.put <;>
    by_cases h' : g.get = x.endPtr <;> simp_all

/-- Everything a DATA step can do (R205): fault at the end boundary, stop, or use the word fetched. -/
theorem dataStep_next {c : Chan} {r : Reader} {onStop s t : State} {use : Word → State → Res}
    (h : dataStep c r onStop use s = .next t) :
    (stopped (s.ch c) ((s.ch c).view r) = .fatal ∧
      t = raiseFault c .endReached (endInfo ((s.ch c).view r)) s) ∨
    (stopped (s.ch c) ((s.ch c).view r) = .stop ∧ t = onStop) ∨
    ∃ w, stopped (s.ch c) ((s.ch c).view r) = .go ∧
      s.mem.readWord ((s.ch c).view r).wordIndex = some w ∧
      use w (s.setCh c ((s.ch c).advance r)) = .next t := by
  unfold dataStep at h
  split at h
  · rename_i h0; cases h; exact .inl ⟨h0, rfl⟩
  · rename_i h0; cases h; exact .inr (.inl ⟨h0, rfl⟩)
  · rename_i h0
    split at h
    · rename_i w u hf
      obtain ⟨hw, rfl⟩ := fetch_eq_some.1 hf
      exact .inr (.inr ⟨w, h0, hw, h⟩)
    · cases h

/-! ### Module writes -/

/-- What a module write by worker `c` on a module that asks nothing of the core leaves alone: everything but the channel,
the owner of the section, the outputs, the counters and the free-value argument. -/
structure WriteFrame (c : Chan) (s t : State) : Prop where
  rest : t = { s with chs := t.chs, owner := t.owner, out := t.out, diag := t.diag, fresh := t.fresh }
  others : ∀ d, d ≠ c → t.ch d = s.ch d

theorem OnlyChannel.write {c : Chan} {s t : State} (h : OnlyChannel c s t) : WriteFrame c s t :=
  ⟨by rw [h.rest], h.others⟩

theorem WriteFrame.trans {c : Chan} {s t u : State} (h : WriteFrame c s t) (g : WriteFrame c t u) :
    WriteFrame c s u :=
  ⟨g.rest.trans (by rw [h.rest]), fun d hd => (g.others d hd).trans (h.others d hd)⟩

theorem writeFrame_dropWrite (a : AgentId) (c : Chan) (off v : Word) (s : State) :
    WriteFrame c s (dropWrite a off v s) := ⟨rfl, fun _ _ => rfl⟩

theorem writeFrame_moduleWritten (a : AgentId) (c : Chan) (m : Module) (off v : Word) (s : State) :
    WriteFrame c s (moduleWritten a m off v s) := ⟨rfl, fun _ _ => rfl⟩

theorem writeFrame_fifoPush (c : Chan) (v : Word) (s : State) : WriteFrame c s (fifoPush c v s) :=
  (onlyChannel_setCh c _ s).write

/-- A request is answered: only the outputs change. -/
theorem writeFrame_answer (a : AgentId) (r : Reply) (c : Chan) (s : State) :
    WriteFrame c s (answer a r s) := by
  unfold answer; split <;> exact ⟨rfl, fun _ _ => rfl⟩

/-- Everything a module write can do (44_module_write_opcodes.md R188, R226): it is within the offset
space, and with no module it is dropped, with a module its handler's requests are performed. -/
theorem modWrite_next {c : Chan} {off v : Word} {s t : State} (h : modWrite c off v s = .next t) :
    off ≤ Config.maxOffset ∧
    ((currentModule c s = none ∧ t = afterWrite c (dropWrite (.worker c) off v s)) ∨
      ∃ m, currentModule c s = some m ∧
        continueCall c (runRequests (.worker c) (handlerRequests m off v s.fresh)
          (moduleWritten (.worker c) m off v s)) = .next t) := by
  unfold modWrite at h
  split at h
  · cases h
  · rename_i h0
    refine ⟨BitVec.not_lt.1 h0, ?_⟩
    split at h
    · rename_i h1; cases h; exact .inl ⟨h1, rfl⟩
    · rename_i m h1; exact .inr ⟨m, h1, h⟩

/-- A module write beyond the offset space has no meaning (R226). -/
theorem modWrite_beyond {c : Chan} {off : Word} (ho : 0xFFF < off.toNat) (v : Word) (s : State) :
    modWrite c off v s = .refused (.offsetBeyond12 off) :=
  if_pos (show Config.maxOffset < off from BitVec.lt_def.2 ho)

/-- A module write whose handler asks nothing of the core shows outside and is complete (42_fifo_registry.md
R188, R189); a dropped one is counted. -/
theorem modWrite_silent {c : Chan} {off v : Word} {s : State} (ho : off.toNat ≤ 0xFFF)
    (hq : Silent c off v s) :
    ∃ n, modWrite c off v s = .next (afterWrite c
      { s with out := writeOutput c s off v :: s.out, diag := diagAfter c 1 s, fresh := n }) := by
  have hno : ¬ Config.maxOffset < off := by
    rw [BitVec.lt_def]
    have : Config.maxOffset.toNat = 0xFFF := rfl
    omega
  unfold modWrite
  rw [if_neg hno]
  cases hm : currentModule c s with
  | none => exact ⟨s.fresh, by simp only [writeOutput, diagAfter, hm]; rfl⟩
  | some m =>
    refine ⟨s.fresh + 1, ?_⟩
    simp only [hq m hm, runRequests, continueCall, writeOutput, diagAfter, hm]
    rfl

/-! ### The steps of the machine -/

/-- A step of a scheduled worker. -/
theorem step_worker {s : State} {c : Chan} {rest : List Event} (h : Scheduled c rest s) :
    step s = workerStep c (s.setAgenda rest) := by
  unfold Scheduled at h
  simp [step, nextEvent, h, perform]

/-- A step of a worker inside a run, no handler being in progress. -/
theorem step_instr {s : State} {c : Chan} {rest : List Event} {p : Pos} (h : Scheduled c rest s)
    (hp : AtPos c p s) : step s = instrStep c (s.setAgenda rest) := by
  rw [step_worker h]
  simp [workerStep, hp.1, hp.2.1]

/-- A step in which a free host context issues an operation. -/
theorem step_issue {s : State} {h : Nat} {op : HostOp} {rest : List Event} (hs : Issued h op rest s) :
    step s = hostOp h op (s.setAgenda rest) := by
  simp [step, nextEvent, hs.1, perform, hostIssue, hs.2]

/-- A step in which a host context goes on. -/
theorem step_resume {s : State} {h : Nat} {rest : List Event} (hs : s.agenda = .resume h :: rest) :
    step s = hostResume h (s.setAgenda rest) := by
  simp [step, nextEvent, hs, perform]

/-- A run goes on from the state its first step leaves. -/
theorem runSteps_succ {n : Nat} {s t : State} (h : step s = .next t) :
    runSteps (n + 1) s = runSteps n t := by
  have : Sys2Proof.core.step s = .next t := h
  unfold runSteps
  simp only [Host.Core.run, this]
  rfl

/-- An identifier in range. -/
@[simp] theorem checkId_val {n : Nat} (i : Fin n) : checkId n i.val = some i := by
  simp [checkId]

theorem checkId_eq_some {n id : Nat} {i : Fin n} : checkId n id = some i ↔ id = i.val := by
  unfold checkId
  split
  · simp [Fin.ext_iff]
  · rename_i h; simp; intro e; exact h (e ▸ i.isLt)

theorem checkId_eq_none {n id : Nat} : checkId n id = none ↔ n ≤ id := by
  unfold checkId; split <;> simp_all

@[simp] theorem withId_val {n : Nat} (i : Fin n) (k : Fin n → Res) : withId n i.val k = k i := by
  simp [withId]

@[simp] theorem withSyncId_val {n : Nat} (i : Fin n) (k : Fin n → SyncResult) :
    withSyncId n i.val k = k i := by
  simp [withSyncId]

/-- An operation on an identified element that answers a next state has its identifier in range. -/
theorem withId_next {n id : Nat} {k : Fin n → Res} {t : State} (h : withId n id k = .next t) :
    ∃ i : Fin n, id = i.val ∧ k i = .next t := by
  unfold withId at h
  split at h
  · rename_i i hi; exact ⟨i, checkId_eq_some.1 hi, h⟩
  · cases h

/-- The state an event happens in differs from the old one in the agenda and the free-value argument
only. -/
theorem nextEvent_state (s : State) :
    (nextEvent s).2 = { s with agenda := (nextEvent s).2.agenda, fresh := (nextEvent s).2.fresh } := by
  unfold nextEvent
  split <;> rfl

theorem ch_nextEvent (s : State) (c : Chan) : (nextEvent s).2.ch c = s.ch c := by
  rw [nextEvent_state]; rfl

end Sys2Proof.Machine
end

