-- ==== Sys2Proof/Laws/Sync.lean ====
section
/-! SUPPORT. What the waiter mechanism and the IRQ router can do, said once (40_syncpt.md R127, R130,
R136; 60_exceptions.md R313, R316). -/

namespace Sys2Proof.Machine

@[simp] theorem setSp_sp (s : State) (i : Fin 32) : s.setSp i (s.sp i) = s := by
  simp [State.setSp, State.sp]

@[simp] theorem list_setList_self (x : SyncPoint) (k : WaitList) (l : List AgentId) :
    (x.setList k l).list k = l := by
  cases k <;> rfl

theorem list_setList_ne (x : SyncPoint) {k m : WaitList} (h : m ≠ k) (l : List AgentId) :
    (x.setList k l).list m = x.list m := by
  cases k <;> cases m <;> first | rfl | exact absurd rfl h

@[simp] theorem setList_counter (x : SyncPoint) (k : WaitList) (l : List AgentId) :
    (x.setList k l).counter = x.counter := by cases k <;> rfl

@[simp] theorem setList_threshold (x : SyncPoint) (k : WaitList) (l : List AgentId) :
    (x.setList k l).threshold = x.threshold := by cases k <;> rfl

/-- The Waiter record written is the one read. -/
theorem waiter_setWaiter (s : State) (a b : AgentId) (w : Waiter) :
    (s.setWaiter a w).waiter b = if b = a then w else s.waiter b := by
  cases a <;> cases b <;> simp [ch_setCh, ctx_setCtx] <;> split <;> rfl

@[simp] theorem waiter_setSp (s : State) (i : Fin 32) (x : SyncPoint) (a : AgentId) :
    (s.setSp i x).waiter a = s.waiter a := by cases a <;> rfl

@[simp] theorem sp_setWaiter (s : State) (a : AgentId) (w : Waiter) (i : Fin 32) :
    (s.setWaiter a w).sp i = s.sp i := by cases a <;> rfl

/-! ### The frame of the waiter mechanism -/

/-- What the waiter mechanism leaves alone: everything but the Waiter records and the waiter lists. -/
structure WaitersOnly (s t : State) : Prop where
  rest : t = { s with chs := t.chs, sps := t.sps, hosts := t.hosts }
  ch : ∀ c, t.ch c = { s.ch c with waiter := (t.ch c).waiter }
  job : ∀ h, (t.ctx h).job = (s.ctx h).job
  counter : ∀ i, (t.sp i).counter = (s.sp i).counter
  threshold : ∀ i, (t.sp i).threshold = (s.sp i).threshold
  hosts : HostsCanonical s → HostsCanonical t

theorem WaitersOnly.refl (s : State) : WaitersOnly s s :=
  ⟨rfl, fun _ => rfl, fun _ => rfl, fun _ => rfl, fun _ => rfl, id⟩

theorem WaitersOnly.trans {s t u : State} (h : WaitersOnly s t) (g : WaitersOnly t u) :
    WaitersOnly s u :=
  ⟨g.rest.trans (by rw [h.rest]), fun c => (g.ch c).trans (by rw [h.ch c]),
    fun n => (g.job n).trans (h.job n), fun i => (g.counter i).trans (h.counter i),
    fun i => (g.threshold i).trans (h.threshold i), fun e => g.hosts (h.hosts e)⟩

theorem waitersOnly_setWaiter (a : AgentId) (w : Waiter) (s : State) :
    WaitersOnly s (s.setWaiter a w) := by
  cases a with
  | worker c =>
    refine ⟨rfl, fun d => ?_, fun _ => rfl, fun _ => rfl, fun _ => rfl, id⟩
    by_cases hd : d = c
    · subst hd; simp
    · simp [hd]
  | ctx h =>
    refine ⟨rfl, fun _ => rfl, fun g => ?_, fun _ => rfl, fun _ => rfl,
      fun e => hostsCanonical_setCtx e h _⟩
    by_cases hg : g = h
    · subst hg; simp
    · simp [hg]

theorem waitersOnly_setList (i : Fin 32) (k : WaitList) (l : List AgentId) (s : State) :
    WaitersOnly s (s.setSp i ((s.sp i).setList k l)) := by
  refine ⟨rfl, fun _ => rfl, fun _ => rfl, fun j => ?_, fun j => ?_, id⟩ <;>
    · by_cases hj : j = i
      · subst hj; simp
      · simp [hj]

theorem waitersOnly_wake (a : AgentId) (s : State) : WaitersOnly s (wake a s) := by
  unfold wake
  cases (s.waiter a).place with
  | none => exact waitersOnly_setWaiter a _ s
  | some p => exact (waitersOnly_setList p.1 p.2 _ s).trans (waitersOnly_setWaiter a _ _)

theorem waitersOnly_wakeWhere (test : State → AgentId → Bool) (l : List AgentId) (s : State) :
    WaitersOnly s (wakeWhere test l s) := by
  induction l generalizing s with
  | nil => exact .refl s
  | cons a rest ih =>
    refine WaitersOnly.trans (t := if test s a then wake a s else s) ?_ (ih _)
    split
    · exact waitersOnly_wake a s
    · exact .refl s

theorem waitersOnly_unlockForced (a : AgentId) (s : State) : WaitersOnly s (unlockForced a s) := by
  unfold unlockForced
  split
  · exact waitersOnly_wake a s
  · exact .refl s

/-! ### The frame of the IRQ router -/

/-- What latching and the line update leave alone: everything but the pending words, the lines and the
outputs. -/
structure RouterOnly (s t : State) : Prop where
  rest : t = { s with irq := t.irq, out := t.out }
  dest : t.irq.dest = s.irq.dest

theorem RouterOnly.refl (s : State) : RouterOnly s s := ⟨rfl, rfl⟩

theorem RouterOnly.trans {s t u : State} (h : RouterOnly s t) (g : RouterOnly t u) : RouterOnly s u :=
  ⟨g.rest.trans (by rw [h.rest]), g.dest.trans h.dest⟩

theorem routerOnly_updateLine (p : Fin 2) (s : State) : RouterOnly s (updateLine p s) := by
  unfold updateLine
  dsimp only
  split
  · exact .refl s
  · exact ⟨rfl, rfl⟩

theorem routerOnly_updateLines (s : State) : RouterOnly s (updateLines s) :=
  (routerOnly_updateLine 0 s).trans (routerOnly_updateLine 1 _)

theorem routerOnly_irqLatch (i : Fin 32) (s : State) : RouterOnly s (irqLatch i s) := by
  unfold irqLatch
  refine RouterOnly.trans ?_ (routerOnly_updateLines _)
  split
  · exact ⟨rfl, rfl⟩
  · exact .refl s

/-- The line of a CPU after its update is at the level of its pending word; the other line stays
(60_exceptions.md R316). -/
theorem line_updateLine (p q : Fin 2) (s : State) :
    (updateLine p s).line q = if q = p then lineLevel (s.pending p) else s.line q := by
  unfold updateLine
  dsimp only
  by_cases h : lineLevel (s.pending p) = s.line p
  · by_cases hq : q = p
    · subst hq; simp [h]
    · simp [h, hq]
  · simp [h, line_setLine]

theorem pending_updateLine (p q : Fin 2) (s : State) :
    (updateLine p s).pending q = s.pending q := by
  unfold updateLine
  dsimp only
  split <;> rfl

theorem pending_updateLines (q : Fin 2) (s : State) : (updateLines s).pending q = s.pending q := by
  simp [updateLines, pending_updateLine]

/-- After the update of both lines each is at the level of its pending word. -/
theorem line_updateLines (q : Fin 2) (s : State) :
    (updateLines s).line q = lineLevel (s.pending q) := by
  simp only [updateLines, line_updateLine, pending_updateLine]
  match q with
  | 0 => rfl
  | 1 => rfl

theorem updateLines_follow (s : State) : LinesFollowPending (updateLines s) := fun p => by
  rw [line_updateLines, pending_updateLines]

/-! ### Re-evaluation, and the operations of the store -/

/-- What re-evaluation leaves alone: everything but the waiter mechanism's and the router's state. -/
structure SyncFrame (s t : State) : Prop where
  rest : t = { s with chs := t.chs, sps := t.sps, hosts := t.hosts, irq := t.irq, out := t.out }
  ch : ∀ c, t.ch c = { s.ch c with waiter := (t.ch c).waiter }
  job : ∀ h, (t.ctx h).job = (s.ctx h).job
  counter : ∀ i, (t.sp i).counter = (s.sp i).counter
  threshold : ∀ i, (t.sp i).threshold = (s.sp i).threshold
  dest : t.irq.dest = s.irq.dest
  hosts : HostsCanonical s → HostsCanonical t

theorem WaitersOnly.sync {s t : State} (h : WaitersOnly s t) : SyncFrame s t :=
  ⟨by rw [h.rest], h.ch, h.job, h.counter, h.threshold, by rw [h.rest], h.hosts⟩

theorem RouterOnly.sync {s t : State} (h : RouterOnly s t) : SyncFrame s t := by
  have hr := h.rest
  refine ⟨by rw [hr], fun c => ?_, fun n => ?_, fun i => ?_, fun i => ?_, h.dest, fun e => ?_⟩
  all_goals rw [hr]
  · rfl
  · rfl
  · rfl
  · rfl
  · exact e

theorem SyncFrame.trans {s t u : State} (h : SyncFrame s t) (g : SyncFrame t u) : SyncFrame s u :=
  ⟨g.rest.trans (by rw [h.rest]), fun c => (g.ch c).trans (by rw [h.ch c]),
    fun n => (g.job n).trans (h.job n), fun i => (g.counter i).trans (h.counter i),
    fun i => (g.threshold i).trans (h.threshold i), g.dest.trans h.dest, fun e => g.hosts (h.hosts e)⟩

/-- The frame of a re-evaluation (40_syncpt.md R127). -/
theorem syncFrame_reevaluate (i : Fin 32) (incremented : Bool) (s : State) :
    SyncFrame s (reevaluate i incremented s) := by
  unfold reevaluate
  dsimp only
  have h1 := (routerOnly_irqLatch i s).sync
  have h2 := h1.trans (waitersOnly_wakeWhere (satisfied i) ((irqLatch i s).sp i).wAbs _).sync
  have h3 := h2.trans (waitersOnly_wakeWhere (satisfied i)
    ((wakeWhere (satisfied i) ((irqLatch i s).sp i).wAbs (irqLatch i s)).sp i).wRel _).sync
  split
  · exact h3.trans (waitersOnly_wakeWhere _ _ _).sync
  · exact h3

/-- An enqueued agent's record, and the list that holds it (R130 step A). -/
theorem enqueue_ctx (h : Nat) (i : Fin 32) (k : WaitList) (v : Word) (b : Option (Fin 8)) (s : State) :
    enqueue (.ctx h) i k v b s =
      (s.setCtx h { s.ctx h with waiter := ⟨v, b, false, some (i, k)⟩ }).setSp i
        ((s.sp i).setList k (.ctx h :: (s.sp i).list k)) := rfl

theorem enqueue_worker (c : Chan) (i : Fin 32) (k : WaitList) (v : Word) (b : Option (Fin 8))
    (s : State) :
    enqueue (.worker c) i k v b s =
      ((s.setCh c { s.ch c with waiter := ⟨v, b, false, some (i, k)⟩ }).setSp i
        ((s.sp i).setList k (.worker c :: (s.sp i).list k))).setOwner (ownerReleased c s) := by
  simp only [enqueue, release_eq]
  rfl

theorem withSyncId_returned {n id : Nat} {k : Fin n → SyncResult} {t : State} {v : Reply}
    (h : withSyncId n id k = .returned t v) : ∃ i, k i = .returned t v := by
  unfold withSyncId at h
  split at h
  · exact ⟨_, h⟩
  · cases h

theorem withSyncId_held {n id : Nat} {k : Fin n → SyncResult} {t : State}
    (h : withSyncId n id k = .held t) : ∃ i, k i = .held t := by
  unfold withSyncId at h
  split at h
  · exact ⟨_, h⟩
  · cases h

/-- A wait that returns at once touches nothing (40_syncpt.md R130). -/
theorem waitStepA_returned {a : AgentId} {i : Fin 32} {k : WaitList} {w : Word} {b : Option (Fin 8)}
    {now : Bool} {s t : State} {v : Reply} (h : waitStepA a i k w b now s = .returned t v) : t = s := by
  unfold waitStepA at h
  split at h
  · injection h with h; exact h.symm
  · cases h

theorem waitStepA_held {a : AgentId} {i : Fin 32} {k : WaitList} {w : Word} {b : Option (Fin 8)}
    {now : Bool} {s t : State} (h : waitStepA a i k w b now s = .held t) :
    t = enqueue a i k w b s := by
  unfold waitStepA at h
  split at h
  · cases h
  · injection h with h; exact h.symm

/-- Everything an operation of the store that returns can have done: written a counter, a threshold or a
base, or nothing. -/
theorem syncOp_returned {a : AgentId} {s t : State} {r : SyncReq} {v : Reply}
    (h : syncOp a s r = .returned t v) :
    t = s ∨ (∃ i, t = syncIncrement i s) ∨ (∃ i w, t = syncSetCounter i w s) ∨
      (∃ i w, t = syncSetThreshold i w s) ∨ ∃ j w, t = s.setBase j w := by
  cases r with
  | increment id =>
    obtain ⟨i, hi⟩ := withSyncId_returned h
    injection hi with hi; exact .inr (.inl ⟨i, hi.symm⟩)
  | setCounter id w =>
    obtain ⟨i, hi⟩ := withSyncId_returned h
    injection hi with hi; exact .inr (.inr (.inl ⟨i, w, hi.symm⟩))
  | setThreshold id w =>
    obtain ⟨i, hi⟩ := withSyncId_returned h
    injection hi with hi; exact .inr (.inr (.inr (.inl ⟨i, w, hi.symm⟩)))
  | baseSet id w =>
    obtain ⟨i, hi⟩ := withSyncId_returned h
    injection hi with hi; exact .inr (.inr (.inr (.inr ⟨i, w, hi.symm⟩)))
  | baseIncrement id w =>
    obtain ⟨i, hi⟩ := withSyncId_returned h
    injection hi with hi; exact .inr (.inr (.inr (.inr ⟨i, _, hi.symm⟩)))
  | getCounter id | getThreshold id | thresholdCrossed id | baseGet id =>
    obtain ⟨i, hi⟩ := withSyncId_returned h
    injection hi with hi; exact .inl hi.symm
  | wait id w | waitNextIncrement id =>
    obtain ⟨i, hi⟩ := withSyncId_returned h
    exact .inl (waitStepA_returned hi)
  | waitBaseRelative id b w =>
    obtain ⟨i, hi⟩ := withSyncId_returned h
    obtain ⟨j, hj⟩ := withSyncId_returned hi
    exact .inl (waitStepA_returned hj)

/-- Everything an operation of the store that holds has done: enqueued its caller, with a base exactly in
a base-relative list. -/
theorem syncOp_held {a : AgentId} {s t : State} {r : SyncReq} (h : syncOp a s r = .held t) :
    ∃ i k v b, t = enqueue a i k v b s ∧ (b.isSome = true ↔ k = .rel) := by
  cases r with
  | wait id w | waitNextIncrement id =>
    obtain ⟨i, hi⟩ := withSyncId_held h
    exact ⟨i, _, _, _, waitStepA_held hi, by simp⟩
  | waitBaseRelative id b w =>
    obtain ⟨i, hi⟩ := withSyncId_held h
    obtain ⟨j, hj⟩ := withSyncId_held hi
    exact ⟨i, _, _, _, waitStepA_held hj, by simp⟩
  | _ => obtain ⟨i, hi⟩ := withSyncId_held h; exact SyncResult.noConfusion hi

end Sys2Proof.Machine
end

