-- ==== Sys2Proof/Laws/Extend.lean ====
section
/-! SUPPORT. What the mutex instructions, the module registry and the FIFO operations can do, said once
(41_mlock.md R164, R165; 42_fifo_registry.md R181, R182, R186). -/

namespace Sys2Proof.Machine

/-- Everything a step at `in_acquire(k)` can do (41_mlock.md R164). -/
theorem acquireStep_eq (c : Chan) (k : Fin 16) (s : State) :
    acquireStep c k s =
      if (s.ch c).enabled = false then instrDone c s
      else if (s.ml k).cpuOwns = true ∨ (s.ml k).channelOwns = true then s
      else instrDone c (s.setMl k ⟨true, false, BitVec.ofNat 4 c⟩) := by
  unfold acquireStep acquireHolds channelAcquire
  rcases he : (s.ch c).enabled
  · simp [complete_eq]
  · rcases hm : s.ml k with ⟨a, b, o⟩
    cases a <;> cases b <;> simp [complete_eq]

/-- Everything a step at `in_release(k)` can do (41_mlock.md R165). -/
theorem releaseStep_eq (c : Chan) (k : Fin 16) (s : State) :
    releaseStep c k s =
      if (s.ch c).enabled = false then instrDone c s
      else if (s.ml k).cpuOwns = true ∨
        ((s.ml k).channelOwns = true ∧ (s.ml k).owner ≠ BitVec.ofNat 4 c) then s
      else instrDone c (s.setMl k { s.ml k with channelOwns := false }) := by
  unfold releaseStep releaseHolds foreignOwned channelRelease
  rcases he : (s.ch c).enabled
  · simp [complete_eq]
  · rcases hm : s.ml k with ⟨a, b, o⟩
    by_cases ho : o = BitVec.ofNat 4 c <;> cases a <;> cases b <;> simp [complete_eq, ho]

/-- The foreign-release counter moves when the hold of a foreign slot begins (10_state.md R40). -/
theorem countForeign_eq (c : Chan) (k : Fin 16) (s : State) :
    countForeign c k s =
      if (s.ch c).enabled = true ∧ (s.ml k).channelOwns = true ∧
        (s.ml k).owner ≠ BitVec.ofNat 4 c then
        s.setDiag { s.diag with foreignRelease := s.diag.foreignRelease + 1 }
      else s := by
  unfold countForeign foreignOwned
  simp

/-- A position a worker stands at is overwritten by the next. -/
theorem instrDone_setPos (c : Chan) (p : Pos) (s : State) :
    instrDone c (setPos c p s) = instrDone c s := by
  simp [instrDone, setPos]; rfl

theorem setPos_setPos (c : Chan) (p q : Pos) (s : State) :
    setPos c p (setPos c q s) = setPos c p s := by
  simp [setPos]

/-- `run(c)` after a write to the channel (48_cdma.md R280). -/
theorem cdmaRun_setCh (c : Chan) (x : Channel) (s : State) :
    cdmaRun c (s.setCh c x) = s.setCh c
      (if x.enabled = true ∧ x.gather.get ≠ x.gather.put ∧ x.running = false ∧ x.fault = none then
        { x with start := true }
      else x) := by
  unfold cdmaRun Channel.runnable
  simp only [ch_setCh_self, setCh_setCh]
  cases h1 : x.enabled <;> cases h2 : x.running <;> cases h3 : x.fault <;> cases h4 : x.start <;>
    by_cases h5 : x.gather.get = x.gather.put <;> simp [h5]
  congr 1
  cases x; simp_all

/-- A class id is found exactly if some module is registered under it (42_fifo_registry.md R186). -/
theorem lookupModule_isSome (k : BitVec 16) (s : State) :
    (lookupModule k s).isSome = s.registry.any fun m => m.classId == k := by
  rw [Bool.eq_iff_iff]; simp [lookupModule]

/-- What a lookup finds is registered under the class id asked for. -/
theorem lookupModule_eq_some {k : BitVec 16} {s : State} {m : Module}
    (h : lookupModule k s = some m) : m ∈ s.registry ∧ m.classId = k :=
  ⟨List.mem_of_find?_eq_some h, by simpa using List.find?_some h⟩

/-- The module of a channel depends on its selected class and the registry only (10_state.md R25). -/
theorem currentModule_congr {c : Chan} {s t : State} (hc : (t.ch c).cur = (s.ch c).cur)
    (hr : t.registry = s.registry) : currentModule c t = currentModule c s := by
  unfold currentModule lookupModule; rw [hc, hr]

end Sys2Proof.Machine
end

