-- ==== Sys2Proof/Laws/Worker.lean ====
section
/-! SUPPORT. What an instruction, and a step of a worker, can touch, said once: the frames of `exec` and of
`workerStep`, and the cases of a worker's step. -/

namespace Sys2Proof.Machine

/-- What the head of an instruction that writes no module leaves alone: everything but its channel,
the mutex table, the owner of the section, the outputs, the counters and the free-value argument. -/
structure ExecFrame (c : Chan) (s t : State) : Prop where
  rest : t = { s with
    chs := t.chs, mls := t.mls, owner := t.owner, out := t.out, diag := t.diag, fresh := t.fresh }
  others : ∀ d, d ≠ c → t.ch d = s.ch d

theorem ExecFrame.trans {c : Chan} {s t u : State} (h : ExecFrame c s t) (g : ExecFrame c t u) :
    ExecFrame c s u :=
  ⟨g.rest.trans (by rw [h.rest]), fun d hd => (g.others d hd).trans (h.others d hd)⟩

theorem WriteFrame.exec {c : Chan} {s t : State} (h : WriteFrame c s t) : ExecFrame c s t :=
  ⟨by rw [h.rest], h.others⟩

theorem OnlyChannel.exec {c : Chan} {s t : State} (h : OnlyChannel c s t) : ExecFrame c s t :=
  h.write.exec

theorem execFrame_setMl (c : Chan) (k : Fin 16) (x : Mlock) (s : State) : ExecFrame c s (s.setMl k x) :=
  ⟨rfl, fun _ _ => rfl⟩

theorem execFrame_acquireStep (c : Chan) (k : Fin 16) (s : State) :
    ExecFrame c s (acquireStep c k s) := by
  rw [acquireStep_eq]
  split
  · exact (onlyChannel_instrDone c s).exec
  · split
    · exact (OnlyChannel.refl c s).exec
    · exact (execFrame_setMl c k _ s).trans (onlyChannel_instrDone c _).exec

theorem execFrame_releaseStep (c : Chan) (k : Fin 16) (s : State) :
    ExecFrame c s (releaseStep c k s) := by
  rw [releaseStep_eq]
  split
  · exact (onlyChannel_instrDone c s).exec
  · split
    · exact (OnlyChannel.refl c s).exec
    · exact (execFrame_setMl c k _ s).trans (onlyChannel_instrDone c _).exec

theorem execFrame_countForeign (c : Chan) (k : Fin 16) (s : State) :
    ExecFrame c s (countForeign c k s) := by
  rw [countForeign_eq]
  split
  · exact ⟨rfl, fun _ _ => rfl⟩
  · exact (OnlyChannel.refl c s).exec

/-- What any step of worker `c` leaves alone: the registry, the memory, the configuration, the agenda,
every other channel but its Waiter record, and every host context but its Waiter record. -/
structure WorkerFrame (c : Chan) (s t : State) : Prop where
  registry : t.registry = s.registry
  mem : t.mem = s.mem
  cfg : t.cfg = s.cfg
  agenda : t.agenda = s.agenda
  dest : t.irq.dest = s.irq.dest
  others : ∀ d, d ≠ c → t.ch d = { s.ch d with waiter := (t.ch d).waiter }
  job : ∀ h, (t.ctx h).job = (s.ctx h).job
  hosts : HostsCanonical s → HostsCanonical t

theorem WorkerFrame.trans {c : Chan} {s t u : State} (h : WorkerFrame c s t) (g : WorkerFrame c t u) :
    WorkerFrame c s u :=
  ⟨g.registry.trans h.registry, g.mem.trans h.mem, g.cfg.trans h.cfg, g.agenda.trans h.agenda,
    g.dest.trans h.dest, fun d hd => (g.others d hd).trans (by rw [h.others d hd]),
    fun n => (g.job n).trans (h.job n), fun e => g.hosts (h.hosts e)⟩

theorem ExecFrame.worker {c : Chan} {s t : State} (h : ExecFrame c s t) : WorkerFrame c s t := by
  have hr := h.rest
  refine ⟨by rw [hr], by rw [hr], by rw [hr], by rw [hr], by rw [hr],
    fun d hd => by rw [h.others d hd], fun n => ?_, fun e => ?_⟩
  · rw [hr]; rfl
  · rw [hr]; exact e

theorem SyncFrame.worker {s t : State} (h : SyncFrame s t) (c : Chan) : WorkerFrame c s t := by
  have hr := h.rest
  exact ⟨by rw [hr], by rw [hr], by rw [hr], by rw [hr], h.dest, fun d _ => h.ch d, h.job, h.hosts⟩

theorem WorkerFrame.refl (c : Chan) (s : State) : WorkerFrame c s s := (OnlyChannel.refl c s).exec.worker

theorem workerFrame_setSp (c : Chan) (i : Fin 32) (x : SyncPoint) (s : State) :
    WorkerFrame c s (s.setSp i x) :=
  ⟨rfl, rfl, rfl, rfl, rfl, fun _ _ => rfl, fun _ => rfl, id⟩

theorem workerFrame_setBase (c : Chan) (j : Fin 8) (v : Word) (s : State) :
    WorkerFrame c s (s.setBase j v) :=
  ⟨rfl, rfl, rfl, rfl, rfl, fun _ _ => rfl, fun _ => rfl, id⟩

theorem workerFrame_emit (c : Chan) (o : Output) (s : State) : WorkerFrame c s (s.emit o) :=
  ⟨rfl, rfl, rfl, rfl, rfl, fun _ _ => rfl, fun _ => rfl, id⟩

theorem workerFrame_takeSection (c : Chan) (s : State) : WorkerFrame c s (takeSection c s) :=
  ⟨rfl, rfl, rfl, rfl, rfl, fun _ _ => rfl, fun _ => rfl, id⟩

/-- The frame of an operation of the store that returns. -/
theorem workerFrame_syncOp {a : AgentId} {s t : State} {r : SyncReq} {v : Reply} (c : Chan)
    (h : syncOp a s r = .returned t v) : WorkerFrame c s t := by
  obtain h | ⟨i, h⟩ | ⟨i, w, h⟩ | ⟨i, w, h⟩ | ⟨j, w, h⟩ := syncOp_returned h
  · rw [h]; exact .refl c s
  · rw [h, syncIncrement]
    exact (workerFrame_setSp c i _ s).trans ((syncFrame_reevaluate i _ _).worker c)
  · rw [h, syncSetCounter]
    exact (workerFrame_setSp c i _ s).trans ((syncFrame_reevaluate i _ _).worker c)
  · rw [h, syncSetThreshold]
    exact (workerFrame_setSp c i _ s).trans ((syncFrame_reevaluate i _ _).worker c)
  · rw [h]; exact workerFrame_setBase c j w s

/-! ### The requests of a handler (42_fifo_registry.md R189) -/

@[simp] theorem runRequests_nil (a : AgentId) (s : State) : runRequests a [] s = .returned s := rfl

@[simp] theorem continueCall_returned (c : Chan) (s : State) :
    continueCall c (.returned s) = .next (afterWrite c s) := rfl

theorem answer_done (a : AgentId) (s : State) : answer a .done s = s := rfl

/-- What has come of the requests when the agent's step ends, unless one of them had no meaning. -/
def Ran.state : Ran → Option State
  | .returned t => some t
  | .held _ _ t => some t
  | .refused _ => none

/-- The requests relate the state before them to the state after them by any preorder that relates what
one operation of the store and one push do. -/
theorem runRequests_rel {P : State → State → Prop} {a : AgentId} (refl : ∀ s, P s s)
    (trans : ∀ {s t u}, P s t → P t u → P s u)
    (ret : ∀ {s t r v}, syncOp a s r = .returned t v → P s (answer a v t))
    (held : ∀ {s t r}, syncOp a s r = .held t → P s t)
    (push : ∀ c v s, a = .worker c → P s (fifoPush c v s)) :
    ∀ (reqs : List CoreReq) {s t : State}, (runRequests a reqs s).state = some t → P s t
  | [], s, t, h => by cases h; exact refl s
  | .sync r :: rest, s, t, h => by
    simp only [runRequests] at h
    split at h
    · rename_i u v hu; exact trans (ret hu) (runRequests_rel refl trans ret held push rest h)
    · rename_i u hu; cases h; exact held hu
    · cases h
  | .push v :: rest, s, t, h => by
    simp only [runRequests] at h
    split at h
    · rename_i c
      split at h
      · cases h; exact refl s
      · exact trans (push c v s rfl) (runRequests_rel refl trans ret held push rest h)
    · cases h

/-- Everything a request that holds can be: a wait whose agent has just been enqueued, or a push of a
worker on its full FIFO. -/
theorem runRequests_held {a : AgentId} :
    ∀ {reqs qs : List CoreReq} {ph : Phase} {s t : State},
    runRequests a reqs s = .held qs ph t →
    (ph = .inWait ∧ ∃ u r, syncOp a u r = .held t) ∨
      (ph = .inPush ∧ ∃ c v rest, a = .worker c ∧ qs = .push v :: rest ∧ (t.ch c).fifo.full = true)
  | [], _, _, _, _, h => by cases h
  | .sync r :: rest, qs, ph, s, t, h => by
    simp only [runRequests] at h
    split at h
    · exact runRequests_held h
    · rename_i u hu; cases h; exact .inl ⟨rfl, s, r, hu⟩
    · cases h
  | .push v :: rest, qs, ph, s, t, h => by
    simp only [runRequests] at h
    split at h
    · rename_i c
      split at h
      · rename_i hf; cases h; exact .inr ⟨rfl, c, v, rest, rfl, rfl, hf⟩
      · exact runRequests_held h
    · cases h

theorem workerFrame_answer (a : AgentId) (c : Chan) (r : Reply) (s : State) :
    WorkerFrame c s (answer a r s) := (writeFrame_answer a r c s).exec.worker

/-- The frame of an operation of the store that holds worker `c`. -/
theorem workerFrame_held {c : Chan} {s t : State} {r : SyncReq} (h : syncOp (.worker c) s r = .held t) :
    WorkerFrame c s t := by
  obtain ⟨i, kind, w, b, rfl, -⟩ := syncOp_held h
  rw [enqueue_worker]
  exact ((onlyChannel_setCh c _ s).exec.worker.trans (workerFrame_setSp c i _ _)).trans
    (onlyChannel_setOwner c _ _).exec.worker

/-- The frame of the requests a handler makes in the context of worker `c`. -/
theorem workerFrame_runRequests {c : Chan} {reqs : List CoreReq} {s t : State}
    (h : (runRequests (.worker c) reqs s).state = some t) : WorkerFrame c s t :=
  runRequests_rel (WorkerFrame.refl c) WorkerFrame.trans
    (fun hr => (workerFrame_syncOp c hr).trans (workerFrame_answer _ c _ _)) workerFrame_held
    (fun d v u hd => by cases hd; exact (writeFrame_fifoPush c v u).exec.worker) reqs h

/-- Everything that can follow the requests of a handler: the module write is complete, or the worker
holds. -/
theorem continueCall_next {c : Chan} {r : Ran} {t : State} (h : continueCall c r = .next t) :
    (∃ u, r = .returned u ∧ t = afterWrite c u) ∨
      ∃ qs ph u, r = .held qs ph u ∧ t = setCall c (some ⟨qs, ph⟩) u := by
  cases r with
  | returned u => cases h; exact .inl ⟨u, rfl, rfl⟩
  | held qs ph u => cases h; exact .inr ⟨qs, ph, u, rfl, rfl⟩
  | refused e => cases h

/-- The frame of the requests of a handler with what follows them. -/
theorem continueCall_frame {c : Chan} {reqs : List CoreReq} {s t : State}
    (h : continueCall c (runRequests (.worker c) reqs s) = .next t) : WorkerFrame c s t := by
  obtain ⟨u, hu, rfl⟩ | ⟨qs, ph, u, hu, rfl⟩ := continueCall_next h
  · exact (workerFrame_runRequests (by rw [hu]; rfl)).trans (onlyChannel_afterWrite c u).exec.worker
  · exact (workerFrame_runRequests (by rw [hu]; rfl)).trans (onlyChannel_setCall c _ u).exec.worker

theorem resumeCall_frame {c : Chan} {reqs : List CoreReq} {s t : State}
    (h : resumeCall c reqs s = .next t) : WorkerFrame c s t :=
  (onlyChannel_setCall c none s).exec.worker.trans (continueCall_frame h)

/-- The frame of a module write with the requests of its handler (R188, R189). -/
theorem modWrite_frame {c : Chan} {off v : Word} {s t : State} (h : modWrite c off v s = .next t) :
    WorkerFrame c s t := by
  obtain ⟨-, ⟨-, rfl⟩ | ⟨m, -, h⟩⟩ := modWrite_next h
  · exact ((writeFrame_dropWrite _ c off v s).trans (onlyChannel_afterWrite c _).write).exec.worker
  · exact (writeFrame_moduleWritten _ c m off v s).exec.worker.trans (continueCall_frame h)

/-- Everything a worker past its wait can do (40_syncpt.md R130 step C). -/
theorem reacquire_next {c : Chan} {reqs : List CoreReq} {s t : State} (h : reacquire c reqs s = .next t) :
    (s.owner = none ∧ resumeCall c reqs (s.setOwner (some c)) = .next t) ∨
      ((∃ d, s.owner = some d) ∧ t = setCall c (some ⟨reqs, .reacquire⟩) s) := by
  unfold reacquire at h
  split at h
  · rename_i ho; exact .inl ⟨ho, h⟩
  · rename_i d ho; cases h; exact .inr ⟨⟨d, ho⟩, rfl⟩

theorem reacquire_frame {c : Chan} {reqs : List CoreReq} {s t : State} (h : reacquire c reqs s = .next t) :
    WorkerFrame c s t := by
  obtain ⟨-, h⟩ | ⟨-, rfl⟩ := reacquire_next h
  · exact (onlyChannel_setOwner c _ s).exec.worker.trans (resumeCall_frame h)
  · exact (onlyChannel_setCall c _ s).exec.worker

/-- Everything a step in a hold of a handler's call can do. -/
theorem callStep_cases {c : Chan} {k : Call} {s t : State} (h : callStep c k s = .next t) :
    (k.phase = .inWait ∧ (s.ch c).waiter.signalled = true ∧
      reacquire c k.reqs
        (s.setCh c { s.ch c with waiter := { (s.ch c).waiter with signalled := false } }) = .next t) ∨
    (k.phase = .inWait ∧ (s.ch c).waiter.signalled = false ∧ t = s) ∨
    (k.phase = .reacquire ∧ reacquire c k.reqs s = .next t) ∨
    (k.phase = .inPush ∧ resumeCall c k.reqs s = .next t) := by
  obtain ⟨reqs, ph⟩ := k
  cases ph with
  | inPush => exact .inr (.inr (.inr ⟨rfl, h⟩))
  | reacquire => exact .inr (.inr (.inl ⟨rfl, h⟩))
  | inWait =>
    simp only [callStep] at h
    cases hs : (s.ch c).waiter.signalled
    · rw [hs] at h; cases h; exact .inr (.inl ⟨rfl, rfl, rfl⟩)
    · rw [hs] at h; exact .inl ⟨rfl, rfl, h⟩

theorem callStep_frame {c : Chan} {k : Call} {s t : State} (h : callStep c k s = .next t) :
    WorkerFrame c s t := by
  obtain ⟨-, -, h⟩ | ⟨-, -, rfl⟩ | ⟨-, h⟩ | ⟨-, h⟩ := callStep_cases h
  · exact (onlyChannel_setCh c _ s).exec.worker.trans (reacquire_frame h)
  · exact .refl c t
  · exact reacquire_frame h
  · exact resumeCall_frame h

/-! ### Instructions -/

/-- The frame of every instruction's head but IMM's. -/
theorem exec_frame_noWrite {i : Instr} {s t : State} (hi : ∀ o v, i ≠ .imm o v)
    (h : exec i s = .next t) : ExecFrame s.active s t := by
  cases i with
  | setclass o k b =>
    cases h
    exact ((onlyChannel_setCh s.active _ s).trans (onlyChannel_startMask s.active _ _ _)).exec
  | incr o n | nonincr o n => cases h; exact (onlyChannel_startBurst s.active _ _ _ s).exec
  | mask o n => cases h; exact (onlyChannel_startMask s.active _ _ s).exec
  | imm o v => exact absurd rfl (hi o v)
  | restart o => cases h; exact (onlyChannel_restart s.active _ s).exec
  | gatherInline o n k | gatherInsert o n k =>
    cases h; exact (onlyChannel_gatherHead s.active _ _ _ _ _ s).exec
  | acquireMlock v =>
    cases h
    exact (onlyChannel_setPos s.active _ s).exec.trans (execFrame_acquireStep s.active _ _)
  | releaseMlock v =>
    cases h
    exact ((onlyChannel_setPos s.active _ s).exec.trans (execFrame_countForeign s.active _ _)).trans
      (execFrame_releaseStep s.active _ _)
  | chdone v => cases h; exact (onlyChannel_complete s.active s).exec
  | _ => cases h; exact (onlyChannel_raiseFault s.active _ _ s).exec

/-- The frame of every instruction's head. -/
theorem exec_frame {i : Instr} {s t : State} (h : exec i s = .next t) : WorkerFrame s.active s t := by
  cases i with
  | imm o v => exact modWrite_frame h
  | _ => exact (exec_frame_noWrite (by intro o v e; cases e) h).worker

/-- The frame of a DATA step, given that of what uses its word. -/
theorem dataStep_frame {c : Chan} {r : Reader} {onStop s t : State} {use : Word → State → Res}
    (hstop : OnlyChannel c s onStop)
    (huse : ∀ w u v, use w u = .next v → WorkerFrame c u v)
    (h : dataStep c r onStop use s = .next t) : WorkerFrame c s t := by
  obtain ⟨-, rfl⟩ | ⟨-, rfl⟩ | ⟨w, -, -, hu⟩ := dataStep_next h
  · exact (onlyChannel_raiseFault c _ _ s).exec.worker
  · exact hstop.exec.worker
  · exact (onlyChannel_setCh c _ s).exec.worker.trans (huse _ _ _ hu)

theorem dataBurst_frame {c : Chan} {off : Word} {s t : State} (h : dataBurst c off s = .next t) :
    WorkerFrame c s t :=
  dataStep_frame (onlyChannel_complete c s) (fun _ _ _ e => modWrite_frame e) h

theorem dataMask_frame {c : Chan} {off : Word} {bits : BitVec 16} {i : Nat} {s t : State}
    (h : dataMask c off bits i s = .next t) : WorkerFrame c s t := by
  unfold dataMask at h
  split at h
  · cases h; exact (onlyChannel_complete c s).exec.worker
  · exact dataStep_frame (onlyChannel_complete c s)
      (fun _ _ _ e => (onlyChannel_setPos c _ _).exec.worker.trans (modWrite_frame e)) h

theorem dataGatherBase_frame {c : Chan} {o : BitVec 12} {ins inc : Bool} {n : BitVec 14} {s t : State}
    (h : dataGatherBase c o ins inc n s = .next t) : WorkerFrame c s t :=
  dataStep_frame (onlyChannel_complete c s)
    (fun _ _ _ e => by cases e; exact (onlyChannel_enterGather c _ _ _ _ _ _).exec.worker) h

theorem dataInsert_frame {c : Chan} {s t : State} (h : dataInsert c s = .next t) : WorkerFrame c s t := by
  unfold dataInsert at h
  split at h
  · exact dataStep_frame ((onlyChannel_setInner c none s).trans (onlyChannel_complete c _))
      (fun _ _ _ e => modWrite_frame e) h
  · cases h; exact (onlyChannel_complete c s).exec.worker

/-! ### Every step of a worker -/

/-- Everything a scheduled worker can do: nothing, start, go on with a handler's call, or take a step
inside or between instructions. -/
theorem workerStep_cases {c : Chan} {s t : State} (h : workerStep c s = .next t) :
    ((s.ch c).running = false ∧ (s.ch c).start = false ∧ t = s) ∨
    ((s.ch c).running = false ∧ (s.ch c).start = true ∧ t = startRun c s) ∨
    (∃ k, (s.ch c).running = true ∧ (s.ch c).call = some k ∧ callStep c k s = .next t) ∨
    ((s.ch c).running = true ∧ (s.ch c).call = none ∧ instrStep c s = .next t) := by
  unfold workerStep at h
  cases hr : (s.ch c).running
  · rw [hr] at h
    cases hs : (s.ch c).start
    · simp only [hs] at h; cases h; exact .inl ⟨rfl, rfl, rfl⟩
    · simp only [hs] at h; cases h; exact .inr (.inl ⟨rfl, rfl, rfl⟩)
  · simp only [hr, if_true] at h
    cases hk : (s.ch c).call with
    | none => rw [hk] at h; exact .inr (.inr (.inr ⟨rfl, rfl, h⟩))
    | some k => rw [hk] at h; exact .inr (.inr (.inl ⟨k, rfl, rfl, h⟩))

/-- Everything a step inside or between instructions can do. -/
theorem instrStep_cases {c : Chan} {s t : State} (h : instrStep c s = .next t) :
    ((s.ch c).pos = .idle ∧
      ((stopped (s.ch c) (currentGather c s) = .fatal ∧
          t = raiseFault c .endReached (endInfo (currentGather c s)) s) ∨
        (stopped (s.ch c) (currentGather c s) = .stop ∧ t = stopGather c s) ∨
        (stopped (s.ch c) (currentGather c s) = .go ∧ sectionTaken c s = true ∧ t = s) ∨
        ∃ w, stopped (s.ch c) (currentGather c s) = .go ∧ sectionTaken c s = false ∧
          s.mem.readWord (currentGather c s).wordIndex = some w ∧
          exec (decodeWord w)
            ((takeSection c s).setCh c ((s.ch c).advance (s.ch c).reader)) = .next t)) ∨
    (∃ off left inc, (s.ch c).pos = .burst off left inc ∧ dataBurst c off s = .next t) ∨
    (∃ off bits i, (s.ch c).pos = .mask off bits i ∧ dataMask c off bits i s = .next t) ∨
    (∃ o ins inc n, (s.ch c).pos = .gatherBase o ins inc n ∧
      dataGatherBase c o ins inc n s = .next t) ∨
    ((s.ch c).pos = .insertBurst ∧ dataInsert c s = .next t) ∨
    (∃ k, (s.ch c).pos = .inAcquire k ∧ t = acquireStep c k s) ∨
    ∃ k, (s.ch c).pos = .inRelease k ∧ t = releaseStep c k s := by
  unfold instrStep at h
  cases hp : (s.ch c).pos with
  | idle =>
    rw [hp] at h
    refine .inl ⟨rfl, ?_⟩
    simp only [boundary] at h
    cases hst : stopped (s.ch c) (currentGather c s) with
    | fatal => rw [hst] at h; cases h; exact .inl ⟨rfl, rfl⟩
    | stop => rw [hst] at h; cases h; exact .inr (.inl ⟨rfl, rfl⟩)
    | go =>
      rw [hst] at h
      simp only [fetchAndExec] at h
      cases hx : sectionTaken c s
      · rw [hx] at h
        refine .inr (.inr (.inr ?_))
        simp only [Bool.false_eq_true, if_false] at h
        split at h
        · rename_i w u hf
          obtain ⟨hw, rfl⟩ := fetch_eq_some.1 hf
          exact ⟨w, rfl, rfl, hw, h⟩
        · cases h
      · rw [hx] at h; cases h; exact .inr (.inr (.inl ⟨rfl, rfl, rfl⟩))
  | burst off left inc => rw [hp] at h; exact .inr (.inl ⟨_, _, _, rfl, h⟩)
  | mask off bits i => rw [hp] at h; exact .inr (.inr (.inl ⟨_, _, _, rfl, h⟩))
  | gatherBase o ins inc n => rw [hp] at h; exact .inr (.inr (.inr (.inl ⟨_, _, _, _, rfl, h⟩)))
  | insertBurst => rw [hp] at h; exact .inr (.inr (.inr (.inr (.inl ⟨rfl, h⟩))))
  | inAcquire k =>
    rw [hp] at h; cases h; exact .inr (.inr (.inr (.inr (.inr (.inl ⟨k, rfl, rfl⟩)))))
  | inRelease k =>
    rw [hp] at h; cases h; exact .inr (.inr (.inr (.inr (.inr (.inr ⟨k, rfl, rfl⟩)))))

theorem instrStep_frame {c : Chan} {s t : State} (h : instrStep c s = .next t) : WorkerFrame c s t := by
  obtain ⟨-, h⟩ | ⟨_, _, _, -, h⟩ | ⟨_, _, _, -, h⟩ | ⟨_, _, _, _, -, h⟩ | ⟨-, h⟩ | ⟨k, -, rfl⟩ |
    ⟨k, -, rfl⟩ := instrStep_cases h
  · obtain ⟨-, rfl⟩ | ⟨-, rfl⟩ | ⟨-, -, rfl⟩ | ⟨w, -, -, -, h⟩ := h
    · exact (onlyChannel_raiseFault c _ _ s).exec.worker
    · exact (onlyChannel_stopGather c s).exec.worker
    · exact .refl c t
    · exact ((workerFrame_takeSection c s).trans (onlyChannel_setCh c _ _).exec.worker).trans
        (exec_frame h)
  · exact dataBurst_frame h
  · exact dataMask_frame h
  · exact dataGatherBase_frame h
  · exact dataInsert_frame h
  · exact (execFrame_acquireStep c k s).worker
  · exact (execFrame_releaseStep c k s).worker

/-- The frame of every step of a worker. -/
theorem workerStep_frame {c : Chan} {s t : State} (h : workerStep c s = .next t) :
    WorkerFrame c s t := by
  obtain ⟨-, -, rfl⟩ | ⟨-, -, rfl⟩ | ⟨k, -, -, h⟩ | ⟨-, -, h⟩ := workerStep_cases h
  · exact .refl c t
  · exact (onlyChannel_startRun c s).exec.worker
  · exact callStep_frame h
  · exact instrStep_frame h

end Sys2Proof.Machine
end

