-- ==== Sys2Proof/Laws/Host.lean ====
section
/-! SUPPORT. What an operation of the host can touch, said once: the inversion of `returns`, and the frame
of `hostIssue` and `hostResume`. -/

namespace Sys2Proof.Machine

/-- An operation that returns leaves its state with the reply emitted. -/
theorem returns_next {a : AgentId} {r : Reply} {s t : State} (h : returns a r s = .next t) :
    t = s.emit (.reply a r) := by
  unfold returns at h; injection h with h; exact h.symm

theorem finishJob_next {n : Nat} {r : Reply} {s t : State} (h : finishJob n r s = .next t) :
    t = (setJob n .idle s).emit (.reply (.ctx n) r) := returns_next h

/-- What every operation of the host leaves alone: the memory, the configuration and the agenda; and it
keeps the canonical form of the host contexts' list. -/
structure HostFrame (s t : State) : Prop where
  mem : t.mem = s.mem
  cfg : t.cfg = s.cfg
  agenda : t.agenda = s.agenda
  hosts : HostsCanonical s → HostsCanonical t

theorem HostFrame.refl (s : State) : HostFrame s s := ⟨rfl, rfl, rfl, id⟩

theorem HostFrame.trans {s t u : State} (h : HostFrame s t) (g : HostFrame t u) : HostFrame s u :=
  ⟨g.mem.trans h.mem, g.cfg.trans h.cfg, g.agenda.trans h.agenda, fun e => g.hosts (h.hosts e)⟩

/-- An update that leaves these fields alone. -/
theorem HostFrame.of_eq {s t : State} (h1 : t.mem = s.mem) (h2 : t.cfg = s.cfg)
    (h3 : t.agenda = s.agenda) (h4 : t.hosts = s.hosts) : HostFrame s t :=
  ⟨h1, h2, h3, fun e => by unfold HostsCanonical; rw [h4]; exact e⟩

theorem WorkerFrame.host {c : Chan} {s t : State} (h : WorkerFrame c s t) : HostFrame s t :=
  ⟨h.mem, h.cfg, h.agenda, h.hosts⟩

theorem WaitersOnly.host {s t : State} (h : WaitersOnly s t) : HostFrame s t := (h.sync.worker 0).host

theorem RouterOnly.host {s t : State} (h : RouterOnly s t) : HostFrame s t := (h.sync.worker 0).host

theorem OnlyChannel.host {c : Chan} {s t : State} (h : OnlyChannel c s t) : HostFrame s t :=
  h.exec.worker.host

theorem hostFrame_setCtx (h : Nat) (x : HostCtx) (s : State) : HostFrame s (s.setCtx h x) :=
  ⟨rfl, rfl, rfl, fun e => hostsCanonical_setCtx e h x⟩

theorem hostFrame_setJob (h : Nat) (j : HostJob) (s : State) : HostFrame s (setJob h j s) :=
  hostFrame_setCtx h _ s

theorem hostFrame_emit (o : Output) (s : State) : HostFrame s (s.emit o) := .of_eq rfl rfl rfl rfl

theorem hostFrame_returns {a : AgentId} {r : Reply} {s t u : State} (hf : HostFrame s t)
    (h : returns a r t = .next u) : HostFrame s u := by
  rw [returns_next h]; exact hf.trans (hostFrame_emit _ t)

theorem hostFrame_finishJob {n : Nat} {r : Reply} {s t u : State} (hf : HostFrame s t)
    (h : finishJob n r t = .next u) : HostFrame s u :=
  hostFrame_returns (hf.trans (hostFrame_setJob n .idle t)) h

theorem onlyChannel_cdmaRun (c : Chan) (s : State) : OnlyChannel c s (cdmaRun c s) := by
  unfold cdmaRun
  split
  · exact onlyChannel_setCh c _ s
  · exact .refl c s

theorem onlyChannel_controlResetGet (c : Chan) (rg fp : Bool) (s : State) :
    OnlyChannel c s (controlResetGet c rg fp s) := by
  unfold controlResetGet
  split
  · exact onlyChannel_setCh c _ s
  · exact .refl c s

theorem onlyChannel_controlEnable (c : Chan) (rg fp : Bool) (s : State) :
    OnlyChannel c s (controlEnable c rg fp s) :=
  ((onlyChannel_controlResetGet c rg fp s).trans (onlyChannel_setCh c _ _)).trans
    (onlyChannel_cdmaRun c _)

theorem onlyChannel_cdmaSetBase (c : Chan) (v : Word) (s : State) :
    OnlyChannel c s (cdmaSetBase c v s) :=
  (onlyChannel_setCh c _ s).trans (onlyChannel_cdmaRun c _)

theorem onlyChannel_cdmaSetPut (c : Chan) (v : Word) (s : State) : OnlyChannel c s (cdmaSetPut c v s) :=
  (onlyChannel_setCh c _ s).trans (onlyChannel_cdmaRun c _)

theorem hostFrame_controlStop (c : Chan) (s : State) : HostFrame s (controlStop c s) :=
  (onlyChannel_setCh c _ s).host.trans (waitersOnly_unlockForced (.worker c) _).host

theorem hostFrame_enqueue (n : Nat) (i : Fin 32) (k : WaitList) (v : Word) (b : Option (Fin 8))
    (s : State) : HostFrame s (enqueue (.ctx n) i k v b s) := by
  rw [enqueue_ctx]; exact (hostFrame_setCtx n _ s).trans (.of_eq rfl rfl rfl rfl)

theorem hostFrame_hostSync {n : Nat} {r : SyncReq} {s t : State} (h : hostSync n r s = .next t) :
    HostFrame s t := by
  unfold hostSync at h
  split at h
  · rename_i u v hu; exact hostFrame_returns (workerFrame_syncOp 0 hu).host h
  · rename_i u hu
    obtain ⟨i, k, w, b, hx, -⟩ := syncOp_held hu
    injection h with h
    rw [← h, hx]
    exact (hostFrame_enqueue n i k w b s).trans (hostFrame_setJob n _ _)
  · cases h

/-- The frame of an operation of the store that holds host context `n`. -/
theorem hostFrame_held {n : Nat} {s t : State} {r : SyncReq} (h : syncOp (.ctx n) s r = .held t) :
    HostFrame s t := by
  obtain ⟨i, k, w, b, rfl, -⟩ := syncOp_held h
  exact hostFrame_enqueue n i k w b s

/-- The frame of the requests a handler makes in the context of host context `n`. -/
theorem hostFrame_runRequests {n : Nat} {reqs : List CoreReq} {s t : State}
    (h : (runRequests (.ctx n) reqs s).state = some t) : HostFrame s t :=
  runRequests_rel HostFrame.refl HostFrame.trans
    (fun hr => (workerFrame_syncOp 0 hr).host.trans (workerFrame_answer _ 0 _ _).host) hostFrame_held
    (fun _ _ _ hd => by cases hd) reqs h

/-- Everything that can follow the requests of a handler that host context `n` called: its operation
returns, or it holds in a wait. -/
theorem continueHost_next {n : Nat} {r : Ran} {t : State} (h : continueHost n r = .next t) :
    (∃ u, r = .returned u ∧ t = u.emit (.reply (.ctx n) .done)) ∨
      ∃ qs ph u, r = .held qs ph u ∧ t = setJob n (.inWait qs) u := by
  cases r with
  | returned u => exact .inl ⟨u, rfl, returns_next h⟩
  | held qs ph u => cases h; exact .inr ⟨qs, ph, u, rfl, rfl⟩
  | refused e => cases h

theorem hostFrame_continueHost {n : Nat} {reqs : List CoreReq} {s t : State}
    (h : continueHost n (runRequests (.ctx n) reqs s) = .next t) : HostFrame s t := by
  obtain ⟨u, hu, rfl⟩ | ⟨qs, ph, u, hu, rfl⟩ := continueHost_next h
  · exact (hostFrame_runRequests (by rw [hu]; rfl)).trans (hostFrame_emit _ u)
  · exact (hostFrame_runRequests (by rw [hu]; rfl)).trans (hostFrame_setJob n _ u)

/-- Everything a step of a host context in a wait can do. -/
theorem hostWaitStep_cases {n : Nat} {reqs : List CoreReq} {s t : State}
    (h : hostWaitStep n reqs s = .next t) :
    ((s.ctx n).waiter.signalled = false ∧ t = s) ∨
    ((s.ctx n).waiter.signalled = true ∧
      continueHost n (runRequests (.ctx n) reqs
        (s.setCtx n ⟨{ (s.ctx n).waiter with signalled := false }, .idle⟩)) = .next t) := by
  unfold hostWaitStep at h
  cases hs : (s.ctx n).waiter.signalled
  · rw [hs] at h; cases h; exact .inl ⟨rfl, rfl⟩
  · rw [hs] at h; exact .inr ⟨rfl, h⟩

theorem hostFrame_hostWaitStep {n : Nat} {reqs : List CoreReq} {s t : State}
    (h : hostWaitStep n reqs s = .next t) : HostFrame s t := by
  obtain ⟨-, rfl⟩ | ⟨-, h⟩ := hostWaitStep_cases h
  · exact .refl t
  · exact (hostFrame_setCtx n _ s).trans (hostFrame_continueHost h)

/-- Everything a scheduled host context can do (00_scope.md R9). -/
theorem hostResume_cases {n : Nat} {s t : State} (h : hostResume n s = .next t) :
    t = s ∨ (∃ qs, (s.ctx n).job = .inWait qs ∧ hostWaitStep n qs s = .next t) ∨
    (∃ c rg fp, (s.ctx n).job = .inControl c rg fp ∧ (s.ch c).stopped = true ∧
      finishJob n .done (controlResetGet c rg fp s) = .next t) ∨
    (∃ c, (s.ctx n).job = .inPop c ∧ (s.ch c).fifo.empty = false ∧
      finishJob n (.word (s.ch c).fifo.front) (fifoPop c s) = .next t) ∨
    ∃ c v, (s.ctx n).job = .inPush c v ∧ (s.ch c).fifo.full = false ∧
      finishJob n .done (fifoPush c v s) = .next t := by
  unfold hostResume at h
  cases hj : (s.ctx n).job with
  | idle => rw [hj] at h; injection h with h; exact .inl h.symm
  | inWait qs => rw [hj] at h; exact .inr (.inl ⟨qs, rfl, h⟩)
  | inControl c rg fp =>
    rw [hj] at h
    simp only at h
    split at h
    · rename_i hs; exact .inr (.inr (.inl ⟨c, rg, fp, rfl, hs, h⟩))
    · injection h with h; exact .inl h.symm
  | inPop c =>
    rw [hj] at h
    simp only at h
    split at h
    · injection h with h; exact .inl h.symm
    · rename_i hs
      exact .inr (.inr (.inr (.inl ⟨c, rfl, by simpa using hs, h⟩)))
  | inPush c v =>
    rw [hj] at h
    simp only at h
    split at h
    · injection h with h; exact .inl h.symm
    · rename_i hs
      exact .inr (.inr (.inr (.inr ⟨c, v, rfl, by simpa using hs, h⟩)))

theorem hostFrame_hostResume {n : Nat} {s t : State} (h : hostResume n s = .next t) :
    HostFrame s t := by
  obtain h | ⟨k, -, h⟩ | ⟨c, rg, fp, -, -, h⟩ | ⟨c, -, -, h⟩ | ⟨c, v, -, -, h⟩ := hostResume_cases h
  · rw [h]; exact .refl s
  · exact hostFrame_hostWaitStep h
  · exact hostFrame_finishJob (onlyChannel_controlResetGet c rg fp s).host h
  · exact hostFrame_finishJob (onlyChannel_setCh c _ s).host h
  · exact hostFrame_finishJob (onlyChannel_setCh c _ s).host h

theorem hostFrame_hostControl {n : Nat} {c : Chan} {st rg fp : Bool} {s t : State}
    (h : hostControl n c st rg fp s = .next t) : HostFrame s t := by
  unfold hostControl at h
  split at h
  · cases h
  · split at h
    · injection h with h
      rw [← h]
      exact (hostFrame_controlStop c s).trans (hostFrame_setCtx n _ _)
    · exact hostFrame_returns (onlyChannel_controlEnable c rg fp s).host h

theorem hostFrame_hostDispatchWrite {n : Nat} {k : BitVec 16} {off v : Word} {s t : State}
    (h : hostDispatchWrite n k off v s = .next t) : HostFrame s t := by
  unfold hostDispatchWrite at h
  split at h
  · cases h
  · split at h
    · refine hostFrame_returns ?_ h
      exact .of_eq rfl rfl rfl rfl
    · rename_i m hm
      exact (writeFrame_moduleWritten (.ctx n) 0 m off v s).exec.worker.host.trans
        (hostFrame_continueHost h)

theorem hostFrame_hostDispatchRead {n : Nat} {k : BitVec 16} {off : Word} {s t : State}
    (h : hostDispatchRead n k off s = .next t) : HostFrame s t := by
  unfold hostDispatchRead at h
  split at h
  · cases h
  · refine hostFrame_returns ?_ h
    exact .of_eq rfl rfl rfl rfl

/-- The frame of every operation the host issues. -/
theorem hostOp_frame {n : Nat} {op : HostOp} {s t : State} (h : hostOp n op s = .next t) :
    HostFrame s t := by
  cases op with
  | init c =>
    obtain ⟨c, -, h⟩ := withId_next h
    unfold hostInit at h
    split at h
    · exact hostFrame_returns (onlyChannel_setCh c _ s).host h
    · cases h
  | setBase c v =>
    obtain ⟨c, -, h⟩ := withId_next h
    exact hostFrame_returns (onlyChannel_cdmaSetBase c v s).host h
  | setPut c v =>
    obtain ⟨c, -, h⟩ := withId_next h
    exact hostFrame_returns (onlyChannel_cdmaSetPut c v s).host h
  | setEnd c v =>
    obtain ⟨c, -, h⟩ := withId_next h
    exact hostFrame_returns (onlyChannel_setCh c _ s).host h
  | control c st rg fp =>
    obtain ⟨c, -, h⟩ := withId_next h
    exact hostFrame_hostControl h
  | sync r => exact hostFrame_hostSync h
  | unlockWaiter c =>
    obtain ⟨c, -, h⟩ := withId_next h
    unfold hostUnlockWaiter at h
    split_ifs at h
    exact hostFrame_returns (waitersOnly_wake (.worker c) s).host h
  | unlockWaiterForced c =>
    obtain ⟨c, -, h⟩ := withId_next h
    unfold hostUnlockForced at h
    split_ifs at h
    exact hostFrame_returns (waitersOnly_unlockForced (.worker c) s).host h
  | cpuTryAcquire k =>
    obtain ⟨k, -, h⟩ := withId_next h
    refine hostFrame_returns ?_ h
    unfold cpuTryAcquire
    split <;> exact .of_eq rfl rfl rfl rfl
  | cpuRelease k =>
    obtain ⟨k, -, h⟩ := withId_next h
    refine hostFrame_returns ?_ h
    exact .of_eq rfl rfl rfl rfl
  | cpuGetRaw k =>
    obtain ⟨k, -, h⟩ := withId_next h
    exact hostFrame_returns (.refl s) h
  | wakeAllChannelWaiters => exact hostFrame_returns (t := s) (.refl s) h
  | register m =>
    simp only [hostOp, hostRegister] at h
    split at h
    · cases h
    · split at h
      · cases h
      · refine hostFrame_returns ?_ h
        exact .of_eq rfl rfl rfl rfl
  | lookup k => exact hostFrame_returns (.refl s) h
  | dispatchWrite k off v => exact hostFrame_hostDispatchWrite h
  | dispatchRead k off => exact hostFrame_hostDispatchRead h
  | push c v =>
    obtain ⟨c, -, h⟩ := withId_next h
    unfold hostPush at h
    split at h
    · injection h with h; rw [← h]; exact hostFrame_setJob n _ s
    · exact hostFrame_returns (onlyChannel_setCh c _ s).host h
  | pop c =>
    obtain ⟨c, -, h⟩ := withId_next h
    unfold hostPop at h
    split at h
    · injection h with h; rw [← h]; exact hostFrame_setJob n _ s
    · exact hostFrame_returns (onlyChannel_setCh c _ s).host h
  | popNonempty c =>
    obtain ⟨c, -, h⟩ := withId_next h
    unfold hostPopNonempty at h
    split at h
    · cases h
    · exact hostFrame_returns (onlyChannel_setCh c _ s).host h
  | irqSetDest p m =>
    obtain ⟨p, -, h⟩ := withId_next h
    refine hostFrame_returns ?_ h
    exact .of_eq rfl rfl rfl rfl
  | irqGetDest p | irqGetStatus p =>
    obtain ⟨p, -, h⟩ := withId_next h
    exact hostFrame_returns (.refl s) h
  | irqClearStatus p m =>
    obtain ⟨p, -, h⟩ := withId_next h
    refine hostFrame_returns ?_ h
    exact HostFrame.trans (t := s.setPending p (s.pending p &&& ~~~m)) (.of_eq rfl rfl rfl rfl)
      (routerOnly_updateLines _).host
  | subsystemReset =>
    simp only [hostOp, hostReset] at h
    split at h
    · cases h
    · refine hostFrame_returns ?_ h
      exact .of_eq rfl rfl rfl rfl

/-- An operation is issued by a context in no other. -/
theorem hostIssue_next {n : Nat} {op : HostOp} {s t : State} (h : hostIssue n op s = .next t) :
    (s.ctx n).job = .idle ∧ hostOp n op s = .next t := by
  unfold hostIssue at h
  split at h
  · exact ⟨‹_›, h⟩
  · cases h

/-- Everything a step can do: the next event happens in the old state, but for the agenda and the
free-value argument. -/
theorem step_cases {s t : State} (h : step s = .next t) :
    ∃ u, u = { s with agenda := u.agenda, fresh := u.fresh } ∧
      ((∃ c, (nextEvent s).1 = .worker c ∧ workerStep c u = .next t) ∨
      (∃ n op, (nextEvent s).1 = .host n op ∧ (u.ctx n).job = .idle ∧ hostOp n op u = .next t) ∨
      (∃ n, (nextEvent s).1 = .resume n ∧ hostResume n u = .next t) ∨
      ∃ a l, (nextEvent s).1 = .store a l ∧ t = storeBytes a l u) := by
  refine ⟨(nextEvent s).2, nextEvent_state s, ?_⟩
  unfold step at h
  cases hE : (nextEvent s).1 with
  | worker c => rw [hE] at h; exact .inl ⟨c, rfl, h⟩
  | host n op =>
    rw [hE] at h
    exact .inr (.inl ⟨n, op, rfl, (hostIssue_next h).1, (hostIssue_next h).2⟩)
  | resume n => rw [hE] at h; exact .inr (.inr (.inl ⟨n, rfl, h⟩))
  | store a l =>
    rw [hE] at h
    injection h with h
    exact .inr (.inr (.inr ⟨a, l, rfl, h.symm⟩))

end Sys2Proof.Machine
end

