-- ==== Sys2Proof/Tests/Slice0.lean ====
section
/-! SUPPORT. Tests on fixed values, whose expected results are the vectors of spec/95_test_vectors.md (named in
the comments) or follow by hand from the rule named; and for every obligation with hypotheses the
witnesses: concrete states that meet them. -/

namespace Sys2Proof.Tests

open Sys2Proof Sys2Proof.Machine

/-! ### Well-formedness: one ill-formed term for each check -/

theorem test_wf_setclass : (Instr.setclass 0xFFB 5 0x20).wellFormed = false := by decide
theorem test_wf_setclass_edge : (Instr.setclass 0xFFA 5 0x20).wellFormed = true := by decide
theorem test_wf_incr : (Instr.incr 0xFFF 2).wellFormed = false := by decide
theorem test_wf_incr_edge : (Instr.incr 0xFFE 2).wellFormed = true := by decide
theorem test_wf_mask : (Instr.mask 0xFF1 0x8000).wellFormed = false := by decide
theorem test_wf_mask_edge : (Instr.mask 0xFF0 0x8000).wellFormed = true := by decide
theorem test_wf_gatherInsert : (Instr.gatherInsert 0xFFF 1 2).wellFormed = false := by decide
theorem test_wf_gatherInsert_edge : (Instr.gatherInsert 0xFFF 0 2).wellFormed = true := by decide

theorem test_asm_class : (Asm.setclass 0x400 0 0).wellFormed = false := by decide
theorem test_asm_class_mask : (Asm.setclass 0 0x40 0).wellFormed = false := by decide
theorem test_asm_class_offset : (Asm.setclass 0 0 0x1000).wellFormed = false := by decide
theorem test_asm_incr_offset : (Asm.incr 0x1000 0).wellFormed = false := by decide
theorem test_asm_incr_count : (Asm.incr 0 0x10000).wellFormed = false := by decide
theorem test_asm_nonincr_offset : (Asm.nonincr 0x1000 0).wellFormed = false := by decide
theorem test_asm_nonincr_count : (Asm.nonincr 0 0x10000).wellFormed = false := by decide
theorem test_asm_mask_offset : (Asm.mask 0x1000 0).wellFormed = false := by decide
theorem test_asm_mask_bits : (Asm.mask 0 0x10000).wellFormed = false := by decide
theorem test_asm_imm_offset : (Asm.imm 0x1000 0).wellFormed = false := by decide
theorem test_asm_imm_data : (Asm.imm 0 0x10000).wellFormed = false := by decide
theorem test_asm_restart : (Asm.restart 0x10000000).wellFormed = false := by decide
theorem test_asm_gather_offset : (Asm.gather 0x1000 0 0 0).wellFormed = false := by decide
theorem test_asm_gather_insert : (Asm.gather 0 2 0 0).wellFormed = false := by decide
theorem test_asm_gather_incr : (Asm.gather 0 0 2 0).wellFormed = false := by decide
theorem test_asm_gather_count : (Asm.gather 0 0 0 0x4000).wellFormed = false := by decide
theorem test_asm_acquire : (Asm.acquireMlock 16).wellFormed = false := by decide
theorem test_asm_release : (Asm.releaseMlock 16).wellFormed = false := by decide
theorem test_asm_subop : (Asm.extend 16 0).wellFormed = false := by decide
theorem test_asm_value : (Asm.extend 0 0x1000000).wellFormed = false := by decide
theorem test_asm_word : (Asm.word 0x100000000).wellFormed = false := by decide

/-! ### Encodings: the words of 95_test_vectors.md section 2.6, bit by bit from 30_encoding.md -/

/-- `0000 | 000000100000 | 0000000101 | 000101`. -/
theorem test_decode_setclass : decodeWord 0x00200145 = .setclass 0x20 5 0b000101 := by decide
theorem test_decode_zero : decodeWord 0 = .setclass 0 0 0 := by decide
theorem test_decode_setclass_ones : decodeWord 0x0FFFFFFF = .setclass 0xFFF 0x3FF 0x3F := by decide
/-- `0001 | 000000010000 | 0000000000000010`. -/
theorem test_decode_incr : decodeWord 0x10100002 = .incr 0x10 2 := by decide
theorem test_decode_incr_ones : decodeWord 0x1FFFFFFF = .incr 0xFFF 0xFFFF := by decide
theorem test_decode_nonincr : decodeWord 0x202B0003 = .nonincr 0x2B 3 := by decide
theorem test_decode_mask : decodeWord 0x31008005 = .mask 0x100 0x8005 := by decide
theorem test_decode_imm : decodeWord 0x4ABCFFFF = .imm 0xABC 0xFFFF := by decide
theorem test_decode_restart : decodeWord 0x5FFFFFFF = .restart 0xFFFFFFF := by decide
/-- `0110 | 101010111100 | 0 | 1 | 00000000000011`. -/
theorem test_decode_gatherInline : decodeWord 0x6ABC4003 = .gatherInline 0xABC 1 3 := by decide
/-- `0110 | 000000110000 | 1 | 1 | 00000000000100`. -/
theorem test_decode_gatherInsert : decodeWord 0x6030C004 = .gatherInsert 0x30 1 4 := by decide
theorem test_decode_gatherInsert_ones :
    decodeWord 0x6FFFFFFF = .gatherInsert 0xFFF 1 0x3FFF := by decide
theorem test_decode_unknown7 : decodeWord 0x70000000 = .unknown7 0 := by decide
theorem test_decode_unknown8 : decodeWord 0x80000001 = .unknown8 1 := by decide
theorem test_decode_unknown9 : decodeWord 0x90000002 = .unknown9 2 := by decide
theorem test_decode_unknownA : decodeWord 0xAAAA0001 = .unknownA 0xAAA0001 := by decide
theorem test_decode_unknownB : decodeWord 0xBBBB0002 = .unknownB 0xBBB0002 := by decide
theorem test_decode_unknownC : decodeWord 0xCCCC0003 = .unknownC 0xCCC0003 := by decide
theorem test_decode_unknownD : decodeWord 0xD0000000 = .unknownD 0 := by decide
theorem test_decode_acquire : decodeWord 0xE0FFFFF5 = .acquireMlock 0xFFFFF5 := by decide
theorem test_decode_release : decodeWord 0xE1FFFFF5 = .releaseMlock 0xFFFFF5 := by decide
theorem test_decode_undef2 : decodeWord 0xE2000000 = .extendUndef2 0 := by decide
theorem test_decode_undef3 : decodeWord 0xE3000001 = .extendUndef3 1 := by decide
theorem test_decode_undef4 : decodeWord 0xE4000001 = .extendUndef4 1 := by decide
theorem test_decode_undef5 : decodeWord 0xE5000001 = .extendUndef5 1 := by decide
theorem test_decode_undef6 : decodeWord 0xE6000001 = .extendUndef6 1 := by decide
theorem test_decode_undef7 : decodeWord 0xE7000001 = .extendUndef7 1 := by decide
theorem test_decode_undef8 : decodeWord 0xE8000001 = .extendUndef8 1 := by decide
theorem test_decode_undef9 : decodeWord 0xE9000001 = .extendUndef9 1 := by decide
theorem test_decode_undefA : decodeWord 0xEA000001 = .extendUndefA 1 := by decide
theorem test_decode_undefB : decodeWord 0xEB000001 = .extendUndefB 1 := by decide
theorem test_decode_undefC : decodeWord 0xEC000001 = .extendUndefC 1 := by decide
theorem test_decode_undefD : decodeWord 0xED000001 = .extendUndefD 1 := by decide
theorem test_decode_undefE : decodeWord 0xEE000001 = .extendUndefE 1 := by decide
theorem test_decode_undefF : decodeWord 0xEF123456 = .extendUndefF 0x123456 := by decide
theorem test_decode_chdone : decodeWord 0xFFFFFFFF = .chdone 0xFFFFFFF := by decide

/-- The bytes of a word lie lowest first, and what follows them is left (20_memory.md R66). -/
theorem test_decode_bytes :
    decode [0x02, 0x00, 0x10, 0x10, 0xAB] = .ok (.incr 0x10 2, [0xAB]) := by decide
theorem test_decode_truncated : decode [0x02, 0x00, 0x10] = .error .truncated := by decide
theorem test_table_word : decodeTableWord 32 0x60408002 = some (.gatherInsert 0x40 0 2) := by decide

theorem test_assemble_setclass : assemble (.setclass 0x30 0b000011 0x1) = some 0x00010C03 := by decide
theorem test_assemble_gather : assemble (.gather 0x30 1 1 4) = some 0x6030C004 := by decide
theorem test_assemble_acquire : assemble (.acquireMlock 5) = some 0xE0000005 := by decide
theorem test_assemble_release : assemble (.releaseMlock 5) = some 0xE1000005 := by decide
theorem test_assemble_chdone : assemble .chdone = some 0xF0000000 := by decide

/-! ### Small states -/

/-- The bytes of words. -/
def bytes (l : List Word) : List Byte := l.flatMap bytesOfWord

/-- A module that asks nothing of the core, of class 5. -/
def m5 : Module := ⟨5, .table [], 0, 0⟩

/-- The module of program P6: a write of `0x03000002` to 8 waits on sync-point 3 for 2, one of 3 to 9
increments it, one of `0x55` to `0xA` pushes; and, for the witnesses, the other two waits. -/
def m7 : Module :=
  ⟨7, .table [⟨8, 0x03000002, [.sync (.wait 3 2)]⟩, ⟨9, 3, [.sync (.increment 3)]⟩,
    ⟨0xA, 0x55, [.push 0x55]⟩, ⟨0xB, 1, [.sync (.waitBaseRelative 3 2 1), .push 1]⟩,
    ⟨0xC, 1, [.sync (.waitNextIncrement 3), .push 1]⟩], 0, 0⟩

/-- A channel in a run with `n` words queued from cursor 0 of the region at byte 0, class 5 selected. -/
def chan (n : Nat) : Channel :=
  { Channel.reset with
    gather := ⟨0, 0, .ofNat 30 n, false⟩
    endPtr := 0x3FFFFFFF
    enabled := true
    stopped := false
    running := true
    cur := some 5 }

/-- Channel 0 is `x`, the words `ws` lie at byte 0, the events `l` are to come, classes 5 and 7 are
registered. -/
def at0 (x : Channel) (ws : List Word) (l : List Event) : State :=
  State.setCh
    { State.reset with
      registry := [m5, m7]
      mem := Memory.writeBytes [] 0 (bytes ws)
      agenda := l } 0 x

/-- Channel 0 in a run over the words `ws`, its worker scheduled once. -/
def run0 (ws : List Word) : State := at0 (chan ws.length) ws [.worker 0]

/-- Channel 0 at position `p` with the cursor at 1 and the section held, its worker scheduled once. -/
def mid (p : Pos) (ws : List Word) : State :=
  (at0 { chan ws.length with pos := p, gather := ⟨0, 1, .ofNat 30 ws.length, false⟩ } ws
    [.worker 0]).setOwner (some 0)

/-- Host context 0 issues `op` in state `s`. -/
def asks (op : HostOp) (s : State) : State := s.setAgenda [.host 0 op]

/-- What holds of the next state, if there is one. -/
def after {α : Type} (r : Res) (f : State → α) : Option α :=
  match r with
  | .next t => some (f t)
  | _ => none

/-- Why a step is refused, if it is. -/
def refusal (r : Res) : Option Refusal :=
  match r with
  | .refused e => some e
  | _ => none

/-! ### Instructions: vectors W, G, E of 95_test_vectors.md, one step each -/

/-- W1: the class is selected before the first data word. -/
theorem test_setclass : after (step (run0 [0x00200145, 1, 2]))
    (fun t => ((t.ch 0).cur, (t.ch 0).pos, (t.ch 0).gather.get)) =
    some (some 5, .mask 0x20 0b000101 0, 1) := by decide
/-- W2: class 6 is not registered. -/
theorem test_setclass_absent : after (step (run0 [0x00000180]))
    (fun t => ((t.ch 0).cur, t.out, t.diag.droppedWrites)) = some (none, [], 0) := by decide
theorem test_incr : after (step (run0 [0x10100002, 1, 2]))
    (fun t => ((t.ch 0).pos, t.owner)) = some (.burst 0x10 2 true, some 0) := by decide
/-- W4. -/
theorem test_incr_zero : after (step (run0 [0x10100000]))
    (fun t => ((t.ch 0).pos, t.owner, (t.ch 0).gather.get)) = some (.idle, none, 1) := by decide
/-- W5, second word: the offset does not move. -/
theorem test_nonincr_word : after (step (mid (.burst 0x2B 2 false) [0x202B0003, 0xBBBB0002, 0]))
    (fun t => (t.out, (t.ch 0).pos)) =
    some ([.modWrite (.worker 0) 5 0x2B 0xBBBB0002], .burst 0x2B 1 false) := by decide
/-- P1, step 4: the offset moves by one. -/
theorem test_incr_word : after (step (mid (.burst 0x10 2 true) [0x10100002, 0xAAAA0001, 0]))
    (fun t => (t.out, (t.ch 0).pos)) =
    some ([.modWrite (.worker 0) 5 0x10 0xAAAA0001], .burst 0x11 1 true) := by decide
/-- W6, second word: bit 2 is the next after bit 0. -/
theorem test_mask_word : after (step (mid (.mask 0x100 0x8005 1) [0x31008005, 0xBBBB0002, 0]))
    (fun t => (t.out, (t.ch 0).pos)) =
    some ([.modWrite (.worker 0) 5 0x102 0xBBBB0002], .mask 0x100 0x8005 3) := by decide
/-- W7. -/
theorem test_mask_zero : after (step (run0 [0x31000000]))
    (fun t => ((t.ch 0).pos, t.out)) = some (.idle, []) := by decide
/-- W9: zero extension. -/
theorem test_imm : after (step (run0 [0x4ABCFFFF])) (fun t => (t.out, t.owner)) =
    some ([.modWrite (.worker 0) 5 0xABC 0xFFFF], none) := by decide
/-- W3: with no module selected the word is consumed, the write dropped and counted. -/
theorem test_dropped : after (step (mid (.burst 0x10 2 true) [0, 0xAAAA0001, 0] |>.setCh 0
      { chan 3 with cur := none, pos := .burst 0x10 2 true, gather := ⟨0, 1, 3, false⟩ }))
    (fun t => (t.out, t.diag.droppedWrites, (t.ch 0).gather.get)) =
    some ([.droppedWrite (.worker 0) 0x10 0xAAAA0001], 1, 2) := by decide
/-- W12: the second offset is 0x1000. -/
theorem test_offset_beyond : refusal (step (mid (.burst 0x1000 1 true) [0, 1])) =
    some (.offsetBeyond12 0x1000) := by decide
/-- W10: the burst is cut short, the run is not ended by it. -/
theorem test_burst_cut : after (step (mid (.burst 0x11 1 true) [0]))
    (fun t => ((t.ch 0).pos, (t.ch 0).running, t.out, t.owner)) =
    some (.idle, true, [], none) := by decide
/-- G1, G5: bits 1:0 of the base word are dropped. -/
theorem test_gather_base : after (step (mid (.gatherBase 0x30 true true 4) [0x6030C004, 0x00003003]))
    (fun t => ((t.ch 0).inner, (t.ch 0).pos, (t.ch 0).gather.get, t.owner)) =
    some (some ⟨⟨0xC00, 0, 4, true⟩, .insert 0x30 true⟩, .insertBurst, 2, some 0) := by decide
/-- G3: the inline form gives the section up. -/
theorem test_gather_inline : after (step (mid (.gatherBase 0 false false 3) [0x60000003, 0x00002000]))
    (fun t => ((t.ch 0).inner, (t.ch 0).pos, t.owner)) =
    some (some ⟨⟨0x800, 0, 3, true⟩, .inline⟩, .idle, none) := by decide
/-- G4: the base word is consumed and not read from. -/
theorem test_gather_zero : after (step (mid (.gatherBase 0 false false 0) [0x60000000, 0xDEADBEEF]))
    (fun t => ((t.ch 0).inner, (t.ch 0).gather.get)) = some (none, 2) := by decide
/-- P7 (a): no base word is looked for. -/
theorem test_nested_gather : after (step ((run0 [0x60000001]).setCh 0
      { chan 1 with inner := some ⟨⟨0, 0, 1, true⟩, .inline⟩ }))
    (fun t => ((t.ch 0).fault, (t.ch 0).inner, (t.ch 0).running, t.owner)) =
    some (some ⟨.nestedGather, 0x60000001⟩, none, false, none) := by decide
/-- G9 at cursor 0. -/
theorem test_restart : after (step (run0 [0x50000006, 0])) (fun t => (t.ch 0).gather.get) =
    some 6 := by decide
/-- 95_test_vectors.md section 2.6: `RESTART_SHIFT = 2`. -/
theorem test_restart_shift : after (step
      { run0 [0x5FFFFFFF, 0] with cfg := ⟨2, .instruction⟩ }) (fun t => (t.ch 0).gather.get) =
    some 0x3FFFFFFC := by decide
/-- P4 (c): the inner gather is dropped. -/
theorem test_restart_inline : after (step ((run0 [0x50000004, 0]).setCh 0
      { chan 2 with inner := some ⟨⟨0, 0, 1, true⟩, .inline⟩, gather := ⟨0x100, 3, 5, false⟩ }))
    (fun t => ((t.ch 0).gather.get, (t.ch 0).inner)) = some (4, none) := by decide
/-- G12. -/
theorem test_chdone : after (step (run0 [0xF0000000]))
    (fun t => ((t.ch 0).gather.get, (t.ch 0).running, t.owner, t.out)) =
    some (1, true, none, []) := by decide
/-- G13, on channel 0. -/
theorem test_acquire : after (step (run0 [0xE0000003])) (fun t => (t.ml 3, (t.ch 0).pos)) =
    some (⟨true, false, 0⟩, .idle) := by decide
/-- M3: it holds and keeps the section. -/
theorem test_acquire_holds : after (step ((run0 [0xE0000003]).setMl 3 ⟨false, true, 0⟩))
    (fun t => (t.ml 3, (t.ch 0).pos, t.owner)) =
    some (⟨false, true, 0⟩, .inAcquire 3, some 0) := by decide
/-- M5: the owner's number stays. -/
theorem test_release : after (step (at0 { chan 1 with cur := none } [0xE1FFFFF3] [.worker 0] |>.setMl 3
      ⟨true, false, 0⟩)) (fun t => (t.ml 3, (t.ch 0).pos)) =
    some (⟨false, false, 0⟩, .idle) := by decide
/-- M7: a foreign release is counted and holds. -/
theorem test_release_foreign : after (step ((run0 [0xE1000003]).setMl 3 ⟨true, false, 1⟩))
    (fun t => (t.ml 3, (t.ch 0).pos, t.diag.foreignRelease)) =
    some (⟨true, false, 1⟩, .inRelease 3, 1) := by decide
/-- E7, E8. -/
theorem test_unknown : after (step (run0 [0x70000000]))
    (fun t => ((t.ch 0).fault, (t.ch 0).gather.get, (t.ch 0).stopped, (t.ch 0).enabled)) =
    some (some ⟨.unknownOpcode, 0x70000000⟩, 1, true, true) := by decide
theorem test_undef : after (step (run0 [0xEF123456])) (fun t => (t.ch 0).fault) =
    some (some ⟨.unknownExtendSubop, 0xEF123456⟩) := by decide
/-- E5: nothing is fetched. -/
theorem test_end : after (step ((run0 [0x40000001]).setCh 0 { chan 1 with endPtr := 0 }))
    (fun t => ((t.ch 0).fault, (t.ch 0).gather.get)) = some (some ⟨.endReached, 0⟩, 0) := by decide
/-- 20_memory.md R62: a word the memory does not hold. -/
theorem test_not_admitted : refusal (step (run0 [1] |>.setMem [])) = some (.memoryNotAdmitted 0) := by
  decide
/-- 95_test_vectors.md section 2.8: with base 0x3FFFFFFF and get 1 the fetch reads byte 0. -/
theorem test_address_wraps : (byteAddr (Gather.wordIndex ⟨0x3FFFFFFF, 1, 2, false⟩)) = 0 := by decide
/-- An instruction placed by `withFetchWord` is the first to run. -/
theorem test_placed : after (step (State.reset.withFetchWord 32 0x10200003)) (fun t => (t.ch 0).pos) =
    some (.burst 0x20 3 true) := by decide

/-! ### The sync-point store and the host: vectors V, S, I, M, F, D -/

theorem test_v6 : reached16 0 0x8000 = false := by decide
theorem test_v9 : reached16 0x7FFF 0 = true := by decide
theorem test_v14 : reached16 0x10004 5 = false := by decide
theorem test_t1 : reached16 5 0xFFF0 = true ∧ reached16 0xFFF0 5 = false := by decide
/-- S1. -/
theorem test_increment : after (step (asks (.sync (.increment 0)) (State.reset.setSp 0
      ⟨0xFFFFFFFF, 0, [], [], []⟩))) (fun t => (t.sp 0).counter) = some 0 := by decide
/-- S3. -/
theorem test_set_threshold : after (step (asks (.sync (.setThreshold 4 0x1ABCD)) State.reset))
    (fun t => (t.sp 4).threshold) = some 0xABCD := by decide
/-- S5, S6. -/
theorem test_wait : after (step (asks (.sync (.wait 6 0x8009)) (State.reset.setSp 6
      ⟨9, 0, [], [], []⟩))) (fun t => ((t.sp 6).wAbs, (t.ctx 0).job)) =
    some ([.ctx 0], .inWait []) := by decide
theorem test_wait_now : after (step (asks (.sync (.wait 6 0x800A)) (State.reset.setSp 6
      ⟨9, 0, [], [], []⟩))) (fun t => ((t.sp 6).wAbs, t.out)) =
    some ([], [.reply (.ctx 0) .done]) := by decide
/-- S12: X is woken, Y is not. -/
theorem test_wake : after (step (asks (.sync (.increment 5))
      (((State.reset.setSp 5 ⟨2, 0, [.ctx 2, .ctx 1], [], []⟩).setCtx 1
        ⟨⟨3, none, false, some (5, .abs)⟩, .inWait []⟩).setCtx 2
        ⟨⟨4, none, false, some (5, .abs)⟩, .inWait []⟩)))
    (fun t => ((t.sp 5).wAbs, (t.ctx 1).waiter.signalled, (t.ctx 2).waiter.signalled)) =
    some ([.ctx 2], true, false) := by decide
/-- S10: a set does not wake a next-increment waiter. -/
theorem test_wake_inc : after (step (asks (.sync (.setCounter 5 100))
      ((State.reset.setSp 5 ⟨0, 0, [], [], [.ctx 1]⟩).setCtx 1
        ⟨⟨0, none, false, some (5, .inc)⟩, .inWait []⟩)))
    (fun t => (t.sp 5).wInc) = some [.ctx 1] := by decide
/-- S9. -/
theorem test_base : after (step (asks (.sync (.baseIncrement 2 1)) (State.reset.setBase 2 0xFFFFFFFF)))
    (fun t => t.base 2) = some 0 := by decide
/-- S16. -/
theorem test_bad_id : refusal (step (asks (.sync (.increment 32)) State.reset)) =
    some (.badIdentifier 32) := by decide
/-- I4. -/
theorem test_irq_raise : after (step (asks (.sync (.increment 3))
      ((State.reset.setSp 3 ⟨4, 5, [], [], []⟩).setDest 0 8)))
    (fun t => (t.pending 0, t.line 0, t.pending 1, t.out)) =
    some (8, true, 0, [.reply (.ctx 0) .done, .irqRaise 0]) := by decide
/-- I7. -/
theorem test_irq_clear : after (step (asks (.irqClearStatus 0 8)
      ((State.reset.setPending 0 8).setLine 0 true)))
    (fun t => (t.pending 0, t.line 0, t.out)) =
    some (0, false, [.reply (.ctx 0) .done, .irqLower 0]) := by decide
/-- I12. -/
theorem test_irq_dest : after (step (asks (.irqSetDest 1 8) (State.reset.setSp 3 ⟨5, 5, [], [], []⟩)))
    (fun t => (t.dest 1, t.pending 1, t.line 1)) = some (8, 0, false) := by decide
/-- M1, M4. -/
theorem test_cpu_acquire : after (step (asks (.cpuTryAcquire 3) State.reset))
    (fun t => (t.ml 3, t.out)) =
    some (⟨false, true, 0⟩, [.reply (.ctx 0) (.flag true)]) := by decide
theorem test_cpu_acquire_fails : after (step (asks (.cpuTryAcquire 3)
      (State.reset.setMl 3 ⟨true, false, 2⟩))) (fun t => (t.ml 3, t.out)) =
    some (⟨true, false, 2⟩, [.reply (.ctx 0) (.flag false)]) := by decide
/-- F1. -/
theorem test_push : after (step (asks (.push 0 0xAABBCCDD) State.reset))
    (fun t => ((t.ch 0).fifo.wr, (t.ch 0).fifo.front, (t.ch 0).fifo.held)) =
    some (1, 0xAABBCCDD, 1) := by decide
/-- D1, D3. -/
theorem test_set_base : after (step (asks (.setBase 0 0x10003) State.reset))
    (fun t => ((t.ch 0).gather.base, (t.ch 0).start)) = some (0x4000, false) := by decide
theorem test_set_put : after (step (asks (.setPut 0 0x10) (State.reset.setCh 0
      { Channel.reset with enabled := true })))
    (fun t => ((t.ch 0).gather.put, (t.ch 0).start)) = some (4, true) := by decide
/-- D8. -/
theorem test_control : after (step (asks (.control 0 false true true) (State.reset.setCh 0
      { Channel.reset with gather := ⟨0, 7, 0xC, false⟩ })))
    (fun t => ((t.ch 0).gather.get, (t.ch 0).enabled, (t.ch 0).start)) =
    some (0xC, true, false) := by decide
/-- P6: the handler's increment is performed in the step of the IMM. -/
theorem test_handler : after (step ((run0 [0x40090003]).setCh 0 { chan 1 with cur := some 7 }))
    (fun t => ((t.ch 0).call, (t.sp 3).counter, t.owner, t.out)) =
    some (none, 1, none, [.modWrite (.worker 0) 7 9 3]) := by decide
/-- P6: the data word whose handler waits for 2, the counter at 1. -/
theorem test_handler_wait : after (step (((mid (.burst 8 1 true) [0x10080001, 0x03000002]).setCh 0
      { chan 2 with cur := some 7, pos := .burst 8 1 true, gather := ⟨0, 1, 2, false⟩ }).setSp 3
      ⟨1, 0, [], [], []⟩))
    (fun t => ((t.ch 0).call, (t.ch 0).waiter, (t.sp 3).wAbs, t.owner)) =
    some (some ⟨[], .inWait⟩, ⟨2, none, false, some (3, .abs)⟩, [.worker 0], none) := by decide
/-- P6 (a): woken, the worker takes the section back, and the module write and the INCR are complete. -/
theorem test_handler_woken : after (step (at0 { chan 2 with
      pos := .burst 8 1 true, call := some ⟨[], .inWait⟩, waiter := ⟨2, none, true, none⟩ } [] [.worker 0]))
    (fun t => ((t.ch 0).pos, (t.ch 0).call, (t.ch 0).waiter.signalled, t.owner)) =
    some (.idle, none, false, none) := by decide
/-- R137: the wait of an enabled channel is not cancelled. -/
theorem test_unlock : refusal (step (asks (.unlockWaiter 0) ((State.reset.setSp 3
      ⟨0, 0, [.worker 0], [], []⟩).setCh 0 { chan 1 with waiter := ⟨5, none, false, some (3, .abs)⟩ }))) =
    some .cancelWithoutStop := by decide
/-- S15. -/
theorem test_unlock_forced : after (step (asks (.unlockWaiterForced 0) State.reset))
    (fun t => (t.ch 0).waiter.signalled) = some false := by decide

/-! ### Witnesses: states that meet the hypotheses of the obligations

A theorem `witness_<Name>…` is about `Obligations.<Name>`. -/

theorem alwaysSilent_of_m5 {c : Chan} {s : State} (h : currentModule c s = some m5) :
    AlwaysSilent c s := by
  intro m hm
  rw [h] at hm
  cases hm
  rfl

theorem silent_of_m5 {c : Chan} {s : State} (h : currentModule c s = some m5) (off v : Word) :
    Silent c off v s := by
  intro m hm
  rw [h] at hm
  cases hm
  rfl

/-- Every item, each of its fields just too great. -/
theorem witness_AssemblerEncodes :
    [Asm.setclass 0x400 0 0, .setclass 0 0x40 0, .setclass 0 0 0x1000, .incr 0x1000 0, .incr 0 0x10000,
      .nonincr 0x1000 0, .nonincr 0 0x10000, .mask 0x1000 0, .mask 0 0x10000, .imm 0x1000 0,
      .imm 0 0x10000, .restart 0x10000000, .gather 0x1000 0 0 0, .gather 0 2 0 0, .gather 0 0 2 0,
      .gather 0 0 0 0x4000, .acquireMlock 16, .releaseMlock 16, .extend 16 0, .extend 0 0x1000000,
      .word 0x100000000].map assemble = List.replicate 21 none := by decide

/-- A word the memory admits, and none. -/
theorem witness_StepRunsDecodedInstruction :
    let s := run0 [0x40000117]
    (Scheduled 0 [] s ∧ AtPos 0 .idle s ∧ stopped (s.ch 0) (currentGather 0 s) = .go ∧
      sectionTaken 0 s = false) ∧
    s.mem.read (byteAddr (currentGather 0 s).wordIndex) = some 0x17 ∧
    s.mem.read (byteAddr (currentGather 0 s).wordIndex + 1) = some 0x01 ∧
    s.mem.read (byteAddr (currentGather 0 s).wordIndex + 2) = some 0x00 ∧
    s.mem.read (byteAddr (currentGather 0 s).wordIndex + 3) = some 0x40 ∧
    decode [0x17, 0x01, 0x00, 0x40] = .ok (.imm 0 0x117, []) ∧
    (s.setMem []).mem.readWord (currentGather 0 s).wordIndex = none := by
  unfold Scheduled AtPos; decide

theorem witness_TakenSectionHolds :
    let s := (run0 [0x40000117]).setOwner (some 1)
    Scheduled 0 [] s ∧ AtPos 0 .idle s ∧ stopped (s.ch 0) (currentGather 0 s) = .go ∧
      s.owner = some 1 ∧ (1 : Chan) ≠ 0 := by
  unfold Scheduled AtPos; decide

/-- Disabled at the end boundary; drained at the end boundary; at the end boundary with words queued. -/
theorem witness_BoundaryStopsInOrder :
    let s (b : Bool) (put : Ptr) := at0 { chan 1 with enabled := b, gather := ⟨0, 0, put, false⟩, endPtr := 0 }
      [0x40000117] [.worker 0]
    (∀ b put, Scheduled 0 [] (s b put) ∧ AtPos 0 .idle (s b put) ∧ ((s b put).ch 0).inner = none ∧
      ((s b put).ch 0).gather.inlined = false ∧ ((s b put).ch 0).gather.get = ((s b put).ch 0).endPtr ∧
      ((s b put).ch 0).gather.put = put ∧ ((s b put).ch 0).enabled = b) ∧ (0 : Ptr) ≠ 1 :=
  ⟨fun _ _ => ⟨rfl, ⟨rfl, rfl, rfl⟩, rfl, rfl, rfl, rfl, rfl⟩, by decide⟩

/-- A burst, a masked write and a base word awaited, drained with `put = 1` and at the end boundary with
`put = 2`; an inserted gather, drained. -/
theorem witness_DataWordStops :
    let s (p : Pos) (put : Ptr) := at0 { chan 1 with pos := p, gather := ⟨0, 1, put, false⟩, endPtr := 1 }
      [1] [.worker 0]
    let i : Inner := ⟨⟨0, 1, 1, true⟩, .insert 0x10 true⟩
    let u := at0 { chan 1 with pos := .insertBurst, inner := some i } [1] [.worker 0]
    (∀ p put, Scheduled 0 [] (s p put) ∧ AtPos 0 p (s p put) ∧ currentGather 0 (s p put) = ⟨0, 1, put, false⟩ ∧
      ((s p put).ch 0).gather = ⟨0, 1, put, false⟩ ∧
      ((s p put).ch 0).enabled = true ∧ ((s p put).ch 0).endPtr = 1) ∧
    nextBit 0x8000 15 ≠ none ∧ (2 : Ptr) ≠ 1 ∧
    Scheduled 0 [] u ∧ AtPos 0 .insertBurst u ∧ (u.ch 0).inner = some i ∧ i.g.get = i.g.put :=
  ⟨fun _ _ => ⟨rfl, ⟨rfl, rfl, rfl⟩, rfl, rfl, rfl, rfl⟩, by decide, by decide, rfl, ⟨rfl, rfl, rfl⟩, rfl,
    rfl⟩

theorem witness_WorkerStartsOnSignal (b : Bool) :
    let s := at0 { Channel.reset with start := b } [] [.worker 0]
    Scheduled 0 [] s ∧ (s.ch 0).running = false ∧ (s.ch 0).start = b := ⟨rfl, rfl, rfl⟩

/-- Channel 0, disabled, with a start pending. -/
def pendingStart : State := State.reset.setCh 0 { Channel.reset with start := true }

/-- Worker 0 takes START, finds the channel disabled, ends its run, and is parked. -/
def fairRun : Nat → State
  | 0 => pendingStart
  | 1 => startRun 0 pendingStart
  | _ + 2 => finishRun 0 (startRun 0 pendingStart)

/-- A weakly fair infinite run in which the start of channel 0 is raised. -/
theorem witness_WorkerStartsOnSignal_fair :
    InfiniteRun fairRun (fun _ => .worker 0) ∧ WeaklyFair fairRun (fun _ => .worker 0) ∧
      ((fairRun 0).ch 0).running = false ∧ ((fairRun 0).ch 0).start = true := by
  have parked : ∀ c, ((fairRun 2).ch c).running = false ∧ ((fairRun 2).ch c).start = false := by decide
  have worker (c : Chan) : workerStep c (fairRun 2) = .next (fairRun 2) := by
    simp [workerStep, (parked c).1, (parked c).2]
  refine ⟨?_, ?_, rfl, rfl⟩
  · intro n
    match n with
    | 0 => rfl
    | 1 => rfl
    | n + 2 => exact worker 0
  · intro a n h
    refine absurd ?_ (h (n + 2) (by omega))
    cases a with
    | worker c => exact worker c
    | ctx h => rfl

/-- No module, a module that asks nothing, a module that asks for an increment. -/
theorem witness_ImmWritesLiteral :
    let s (k : Option (BitVec 10)) := at0 { chan 1 with cur := k } [] []
    (∀ k, ((s k).ch (s k).active).pos = .idle) ∧
    currentModule 0 (s none) = none ∧ currentModule 0 (s (some 5)) = some m5 ∧
    handlerRequests m5 9 3 0 = [] ∧ currentModule 0 (s (some 7)) = some m7 ∧
    handlerRequests m7 9 3 0 = [.sync (.increment 3)] :=
  ⟨fun _ => rfl, rfl, rfl, rfl, rfl, rfl⟩

/-- Of each form, the last offset with a meaning and the first without one, at the last word and before it. -/
theorem witness_BurstDataWord :
    let s (p : Pos) := mid p [0x1FFF0002, 7, 8]
    let i (put : Ptr) (off : Word) : Inner := ⟨⟨0, 1, put, true⟩, .insert off true⟩
    let u (put : Ptr) (off : Word) :=
      at0 { chan 3 with pos := .insertBurst, inner := some (i put off) } [0, 7, 8] [.worker 0]
    (∀ p off, Scheduled 0 [] (s p) ∧ AtPos 0 p (s p) ∧ Silent 0 off 7 (s p)) ∧
    (∀ put off, Scheduled 0 [] (u put off) ∧ AtPos 0 .insertBurst (u put off) ∧
      ((u put off).ch 0).inner = some (i put off) ∧ Silent 0 off 7 (u put off)) ∧
    WordsAhead 0 (currentGather 0 (s (.burst 0xFFF 1 true))) [7] (s (.burst 0xFFF 1 true)) ∧
    WordsAhead 0 (currentGather 0 (s (.burst 0x1000 2 true))) [7] (s (.burst 0x1000 2 true)) ∧
    WordsAhead 0 (currentGather 0 (s (.mask 0xFF0 0x8001 1))) [7] (s (.mask 0xFF0 0x8001 1)) ∧
    WordsAhead 0 (currentGather 0 (s (.mask 0x1000 0x8001 0))) [7] (s (.mask 0x1000 0x8001 0)) ∧
    nextBit 0x8001 1 = some 15 ∧ nextBit 0x8001 0 = some 0 ∧ nextBit 0x8001 16 = none ∧
    WordsAhead 0 (i 2 0xFFF).g [7] (u 2 0xFFF) ∧ WordsAhead 0 (i 3 0x1000).g [7] (u 3 0x1000) ∧
    0xFFF < (0x1000 : Word).toNat ∧ ¬ 0xFFF < (0xFFF : Word).toNat := by
  refine ⟨fun _ _ => ⟨rfl, ⟨rfl, rfl, rfl⟩, silent_of_m5 rfl _ _⟩,
    fun _ _ => ⟨rfl, ⟨rfl, rfl, rfl⟩, rfl, silent_of_m5 rfl _ _⟩, ?_, ?_, ?_, ?_, by decide, by decide,
    by decide, ?_, ?_, by decide, by decide⟩ <;> (unfold WordsAhead; decide)

/-- Two words to the last two registers, one register twice, and no word. -/
theorem witness_BurstsWriteEveryWord :
    let s (w : Word) (n : Nat) := at0 (chan 3) [w, 7, 8] (List.replicate (n + 1) (.worker 0) ++ [])
    (∀ w n, AtPos 0 .idle (s w n) ∧ sectionTaken 0 (s w n) = false ∧ AlwaysSilent 0 (s w n)) ∧
    WordsAhead 0 (currentGather 0 (s 0x1FFE0002 2)) [encode (.incr 0xFFE 2), 7, 8] (s 0x1FFE0002 2) ∧
    WordsAhead 0 (currentGather 0 (s 0x2FFF0002 2)) [encode (.nonincr 0xFFF 2), 7, 8] (s 0x2FFF0002 2) ∧
    WordsAhead 0 (currentGather 0 (s 0x1FFF0000 0)) [encode (.incr 0xFFF 0)] (s 0x1FFF0000 0) ∧
    (0xFFE : BitVec 12).toNat + (2 : BitVec 16).toNat ≤ 0x1000 ∧
    (0xFFF : BitVec 12).toNat + (0 : BitVec 16).toNat ≤ 0x1000 := by
  refine ⟨fun _ _ => ⟨⟨rfl, rfl, rfl⟩, rfl, alwaysSilent_of_m5 rfl⟩, ?_⟩
  unfold WordsAhead; decide

/-- MASK with bits 0 and 15, the last at the last register, and with no bit; SETCLASS with bits 0 and 2, of a
class that is registered and of one that is not. -/
theorem witness_MaskWritesAscending :
    let s (w : Word) (n : Nat) := at0 (chan 3) [w, 7, 8] (List.replicate (n + 1) (.worker 0) ++ [])
    let cur (k : BitVec 10) (w : Word) (n : Nat) :=
      if (s w n).registry.any (fun m => m.classId == k.setWidth 16) then some k else none
    (∀ w n, AtPos 0 .idle (s w n) ∧ sectionTaken 0 (s w n) = false ∧
      AlwaysSilent 0 ((s w n).setCh 0 { (s w n).ch 0 with cur := some 5 }) ∧
      AlwaysSilent 0 ((s w n).setCh 0 { (s w n).ch 0 with cur := none }) ∧
      cur 5 w n = some 5 ∧ cur 6 w n = none) ∧
    WordsAhead 0 (currentGather 0 (s 0x3FF08001 2)) [encode (.mask 0xFF0 0x8001), 7, 8]
      (s 0x3FF08001 2) ∧
    WordsAhead 0 (currentGather 0 (s 0x3FFF0000 0)) [encode (.mask 0xFFF 0)] (s 0x3FFF0000 0) ∧
    WordsAhead 0 (currentGather 0 (s 0x0FFD0145 2)) [encode (.setclass 0xFFD 5 5), 7, 8]
      (s 0x0FFD0145 2) ∧
    WordsAhead 0 (currentGather 0 (s 0x0FFD0185 2)) [encode (.setclass 0xFFD 6 5), 7, 8]
      (s 0x0FFD0185 2) ∧
    ((List.range 16).filter (0x8001 : BitVec 16).getLsbD).length = 2 ∧
    ((List.range 16).filter (0 : BitVec 16).getLsbD).length = 0 ∧
    ((List.range 16).filter ((5 : BitVec 6).setWidth 16).getLsbD).length = 2 ∧
    (∀ j, j < 16 → (0x8001 : BitVec 16).getLsbD j = true → (0xFF0 : BitVec 12).toNat + j ≤ 0xFFF) ∧
    ∀ j, j < 16 → ((5 : BitVec 6).setWidth 16).getLsbD j = true → (0xFFD : BitVec 12).toNat + j ≤ 0xFFF := by
  refine ⟨fun _ _ => ⟨⟨rfl, rfl, rfl⟩, rfl, alwaysSilent_of_m5 rfl, fun m h => (by cases h), rfl, rfl⟩, ?_⟩
  unfold WordsAhead; decide

theorem witness_GatherHeadsAwaitBase :
    (currentGather State.reset.active State.reset).inlined = false := by decide

theorem witness_NestedGatherFaults :
    let s := at0 { chan 1 with inner := some ⟨⟨0, 0, 1, true⟩, .inline⟩ } [] []
    (currentGather s.active s).inlined = true := by decide

/-- The base word of either form, with any count. -/
theorem witness_GatherBaseWord :
    let s (ins : Bool) (n : BitVec 14) := mid (.gatherBase 0x30 ins true n) [0x6030C004, 0x3003]
    (∀ ins n, Scheduled 0 [] (s ins n) ∧ AtPos 0 (.gatherBase 0x30 ins true n) (s ins n)) ∧
    WordsAhead 0 ((s false 0).ch 0).gather [0x3003] (s false 0) ∧
    WordsAhead 0 ((s false 4).ch 0).gather [0x3003] (s false 4) ∧
    WordsAhead 0 ((s true 0x3FFF).ch 0).gather [0x3003] (s true 0x3FFF) := by
  refine ⟨fun _ _ => ⟨rfl, rfl, rfl, rfl⟩, ?_⟩
  unfold WordsAhead; decide

/-- Two words to the last two registers, and one register twice. -/
theorem witness_InsertedGatherWritesEveryWord :
    let g : Gather := ⟨0, 1, 3, true⟩
    let s (off : Word) (inc : Bool) := at0
      { chan 3 with inner := some ⟨g, .insert off inc⟩, pos := .insertBurst } [0, 7, 8]
      (List.replicate 2 (.worker 0) ++ [])
    (∀ off inc, AtPos 0 .insertBurst (s off inc) ∧ ((s off inc).ch 0).inner = some ⟨g, .insert off inc⟩ ∧
      AlwaysSilent 0 (s off inc)) ∧
    WordsAhead 0 g [7, 8] (s 0xFFE true) ∧ WordsAhead 0 g [7, 8] (s 0xFFF false) ∧
    g.inlined = true ∧ g.put = g.get + 2 ∧ (0xFFE : Word).toNat + 2 ≤ 0x1000 ∧
    (0xFFF : Word).toNat ≤ 0xFFF := by
  refine ⟨fun _ _ => ⟨⟨rfl, rfl, rfl⟩, rfl, alwaysSilent_of_m5 rfl⟩, ?_⟩
  unfold WordsAhead; decide

/-- Disabled with words left (`b = false`, `put = 1`); drained (`b = true`, `put = 0`). -/
theorem witness_InlineGatherReturns (b : Bool) (put : Ptr) :
    let s := at0
      { chan 1 with enabled := b, inner := some ⟨⟨0, 0, put, true⟩, .inline⟩ } [] [.worker 0]
    Scheduled 0 [] s ∧ AtPos 0 .idle s ∧ (s.ch 0).inner = some ⟨⟨0, 0, put, true⟩, .inline⟩ ∧
      (s.ch 0).enabled = b := ⟨rfl, ⟨rfl, rfl, rfl⟩, rfl, rfl⟩

theorem witness_ChdoneChangesNothing :
    let s := run0 [0xF0000001]
    Scheduled 0 [] s ∧ AtPos 0 .idle s ∧ stopped (s.ch 0) (currentGather 0 s) = .go ∧
      sectionTaken 0 s = false ∧
      s.mem.readWord (currentGather 0 s).wordIndex = some (0xF#4 ++ (1 : BitVec 28)) := by
  unfold Scheduled AtPos; decide

/-- Each hold, on a slot in any condition, the channel enabled or not. -/
theorem witness_HeldMutexInstructionReevaluates (p : Pos) (m : Mlock) (b : Bool) :
    let s := (at0 { chan 1 with pos := p, enabled := b } [] [.worker 0]).setMl 3 m
    Scheduled 0 [] s ∧ AtPos 0 p s ∧ s.ml 3 = m ∧ (s.ch 0).enabled = b :=
  ⟨rfl, ⟨rfl, rfl, rfl⟩, rfl, rfl⟩

/-- Differences 0, 1, 0x7FFF, 0x8000, 0x8001 and 0xFFFF. -/
theorem witness_ThresholdComparison :
    let diff (cnt : Word) (thr : BitVec 16) := thr - cnt.setWidth 16
    diff 5 5 = 0 ∧ (diff 4 5).toNat = 1 ∧ (diff 0 0x7FFF).toNat = 0x7FFF ∧ diff 0 0x8000 = 0x8000 ∧
      (diff 0 0x8001).toNat = 0x8001 ∧ (diff 5 4).toNat = 0xFFFF := by decide

theorem issued_asks {op : HostOp} {s : State} (h : (s.ctx 0).job = .idle) :
    Issued 0 op [] (asks op s) := ⟨rfl, h⟩

/-- The three mutations, and an identifier just out of range. -/
theorem witness_StoreOperationsWrite :
    (∀ r : SyncReq, Issued 0 (.sync r) [] (asks (.sync r) State.reset)) ∧
    (31 : Fin 32).val < 32 ∧ 32 ≤ 32 := ⟨fun _ => issued_asks rfl, by decide, by decide⟩

theorem witness_IncrementsAddUp :
    let s := State.reset.setAgenda (List.replicate 2 (.host 0 (.sync (.increment 3))) ++ [])
    s.agenda = List.replicate 2 (.host 0 (.sync (.increment (3 : Fin 32)))) ++ [] ∧
      (s.ctx 0).job = .idle := ⟨rfl, rfl⟩

/-- Each wait; the first two satisfied and not. -/
theorem witness_WaitsReturnOrEnqueue :
    (∀ r : SyncReq, Issued 0 (.sync r) [] (asks (.sync r) State.reset)) ∧
    reached16 (State.reset.sp 3).counter 0 = true ∧ reached16 (State.reset.sp 3).counter 1 = false ∧
    reached16 (State.reset.sp 3).counter ((State.reset.base 2 + 0).setWidth 16) = true ∧
    reached16 (State.reset.sp 3).counter ((State.reset.base 2 + 1).setWidth 16) = false :=
  ⟨fun _ => issued_asks rfl, by decide, by decide, by decide, by decide⟩

/-! #### Coherent states with waiters -/

/-- Channel in a run inside a module write, held in a wait with the record `w`. -/
def waiting (w : Waiter) : Channel := { chan 1 with waiter := w, call := some ⟨[], .inWait⟩ }

/-- Workers 0 and 3 wait on sync-point 3 for 5 and 6, worker 1 for the sum of base 2 and 7, worker 2 for the
next increment. -/
def coherent : State :=
  (((((State.reset.setSp 3 ⟨5, 0, [.worker 0, .worker 3], [.worker 1], [.worker 2]⟩).setCh 0
    (waiting ⟨5, none, false, some (3, .abs)⟩)).setCh 1
    (waiting ⟨7, some 2, false, some (3, .rel)⟩)).setCh 2
    (waiting ⟨0, none, false, some (3, .inc)⟩))).setCh 3
    (waiting ⟨6, none, false, some (3, .abs)⟩)

/-- The waiter lists. -/
def kinds : List WaitList := [.abs, .rel, .inc]

theorem mem_kinds (k : WaitList) : k ∈ kinds := by cases k <;> decide

/-- No host context waits. -/
def noHostWaits (s : State) : Bool :=
  s.hosts.all fun e => decide (e.2.waiter = Waiter.reset) &&
    match e.2.job with
    | .inWait _ => false
    | _ => true

theorem sparseGet_mem {α : Type} {k : Nat} {x : α} {l : List (Nat × α)} (h : sparseGet k l = some x) :
    (k, x) ∈ l := by
  induction l with
  | nil => cases h
  | cons e l ih =>
    obtain ⟨j, y⟩ := e
    rw [sparseGet] at h
    split at h
    · rename_i he
      cases h
      subst he
      exact List.mem_cons_self ..
    · exact List.mem_cons_of_mem _ (ih h)

theorem ctx_of_noHostWaits {s : State} (h : noHostWaits s = true) (n : Nat) :
    (s.ctx n).waiter = Waiter.reset ∧ s.inWait (.ctx n) = false := by
  cases hg : sparseGet n s.hosts with
  | none =>
    have : s.ctx n = HostCtx.rest := by rw [State.ctx, hg]; rfl
    simp only [State.inWait, this]
    exact ⟨rfl, rfl⟩
  | some x =>
    have : s.ctx n = x := by rw [State.ctx, hg]; rfl
    have hx := List.all_eq_true.1 h _ (sparseGet_mem hg)
    simp only [Bool.and_eq_true, decide_eq_true_eq] at hx
    simp only [State.inWait, this]
    refine ⟨hx.1, ?_⟩
    cases hj : x.job <;> simp_all

/-- A listed agent is a worker, and its record says so. -/
def listedRight (s : State) (i : Fin 32) (k : WaitList) : AgentId → Bool
  | .worker c => decide ((s.ch c).waiter.place = some (i, k))
  | .ctx _ => false

/-- A worker whose record names a list is in that list and held in a wait, and has a base just if the list
is base-relative. -/
def placedRight (s : State) (c : Chan) : Bool :=
  match (s.ch c).waiter.place with
  | some (i, k) => decide (AgentId.worker c ∈ (s.sp i).list k) && s.inWait (.worker c) &&
    decide ((s.ch c).waiter.baseId.isSome = true ↔ k = .rel)
  | none => true

theorem placedRight_some {s : State} {c : Chan} {i : Fin 32} {k : WaitList} (h : placedRight s c = true)
    (hp : (s.ch c).waiter.place = some (i, k)) : AgentId.worker c ∈ (s.sp i).list k ∧
      s.inWait (.worker c) = true ∧ ((s.ch c).waiter.baseId.isSome = true ↔ k = .rel) := by
  rw [placedRight, hp] at h
  simp only [Bool.and_eq_true, decide_eq_true_eq] at h
  exact ⟨h.1.1, h.1.2, h.2⟩

/-- What makes the lists and the records of the workers agree, to be checked by evaluation. -/
def workersCoherent (s : State) : Bool :=
  decide (∀ i, ∀ k ∈ kinds, ((s.sp i).list k).Nodup ∧
    ∀ a ∈ (s.sp i).list k, listedRight s i k a = true) &&
  decide (∀ c, placedRight s c = true) &&
  decide (∀ c, if s.inWait (.worker c) = true then
      ((s.ch c).waiter.signalled = true ↔ (s.ch c).waiter.place = none)
    else (s.ch c).waiter.signalled = false)

theorem waitersCoherent_of {s : State} (hh : noHostWaits s = true) (hw : workersCoherent s = true) :
    WaitersCoherent s := by
  simp only [workersCoherent, Bool.and_eq_true, decide_eq_true_eq] at hw
  obtain ⟨⟨h1, h2⟩, h3⟩ := hw
  have hc := ctx_of_noHostWaits hh
  constructor
  · intro a i k
    have hik := (h1 i k (mem_kinds k)).2
    cases a with
    | worker c =>
      exact ⟨fun ha => of_decide_eq_true (hik _ ha), fun hp => (placedRight_some (h2 c) hp).1⟩
    | ctx n =>
      refine ⟨fun ha => absurd (hik _ ha) Bool.false_ne_true, fun hp => ?_⟩
      rw [waiter_ctx, (hc n).1] at hp
      cases hp
  · exact fun i k => (h1 i k (mem_kinds k)).1
  · intro a hp
    cases a with
    | worker c =>
      cases hq : (s.ch c).waiter.place with
      | none => exact absurd hq hp
      | some e => exact (placedRight_some (h2 c) hq).2.1
    | ctx n => rw [waiter_ctx, (hc n).1] at hp; exact absurd rfl hp
  · intro a ha
    cases a with
    | worker c => have := h3 c; rw [if_pos ha] at this; exact this
    | ctx n => rw [(hc n).2] at ha; cases ha
  · intro a ha
    cases a with
    | worker c => have := h3 c; rw [if_neg (by rw [ha]; simp)] at this; exact this
    | ctx n => rw [waiter_ctx, (hc n).1]; rfl
  · intro a i k hp
    cases a with
    | worker c =>
      exact (placedRight_some (h2 c) hp).2.2
    | ctx n => rw [waiter_ctx, (hc n).1] at hp; cases hp

/-- A channel without an inner gather, between two instructions, with its bits in order. -/
def plain (x : Channel) : Bool :=
  x.stopped == !x.running && (!x.running || !x.start) && (x.fault.isNone || !x.running && !x.start) &&
    x.inner.isNone && decide (x.pos = .idle) && (x.running || x.call.isNone) && !x.gather.inlined

theorem lawful_of_plain {x : Channel} (h : plain x = true) : x.Lawful := by
  simp only [plain, Bool.and_eq_true, Bool.or_eq_true, beq_iff_eq, decide_eq_true_eq,
    Bool.not_eq_true', Option.isNone_iff_eq_none] at h
  obtain ⟨⟨⟨⟨⟨⟨h1, h2⟩, h3⟩, h4⟩, h5⟩, h6⟩, h7⟩ := h
  constructor
  · exact h1
  · intro hr; simpa [hr] using h2
  · intro hf
    cases h3 with
    | inl h => rw [h] at hf; cases hf
    | inr h => exact h
  · intro hr; exact ⟨h4, h5, by simpa [hr] using h6⟩
  · exact h7
  · intro y hy; rw [h4] at hy; cases hy
  · rw [h4, h5]; simp
  · intro o i n k hp; rw [h5] at hp; cases hp

/-- All the channels are plain. -/
def allPlain (s : State) : Bool := (List.finRange 8).all fun c => plain (s.ch c)

theorem channelsLawful_of {s : State} (h : allPlain s = true) : ChannelsLawful s :=
  fun c => lawful_of_plain (List.all_eq_true.1 h c (List.mem_finRange c))

theorem coherent_waiters : WaitersCoherent coherent := waitersCoherent_of (by decide) (by decide)

/-- Workers 0, 1 and 2 are woken by an increment to 5, worker 3 is not. -/
theorem witness_ReevaluationWakesExactly : WaitersCoherent coherent ∧
    (AgentId.worker 0 ∈ (coherent.sp 3).wAbs ∧ reached16 (coherent.sp 3).counter 5 = true) ∧
    (AgentId.worker 3 ∈ (coherent.sp 3).wAbs ∧ reached16 (coherent.sp 3).counter 6 = false) ∧
    (AgentId.worker 1 ∈ (coherent.sp 3).wRel ∧ (coherent.waiter (.worker 1)).baseId = some 2) ∧
    AgentId.worker 2 ∈ (coherent.sp 3).wInc :=
  ⟨coherent_waiters, by decide, by decide, by decide, by decide⟩

/-- Each request as the first of a handler: the three waits, satisfied with the counter at 2 and not with the
counter at 0; a push with room and on a full FIFO; and a call whose last request has returned. -/
theorem witness_HandlerWaitGivesUpSection :
    let s (n : Word) (w : BitVec 5) := (at0 { chan 1 with
      cur := some 7, fifo := ⟨Vector.replicate 32 0, 0, w⟩ } [] [.worker 0]).setSp 3 ⟨n, 0, [], [], []⟩
    (∀ n w, currentModule 0 (s n w) = some m7 ∧ ((s n w).sp 3).counter = n) ∧
    (∀ n w, handlerRequests m7 8 0x03000002 (s n w).fresh = [.sync (.wait (3 : Fin 32) 2)] ∧
      handlerRequests m7 0xB 1 (s n w).fresh =
        [.sync (.waitBaseRelative (3 : Fin 32) (2 : Fin 8) 1), .push 1] ∧
      handlerRequests m7 0xC 1 (s n w).fresh = [.sync (.waitNextIncrement (3 : Fin 32)), .push 1] ∧
      handlerRequests m7 0xA 0x55 (s n w).fresh = [.push 0x55]) ∧
    reached16 2 ((2 : Word).setWidth 16) = true ∧ reached16 0 ((2 : Word).setWidth 16) = false ∧
    reached16 2 ((0 + 1 : Word).setWidth 16) = true ∧ reached16 0 ((0 + 1 : Word).setWidth 16) = false ∧
    ((s 0 0).ch 0).fifo.full = false ∧ ((s 0 31).ch 0).fifo.full = true ∧
    ((s 0 0).ch 0).pos = .idle ∧ ((mid (.burst 8 1 true) []).ch 0).pos = .burst 8 1 true :=
  ⟨fun _ _ => ⟨rfl, rfl⟩, fun _ _ => ⟨rfl, rfl, rfl, rfl⟩, by decide, by decide, by decide, by decide,
    by decide, by decide, rfl, rfl⟩

/-- A handler whose first request is any one of the store's, the last identifier in range, and the first one
out of range. -/
theorem witness_HandlerWaitGivesUpSection_request (r : SyncReq) :
    let m : Module := ⟨7, .table [⟨8, 0, [.sync r]⟩], 0, 0⟩
    let s := (at0 { chan 1 with cur := some 7 } [] [.worker 0]).setRegistry [m]
    currentModule 0 s = some m ∧ handlerRequests m 8 0 s.fresh = [.sync r] ∧
      (∃ t, Performed (.worker 0) s (.increment (31 : Fin 32)) t) ∧
      (∃ t, Performed (.worker 0) s (.setCounter (31 : Fin 32) 5) t) ∧
      (∃ t, Performed (.worker 0) s (.setThreshold (31 : Fin 32) 0x10005) t) ∧
      (∃ t, Performed (.worker 0) s (.baseIncrement (7 : Fin 8) 1) t) ∧
      (∃ t, Performed (.worker 0) s (.thresholdCrossed (0 : Fin 32)) t) ∧ 32 ≤ 32 :=
  ⟨rfl, rfl, ⟨_, .increment 31⟩, ⟨_, .setCounter 31 5⟩, ⟨_, .setThreshold 31 _⟩, ⟨_, .baseIncrement 7 1⟩,
    ⟨_, .thresholdCrossed 0⟩, by decide⟩

/-- A worker in any hold of a call with any requests left, signalled or not, the section free or taken, its
FIFO with any number of entries, inside IMM or the last word of a burst. -/
theorem witness_WokenWorkerRetakesSection (p : Phase) (qs : List CoreReq) (b : Bool) (o : Option Chan)
    (w : BitVec 5) (q : Pos) :
    let s := (at0
      { chan 1 with
        pos := q, call := some ⟨qs, p⟩, waiter := ⟨1, none, b, none⟩
        fifo := ⟨Vector.replicate 32 0, 0, w⟩ } [] [.worker 0]).setOwner o
    Scheduled 0 [] s ∧ (s.ch 0).running = true ∧ (s.ch 0).call = some ⟨qs, p⟩ ∧
      (s.ch 0).waiter.signalled = b ∧ s.owner = o ∧ (s.ch 0).fifo = ⟨Vector.replicate 32 0, 0, w⟩ ∧
      (s.ch 0).pos = q := ⟨rfl, rfl, rfl, rfl, rfl, rfl, rfl⟩

/-- A host context in a wait, signalled or not. -/
theorem witness_WokenWorkerRetakesSection_host (qs : List CoreReq) (b : Bool) :
    let s := (State.reset.setCtx 2 ⟨⟨1, none, b, none⟩, .inWait qs⟩).setAgenda [.resume 2]
    s.agenda = .resume 2 :: [] ∧ (s.ctx 2).job = .inWait qs ∧ (s.ctx 2).waiter.signalled = b := by
  simp

theorem witness_BasesDoNotWake (j : Fin 8) (v : Word) :
    Issued 0 (.sync (.baseSet j v)) [] (asks (.sync (.baseSet j v)) coherent) ∧
    Issued 0 (.sync (.baseIncrement j v)) [] (asks (.sync (.baseIncrement j v)) coherent) :=
  ⟨issued_asks rfl, issued_asks rfl⟩

theorem witness_StoreReadsChangeNothing (r : SyncReq) :
    Issued 0 (.sync r) [] (asks (.sync r) coherent) := issued_asks rfl

theorem waitersCoherent_asks {s : State} (op : HostOp) (h : WaitersCoherent s) : WaitersCoherent (asks op s) := by
  obtain ⟨h1, h2, h3, h4, h5, h6⟩ := h
  exact ⟨h1, h2, h3, h4, h5, h6⟩

/-- Channel 0, whose worker waits, and channel 5, whose worker does not. -/
theorem witness_ForcedStopReleasesWaiter (op : HostOp) :
    let s := asks op coherent
    Issued 0 op [] s ∧ controlPending 0 s = false ∧ controlPending 5 s = false ∧ WaitersCoherent s ∧
      (s.ch 0).waiter.place = some (3, .abs) ∧ (s.ch 0).enabled = true ∧ (s.ch 5).waiter.place = none :=
  have h : (coherent.ch 0).waiter.place = some (3, .abs) ∧ (coherent.ch 0).enabled = true ∧
      (coherent.ch 5).waiter.place = none := by decide
  ⟨issued_asks rfl, rfl, rfl, waitersCoherent_asks op coherent_waiters, h⟩

/-- `coherent`, channel 0 disabled since: its worker has entered the wait after the stop (R352). -/
def coherentDisabled : State := coherent.setCh 0 { coherent.ch 0 with enabled := false }

theorem witness_ForcedStopReleasesWaiter_disabled (op : HostOp) :
    let s := asks op coherentDisabled
    Issued 0 op [] s ∧ WaitersCoherent s ∧ (s.ch 0).waiter.place = some (3, .abs) ∧
      (s.ch 0).enabled = false :=
  have h : (coherentDisabled.ch 0).waiter.place = some (3, .abs) ∧
      (coherentDisabled.ch 0).enabled = false := by decide
  ⟨issued_asks rfl, waitersCoherent_asks op (waitersCoherent_of (by decide) (by decide)), h⟩

theorem witness_RouterRegisters (op : HostOp) :
    let s := asks op ((State.reset.setPending 0 8).setLine 0 true)
    LinesFollowPending s ∧ Issued 0 op [] s ∧ s.pending 0 = 8 :=
  ⟨by
    have : ∀ p, (((State.reset.setPending 0 8).setLine 0 true).line p) =
      lineLevel (((State.reset.setPending 0 8).setLine 0 true).pending p) := by decide
    exact this, issued_asks rfl, rfl⟩

/-- On a free slot and on one a channel owns. -/
theorem witness_CpuMutexOperations (op : HostOp) :
    Issued 0 op [] (asks op State.reset) ∧
    Issued 0 op [] (asks op (State.reset.setMl 3 ⟨true, false, 2⟩)) ∧
    (State.reset.ml 3).channelOwns = false ∧
    ((State.reset.setMl 3 ⟨true, false, 2⟩).ml 3).channelOwns = true :=
  ⟨issued_asks rfl, issued_asks rfl, by decide, by decide⟩

/-- Empty, with 31 entries, and with one entry across the wrap of the indices. -/
theorem witness_FifoKeepsOrder :
    let b := Vector.replicate 32 (0 : Word)
    (Fifo.full ⟨b, 0, 0⟩ = false ∧ Fifo.empty ⟨b, 0, 31⟩ = false ∧ Fifo.full ⟨b, 0, 31⟩ = true) ∧
    Fifo.full ⟨b, 31, 0⟩ = false ∧ Fifo.empty ⟨b, 31, 0⟩ = false := by decide

/-- Each operation on an empty and on a full FIFO, issued and resumed. -/
theorem witness_FifoOperationsHold :
    let s (w : BitVec 5) := at0 { chan 1 with fifo := ⟨Vector.replicate 32 0, 0, w⟩ } [] []
    (∀ op w, Issued 0 op [] (asks op (s w))) ∧
    ((s 0).ch 0).fifo.empty = true ∧ ((s 31).ch 0).fifo.full = true ∧
    ∀ w ∈ [(0 : BitVec 5), 31], ∀ j ∈ [HostJob.inPush 0 9, .inPop 0],
      let u := ((s w).setCtx 0 ⟨Waiter.reset, j⟩).setAgenda [.resume 0]
      u.agenda = .resume 0 :: [] ∧ (u.ctx 0).job = j :=
  ⟨fun _ _ => issued_asks rfl, by decide, by decide, by decide⟩

/-- A class that is registered and one that is not; and a step that registers one. -/
theorem witness_RegistryOperations (op : HostOp) :
    let s := asks op (State.reset.setRegistry [m5])
    Issued 0 op [] s ∧ anyRunning s = false ∧ RegistryUnique s ∧
      m5.classId ∈ s.registry.map Module.classId ∧ m7.classId ∉ s.registry.map Module.classId ∧
      ∃ t, step (asks (.register m7) (State.reset.setRegistry [m5])) = .next t := by
  refine ⟨issued_asks rfl, ?_, ?_, ?_, ?_, ⟨_, rfl⟩⟩
  · have : anyRunning (State.reset.setRegistry [m5]) = false := by decide
    exact this
  · have : ([m5].map Module.classId).Nodup := by decide
    exact this
  · exact List.mem_singleton.2 rfl
  · have : m7.classId ∉ [m5].map Module.classId := by decide
    exact this

/-- Offsets 0xFFF and 0x1000; a class registered and one not. -/
theorem witness_HostModuleAccess (op : HostOp) :
    let s := asks op (State.reset.setRegistry [m5])
    Issued 0 op [] s ∧ ¬ 0xFFF < (0xFFF : Word).toNat ∧ 0xFFF < (0x1000 : Word).toNat ∧
      lookupModule 5 s = some m5 ∧ lookupModule 6 s = none ∧
      ∀ off v, handlerRequests m5 off v s.fresh = [] :=
  ⟨issued_asks rfl, by decide, by decide, rfl, rfl, fun _ _ => rfl⟩

/-- A handler that asks for one increment, called by a host context. -/
theorem witness_HostModuleAccess_request :
    let s := asks (.dispatchWrite 7 9 3) (State.reset.setRegistry [m7])
    Issued 0 (.dispatchWrite 7 9 3) [] s ∧ lookupModule 7 s = some m7 ∧
      handlerRequests m7 9 3 s.fresh = [.sync (.increment (3 : Fin 32))] ∧
      (∃ t, Performed (.ctx 0) s (.increment (3 : Fin 32)) t) :=
  ⟨issued_asks rfl, rfl, rfl, ⟨_, .increment 3⟩⟩

/-- With a run started and without. -/
theorem witness_PointerRegistersAreSet (op : HostOp) :
    Issued 0 op [] (asks op State.reset) ∧
    Issued 0 op [] (asks op (State.reset.setCh 0 { Channel.reset with enabled := true })) :=
  ⟨issued_asks rfl, issued_asks rfl⟩

theorem witness_ControlEnables (rg fp : Bool) :
    let s := asks (.control 0 false rg fp) State.reset
    Issued 0 (.control (0 : Chan) false rg fp) [] s ∧ controlPending 0 s = false :=
  ⟨issued_asks rfl, rfl⟩

/-- Channel 0 disabled, in a run or not, and a `control` pending on it. -/
def stopping (b : Bool) : State :=
  ((State.reset.setCh 0
    { Channel.reset with enabled := false, running := b, stopped := !b, gather := ⟨0, 3, 9, false⟩ }).setCtx 4
    ⟨Waiter.reset, .inControl 0 true true⟩).setAgenda [.resume 4]

theorem stopsPending_of {s : State}
    (h : s.hosts.all (fun e => match e.2.job with
      | .inControl c _ _ => !(s.ch c).enabled
      | _ => true) = true) : StopsPending s := by
  intro n c r f hj
  unfold State.ctx at hj
  cases hg : sparseGet n s.hosts with
  | none => rw [hg] at hj; cases hj
  | some x =>
    rw [hg] at hj
    have hx := List.all_eq_true.1 h _ (sparseGet_mem hg)
    have hj' : x.job = .inControl c r f := hj
    simp only [hj'] at hx
    simpa using hx

theorem stopping_coherent (b : Bool) : WaitersCoherent (stopping b) :=
  waitersCoherent_of (by cases b <;> decide) (by cases b <;> decide)

/-- A `control` on a channel that another holds on. -/
theorem witness_ForcedStopReleasesWaiter_overlap (op : HostOp) :
    let s := asks op (stopping true)
    Issued 0 op [] s ∧ controlPending 0 s = true ∧ WaitersCoherent s :=
  ⟨issued_asks rfl, rfl, waitersCoherent_asks op (stopping_coherent true)⟩

theorem witness_StopIsSynchronous (b : Bool) :
    (stopping b).agenda = .resume 4 :: [] ∧ ((stopping b).ctx 4).job = .inControl 0 true true ∧
    ChannelsLawful (stopping b) ∧ SectionExclusive (stopping b) ∧ WaitersCoherent (stopping b) ∧
    StopsPending (stopping b) ∧ ((stopping b).ch 0).running = b :=
  ⟨rfl, rfl, channelsLawful_of (by cases b <;> decide),
    by unfold SectionExclusive; cases b <;> decide, stopping_coherent b,
    stopsPending_of (by cases b <;> decide), rfl⟩

/-- A step of every kind answers next. -/
theorem witness_OnlyTheseWriteGet :
    (∃ t, step (run0 [0x50000006, 0]) = .next t) ∧ (∃ t, step (stopping false) = .next t) ∧
    (∃ t, step (asks (.control 0 false true true) State.reset) = .next t) ∧
    (∃ t, step (asks .subsystemReset State.reset) = .next t) ∧
    ∃ t, step (State.reset.setAgenda [.store 0 [1]]) = .next t :=
  ⟨⟨_, rfl⟩, ⟨_, rfl⟩, ⟨_, rfl⟩, ⟨_, rfl⟩, ⟨_, rfl⟩⟩

theorem witness_SubsystemResetClears :
    Issued 0 .subsystemReset [] (asks .subsystemReset coherent) ∧
    (¬ ∃ e ∈ (asks .subsystemReset coherent).hosts, e.2.job ≠ .idle) ∧
    Issued 0 .subsystemReset [] (asks .subsystemReset (stopping true)) ∧
    ∃ e ∈ (asks .subsystemReset (stopping true)).hosts, e.2.job ≠ .idle :=
  ⟨issued_asks rfl, by decide, issued_asks rfl, by decide⟩

/-- Channel 0 faulted; the counter of sync-point 3 is incremented. -/
theorem witness_FaultPersistsUntilReset :
    let s := asks (.sync (.increment 3))
      (State.reset.setCh 0 { Channel.reset with enabled := true, fault := some ⟨.endReached, 0⟩ })
    ChannelsLawful s ∧ (∃ t, step s = .next t) ∧
      (∀ h, (nextEvent s).1 ≠ .host h .subsystemReset) ∧
      (s.ch 0).fault = some ⟨.endReached, 0⟩ :=
  ⟨channelsLawful_of (by decide), ⟨_, rfl⟩, fun n h => (by
    have h' : Event.host 0 (.sync (.increment 3)) = .host n .subsystemReset := h
    cases h'), rfl⟩

/-- A store by the owner of the window, and a fetch. -/
theorem witness_StepKeepsMemoryCanonical :
    (State.reset.setAgenda [.store 0xFFFFFFFF [1, 2]]).mem.wf = true ∧
    (∃ t, step (State.reset.setAgenda [.store 0xFFFFFFFF [1, 2]]) = .next t) ∧
    (run0 [0x40000117]).mem.wf = true ∧ ∃ t, step (run0 [0x40000117]) = .next t :=
  ⟨rfl, ⟨_, rfl⟩, by decide, ⟨_, rfl⟩⟩

/-- A store of two bytes across the end of the window, and an instruction. -/
theorem witness_BlockNeverWritesMemory :
    (∃ t, step (State.reset.setAgenda [.store 0xFFFFFFFF [1, 2]]) = .next t) ∧
    (State.reset.setAgenda [.store 0xFFFFFFFF [1, 2]]).agenda = .store 0xFFFFFFFF [1, 2] :: [] ∧
    ([1, 2] : List Byte).length ≤ 2 ^ 32 ∧ ∃ t, step (run0 [0x40000117]) = .next t :=
  ⟨⟨_, rfl⟩, rfl, by decide, ⟨_, rfl⟩⟩

/-- An ACQUIRE_MLOCK of a free slot beside an owned one. -/
theorem witness_StepKeepsMutexExclusive :
    let s := (run0 [0xE0000003]).setMl 4 ⟨true, false, 7⟩
    MutexExclusive s ∧ ∃ t, step s = .next t := by
  refine ⟨?_, ⟨_, rfl⟩⟩
  unfold MutexExclusive; decide

/-- The increment that raises line 0. -/
theorem witness_StepKeepsLines :
    let s := asks (.sync (.increment 3)) ((State.reset.setSp 3 ⟨4, 5, [], [], []⟩).setDest 0 8)
    LinesFollowPending s ∧ ∃ t, step s = .next t := by
  refine ⟨?_, ⟨_, rfl⟩⟩
  unfold LinesFollowPending; decide

/-- A worker takes the section and starts a burst. -/
theorem witness_StepKeepsSectionExclusive :
    let s := run0 [0x10100002, 1, 2]
    ChannelsLawful s ∧ SectionExclusive s ∧ ∃ t, step s = .next t := by
  refine ⟨channelsLawful_of (by decide), ?_, ⟨_, rfl⟩⟩
  unfold SectionExclusive; decide

/-- The increment that wakes workers 0 to 3. -/
theorem witness_StepKeepsWaitersCoherent :
    let s := asks (.sync (.increment 3)) coherent
    ChannelsLawful s ∧ HostsCanonical s ∧ WaitersCoherent s ∧ StopsPending s ∧
      ∃ t, step s = .next t :=
  ⟨channelsLawful_of (by decide), ⟨rfl, by decide⟩, waitersCoherent_of (by decide) (by decide),
    stopsPending_of (by decide), ⟨_, rfl⟩⟩

end Sys2Proof.Tests
end

section
/-! PROOFS. The statements about the block's scope and schedule (00_scope.md R7, R9, R13): the frame of an
event, and with it that the block never writes the DMA window; the hold on a taken section; what a module
write and the requests of its handler do; and START, with its liveness under weak fairness. -/

namespace Sys2Proof.Machine

/-! ### The frame of an event -/

/-- Every event but a store has the host's frame: it leaves the memory and the configuration alone. -/
theorem perform_frame {e : Event} {s t : State} (he : ∀ addr bytes, e ≠ .store addr bytes)
    (h : perform e s = .next t) : HostFrame s t := by
  cases e with
  | worker c => exact (workerStep_frame h).host
  | host n op => exact hostOp_frame (hostIssue_next h).2
  | resume n => exact hostFrame_hostResume h
  | store addr bytes => exact absurd rfl (he addr bytes)

@[simp] theorem nextEvent_mem (s : State) : (nextEvent s).2.mem = s.mem := by rw [nextEvent_state]

@[simp] theorem nextEvent_cfg (s : State) : (nextEvent s).2.cfg = s.cfg := by rw [nextEvent_state]

/-- A step whose event is not a store leaves the memory and the configuration alone (20_memory.md R61). -/
theorem step_mem_cfg {s t : State} (he : ∀ addr bytes, (nextEvent s).1 ≠ .store addr bytes)
    (h : step s = .next t) : t.mem = s.mem ∧ t.cfg = s.cfg := by
  have hf := perform_frame he h
  exact ⟨hf.mem.trans (nextEvent_mem s), hf.cfg.trans (nextEvent_cfg s)⟩

/-- A step whose event is a store completes and writes the bytes it stores. -/
theorem step_store {s : State} {addr : BitVec 32} {bytes : List Byte}
    (he : (nextEvent s).1 = .store addr bytes) :
    step s = .next (storeBytes addr bytes (nextEvent s).2) := by
  rw [step, he]; rfl

theorem storeBytes_mem (addr : BitVec 32) (bytes : List Byte) (s : State) :
    (storeBytes addr bytes s).mem = s.mem.writeBytes addr bytes := rfl

theorem storeBytes_cfg (addr : BitVec 32) (bytes : List Byte) (s : State) :
    (storeBytes addr bytes s).cfg = s.cfg := rfl

/-- Settles O55: an event that is no store has a frame that holds the memory, and a store writes its bytes
and nothing else. -/
theorem blockNeverWritesMemory : Obligations.BlockNeverWritesMemory := by
  refine ⟨fun s t h => ?_, fun s addr bytes rest hs => ?_⟩
  · cases he : (nextEvent s).1 with
    | store addr bytes =>
      rw [step_store he] at h
      cases h
      rw [storeBytes_cfg, storeBytes_mem, nextEvent_cfg, nextEvent_mem]
      exact ⟨rfl, read_writeBytes_outside s.mem addr bytes, read_writeBytes_inside s.mem addr bytes⟩
    | _ =>
      have hkept := step_mem_cfg (by rw [he]; nofun) h
      exact ⟨hkept.2, hkept.1⟩
  · have he : nextEvent s = (.store addr bytes, s.setAgenda rest) := by rw [nextEvent, hs]
    exact ⟨_, step_store (congrArg Prod.fst he), by rw [he]; rfl⟩

/-! ### The hold on a taken section -/

theorem sectionTaken_of_other {c d : Chan} {s : State} (ho : s.owner = some d) (hd : d ≠ c) :
    sectionTaken c s = true := by
  simp [sectionTaken, ho, hd]

/-- A BOUNDARY step that finds the section taken holds (43_interpreter_loop.md R206 (d)). -/
theorem boundary_taken {c : Chan} {s : State} (hgo : stopped (s.ch c) (currentGather c s) = .go)
    (ht : sectionTaken c s = true) : boundary c s = .next s := by
  simp [boundary, hgo, fetchAndExec, ht]

theorem instrStep_idle {c : Chan} {s : State} (hp : (s.ch c).pos = .idle) :
    instrStep c s = boundary c s := by rw [instrStep, hp]

/-- Settles O7: the step is a BOUNDARY step, which holds on the section of another worker. -/
theorem takenSectionHolds : Obligations.TakenSectionHolds := by
  intro s c d rest hs hp hgo ho hd
  obtain ⟨-, -, hidle⟩ := id hp
  calc step s = instrStep c (s.setAgenda rest) := step_instr hs hp
    _ = boundary c (s.setAgenda rest) := instrStep_idle hidle
    _ = .next (s.setAgenda rest) := boundary_taken hgo (sectionTaken_of_other ho hd)

/-! ### Module writes within the offset space -/

theorem not_maxOffset_lt {off : Word} (ho : off.toNat ≤ 0xFFF) : ¬ Config.maxOffset < off :=
  fun h => absurd (BitVec.lt_def.1 h) (Nat.not_lt.2 ho)

theorem offsetOperand_toNat_le (offset : BitVec 12) : (offsetOperand offset).toNat ≤ 0xFFF := by
  simp only [offsetOperand, BitVec.toNat_setWidth]
  omega

/-- With no module the write is dropped and counted (42_fifo_registry.md R188). -/
theorem modWrite_none {c : Chan} {off : Word} {s : State} (ho : off.toNat ≤ 0xFFF)
    (hm : currentModule c s = none) (v : Word) :
    modWrite c off v s = .next (afterWrite c (dropWrite (.worker c) off v s)) := by
  rw [modWrite, if_neg (not_maxOffset_lt ho), hm]

/-- With a module the write reaches it and its handler's requests are performed (R188, R189). -/
theorem modWrite_some {c : Chan} {off : Word} {m : Module} {s : State} (ho : off.toNat ≤ 0xFFF)
    (hm : currentModule c s = some m) (v : Word) :
    modWrite c off v s =
      continueCall c (runRequests (.worker c) (handlerRequests m off v s.fresh)
        (moduleWritten (.worker c) m off v s)) := by
  rw [modWrite, if_neg (not_maxOffset_lt ho), hm]

/-- A module write outside a multi-word instruction completes IMM (44_module_write_opcodes.md R225). -/
theorem afterWrite_idle {c : Chan} {s : State} (hp : (s.ch c).pos = .idle) :
    afterWrite c s = instrDone c s := by
  simp only [afterWrite, hp, complete_eq]

/-- The last module write of a burst completes it (R222). -/
theorem afterWrite_lastWord {c : Chan} {s : State} {off : Word} {inc : Bool}
    (hp : (s.ch c).pos = .burst off 1 inc) : afterWrite c s = instrDone c s := by
  simp [afterWrite, hp, complete_eq]

/-- Settles O14: IMM is one module write, dropped with no module, else followed by its handler's requests;
without requests the instruction is complete. -/
theorem immWritesLiteral : Obligations.ImmWritesLiteral := by
  intro s offset v hp
  have ho := offsetOperand_toNat_le offset
  cases hm : currentModule s.active s with
  | none =>
    refine ⟨_, modWrite_none ho hm (immOperand v), fun a => ?_, afterWrite_idle hp⟩
    rw [(onlyChannel_afterWrite _ _).mem]
    rfl
  | some m =>
    have himm := modWrite_some ho hm (immOperand v)
    let written := moduleWritten (.worker s.active) m (offsetOperand offset) (immOperand v) s
    refine ⟨himm, fun hq => ⟨instrDone s.active written, ?_, fun _ => rfl, rfl⟩⟩
    have hreqs : handlerRequests m (offsetOperand offset) (immOperand v) s.fresh = [] := hq
    calc exec (.imm offset v) s
      _ = continueCall s.active (runRequests (.worker s.active) [] written) := by rw [← hreqs]; exact himm
      _ = .next (afterWrite s.active written) := rfl
      _ = .next (instrDone s.active written) := congrArg _ (afterWrite_idle hp)

/-! ### The requests of a handler (42_fifo_registry.md R189) -/

/-- A request that returns: its answer goes to the agent and the requests after it follow. -/
theorem runRequests_sync_returned {a : AgentId} {s u : State} {r : SyncReq} {v : Reply}
    (h : syncOp a s r = .returned u v) (qs : List CoreReq) :
    runRequests a (.sync r :: qs) s = runRequests a qs (answer a v u) := by
  rw [runRequests, h]

/-- A request without a meaning ends the requests (40_syncpt.md R141). -/
theorem runRequests_sync_refused {a : AgentId} {s : State} {r : SyncReq} {e : Refusal}
    (h : syncOp a s r = .refused e) (qs : List CoreReq) :
    runRequests a (.sync r :: qs) s = .refused e := by
  rw [runRequests, h]

theorem syncOp_wait (a : AgentId) (s : State) (i : Fin 32) (threshold : Word) :
    syncOp a s (.wait i threshold) =
      waitStepA a i .abs threshold none (reached16 (s.sp i).counter (threshold.setWidth 16)) s :=
  withSyncId_val i _

theorem syncOp_waitBaseRelative (a : AgentId) (s : State) (i : Fin 32) (j : Fin 8) (offset : Word) :
    syncOp a s (.waitBaseRelative i j offset) =
      waitStepA a i .rel offset (some j)
        (reached16 (s.sp i).counter ((s.base j + offset).setWidth 16)) s :=
  (withSyncId_val i _).trans (withSyncId_val j _)

theorem syncOp_waitNextIncrement (a : AgentId) (s : State) (i : Fin 32) :
    syncOp a s (.waitNextIncrement i) = waitStepA a i .inc 0 none false s :=
  withSyncId_val i _

/-- A wait goes on with the requests after it if it is satisfied, else it enqueues the agent and leaves
them for its end (R130). -/
theorem runRequests_sync_wait {a : AgentId} {s : State} {r : SyncReq} {i : Fin 32} {k : WaitList}
    {threshold : Word} {b : Option (Fin 8)} {now : Bool}
    (h : syncOp a s r = waitStepA a i k threshold b now s) (qs : List CoreReq) :
    runRequests a (.sync r :: qs) s =
      if now then runRequests a qs s else .held qs .inWait (enqueue a i k threshold b s) := by
  rw [runRequests, h]
  cases now <;> rfl

/-- A worker that holds in a wait: its record is enqueued, the section given up (R130 step A). -/
theorem setCall_enqueue (c : Chan) (i : Fin 32) (k : WaitList) (v : Word) (b : Option (Fin 8))
    (p : Option Call) (s : State) :
    setCall c p (enqueue (.worker c) i k v b s) =
      ((s.setOwner (ownerReleased c s)).setCh c
        { s.ch c with waiter := ⟨v, b, false, some (i, k)⟩, call := p }).setSp i
          ((s.sp i).setList k (.worker c :: (s.sp i).list k)) := by
  let enqueued := { s.ch c with waiter := ⟨v, b, false, some (i, k)⟩ }
  rw [enqueue_worker, setCall, ch_setOwner, ch_setSp, ch_setCh_self]
  calc _ = (((s.setCh c enqueued).setCh c { enqueued with call := p }).setSp i
          ((s.sp i).setList k (.worker c :: (s.sp i).list k))).setOwner (ownerReleased c s) := rfl
    _ = _ := by rw [setCh_setCh]; rfl

/-- A wait requested by a worker's handler: satisfied, the section is kept and the requests after it
follow; else the worker's record is enqueued, and they are left for the end of the wait (R130, R134). -/
theorem continueCall_wait {c : Chan} {s : State} {r : SyncReq} {i : Fin 32} {k : WaitList}
    {threshold : Word} {b : Option (Fin 8)} {now : Bool}
    (h : syncOp (.worker c) s r = waitStepA (.worker c) i k threshold b now s) (qs : List CoreReq) :
    continueCall c (runRequests (.worker c) (.sync r :: qs) s) =
      if now then continueCall c (runRequests (.worker c) qs s)
      else .next (((s.setOwner (ownerReleased c s)).setCh c
        { s.ch c with
          waiter := ⟨threshold, b, false, some (i, k)⟩
          call := some ⟨qs, .inWait⟩ }).setSp i
            ((s.sp i).setList k (.worker c :: (s.sp i).list k))) := by
  rw [runRequests_sync_wait h]
  cases now
  · exact congrArg Host.Outcome.next (setCall_enqueue c i k threshold b _ s)
  · rfl

/-- A push requested by a worker's handler: on a full FIFO the worker holds with the section kept, else the
word is added and the requests after it follow (R181, R206 (c)). -/
theorem continueCall_push (c : Chan) (v : Word) (qs : List CoreReq) (s : State) :
    continueCall c (runRequests (.worker c) (.push v :: qs) s) =
      if (s.ch c).fifo.full then .next (setCall c (some ⟨.push v :: qs, .inPush⟩) s)
      else continueCall c (runRequests (.worker c) qs (fifoPush c v s)) := by
  rw [runRequests]
  split <;> rfl

/-- A request that does not hold has its effect and is answered. -/
theorem syncOp_performed {a : AgentId} {s t : State} {r : SyncReq} (h : Performed a s r t) :
    ∃ u v, syncOp a s r = .returned u v ∧ answer a v u = t := by
  cases h with
  | increment i | setCounter i v | setThreshold i v | getCounter i | getThreshold i
  | thresholdCrossed i => exact ⟨_, _, withSyncId_val i _, rfl⟩
  | baseSet j v | baseIncrement j v | baseGet j => exact ⟨_, _, withSyncId_val j _, rfl⟩

theorem runRequests_performed {a : AgentId} {s t : State} {r : SyncReq} (h : Performed a s r t)
    (qs : List CoreReq) : runRequests a (.sync r :: qs) s = runRequests a qs t := by
  obtain ⟨u, v, hr, rfl⟩ := syncOp_performed h
  exact runRequests_sync_returned hr qs

/-- An operation that writes a sync-point has no meaning on an identifier out of range (R141). -/
theorem syncOp_badId {a : AgentId} {s : State} {r : SyncReq} {id : Nat} {x : Word} (hid : 32 ≤ id)
    (h : r = .increment id ∨ r = .setCounter id x ∨ r = .setThreshold id x) :
    syncOp a s r = .refused (.badIdentifier id) := by
  have hnone : checkId 32 id = none := checkId_eq_none.2 hid
  obtain rfl | rfl | rfl := h <;> simp [syncOp, withSyncId, hnone]

/-- What each operation that writes a sync-point leaves in it, after the re-evaluation. -/
theorem performed_writes {a : AgentId} {s t : State} {r : SyncReq} (h : Performed a s r t) (i : Fin 32)
    (x : Word) :
    (r = .increment i → (t.sp i).counter = (s.sp i).counter + 1) ∧
    (r = .setCounter i x → (t.sp i).counter = x) ∧
    (r = .setThreshold i x → (t.sp i).threshold = x.setWidth 16) := by
  cases h with
  | increment j =>
    refine ⟨fun e => ?_, nofun, nofun⟩
    obtain rfl : j = i := Fin.ext (SyncReq.increment.inj e)
    rw [(syncFrame_reevaluate j _ _).counter, sp_setSp_self]
  | setCounter j v =>
    refine ⟨nofun, fun e => ?_, nofun⟩
    obtain ⟨hj, rfl⟩ := SyncReq.setCounter.inj e
    obtain rfl : j = i := Fin.ext hj
    rw [(syncFrame_reevaluate j _ _).counter, sp_setSp_self]
  | setThreshold j v =>
    refine ⟨nofun, nofun, fun e => ?_⟩
    obtain ⟨hj, rfl⟩ := SyncReq.setThreshold.inj e
    obtain rfl : j = i := Fin.ext hj
    rw [(syncFrame_reevaluate j _ _).threshold, sp_setSp_self]
  | _ => exact ⟨nofun, nofun, nofun⟩

/-- Settles O36: the module write is its handler's requests on the state it has left outside, and the first
of them is a wait, a push, a request that does not hold, or one without a meaning. -/
theorem handlerWaitGivesUpSection : Obligations.HandlerWaitGivesUpSection := by
  refine ⟨?_, fun a s t r qs h => ⟨runRequests_performed h qs, performed_writes h⟩, ?_⟩
  · intro s c off v m q qs ho hm hq u go
    have hw : modWrite c off v s = continueCall c (runRequests (.worker c) (q :: qs) u) := by
      rw [modWrite_some ho hm, hq]; rfl
    refine ⟨?wait, ?push, ?performed, ?badId⟩
    case wait =>
      rintro i j th r kind w now rfl
        (⟨rfl, rfl, rfl, rfl⟩ | ⟨rfl, rfl, rfl, rfl⟩ | ⟨rfl, rfl, rfl, rfl⟩)
      · exact hw.trans (continueCall_wait (syncOp_wait (.worker c) u i th) qs)
      · exact hw.trans (continueCall_wait (syncOp_waitBaseRelative (.worker c) u i j th) qs)
      · exact hw.trans (continueCall_wait (syncOp_waitNextIncrement (.worker c) u i) qs)
    case push =>
      rintro w rfl
      exact hw.trans (continueCall_push c w qs u)
    case performed =>
      rintro r t rfl hp
      rw [hw, runRequests_performed hp]
    case badId =>
      rintro r id x rfl hid hr
      rw [hw, runRequests_sync_refused (syncOp_badId hid hr)]
      rfl
  · rintro s c (hp | ⟨off, inc, hp⟩)
    · exact congrArg Host.Outcome.next (afterWrite_idle hp)
    · exact congrArg Host.Outcome.next (afterWrite_lastWord hp)

/-! ### What the host leaves of a channel's run (48_cdma.md R277 to R281) -/

/-- What every operation of the host but subsystem reset leaves alone of a channel: whether it runs and is
stopped, what it is doing, its class and its fault; and a pending start stays pending. -/
structure RunsKept (s t : State) : Prop where
  ch : ∀ c, t.ch c = { s.ch c with
    gather := (t.ch c).gather
    endPtr := (t.ch c).endPtr
    enabled := (t.ch c).enabled
    start := (t.ch c).start
    waiter := (t.ch c).waiter
    fifo := (t.ch c).fifo }
  start : ∀ c, (s.ch c).start = true → (t.ch c).start = true

theorem RunsKept.trans {s t u : State} (h : RunsKept s t) (g : RunsKept t u) : RunsKept s u :=
  ⟨fun c => (g.ch c).trans (by rw [h.ch c]), fun c e => g.start c (h.start c e)⟩

theorem RunsKept.running {s t : State} (h : RunsKept s t) (c : Chan) :
    (t.ch c).running = (s.ch c).running := by rw [h.ch c]

/-- An update of anything but the channels. -/
theorem RunsKept.of_chs {s t : State} (h : t.chs = s.chs) : RunsKept s t := by
  have hch : ∀ c, t.ch c = s.ch c := fun c => by rw [State.ch, h]; rfl
  exact ⟨fun c => by rw [hch c], fun c e => by rwa [hch c]⟩

theorem RunsKept.refl (s : State) : RunsKept s s := .of_chs rfl

/-- What touches the Waiter records of the channels only. -/
theorem RunsKept.of_waiters {s t : State}
    (h : ∀ c, t.ch c = { s.ch c with waiter := (t.ch c).waiter }) : RunsKept s t :=
  ⟨fun c => by rw [h c], fun c e => by rw [h c]; exact e⟩

/-- An update of one channel. -/
theorem runsKept_setCh {c : Chan} {x : Channel} {s : State}
    (hx : x = { s.ch c with
      gather := x.gather
      endPtr := x.endPtr
      enabled := x.enabled
      start := x.start
      waiter := x.waiter
      fifo := x.fifo })
    (hs : (s.ch c).start = true → x.start = true) : RunsKept s (s.setCh c x) := by
  refine ⟨fun d => ?_, fun d e => ?_⟩ <;> by_cases hd : d = c
  · subst hd; rw [ch_setCh_self]; exact hx
  · rw [ch_setCh_ne s c d x hd]
  · subst hd; rw [ch_setCh_self]; exact hs e
  · rw [ch_setCh_ne s c d x hd]; exact e

theorem runsKept_returns {a : AgentId} {r : Reply} {s t u : State} (hf : RunsKept s t)
    (h : returns a r t = .next u) : RunsKept s u := by
  rw [returns_next h]; exact hf.trans (.of_chs rfl)

theorem runsKept_returns_chs {a : AgentId} {r : Reply} {s t u : State} (h : returns a r t = .next u)
    (ht : t.chs = s.chs) : RunsKept s u :=
  runsKept_returns (.of_chs ht) h

theorem runsKept_finishJob {n : Nat} {r : Reply} {s t u : State} (hf : RunsKept s t)
    (h : finishJob n r t = .next u) : RunsKept s u := by
  rw [finishJob_next h]; exact hf.trans (.of_chs rfl)

theorem runsKept_fifoPush (c : Chan) (v : Word) (s : State) : RunsKept s (fifoPush c v s) :=
  runsKept_setCh rfl id

theorem runsKept_fifoPop (c : Chan) (s : State) : RunsKept s (fifoPop c s) := runsKept_setCh rfl id

theorem runsKept_cdmaRun (c : Chan) (s : State) : RunsKept s (cdmaRun c s) := by
  unfold cdmaRun
  split
  · exact runsKept_setCh rfl fun _ => rfl
  · exact .refl s

theorem runsKept_cdmaSetBase (c : Chan) (v : Word) (s : State) : RunsKept s (cdmaSetBase c v s) := by
  refine RunsKept.trans ?_ (runsKept_cdmaRun c _)
  exact runsKept_setCh rfl id

theorem runsKept_cdmaSetPut (c : Chan) (v : Word) (s : State) : RunsKept s (cdmaSetPut c v s) := by
  refine RunsKept.trans ?_ (runsKept_cdmaRun c _)
  exact runsKept_setCh rfl id

theorem runsKept_cdmaSetEnd (c : Chan) (v : Word) (s : State) : RunsKept s (cdmaSetEnd c v s) :=
  runsKept_setCh rfl id

theorem runsKept_controlResetGet (c : Chan) (rg fp : Bool) (s : State) :
    RunsKept s (controlResetGet c rg fp s) := by
  unfold controlResetGet
  split
  · exact runsKept_setCh rfl id
  · exact .refl s

theorem runsKept_controlEnable (c : Chan) (rg fp : Bool) (s : State) :
    RunsKept s (controlEnable c rg fp s) := by
  refine RunsKept.trans ?_ (runsKept_cdmaRun c _)
  refine RunsKept.trans (runsKept_controlResetGet c rg fp s) ?_
  exact runsKept_setCh rfl id

theorem runsKept_controlStop (c : Chan) (s : State) : RunsKept s (controlStop c s) := by
  refine RunsKept.trans ?_ (.of_waiters (waitersOnly_unlockForced (.worker c) _).ch)
  exact runsKept_setCh rfl id

/-- An operation of the store that returns touches no channel but its Waiter record. -/
theorem runsKept_syncOp {a : AgentId} {s t : State} {r : SyncReq} {v : Reply}
    (h : syncOp a s r = .returned t v) : RunsKept s t := by
  have hother : ∀ c : Chan, c ≠ c + 1 := by decide
  exact .of_waiters fun c => (workerFrame_syncOp (c + 1) h).others c (hother c)

/-- An operation of the store that holds a host context touches no channel. -/
theorem runsKept_held {n : Nat} {s t : State} {r : SyncReq} (h : syncOp (.ctx n) s r = .held t) :
    RunsKept s t := by
  obtain ⟨i, k, v, b, rfl, -⟩ := syncOp_held h
  exact .of_chs rfl

theorem runsKept_answer (a : AgentId) (r : Reply) (s : State) : RunsKept s (answer a r s) := by
  unfold answer
  split <;> exact .of_chs rfl

theorem runsKept_continueHost {n : Nat} {reqs : List CoreReq} {s t : State}
    (h : continueHost n (runRequests (.ctx n) reqs s) = .next t) : RunsKept s t := by
  have hrun : ∀ {u}, (runRequests (.ctx n) reqs s).state = some u → RunsKept s u :=
    runRequests_rel RunsKept.refl RunsKept.trans
      (fun hr => (runsKept_syncOp hr).trans (runsKept_answer _ _ _)) runsKept_held nofun reqs
  obtain ⟨u, hu, rfl⟩ | ⟨qs, ph, u, hu, rfl⟩ := continueHost_next h
  all_goals
    have hk : RunsKept s u := hrun (by rw [hu]; rfl)
    exact hk.trans (.of_chs rfl)

theorem runsKept_hostResume {n : Nat} {s t : State} (h : hostResume n s = .next t) : RunsKept s t := by
  obtain rfl | ⟨qs, -, h⟩ | ⟨c, rg, fp, -, -, h⟩ | ⟨c, -, -, h⟩ | ⟨c, v, -, -, h⟩ := hostResume_cases h
  · exact .refl t
  · obtain ⟨-, rfl⟩ | ⟨-, h⟩ := hostWaitStep_cases h
    · exact .refl t
    · exact RunsKept.trans (t := s.setCtx n _) (.of_chs rfl) (runsKept_continueHost h)
  · exact runsKept_finishJob (runsKept_controlResetGet c rg fp s) h
  · exact runsKept_finishJob (runsKept_fifoPop c s) h
  · exact runsKept_finishJob (runsKept_fifoPush c v s) h

theorem runsKept_hostControl {n : Nat} {c : Chan} {st rg fp : Bool} {s t : State}
    (h : hostControl n c st rg fp s = .next t) : RunsKept s t := by
  unfold hostControl at h
  split_ifs at h
  · cases h
    exact (runsKept_controlStop c s).trans (.of_chs rfl)
  · exact runsKept_returns (runsKept_controlEnable c rg fp s) h

/-- The frame of every operation the host issues but subsystem reset. -/
theorem runsKept_hostOp {n : Nat} {op : HostOp} {s t : State} (hop : op ≠ .subsystemReset)
    (h : hostOp n op s = .next t) : RunsKept s t := by
  cases op with
  | init c =>
    obtain ⟨c, -, h⟩ := withId_next h
    unfold hostInit at h
    split_ifs at h with hreset
    rw [← hreset, setCh_ch] at h
    exact runsKept_returns (.refl s) h
  | setBase c v =>
    obtain ⟨c, -, h⟩ := withId_next h
    exact runsKept_returns (runsKept_cdmaSetBase c v s) h
  | setPut c v =>
    obtain ⟨c, -, h⟩ := withId_next h
    exact runsKept_returns (runsKept_cdmaSetPut c v s) h
  | setEnd c v =>
    obtain ⟨c, -, h⟩ := withId_next h
    exact runsKept_returns (runsKept_cdmaSetEnd c v s) h
  | control c st rg fp =>
    obtain ⟨c, -, h⟩ := withId_next h
    exact runsKept_hostControl h
  | sync r =>
    simp only [hostOp, hostSync] at h
    split at h
    · rename_i hr; exact runsKept_returns (runsKept_syncOp hr) h
    · rename_i hr; cases h; exact (runsKept_held hr).trans (.of_chs rfl)
    · cases h
  | unlockWaiter c =>
    obtain ⟨c, -, h⟩ := withId_next h
    unfold hostUnlockWaiter at h
    split_ifs at h
    exact runsKept_returns (.of_waiters (waitersOnly_wake (.worker c) s).ch) h
  | unlockWaiterForced c =>
    obtain ⟨c, -, h⟩ := withId_next h
    unfold hostUnlockForced at h
    split_ifs at h
    exact runsKept_returns (.of_waiters (waitersOnly_unlockForced (.worker c) s).ch) h
  | cpuTryAcquire k =>
    obtain ⟨k, -, h⟩ := withId_next h
    refine runsKept_returns ?_ h
    unfold cpuTryAcquire
    split <;> exact .of_chs rfl
  | cpuRelease k | cpuGetRaw k =>
    obtain ⟨k, -, h⟩ := withId_next h
    exact runsKept_returns_chs h rfl
  | wakeAllChannelWaiters | lookup k => exact runsKept_returns_chs h rfl
  | register m =>
    simp only [hostOp, hostRegister] at h
    split_ifs at h
    exact runsKept_returns_chs h rfl
  | dispatchWrite k off v =>
    simp only [hostOp, hostDispatchWrite] at h
    split at h
    · cases h
    · split at h
      · exact runsKept_returns_chs h rfl
      · exact RunsKept.trans (t := moduleWritten (.ctx n) _ off v s) (.of_chs rfl) (runsKept_continueHost h)
  | dispatchRead k off =>
    simp only [hostOp, hostDispatchRead] at h
    split at h
    · cases h
    · exact runsKept_returns_chs h rfl
  | push c v =>
    obtain ⟨c, -, h⟩ := withId_next h
    unfold hostPush at h
    split_ifs at h
    · cases h; exact .of_chs rfl
    · exact runsKept_returns (runsKept_fifoPush c v s) h
  | pop c =>
    obtain ⟨c, -, h⟩ := withId_next h
    unfold hostPop at h
    split_ifs at h
    · cases h; exact .of_chs rfl
    · exact runsKept_returns (runsKept_fifoPop c s) h
  | popNonempty c =>
    obtain ⟨c, -, h⟩ := withId_next h
    unfold hostPopNonempty at h
    split_ifs at h
    exact runsKept_returns (runsKept_fifoPop c s) h
  | irqSetDest p m | irqGetDest p | irqGetStatus p =>
    obtain ⟨p, -, h⟩ := withId_next h
    exact runsKept_returns_chs h rfl
  | irqClearStatus p m =>
    obtain ⟨p, -, h⟩ := withId_next h
    refine runsKept_returns (.of_waiters fun c => ?_) h
    exact (routerOnly_updateLines (s.setPending p (s.pending p &&& ~~~m))).sync.ch c
  | subsystemReset => exact absurd rfl hop

/-! ### START (48_cdma.md R282) -/

/-- Worker `c` is parked with its start pending. -/
def StartPending (c : Chan) (s : State) : Prop := (s.ch c).running = false ∧ (s.ch c).start = true

/-- A parked worker with its start pending takes START. -/
theorem workerStep_pending {c : Chan} {s : State} (h : StartPending c s) :
    workerStep c s = .next (startRun c s) := by
  simp [workerStep, h.1, h.2]

/-- A parked worker without a start has no step. -/
theorem workerStep_parked {c : Chan} {s : State} (hr : (s.ch c).running = false)
    (hs : (s.ch c).start = false) : workerStep c s = .next s := by
  simp [workerStep, hr, hs]

theorem startRun_running (c : Chan) (s : State) : ((startRun c s).ch c).running = true := by
  simp [startRun]

/-- A pending start is taken when its worker is scheduled. -/
theorem running_of_startTaken {c : Chan} {s t : State} (hp : StartPending c s)
    (h : perform (.worker c) s = .next t) : (t.ch c).running = true := by
  have ht : startRun c s = t := Host.Outcome.next.inj ((workerStep_pending hp).symm.trans h)
  rw [← ht, startRun_running]

/-- A worker whose start is pending has an enabled step. -/
theorem enabled_of_pending {c : Chan} {s : State} (h : StartPending c s) : Enabled (.worker c) s := by
  intro hstep
  have hrun : (s.ch c).running = true := running_of_startTaken h hstep
  rw [h.1] at hrun
  cases hrun

/-- Only the worker itself and subsystem reset end a pending start. -/
theorem startPending_perform {c : Chan} {e : Event} {s t : State} (hp : StartPending c s)
    (hw : e ≠ .worker c) (hreset : ∀ n, e ≠ .host n .subsystemReset) (h : perform e s = .next t) :
    StartPending c t := by
  have of_kept (hk : RunsKept s t) : StartPending c t := ⟨(hk.running c).trans hp.1, hk.start c hp.2⟩
  cases e with
  | worker d =>
    have hc := (workerStep_frame h).others c fun hcd => hw (hcd ▸ rfl)
    rw [StartPending, hc]
    exact hp
  | host n op =>
    exact of_kept (runsKept_hostOp (fun hop => hreset n (hop ▸ rfl)) (hostIssue_next h).2)
  | resume n => exact of_kept (runsKept_hostResume h)
  | store addr bytes => cases h; exact hp

/-- In an infinite run a start stays pending for as long as, while it is, neither its worker is scheduled nor
the block reset. -/
theorem startPending_run {σ : Nat → State} {e : Nat → Event} {n : Nat} {c : Chan}
    (hrun : InfiniteRun σ e) (hp : StartPending c (σ n))
    (hquiet : ∀ m, n ≤ m → StartPending c (σ m) → e m ≠ .worker c ∧ ∀ h, e m ≠ .host h .subsystemReset) :
    ∀ m, n ≤ m → StartPending c (σ m) := by
  intro m hm
  induction m, hm using Nat.le_induction with
  | base => exact hp
  | succ m hm ih =>
    obtain ⟨hworker, hreset⟩ := hquiet m hm ih
    exact startPending_perform ih hworker hreset (hrun m)

/-- Settles O10: were the worker never to take START, its start would stay pending, so its step would stay
enabled and fairness would schedule it. -/
theorem workerStartsOnSignal : Obligations.WorkerStartsOnSignal := by
  refine ⟨fun s c rest hs hr => ?_, fun σ e n c hrun hfair hr hstart => ?_⟩
  · rw [step_worker hs]
    cases hstart : (s.ch c).start with
    | true => exact workerStep_pending (s := s.setAgenda rest) ⟨hr, hstart⟩
    | false => exact workerStep_parked (s := s.setAgenda rest) hr hstart
  · by_contra hnever
    have hquiet : ∀ m, n ≤ m → StartPending c (σ m) →
        e m ≠ .worker c ∧ ∀ h, e m ≠ .host h .subsystemReset := by
      refine fun m hm hp => ⟨fun hw => ?_, fun h hh => hnever ⟨m, hm, .inr ⟨h, hh⟩⟩⟩
      have htaken := running_of_startTaken hp (hw ▸ hrun m)
      exact hnever ⟨m, hm, .inl ⟨hw, hp.1, htaken⟩⟩
    have hpending := startPending_run hrun ⟨hr, hstart⟩ hquiet
    obtain ⟨m, hm, hw⟩ := hfair (.worker c) n fun m hm => enabled_of_pending (hpending m hm)
    exact (hquiet m hm (hpending m hm)).1 hw

end Sys2Proof.Machine
end

section
/-! PROOFS. What a worker does to its own channel in a step of an instruction, but for the module write the step may
end in (43_interpreter_loop.md R201, R205; 44 to 47): the waiter mechanism stays as it is. -/

namespace Sys2Proof.Machine

/-! ### What the operations of a worker leave of its own channel -/

@[simp] theorem ch_release (c d : Chan) (s : State) : (release c s).ch d = s.ch d := by
  rw [release_eq, ch_setOwner]

@[simp] theorem ch_setPos (c : Chan) (p : Pos) (s : State) :
    (setPos c p s).ch c = { s.ch c with pos := p } := ch_setCh_self ..

@[simp] theorem ch_setInner (c : Chan) (y : Option Inner) (s : State) :
    (setInner c y s).ch c = { s.ch c with inner := y } := ch_setCh_self ..

@[simp] theorem ch_setCall (c : Chan) (k : Option Call) (s : State) :
    (setCall c k s).ch c = { s.ch c with call := k } := ch_setCh_self ..

@[simp] theorem ch_complete (c : Chan) (s : State) :
    (complete c s).ch c = { s.ch c with pos := .idle } := by
  rw [complete_eq, instrDone, ch_setOwner, ch_setCh_self]

@[simp] theorem ch_raiseFault (c : Chan) (k : Cause) (v : Word) (s : State) :
    (raiseFault c k v s).ch c = { s.ch c with
      fault := some ⟨k, v⟩
      inner := none
      pos := .idle
      call := none
      running := false
      stopped := true } := by
  rw [raiseFault_eq, faultTaken, ch_setOwner, ch_setCh_self]

@[simp] theorem ch_finishRun (c : Chan) (s : State) :
    (finishRun c s).ch c = { s.ch c with running := false, stopped := true } := by
  rw [finishRun_eq, runFinished, ch_setOwner, ch_setCh_self]

@[simp] theorem ch_relocate (c : Chan) (p : Ptr) (s : State) :
    (relocate c p s).ch c = { s.ch c with gather := { (s.ch c).gather with get := p } } :=
  ch_setCh_self ..

@[simp] theorem ch_fifoPush (c : Chan) (v : Word) (s : State) :
    (fifoPush c v s).ch c = { s.ch c with fifo := (s.ch c).fifo.push v } := ch_setCh_self ..

/-! ### What a worker's own step leaves of the waiter mechanism -/

/-- The worker's hold in a wait is a matter of its handler call only. -/
theorem inWait_worker_congr {c : Chan} {s t : State} (h : (t.ch c).call = (s.ch c).call) :
    t.inWait (.worker c) = s.inWait (.worker c) := by
  simp only [State.inWait, h]

theorem inWait_ctx_congr {n : Nat} {s t : State} (h : (t.ctx n).job = (s.ctx n).job) :
    t.inWait (.ctx n) = s.inWait (.ctx n) := by
  simp only [State.inWait, h]

theorem inWait_of_noCall {c : Chan} {s : State} (h : (s.ch c).call = none) :
    s.inWait (.worker c) = false := by
  simp only [State.inWait, h]

/-- What worker `c` does by itself, with no operation of the store: the sync-points, the IRQ registers, the
registry and the host contexts stay, as does every other channel; its own keeps its enable bit and its Waiter
record, and the worker is held in a wait if it was. -/
structure OwnStep (c : Chan) (s t : State) : Prop where
  rest : t = { s with
    chs := t.chs, mls := t.mls, owner := t.owner, active := t.active
    diag := t.diag, out := t.out, fresh := t.fresh }
  others : ∀ d, d ≠ c → t.ch d = s.ch d
  enabled : (t.ch c).enabled = (s.ch c).enabled
  waiter : (t.ch c).waiter = (s.ch c).waiter
  inWait : t.inWait (.worker c) = s.inWait (.worker c)

theorem OwnStep.refl (c : Chan) (s : State) : OwnStep c s s := ⟨rfl, fun _ _ => rfl, rfl, rfl, rfl⟩

theorem OwnStep.trans {c : Chan} {s t u : State} (h : OwnStep c s t) (g : OwnStep c t u) : OwnStep c s u :=
  ⟨g.rest.trans (by rw [h.rest]), fun d hd => (g.others d hd).trans (h.others d hd),
    g.enabled.trans h.enabled, g.waiter.trans h.waiter, g.inWait.trans h.inWait⟩

theorem ExecFrame.own {c : Chan} {s t : State} (h : ExecFrame c s t)
    (he : (t.ch c).enabled = (s.ch c).enabled) (hw : (t.ch c).waiter = (s.ch c).waiter)
    (hk : (t.ch c).call = (s.ch c).call) : OwnStep c s t :=
  ⟨by rw [h.rest], h.others, he, hw, inWait_worker_congr hk⟩

theorem ownStep_setPos (c : Chan) (p : Pos) (s : State) : OwnStep c s (setPos c p s) :=
  (onlyChannel_setPos c p s).exec.own (by simp) (by simp) (by simp)

theorem ownStep_setInner (c : Chan) (y : Option Inner) (s : State) : OwnStep c s (setInner c y s) :=
  (onlyChannel_setInner c y s).exec.own (by simp) (by simp) (by simp)

theorem ownStep_complete (c : Chan) (s : State) : OwnStep c s (complete c s) :=
  (onlyChannel_complete c s).exec.own (by simp) (by simp) (by simp)

theorem ownStep_release (c : Chan) (s : State) : OwnStep c s (release c s) :=
  (onlyChannel_release c s).exec.own (by simp) (by simp) (by simp)

theorem ownStep_fifoPush (c : Chan) (v : Word) (s : State) : OwnStep c s (fifoPush c v s) :=
  (writeFrame_fifoPush c v s).exec.own (by simp) (by simp) (by simp)

theorem ownStep_finishRun (c : Chan) (s : State) : OwnStep c s (finishRun c s) :=
  (onlyChannel_finishRun c s).exec.own (by simp) (by simp) (by simp)

theorem ownStep_advance (c : Chan) (r : Reader) (s : State) :
    OwnStep c s (s.setCh c ((s.ch c).advance r)) :=
  (onlyChannel_setCh c _ s).exec.own (by simp) (by simp) (by simp)

/-- An update outside the channels. -/
theorem ownStep_of_chs (c : Chan) {s t : State} (h : t = { s with
    mls := t.mls, owner := t.owner, active := t.active, diag := t.diag, out := t.out, fresh := t.fresh }) :
    OwnStep c s t := by
  have hch : ∀ d, t.ch d = s.ch d := fun d => by rw [h]; rfl
  exact ⟨by rw [h], fun d _ => hch d, by rw [hch], by rw [hch], inWait_worker_congr (by rw [hch])⟩

/-- The handler call of a worker changes, and no wait begins or ends. -/
theorem ownStep_setCall {c : Chan} {k : Option Call} {s : State}
    (h : (setCall c k s).inWait (.worker c) = s.inWait (.worker c)) : OwnStep c s (setCall c k s) := by
  have hf := (onlyChannel_setCall c k s).exec
  exact ⟨by rw [hf.rest], hf.others, by simp, by simp, h⟩

/-- A fault ends the handler call of a worker that is not held in a wait (60_exceptions.md R303). -/
theorem ownStep_raiseFault {c : Chan} {s : State} (h : s.inWait (.worker c) = false) (k : Cause) (v : Word) :
    OwnStep c s (raiseFault c k v s) := by
  have hf := (onlyChannel_raiseFault c k v s).exec
  exact ⟨by rw [hf.rest], hf.others, by simp, by simp, by rw [inWait_of_noCall (by simp), h]⟩

theorem ownStep_stopGather (c : Chan) (s : State) : OwnStep c s (stopGather c s) := by
  unfold stopGather
  split
  · exact (ownStep_setInner c none s).trans (ownStep_release c _)
  · exact ownStep_finishRun c s

theorem ownStep_afterWrite (c : Chan) (s : State) : OwnStep c s (afterWrite c s) := by
  unfold afterWrite
  cases (s.ch c).pos with
  | burst off left inc =>
    simp only
    split_ifs
    · exact ownStep_complete c s
    · exact ownStep_setPos c _ s
  | mask off bits i =>
    simp only
    cases nextBit bits (i + 1) with
    | none => exact ownStep_complete c s
    | some _ => exact ownStep_setPos c _ s
  | insertBurst =>
    simp only
    split
    · split_ifs
      · exact (ownStep_setInner c none s).trans (ownStep_complete c _)
      · exact ownStep_setInner c _ s
    · exact ownStep_complete c s
  | _ => exact ownStep_complete c s

theorem ownStep_startBurst (c : Chan) (o : BitVec 12) (n : BitVec 16) (b : Bool) (s : State) :
    OwnStep c s (startBurst c o n b s) := by
  unfold startBurst
  split
  · exact ownStep_complete c s
  · exact ownStep_setPos c _ s

theorem ownStep_startMask (c : Chan) (o : BitVec 12) (bits : BitVec 16) (s : State) :
    OwnStep c s (startMask c o bits s) := by
  unfold startMask
  split
  · exact ownStep_complete c s
  · exact ownStep_setPos c _ s

theorem ownStep_selectClass (c : Chan) (k : BitVec 10) (s : State) : OwnStep c s (selectClass c k s) :=
  (onlyChannel_setCh c _ s).exec.own (by simp) (by simp) (by simp)

theorem ownStep_gatherHead {c : Chan} {s : State} (h : s.inWait (.worker c) = false) (i : Instr)
    (o : BitVec 12) (b : Bool) (n : BitVec 1) (k : BitVec 14) : OwnStep c s (gatherHead c i o b n k s) := by
  unfold gatherHead
  split
  · exact ownStep_raiseFault h _ _
  · exact ownStep_setPos c _ s

theorem ownStep_enterGather (c : Chan) (o : BitVec 12) (ins inc : Bool) (n : BitVec 14) (b : Word)
    (s : State) : OwnStep c s (enterGather c o ins inc n b s) := by
  unfold enterGather
  split_ifs
  · exact ownStep_complete c s
  · exact (ownStep_setInner c _ s).trans (ownStep_setPos c _ _)
  · exact ((ownStep_setInner c _ s).trans (ownStep_setPos c _ _)).trans (ownStep_release c _)

theorem ownStep_restart (c : Chan) (p : Ptr) (s : State) :
    OwnStep c s (complete c (dropInline c (relocate c p s))) := by
  have hrelocate : OwnStep c s (relocate c p s) :=
    (onlyChannel_setCh c _ s).exec.own (by simp) (by simp) (by simp)
  refine (hrelocate.trans ?_).trans (ownStep_complete c _)
  unfold dropInline
  split
  · exact ownStep_setInner c none _
  · exact .refl c _

theorem ownStep_instrDone_setMl (c : Chan) (k : Fin 16) (x : Mlock) (s : State) :
    OwnStep c s (instrDone c (s.setMl k x)) := by
  rw [← complete_eq]
  exact (ownStep_of_chs c rfl).trans (ownStep_complete c _)

theorem ownStep_acquireStep (c : Chan) (k : Fin 16) (s : State) : OwnStep c s (acquireStep c k s) := by
  rw [acquireStep_eq, ← complete_eq]
  split_ifs
  · exact ownStep_complete c s
  · exact .refl c s
  · exact ownStep_instrDone_setMl c k _ s

theorem ownStep_releaseStep (c : Chan) (k : Fin 16) (s : State) : OwnStep c s (releaseStep c k s) := by
  rw [releaseStep_eq, ← complete_eq]
  split_ifs
  · exact ownStep_complete c s
  · exact .refl c s
  · exact ownStep_instrDone_setMl c k _ s

theorem ownStep_countForeign (c : Chan) (k : Fin 16) (s : State) : OwnStep c s (countForeign c k s) := by
  unfold countForeign
  split
  · exact ownStep_of_chs c rfl
  · exact .refl c s

/-! ### The steps of an instruction, but for its module write -/

/-- What worker `c` does in a step inside or between instructions: all by itself, or up to one module write,
the last thing it does. -/
def OwnUpToWrite (c : Chan) (s t : State) : Prop :=
  OwnStep c s t ∨ ∃ u off v, OwnStep c s u ∧ modWrite c off v u = .next t

theorem OwnUpToWrite.after {c : Chan} {s t u : State} (h : OwnStep c s t) (g : OwnUpToWrite c t u) :
    OwnUpToWrite c s u := by
  obtain g | ⟨w, off, v, g, hw⟩ := g
  · exact .inl (h.trans g)
  · exact .inr ⟨w, off, v, h.trans g, hw⟩

theorem ownUpToWrite_modWrite {c : Chan} {off v : Word} {s t : State} (h : modWrite c off v s = .next t) :
    OwnUpToWrite c s t := .inr ⟨s, off, v, .refl c s, h⟩

/-- The head of an instruction: IMM alone writes a module. -/
theorem ownUpToWrite_exec {i : Instr} {s t : State} (hq : s.inWait (.worker s.active) = false)
    (h : exec i s = .next t) : OwnUpToWrite s.active s t := by
  cases i with
  | imm o v => exact ownUpToWrite_modWrite h
  | setclass o k b =>
    cases h; exact .inl ((ownStep_selectClass s.active k s).trans (ownStep_startMask s.active _ _ _))
  | incr o n | nonincr o n => cases h; exact .inl (ownStep_startBurst s.active _ _ _ s)
  | mask o n => cases h; exact .inl (ownStep_startMask s.active _ _ s)
  | restart o => cases h; exact .inl (ownStep_restart s.active _ s)
  | gatherInline o n k | gatherInsert o n k => cases h; exact .inl (ownStep_gatherHead hq _ _ _ _ _)
  | acquireMlock v =>
    cases h; exact .inl ((ownStep_setPos s.active _ s).trans (ownStep_acquireStep s.active _ _))
  | releaseMlock v =>
    cases h
    exact .inl (((ownStep_setPos s.active _ s).trans (ownStep_countForeign s.active _ _)).trans
      (ownStep_releaseStep s.active _ _))
  | chdone v => cases h; exact .inl (ownStep_complete s.active s)
  | _ => cases h; exact .inl (ownStep_raiseFault hq _ _)

/-- A DATA step, given what it does on a stop and with its word. -/
theorem ownUpToWrite_dataStep {c : Chan} {r : Reader} {onStop s t : State} {use : Word → State → Res}
    (hq : s.inWait (.worker c) = false) (hstop : OwnStep c s onStop)
    (huse : ∀ w u v, use w u = .next v → OwnUpToWrite c u v)
    (h : dataStep c r onStop use s = .next t) : OwnUpToWrite c s t := by
  obtain ⟨-, rfl⟩ | ⟨-, rfl⟩ | ⟨w, -, -, hu⟩ := dataStep_next h
  · exact .inl (ownStep_raiseFault hq _ _)
  · exact .inl hstop
  · exact .after (ownStep_advance c r s) (huse _ _ _ hu)

theorem ownUpToWrite_dataMask {c : Chan} {off : Word} {bits : BitVec 16} {i : Nat} {s t : State}
    (hq : s.inWait (.worker c) = false) (h : dataMask c off bits i s = .next t) : OwnUpToWrite c s t := by
  unfold dataMask at h
  split at h
  · cases h; exact .inl (ownStep_complete c s)
  · exact ownUpToWrite_dataStep hq (ownStep_complete c s)
      (fun _ _ _ e => .after (ownStep_setPos c _ _) (ownUpToWrite_modWrite e)) h

theorem ownUpToWrite_dataInsert {c : Chan} {s t : State} (hq : s.inWait (.worker c) = false)
    (h : dataInsert c s = .next t) : OwnUpToWrite c s t := by
  unfold dataInsert at h
  split at h
  · exact ownUpToWrite_dataStep hq ((ownStep_setInner c none s).trans (ownStep_complete c _))
      (fun _ _ _ e => ownUpToWrite_modWrite e) h
  · cases h; exact .inl (ownStep_complete c s)

/-- A BOUNDARY step that runs the head of what it fetched. -/
theorem ownUpToWrite_fetched {c : Chan} {i : Instr} {s t : State} (hq : s.inWait (.worker c) = false)
    (h : exec i ((takeSection c s).setCh c ((s.ch c).advance (s.ch c).reader)) = .next t) :
    OwnUpToWrite c s t := by
  let fetched := (takeSection c s).setCh c ((s.ch c).advance (s.ch c).reader)
  have htaken : OwnStep c s (takeSection c s) := ownStep_of_chs c rfl
  have hfetched : OwnStep c s fetched := htaken.trans (ownStep_advance c _ (takeSection c s))
  exact .after hfetched (ownUpToWrite_exec (s := fetched) (hfetched.inWait.trans hq) h)

theorem ownUpToWrite_instrStep {c : Chan} {s t : State} (hq : s.inWait (.worker c) = false)
    (h : instrStep c s = .next t) : OwnUpToWrite c s t := by
  obtain ⟨-, h⟩ | ⟨_, _, _, -, h⟩ | ⟨_, _, _, -, h⟩ | ⟨_, _, _, _, -, h⟩ | ⟨-, h⟩ | ⟨k, -, rfl⟩ |
    ⟨k, -, rfl⟩ := instrStep_cases h
  · obtain ⟨-, rfl⟩ | ⟨-, rfl⟩ | ⟨-, -, rfl⟩ | ⟨w, -, -, -, h⟩ := h
    · exact .inl (ownStep_raiseFault hq _ _)
    · exact .inl (ownStep_stopGather c s)
    · exact .inl (.refl c t)
    · exact ownUpToWrite_fetched hq h
  · exact ownUpToWrite_dataStep hq (ownStep_complete c s) (fun _ _ _ e => ownUpToWrite_modWrite e) h
  · exact ownUpToWrite_dataMask hq h
  · exact ownUpToWrite_dataStep hq (ownStep_complete c s)
      (fun _ _ _ e => by cases e; exact .inl (ownStep_enterGather c _ _ _ _ _ _)) h
  · exact ownUpToWrite_dataInsert hq h
  · exact .inl (ownStep_acquireStep c k s)
  · exact .inl (ownStep_releaseStep c k s)

end Sys2Proof.Machine
end

section
/-! PROOFS. The requests of a handler under an invariant (42_fifo_registry.md R189), the moves of which every event
is made, and the moves of a worker (43_interpreter_loop.md, 40_syncpt.md R130). -/

namespace Sys2Proof.Machine

/-! ### The requests of a handler, under an invariant -/

/-- Where the requests of agent `a` leave a state predicate that each of them keeps: it holds when they have
all returned, on a push that holds, and just before the wait that holds. -/
def Ran.Keeps (a : AgentId) (I : State → Prop) : Ran → Prop
  | .returned t => I t
  | .held _ .inWait t => ∃ u r, I u ∧ syncOp a u r = .held t
  | .held _ .inPush t => I t ∧ ∃ c, a = .worker c
  | .held _ .reacquire _ => False
  | .refused _ => True

theorem runRequests_keeps {a : AgentId} {I : State → Prop}
    (ret : ∀ {s t r v}, I s → syncOp a s r = .returned t v → I (answer a v t))
    (push : ∀ {c s} (v : Word), a = .worker c → I s → I (fifoPush c v s)) :
    ∀ (reqs : List CoreReq) {s : State}, I s → (runRequests a reqs s).Keeps a I
  | [], _, h => h
  | .sync r :: rest, s, h => by
    simp only [runRequests]
    split
    · rename_i hr; exact runRequests_keeps ret push rest (ret h hr)
    · rename_i hr; exact ⟨s, r, h, hr⟩
    · trivial
  | .push v :: rest, s, h => by
    simp only [runRequests]
    split
    · rename_i c
      split
      · exact ⟨h, c, rfl⟩
      · exact runRequests_keeps ret push rest (push v rfl h)
    · trivial

/-- What a worker's module write leaves, given what it leaves when its handler's requests have returned and
in each of the two holds a request can bring. -/
theorem continueCall_of_keeps {c : Chan} {I : State → Prop} {P : State → Prop} {r : Ran} {t : State}
    (hr : r.Keeps (.worker c) I) (h : continueCall c r = .next t)
    (done : ∀ u, I u → P (afterWrite c u))
    (wait : ∀ u q w qs, I u → syncOp (.worker c) u q = .held w → P (setCall c (some ⟨qs, .inWait⟩) w))
    (push : ∀ u qs, I u → P (setCall c (some ⟨qs, .inPush⟩) u)) : P t := by
  obtain ⟨u, rfl, rfl⟩ | ⟨qs, ph, u, rfl, rfl⟩ := continueCall_next h
  · exact done u hr
  · cases ph with
    | inWait => obtain ⟨w, q, hw, hq⟩ := hr; exact wait w q u qs hw hq
    | reacquire => exact hr.elim
    | inPush => exact push u qs hr.1

/-! ### The moves of the machine -/

/-- Agent `a` stands in the hold of a wait, the requests `qs` of its handler still to be performed. -/
def holdIn (a : AgentId) (qs : List CoreReq) (s : State) : State :=
  match a with
  | .worker c => setCall c (some ⟨qs, .inWait⟩) s
  | .ctx n => setJob n (.inWait qs) s

/-- What the host programs of a channel: its pointers, its enable bit, its FIFO, its Waiter record, and its
start, which is raised on a channel neither running nor faulted only (48_cdma.md R277 to R281). -/
structure Programmed (x y : Channel) : Prop where
  rest : y = { x with
    gather := { y.gather with inlined := x.gather.inlined }
    endPtr := y.endPtr
    enabled := y.enabled
    start := y.start
    waiter := y.waiter
    fifo := y.fifo }
  start : y.start = true → x.start = true ∨ (x.running = false ∧ x.fault = none)

/-- What one agent's part of an event does, move by move; the start of a run is not one of them. -/
inductive Moves : AgentId → State → State → Prop
  | trans {a s t u} (h : Moves a s t) (g : Moves a t u) : Moves a s u
  /-- The mutex table, the IRQ routing, the counters, the memory and the model's own fields. -/
  | outside {a s t} (h : t = { s with
      mls := t.mls, irq := { s.irq with dest := t.irq.dest }, diag := t.diag, mem := t.mem
      agenda := t.agenda, out := t.out, fresh := t.fresh }) : Moves a s t
  | own {c s t} (h : OwnStep c s t) : Moves (.worker c) s t
  | performed {a s t r v} (h : syncOp a s r = .returned t v) : Moves a s t
  | hold {a s t r} (qs) (hq : s.inWait a = false) (h : syncOp a s r = .held t) : Moves a s (holdIn a qs t)
  /-- A worker that has been woken leaves the hold of its wait (40_syncpt.md R130 step C). -/
  | woken {c s} (k) (hw : s.inWait (.worker c) = true) (hs : (s.ch c).waiter.signalled = true)
      (hk : (setCall c k s).inWait (.worker c) = false) :
      Moves (.worker c) s
        (s.setCh c { s.ch c with waiter := { (s.ch c).waiter with signalled := false }, call := k })
  /-- A host context that has been woken leaves the hold of its wait. -/
  | wokenCtx {n s} (hw : s.inWait (.ctx n) = true) (hs : (s.ctx n).waiter.signalled = true) :
      Moves (.ctx n) s (s.setCtx n ⟨{ (s.ctx n).waiter with signalled := false }, .idle⟩)
  /-- A channel is programmed; it is enabled only with no stop pending on it (48_cdma.md R281). -/
  | program {n s c x} (h : Programmed (s.ch c) x) (hw : x.waiter = (s.ch c).waiter)
      (he : x.enabled = true → (s.ch c).enabled = true ∨ controlPending c s = false) :
      Moves (.ctx n) s (s.setCh c x)
  | unlock {n s c} (h : (s.ch c).waiter.place ≠ none) : Moves (.ctx n) s (wake (.worker c) s)
  | unlockForced {n s} (c) : Moves (.ctx n) s (unlockForced (.worker c) s)
  /-- A host context begins or ends an operation that is no wait. -/
  | job {n s} (j) (hq : s.inWait (.ctx n) = false) (hw : (setJob n j s).inWait (.ctx n) = false)
      (hc : ∀ c rg fp, j = .inControl c rg fp → (s.ch c).enabled = false) : Moves (.ctx n) s (setJob n j s)
  | clear {n s} (p m) : Moves (.ctx n) s (irqClearStatus p m s)
  | register {n s m} (h : lookupModule m.classId s = none) : Moves (.ctx n) s (registerModule m s)
  | reset {n s} (h : anyHostHeld s = false) : Moves (.ctx n) s (subsystemReset s)

theorem Moves.refl (a : AgentId) (s : State) : Moves a s s := .outside rfl

theorem moves_emit (a : AgentId) (o : Output) (s : State) : Moves a s (s.emit o) := .outside rfl

theorem moves_answer (a : AgentId) (r : Reply) (s : State) : Moves a s (answer a r s) := by
  unfold answer
  split <;> exact .outside rfl

/-! ### An agent out of any wait -/

/-- Agent `a` has come from `s` and is in no wait. -/
def CameTo (a : AgentId) (s t : State) : Prop := Moves a s t ∧ t.inWait a = false

/-- Waking, latching and the line update neither begin nor end a wait. -/
theorem SyncFrame.inWait {s t : State} (h : SyncFrame s t) (a : AgentId) : t.inWait a = s.inWait a := by
  cases a with
  | worker c => exact inWait_worker_congr (by rw [h.ch c])
  | ctx n => exact inWait_ctx_congr (h.job n)

theorem inWait_answer (a b : AgentId) (r : Reply) (s : State) :
    (answer b r s).inWait a = s.inWait a := by
  have hemit (o : Output) : (s.emit o).inWait a = s.inWait a := by cases a <;> rfl
  cases r with
  | done => rfl
  | _ => exact hemit _

/-- An operation of the store that returns neither begins nor ends a wait. -/
theorem inWait_syncOp {a b : AgentId} {s t : State} {r : SyncReq} {v : Reply}
    (h : syncOp a s r = .returned t v) : t.inWait b = s.inWait b := by
  have hsp (i : Fin 32) (x : SyncPoint) : (s.setSp i x).inWait b = s.inWait b := by cases b <;> rfl
  obtain h | ⟨i, h⟩ | ⟨i, w, h⟩ | ⟨i, w, h⟩ | ⟨j, w, h⟩ := syncOp_returned h
  · rw [h]
  · rw [h, syncIncrement, (syncFrame_reevaluate i _ _).inWait, hsp]
  · rw [h, syncSetCounter, (syncFrame_reevaluate i _ _).inWait, hsp]
  · rw [h, syncSetThreshold, (syncFrame_reevaluate i _ _).inWait, hsp]
  · rw [h]; cases b <;> rfl

/-- The requests of a handler, whose agent is in no wait when they begin. -/
theorem runRequests_cameTo {a : AgentId} {s : State} (hq : s.inWait a = false) (reqs : List CoreReq) :
    (runRequests a reqs s).Keeps a (CameTo a s) := by
  refine runRequests_keeps (fun h hr => ?_) (fun v ha h => ?_) reqs ⟨.refl a s, hq⟩
  · refine ⟨(h.1.trans (.performed hr)).trans (moves_answer a _ _), ?_⟩
    rw [inWait_answer, inWait_syncOp hr, h.2]
  · rename_i c u
    subst ha
    have hpush := ownStep_fifoPush c v u
    exact ⟨h.1.trans (.own hpush), hpush.inWait.trans h.2⟩

/-! ### The moves of a worker -/

theorem moves_continueCall {c : Chan} {reqs : List CoreReq} {s t : State}
    (hq : s.inWait (.worker c) = false) (h : continueCall c (runRequests (.worker c) reqs s) = .next t) :
    Moves (.worker c) s t := by
  refine continueCall_of_keeps (runRequests_cameTo hq reqs) h (fun u hu => ?_)
    (fun u q w qs hu hw => ?_) (fun u qs hu => ?_)
  · exact hu.1.trans (.own (ownStep_afterWrite c u))
  · exact hu.1.trans (.hold qs hu.2 hw)
  · refine hu.1.trans (.own (ownStep_setCall ?_))
    rw [hu.2]
    simp [State.inWait]

theorem moves_modWrite {c : Chan} {off v : Word} {s t : State} (hq : s.inWait (.worker c) = false)
    (h : modWrite c off v s = .next t) : Moves (.worker c) s t := by
  obtain ⟨-, ⟨-, rfl⟩ | ⟨m, -, h⟩⟩ := modWrite_next h
  · exact Moves.trans (t := dropWrite (.worker c) off v s) (.outside rfl) (.own (ownStep_afterWrite c _))
  · exact Moves.trans (t := moduleWritten (.worker c) m off v s) (.outside rfl) (moves_continueCall hq h)

theorem OwnUpToWrite.moves {c : Chan} {s t : State} (hq : s.inWait (.worker c) = false)
    (h : OwnUpToWrite c s t) : Moves (.worker c) s t := by
  obtain h | ⟨u, off, v, h, hw⟩ := h
  · exact .own h
  · exact .trans (.own h) (moves_modWrite (h.inWait.trans hq) hw)

/-- A worker's handler goes on: first whatever ended its hold, which leaves it in no call. -/
theorem moves_resumeCall {c : Chan} {reqs : List CoreReq} {s u t : State}
    (hm : Moves (.worker c) s (setCall c none u)) (h : resumeCall c reqs u = .next t) :
    Moves (.worker c) s t :=
  hm.trans (moves_continueCall (inWait_of_noCall (by simp)) h)

/-- A worker past its wait takes the section back, or waits for it (40_syncpt.md R130 step C). -/
theorem moves_reacquire {c : Chan} {reqs : List CoreReq} {s u t : State}
    (hm : ∀ k, (setCall c k u).inWait (.worker c) = false → Moves (.worker c) s (setCall c k u))
    (h : reacquire c reqs u = .next t) : Moves (.worker c) s t := by
  obtain ⟨-, h⟩ | ⟨-, rfl⟩ := reacquire_next h
  · refine moves_resumeCall ?_ h
    have hnone : Moves (.worker c) s (setCall c none u) := hm none (by simp [State.inWait])
    exact hnone.trans (.own (ownStep_of_chs c (t := setCall c none (u.setOwner (some c))) rfl))
  · exact hm _ (by simp [State.inWait])

theorem moves_callStep {c : Chan} {k : Call} {s t : State} (hk : (s.ch c).call = some k)
    (h : callStep c k s = .next t) : Moves (.worker c) s t := by
  have leave {k' : Option Call} (hq : s.inWait (.worker c) = false)
      (hk' : (setCall c k' s).inWait (.worker c) = false) : Moves (.worker c) s (setCall c k' s) :=
    .own (ownStep_setCall (hk'.trans hq.symm))
  obtain ⟨reqs, ph⟩ := k
  obtain ⟨rfl, hs, h⟩ | ⟨-, -, rfl⟩ | ⟨rfl, h⟩ | ⟨rfl, h⟩ := callStep_cases h
  · refine moves_reacquire (fun k' hk' => ?_) h
    simp only [setCall, ch_setCh_self, setCh_setCh] at hk' ⊢
    refine .woken k' (by simp [State.inWait, hk]) hs ?_
    rw [← hk']
    exact inWait_worker_congr (by simp)
  · exact .refl _ t
  · exact moves_reacquire (fun k' => leave (by simp [State.inWait, hk])) h
  · exact moves_resumeCall (leave (by simp [State.inWait, hk]) (by simp [State.inWait])) h

/-- Every step of a worker is START or moves. -/
theorem workerStep_moves {c : Chan} {s t : State} (h : workerStep c s = .next t) :
    ((s.ch c).running = false ∧ t = startRun c s) ∨ Moves (.worker c) s t := by
  obtain ⟨-, -, rfl⟩ | ⟨hr, -, rfl⟩ | ⟨k, -, hk, h⟩ | ⟨-, hk, h⟩ := workerStep_cases h
  · exact .inr (.refl _ t)
  · exact .inl ⟨hr, rfl⟩
  · exact .inr (moves_callStep hk h)
  · have hq := inWait_of_noCall hk
    exact .inr ((ownUpToWrite_instrStep hq h).moves hq)

end Sys2Proof.Machine
end

section
/-! PROOFS. The moves of a host context (00_scope.md R12) and of every event, and with them the IRQ lines. -/

namespace Sys2Proof.Machine

/-! ### The moves of a host context -/

theorem inWait_of_job {n : Nat} {s : State} (h : ∀ qs, (s.ctx n).job ≠ .inWait qs) :
    s.inWait (.ctx n) = false := by
  cases hj : (s.ctx n).job with
  | inWait qs => exact absurd hj (h qs)
  | _ => simp only [State.inWait, hj]

@[simp] theorem ctx_setJob (n : Nat) (j : HostJob) (s : State) :
    (setJob n j s).ctx n = { s.ctx n with job := j } := ctx_setCtx_self ..

theorem moves_returns {a b : AgentId} {r : Reply} {s t u : State} (hm : Moves b s t)
    (h : returns a r t = .next u) : Moves b s u := by
  rw [returns_next h]; exact hm.trans (moves_emit _ _ t)

/-- A host context begins or ends an operation that is neither a wait nor a `control`. -/
theorem moves_job {n : Nat} {j : HostJob} {s : State} (hq : s.inWait (.ctx n) = false)
    (hw : ∀ qs, j ≠ .inWait qs) (hc : ∀ c rg fp, j ≠ .inControl c rg fp) :
    Moves (.ctx n) s (setJob n j s) :=
  .job j hq (inWait_of_job (by simpa using hw)) fun c rg fp e => absurd e (hc c rg fp)

/-- A host context whose hold has ended returns. -/
theorem moves_finishJob {n : Nat} {r : Reply} {s t u : State} (hq : s.inWait (.ctx n) = false)
    (hm : Moves (.ctx n) s t) (ht : t.hosts = s.hosts) (h : finishJob n r t = .next u) :
    Moves (.ctx n) s u := by
  have hidle : t.inWait (.ctx n) = false := by
    rw [inWait_ctx_congr (s := s) (by rw [State.ctx, ht]; rfl), hq]
  exact moves_returns (hm.trans (moves_job (j := .idle) hidle nofun nofun)) h

/-- A channel is programmed, its enable bit and its Waiter record apart. -/
theorem moves_program {n : Nat} {c : Chan} {x : Channel} {s : State} (h : Programmed (s.ch c) x)
    (he : x.enabled = (s.ch c).enabled) (hw : x.waiter = (s.ch c).waiter) :
    Moves (.ctx n) s (s.setCh c x) :=
  .program h hw fun hx => .inl (he ▸ hx)

theorem moves_fifoPush (n : Nat) (c : Chan) (v : Word) (s : State) : Moves (.ctx n) s (fifoPush c v s) :=
  moves_program ⟨rfl, .inl⟩ rfl rfl

theorem moves_fifoPop (n : Nat) (c : Chan) (s : State) : Moves (.ctx n) s (fifoPop c s) :=
  moves_program ⟨rfl, .inl⟩ rfl rfl

/-- `run(c)` raises the start of a channel neither running nor faulted (48_cdma.md R280). -/
theorem moves_cdmaRun (n : Nat) (c : Chan) (s : State) : Moves (.ctx n) s (cdmaRun c s) := by
  unfold cdmaRun
  split
  · rename_i h
    simp only [Channel.runnable, Bool.and_eq_true, Bool.not_eq_true', Option.isNone_iff_eq_none] at h
    obtain ⟨⟨⟨-, hrunning⟩, -⟩, hfault⟩ := h
    exact moves_program ⟨rfl, fun _ => .inr ⟨hrunning, hfault⟩⟩ rfl rfl
  · exact .refl _ s

theorem moves_cdmaSetBase (n : Nat) (c : Chan) (v : Word) (s : State) :
    Moves (.ctx n) s (cdmaSetBase c v s) := by
  refine Moves.trans ?_ (moves_cdmaRun n c _)
  exact moves_program ⟨rfl, .inl⟩ rfl rfl

theorem moves_cdmaSetPut (n : Nat) (c : Chan) (v : Word) (s : State) :
    Moves (.ctx n) s (cdmaSetPut c v s) := by
  refine Moves.trans ?_ (moves_cdmaRun n c _)
  exact moves_program ⟨rfl, .inl⟩ rfl rfl

theorem moves_controlResetGet (n : Nat) (c : Chan) (rg fp : Bool) (s : State) :
    Moves (.ctx n) s (controlResetGet c rg fp s) := by
  unfold controlResetGet
  split
  · exact moves_program ⟨rfl, .inl⟩ rfl rfl
  · exact .refl _ s

/-- A stop is pending on a channel or is not, whatever is done to one channel. -/
theorem controlPending_onlyChannel {c d : Chan} {s t : State} (h : OnlyChannel d s t) :
    controlPending c t = controlPending c s := by
  rw [controlPending, h.hosts]; rfl

theorem moves_controlEnable {n : Nat} {c : Chan} {s : State} (hp : controlPending c s = false)
    (rg fp : Bool) : Moves (.ctx n) s (controlEnable c rg fp s) := by
  refine Moves.trans ?_ (moves_cdmaRun n c _)
  refine (moves_controlResetGet n c rg fp s).trans ?_
  refine .program ⟨rfl, .inl⟩ rfl fun _ => .inr ?_
  rw [controlPending_onlyChannel (onlyChannel_controlResetGet c rg fp s), hp]

theorem moves_controlStop (n : Nat) (c : Chan) (s : State) : Moves (.ctx n) s (controlStop c s) :=
  Moves.trans (t := s.setCh c { s.ch c with enabled := false })
    (.program ⟨rfl, .inl⟩ rfl nofun) (.unlockForced c)

/-- Step 1 of `control` with `stop` leaves the channel disabled (48_cdma.md R281). -/
theorem controlStop_enabled (c : Chan) (s : State) : ((controlStop c s).ch c).enabled = false := by
  rw [controlStop, (waitersOnly_unlockForced (.worker c) _).ch c, wakeAllChannelWaiters, ch_setCh_self]

theorem controlStop_job (c : Chan) (n : Nat) (s : State) :
    ((controlStop c s).ctx n).job = (s.ctx n).job := by
  rw [controlStop, (waitersOnly_unlockForced (.worker c) _).job n]
  rfl

theorem moves_hostControl {n : Nat} {c : Chan} {st rg fp : Bool} {s t : State}
    (hj : (s.ctx n).job = .idle) (h : hostControl n c st rg fp s = .next t) : Moves (.ctx n) s t := by
  unfold hostControl at h
  split_ifs at h with hp
  · cases h
    refine (moves_controlStop n c s).trans (.job (.inControl c rg fp) (inWait_of_job ?_)
      (inWait_of_job (by simp)) ?_)
    · rw [controlStop_job, hj]; nofun
    · rintro d rg' fp' ⟨⟩
      exact controlStop_enabled c s
  · exact moves_returns (moves_controlEnable (Bool.eq_false_iff.2 hp) rg fp) h

theorem moves_hostSync {n : Nat} {r : SyncReq} {s t : State} (hq : s.inWait (.ctx n) = false)
    (h : hostSync n r s = .next t) : Moves (.ctx n) s t := by
  unfold hostSync at h
  split at h
  · rename_i hr; exact moves_returns (.performed hr) h
  · rename_i hr; cases h; exact .hold [] hq hr
  · cases h

theorem moves_continueHost {n : Nat} {reqs : List CoreReq} {s t : State} (hq : s.inWait (.ctx n) = false)
    (h : continueHost n (runRequests (.ctx n) reqs s) = .next t) : Moves (.ctx n) s t := by
  have hk := runRequests_cameTo hq reqs
  obtain ⟨u, hu, rfl⟩ | ⟨qs, ph, u, hu, rfl⟩ := continueHost_next h
  · rw [hu] at hk
    exact hk.1.trans (moves_emit _ _ u)
  · rw [hu] at hk
    cases ph with
    | inWait =>
      obtain ⟨w, r, hw, hr⟩ := hk
      exact hw.1.trans (.hold qs hw.2 hr)
    | reacquire => exact hk.elim
    | inPush =>
      obtain ⟨-, c, hc⟩ := hk
      cases hc

theorem moves_hostDispatchWrite {n : Nat} {k : BitVec 16} {off v : Word} {s t : State}
    (hq : s.inWait (.ctx n) = false) (h : hostDispatchWrite n k off v s = .next t) :
    Moves (.ctx n) s t := by
  unfold hostDispatchWrite at h
  split at h
  · cases h
  · split at h
    · exact moves_returns (t := dropWrite (.ctx n) off v s) (.outside rfl) h
    · rename_i m hm
      exact Moves.trans (t := moduleWritten (.ctx n) m off v s) (.outside rfl) (moves_continueHost hq h)

theorem moves_hostRegister {n : Nat} {m : Module} {s t : State} (h : hostRegister n m s = .next t) :
    Moves (.ctx n) s t := by
  unfold hostRegister at h
  split_ifs at h with hm
  exact moves_returns (.register (by simpa using hm)) h

/-- A scheduled host context moves. -/
theorem hostResume_moves {n : Nat} {s t : State} (h : hostResume n s = .next t) : Moves (.ctx n) s t := by
  have noWait {j : HostJob} (hj : (s.ctx n).job = j) (hw : ∀ qs, j ≠ .inWait qs) :
      s.inWait (.ctx n) = false := inWait_of_job (hj ▸ hw)
  obtain rfl | ⟨qs, hj, h⟩ | ⟨c, rg, fp, hj, -, h⟩ | ⟨c, hj, -, h⟩ | ⟨c, v, hj, -, h⟩ := hostResume_cases h
  · exact .refl _ t
  · obtain ⟨-, rfl⟩ | ⟨hs, h⟩ := hostWaitStep_cases h
    · exact .refl _ t
    · refine (Moves.wokenCtx ?_ hs).trans (moves_continueHost (inWait_of_job (by simp)) h)
      simp only [State.inWait, hj]
  · exact moves_finishJob (noWait hj nofun) (moves_controlResetGet n c rg fp s)
      (onlyChannel_controlResetGet c rg fp s).hosts h
  · exact moves_finishJob (noWait hj nofun) (moves_fifoPop n c s) rfl h
  · exact moves_finishJob (noWait hj nofun) (moves_fifoPush n c v s) rfl h

/-- A host context in no operation that issues one moves. -/
theorem hostOp_moves {n : Nat} {op : HostOp} {s t : State} (hj : (s.ctx n).job = .idle)
    (h : hostOp n op s = .next t) : Moves (.ctx n) s t := by
  have hq : s.inWait (.ctx n) = false := inWait_of_job (by rw [hj]; nofun)
  cases op with
  | init c =>
    obtain ⟨c, -, h⟩ := withId_next h
    unfold hostInit at h
    split_ifs at h with hreset
    rw [← hreset, setCh_ch] at h
    exact moves_returns (.refl _ s) h
  | setBase c v =>
    obtain ⟨c, -, h⟩ := withId_next h
    exact moves_returns (moves_cdmaSetBase n c v s) h
  | setPut c v =>
    obtain ⟨c, -, h⟩ := withId_next h
    exact moves_returns (moves_cdmaSetPut n c v s) h
  | setEnd c v =>
    obtain ⟨c, -, h⟩ := withId_next h
    exact moves_returns (t := cdmaSetEnd c v s) (moves_program ⟨rfl, .inl⟩ rfl rfl) h
  | control c st rg fp =>
    obtain ⟨c, -, h⟩ := withId_next h
    exact moves_hostControl hj h
  | sync r => exact moves_hostSync hq h
  | unlockWaiter c =>
    obtain ⟨c, -, h⟩ := withId_next h
    unfold hostUnlockWaiter at h
    split_ifs at h with hplace
    exact moves_returns (.unlock hplace) h
  | unlockWaiterForced c =>
    obtain ⟨c, -, h⟩ := withId_next h
    unfold hostUnlockForced at h
    split_ifs at h
    exact moves_returns (.unlockForced c) h
  | cpuTryAcquire k =>
    obtain ⟨k, -, h⟩ := withId_next h
    refine moves_returns ?_ h
    unfold cpuTryAcquire
    split <;> exact .outside rfl
  | cpuRelease k | cpuGetRaw k =>
    obtain ⟨k, -, h⟩ := withId_next h
    exact moves_returns (.outside rfl) h
  | wakeAllChannelWaiters | lookup k => exact moves_returns (.refl _ s) h
  | register m => exact moves_hostRegister h
  | dispatchWrite k off v => exact moves_hostDispatchWrite hq h
  | dispatchRead k off =>
    simp only [hostOp, hostDispatchRead] at h
    split at h
    · cases h
    · exact moves_returns (.outside rfl) h
  | push c v =>
    obtain ⟨c, -, h⟩ := withId_next h
    unfold hostPush at h
    split_ifs at h
    · cases h; exact moves_job hq nofun nofun
    · exact moves_returns (moves_fifoPush n c v s) h
  | pop c =>
    obtain ⟨c, -, h⟩ := withId_next h
    unfold hostPop at h
    split_ifs at h
    · cases h; exact moves_job hq nofun nofun
    · exact moves_returns (moves_fifoPop n c s) h
  | popNonempty c =>
    obtain ⟨c, -, h⟩ := withId_next h
    unfold hostPopNonempty at h
    split_ifs at h
    exact moves_returns (moves_fifoPop n c s) h
  | irqSetDest p m | irqGetDest p | irqGetStatus p =>
    obtain ⟨p, -, h⟩ := withId_next h
    exact moves_returns (.outside rfl) h
  | irqClearStatus p m =>
    obtain ⟨p, -, h⟩ := withId_next h
    exact moves_returns (.clear p m) h
  | subsystemReset =>
    simp only [hostOp, hostReset] at h
    split_ifs at h with hheld
    exact moves_returns (.reset (Bool.eq_false_iff.2 hheld)) h

/-! ### The moves of a step -/

/-- Every event is the START of a parked worker, or moves of one agent. -/
theorem perform_moves {e : Event} {s t : State} (h : perform e s = .next t) :
    (∃ c, (s.ch c).running = false ∧ t = startRun c s) ∨ ∃ a, Moves a s t := by
  cases e with
  | worker c =>
    obtain h | h := workerStep_moves h
    · exact .inl ⟨c, h⟩
    · exact .inr ⟨_, h⟩
  | host n op =>
    obtain ⟨hj, h⟩ := hostIssue_next h
    exact .inr ⟨_, hostOp_moves hj h⟩
  | resume n => exact .inr ⟨_, hostResume_moves h⟩
  | store addr bytes => cases h; exact .inr ⟨.ctx 0, .outside rfl⟩

/-- A state predicate that every move keeps, and START in this step's state, the step keeps. -/
theorem step_keeps_of_moves {P : State → Prop} {s t : State}
    (start : ∀ {c}, (s.ch c).running = false → P (nextEvent s).2 → P (startRun c (nextEvent s).2))
    (moves : ∀ {a u v}, Moves a u v → P u → P v) (hs : P s) (h : step s = .next t) : P t := by
  have hu : P (nextEvent s).2 :=
    moves (a := .ctx 0) (.outside (by rw [nextEvent_state])) hs
  obtain ⟨c, hr, rfl⟩ | ⟨a, hm⟩ := perform_moves h
  · exact start (by rwa [ch_nextEvent] at hr) hu
  · exact moves hm hu

/-! ### The IRQ lines (60_exceptions.md R316) -/

theorem linesFollowPending_congr {s t : State} (hp : t.irq.pending = s.irq.pending)
    (hl : t.irq.line = s.irq.line) (h : LinesFollowPending s) : LinesFollowPending t := by
  intro p
  have := h p
  simpa only [State.line, State.pending, hp, hl] using this

theorem linesFollowPending_of_irq {s t : State} (hi : t.irq = s.irq) (h : LinesFollowPending s) :
    LinesFollowPending t :=
  linesFollowPending_congr (congrArg _ hi) (congrArg _ hi) h

theorem WaitersOnly.irq {s t : State} (h : WaitersOnly s t) : t.irq = s.irq := by rw [h.rest]

/-- A re-evaluation latches and updates the lines; its wakes leave the router alone. -/
theorem linesFollowPending_reevaluate (i : Fin 32) (incremented : Bool) (s : State) :
    LinesFollowPending (reevaluate i incremented s) := by
  have hlatch : LinesFollowPending (irqLatch i s) := updateLines_follow _
  have wakes (test : State → AgentId → Bool) (l : List AgentId) {u : State} (h : LinesFollowPending u) :
      LinesFollowPending (wakeWhere test l u) :=
    linesFollowPending_of_irq (waitersOnly_wakeWhere test l u).irq h
  unfold reevaluate
  dsimp only
  split
  · exact wakes _ _ (wakes _ _ (wakes _ _ hlatch))
  · exact wakes _ _ (wakes _ _ hlatch)

theorem linesFollowPending_syncOp {a : AgentId} {s t : State} {r : SyncReq} {v : Reply}
    (h : syncOp a s r = .returned t v) (hs : LinesFollowPending s) : LinesFollowPending t := by
  obtain h | ⟨i, h⟩ | ⟨i, w, h⟩ | ⟨i, w, h⟩ | ⟨j, w, h⟩ := syncOp_returned h <;> rw [h]
  · exact hs
  · exact linesFollowPending_reevaluate _ _ _
  · exact linesFollowPending_reevaluate _ _ _
  · exact linesFollowPending_reevaluate _ _ _
  · exact hs

/-- Beginning a wait touches nothing of the block but the record, the list and the section. -/
theorem holdIn_enqueue_irq (a : AgentId) (qs : List CoreReq) (i : Fin 32) (k : WaitList) (v : Word)
    (b : Option (Fin 8)) (s : State) : (holdIn a qs (enqueue a i k v b s)).irq = s.irq := by
  cases a with
  | worker c => rw [enqueue_worker]; rfl
  | ctx n => rw [enqueue_ctx]; rfl

theorem linesFollowPending_reset : LinesFollowPending State.reset := by
  unfold LinesFollowPending; decide

theorem Moves.lines {a : AgentId} {s t : State} (h : Moves a s t) (hs : LinesFollowPending s) :
    LinesFollowPending t := by
  induction h with
  | trans _ _ ih₁ ih₂ => exact ih₂ (ih₁ hs)
  | outside h => exact linesFollowPending_congr (by rw [h]) (by rw [h]) hs
  | own h => exact linesFollowPending_of_irq (by rw [h.rest]) hs
  | performed h => exact linesFollowPending_syncOp h hs
  | hold qs _ h =>
    obtain ⟨i, k, v, b, rfl, -⟩ := syncOp_held h
    exact linesFollowPending_of_irq (holdIn_enqueue_irq ..) hs
  | unlock => exact linesFollowPending_of_irq (waitersOnly_wake _ _).irq hs
  | unlockForced => exact linesFollowPending_of_irq (waitersOnly_unlockForced _ _).irq hs
  | clear p m => exact updateLines_follow _
  | reset => exact linesFollowPending_of_irq (s := State.reset) rfl linesFollowPending_reset
  | woken | wokenCtx | program | job | register => exact hs

/-- Settles O57: START touches no IRQ register, and what writes a pending word updates the lines. -/
theorem stepKeepsLines : Obligations.StepKeepsLines :=
  fun _ _ => step_keeps_of_moves (fun _ hu => hu) Moves.lines

end Sys2Proof.Machine
end

section
/-! PROOFS. The waiter lists and records (10_state.md R28, R33, 40_syncpt.md R127 to R130) and the stops pending
(48_cdma.md R285), under every move. -/

namespace Sys2Proof.Machine

/-! ### What the waiter operations leave of the lists and the records -/

theorem list_setSp_setList (i j : Fin 32) (k m : WaitList) (l : List AgentId) (s : State) :
    ((s.setSp i ((s.sp i).setList k l)).sp j).list m =
      if j = i ∧ m = k then l else (s.sp j).list m := by
  by_cases hj : j = i
  · subst hj
    by_cases hm : m = k
    · subst hm; simp
    · simp [hm, list_setList_ne _ hm]
  · simp [hj]

theorem list_unlist (a : AgentId) (i j : Fin 32) (k m : WaitList) (s : State) :
    ((unlist a i k s).sp j).list m =
      if j = i ∧ m = k then ((s.sp i).list k).filter (· ≠ a) else (s.sp j).list m :=
  list_setSp_setList ..

theorem waiter_wake (a b : AgentId) (s : State) :
    (wake a s).waiter b =
      if b = a then { s.waiter a with place := none, signalled := true } else s.waiter b := by
  unfold wake
  dsimp only
  cases (s.waiter a).place <;> simp [waiter_setWaiter, unlist]

/-- A wake takes the agent out of the list its record names. -/
theorem list_wake (a : AgentId) (j : Fin 32) (m : WaitList) (s : State) :
    ((wake a s).sp j).list m =
      if (s.waiter a).place = some (j, m) then ((s.sp j).list m).filter (· ≠ a) else (s.sp j).list m := by
  unfold wake
  dsimp only
  rw [sp_setWaiter]
  cases hp : (s.waiter a).place with
  | none => simp
  | some p =>
    obtain ⟨i, k⟩ := p
    simp only [list_unlist, Option.some.injEq, Prod.mk.injEq]
    by_cases h : j = i ∧ m = k
    · obtain ⟨rfl, rfl⟩ := h; simp
    · rw [if_neg h, if_neg fun e => h ⟨e.1.symm, e.2.symm⟩]

theorem inWait_wake (a b : AgentId) (s : State) : (wake a s).inWait b = s.inWait b :=
  (waitersOnly_wake a s).sync.inWait b

/-- The record of an agent that begins a wait (40_syncpt.md R130 step A). -/
theorem waiter_hold (a b : AgentId) (qs : List CoreReq) (i : Fin 32) (k : WaitList) (v : Word)
    (j : Option (Fin 8)) (s : State) :
    (holdIn a qs (enqueue a i k v j s)).waiter b =
      if b = a then ⟨v, j, false, some (i, k)⟩ else s.waiter b := by
  cases a with
  | worker c =>
    cases b with
    | worker d => by_cases hd : d = c <;> simp [holdIn, enqueue_worker, setCall, hd]
    | ctx m => simp [holdIn, enqueue_worker, setCall]
  | ctx n =>
    cases b with
    | worker d => simp [holdIn, enqueue_ctx, setJob]
    | ctx m => by_cases hm : m = n <;> simp [holdIn, enqueue_ctx, setJob, hm]

theorem list_hold (a : AgentId) (qs : List CoreReq) (i j : Fin 32) (k m : WaitList) (v : Word)
    (b : Option (Fin 8)) (s : State) :
    ((holdIn a qs (enqueue a i k v b s)).sp j).list m =
      if j = i ∧ m = k then a :: (s.sp i).list k else (s.sp j).list m := by
  rw [← list_setSp_setList]
  cases a with
  | worker c => rw [enqueue_worker]; rfl
  | ctx n => rw [enqueue_ctx]; rfl

theorem inWait_hold (a b : AgentId) (qs : List CoreReq) (i : Fin 32) (k : WaitList) (v : Word)
    (j : Option (Fin 8)) (s : State) :
    (holdIn a qs (enqueue a i k v j s)).inWait b = if b = a then true else s.inWait b := by
  cases a with
  | worker c =>
    cases b with
    | worker d =>
      by_cases hd : d = c <;> simp [State.inWait, holdIn, enqueue_worker, setCall, hd]
    | ctx m => simp [State.inWait, holdIn, enqueue_worker, setCall]
  | ctx n =>
    cases b with
    | worker d => simp [State.inWait, holdIn, enqueue_ctx, setJob]
    | ctx m => by_cases hm : m = n <;> simp [State.inWait, holdIn, enqueue_ctx, setJob, hm]

/-! ### Coherence, operation by operation -/

theorem WaitersCoherent.congr {s t : State} (h : WaitersCoherent s)
    (hl : ∀ i k, (t.sp i).list k = (s.sp i).list k) (hw : ∀ a, t.waiter a = s.waiter a)
    (hq : ∀ a, t.inWait a = s.inWait a) : WaitersCoherent t := by
  constructor <;> simp only [hl, hw, hq]
  · exact h.listed_iff
  · exact h.nodup
  · exact h.held
  · exact h.signalled_iff
  · exact h.quiet
  · exact h.based

/-- An update outside the channels, the sync-points and the host contexts. -/
theorem WaitersCoherent.of_eq {s t : State} (h : WaitersCoherent s) (hc : t.chs = s.chs)
    (hp : t.sps = s.sps) (hh : t.hosts = s.hosts) : WaitersCoherent t := by
  refine h.congr (fun i k => by rw [State.sp, hp]; rfl) (fun a => ?_) (fun a => ?_)
  · cases a <;> simp only [State.waiter, State.ch, State.ctx, hc, hh]
  · cases a <;> simp only [State.inWait, State.ch, State.ctx, hc, hh]

theorem WaitersCoherent.router {s t : State} (h : WaitersCoherent s) (hr : RouterOnly s t) :
    WaitersCoherent t :=
  h.of_eq (by rw [hr.rest]) (by rw [hr.rest]) (by rw [hr.rest])

/-- An agent out of any wait has its record in no list. -/
theorem WaitersCoherent.place_eq_none {s : State} (h : WaitersCoherent s) {a : AgentId}
    (hq : s.inWait a = false) : (s.waiter a).place = none := by
  by_contra hp
  rw [h.held a hp] at hq
  cases hq

theorem WaitersCoherent.inWait_of_mem {s : State} (h : WaitersCoherent s) {a : AgentId} {i : Fin 32}
    {k : WaitList} (ha : a ∈ (s.sp i).list k) : s.inWait a = true :=
  h.held a (by rw [(h.listed_iff a i k).1 ha]; nofun)

/-- In a coherent state the woken agent leaves every list, and nobody else leaves one. -/
theorem WaitersCoherent.mem_list_wake {s : State} (h : WaitersCoherent s) (a b : AgentId) (i : Fin 32)
    (k : WaitList) : b ∈ ((wake a s).sp i).list k ↔ b ∈ (s.sp i).list k ∧ b ≠ a := by
  rw [list_wake]
  split
  · simp
  · rename_i hp
    refine ⟨fun hb => ⟨hb, ?_⟩, And.left⟩
    rintro rfl
    exact hp ((h.listed_iff b i k).1 hb)

/-- A wake keeps coherence if it is of an agent held in a wait (40_syncpt.md R127). -/
theorem WaitersCoherent.wake {s : State} (h : WaitersCoherent s) {a : AgentId} (ha : s.inWait a = true) :
    WaitersCoherent (wake a s) where
  listed_iff b i k := by
    rw [h.mem_list_wake, waiter_wake]
    split
    · simp [*]
    · simp [*, h.listed_iff]
  nodup i k := by
    rw [list_wake]
    split
    · exact (h.nodup i k).filter _
    · exact h.nodup i k
  held b := by
    rw [waiter_wake, inWait_wake]
    split
    · simp
    · exact h.held b
  signalled_iff b := by
    rw [waiter_wake, inWait_wake]
    split
    · simp
    · exact h.signalled_iff b
  quiet b := by
    rw [waiter_wake, inWait_wake]
    split
    · rename_i hb; rw [hb, ha]; nofun
    · exact h.quiet b
  based b i k := by
    rw [waiter_wake]
    split
    · simp
    · exact h.based b i k

theorem WaitersCoherent.wakeWhere {s : State} (h : WaitersCoherent s) (test : State → AgentId → Bool)
    {l : List AgentId} (hl : ∀ a ∈ l, s.inWait a = true) : WaitersCoherent (wakeWhere test l s) := by
  induction l generalizing s with
  | nil => exact h
  | cons a rest ih =>
    obtain ⟨ha, hrest⟩ := List.forall_mem_cons.1 hl
    unfold Machine.wakeWhere
    rw [List.foldl_cons]
    split
    · exact ih (h.wake ha) fun b hb => by rw [inWait_wake]; exact hrest b hb
    · exact ih h hrest

/-- A re-evaluation wakes agents of the sync-point's own lists (40_syncpt.md R127). -/
theorem WaitersCoherent.reevaluate {s : State} (h : WaitersCoherent s) (i : Fin 32) (incremented : Bool) :
    WaitersCoherent (reevaluate i incremented s) := by
  have wakes (test : State → AgentId → Bool) (k : WaitList) {u : State} (hu : WaitersCoherent u) :
      WaitersCoherent (Machine.wakeWhere test ((u.sp i).list k) u) :=
    hu.wakeWhere test fun _ ha => hu.inWait_of_mem ha
  have hlatched : WaitersCoherent (irqLatch i s) := h.router (routerOnly_irqLatch i s)
  have hjudged := wakes (satisfied i) .rel (wakes (satisfied i) .abs hlatched)
  unfold Machine.reevaluate
  dsimp only
  split
  · exact wakes (fun _ _ => true) .inc hjudged
  · exact hjudged

/-- A sync-point is written, its waiter lists apart. -/
theorem WaitersCoherent.setSp {s : State} (h : WaitersCoherent s) {i : Fin 32} {x : SyncPoint}
    (hx : ∀ k, x.list k = (s.sp i).list k) : WaitersCoherent (s.setSp i x) := by
  refine h.congr (fun j k => ?_) (fun a => by simp) (fun a => by cases a <;> rfl)
  by_cases hj : j = i
  · subst hj; simp [hx]
  · simp [hj]

theorem WaitersCoherent.syncOp {a : AgentId} {s t : State} {r : SyncReq} {v : Reply}
    (h : WaitersCoherent s) (ht : syncOp a s r = .returned t v) : WaitersCoherent t := by
  obtain ht | ⟨i, ht⟩ | ⟨i, w, ht⟩ | ⟨i, w, ht⟩ | ⟨j, w, ht⟩ := syncOp_returned ht <;> rw [ht]
  · exact h
  · exact (h.setSp fun k => by cases k <;> rfl).reevaluate i true
  · exact (h.setSp fun k => by cases k <;> rfl).reevaluate i false
  · exact (h.setSp fun k => by cases k <;> rfl).reevaluate i false
  · exact h.of_eq rfl rfl rfl

/-- An agent out of any wait begins one (40_syncpt.md R130 step A). -/
theorem WaitersCoherent.hold {s : State} (h : WaitersCoherent s) {a : AgentId}
    (hq : s.inWait a = false) (qs : List CoreReq) (i : Fin 32) (k : WaitList) (v : Word)
    {b : Option (Fin 8)} (hb : b.isSome = true ↔ k = .rel) :
    WaitersCoherent (holdIn a qs (enqueue a i k v b s)) where
  listed_iff c j m := by
    have hnone (j : Fin 32) (m : WaitList) : a ∉ (s.sp j).list m := fun ha => by
      rw [h.inWait_of_mem ha] at hq; cases hq
    rw [list_hold, waiter_hold]
    by_cases hc : c = a
    · subst hc
      by_cases hjm : j = i ∧ m = k
      · obtain ⟨rfl, rfl⟩ := hjm; simp
      · have hne : ¬(i = j ∧ k = m) := fun e => hjm ⟨e.1.symm, e.2.symm⟩
        simp [hjm, hne, hnone]
    · by_cases hjm : j = i ∧ m = k
      · obtain ⟨rfl, rfl⟩ := hjm; simp [hc, h.listed_iff]
      · simp [hjm, hc, h.listed_iff]
  nodup j m := by
    rw [list_hold]
    split
    · refine List.nodup_cons.2 ⟨fun ha => ?_, h.nodup i k⟩
      rw [h.inWait_of_mem ha] at hq; cases hq
    · exact h.nodup j m
  held c := by
    rw [waiter_hold, inWait_hold]
    split
    · simp
    · exact h.held c
  signalled_iff c := by
    rw [waiter_hold, inWait_hold]
    split
    · simp
    · exact h.signalled_iff c
  quiet c := by
    rw [waiter_hold, inWait_hold]
    split
    · simp
    · exact h.quiet c
  based c j m := by
    rw [waiter_hold]
    split
    · rintro hjm
      obtain ⟨rfl, rfl⟩ := Prod.mk.inj (Option.some.inj hjm)
      exact hb
    · exact h.based c j m

/-- An agent that has been woken leaves its wait (40_syncpt.md R130 step C). -/
theorem WaitersCoherent.leave {s t : State} (h : WaitersCoherent s) {a : AgentId}
    (ha : s.inWait a = true) (hs : (s.waiter a).signalled = true)
    (hl : ∀ i k, (t.sp i).list k = (s.sp i).list k)
    (hw : ∀ b, t.waiter b = if b = a then { s.waiter a with signalled := false } else s.waiter b)
    (hq : ∀ b, t.inWait b = if b = a then false else s.inWait b) : WaitersCoherent t := by
  have hplace : (s.waiter a).place = none := (h.signalled_iff a ha).1 hs
  have hsame (b : AgentId) : (t.waiter b).place = (s.waiter b).place ∧
      (t.waiter b).baseId = (s.waiter b).baseId := by
    rw [hw]
    split
    · rename_i hb; subst hb; exact ⟨rfl, rfl⟩
    · exact ⟨rfl, rfl⟩
  constructor
  case listed_iff => intro b i k; rw [hl, (hsame b).1]; exact h.listed_iff b i k
  case nodup => intro i k; rw [hl]; exact h.nodup i k
  case held =>
    intro b
    rw [(hsame b).1, hq]
    split
    · rename_i hb; rw [hb, hplace]; exact fun e => absurd rfl e
    · exact h.held b
  case signalled_iff =>
    intro b
    rw [hw, hq]
    split
    · nofun
    · exact h.signalled_iff b
  case quiet =>
    intro b
    rw [hw, hq]
    split
    · exact fun _ => rfl
    · exact h.quiet b
  case based => intro b i k; rw [(hsame b).1, (hsame b).2]; exact h.based b i k

/-- A forced unlock wakes an agent that is in a list, and nobody else (40_syncpt.md R136). -/
theorem WaitersCoherent.unlockForced {s : State} (h : WaitersCoherent s) (a : AgentId) :
    WaitersCoherent (unlockForced a s) := by
  unfold Machine.unlockForced
  split
  · rename_i hany
    obtain ⟨i, -, hi⟩ := List.any_eq_true.1 hany
    simp only [SyncPoint.holds, Bool.or_eq_true, List.contains_iff_mem] at hi
    obtain (ha | ha) | ha := hi
    · exact h.wake (h.inWait_of_mem (k := .abs) ha)
    · exact h.wake (h.inWait_of_mem (k := .rel) ha)
    · exact h.wake (h.inWait_of_mem (k := .inc) ha)
  · exact h

theorem WaitersCoherent.own {c : Chan} {s t : State} (h : WaitersCoherent s) (ho : OwnStep c s t) :
    WaitersCoherent t := by
  have hsp (i : Fin 32) : t.sp i = s.sp i := by rw [ho.rest]; rfl
  have hctx (n : Nat) : t.ctx n = s.ctx n := by rw [ho.rest]; rfl
  refine h.congr (fun i k => by rw [hsp]) (fun a => ?_) (fun a => ?_)
  · cases a with
    | worker d =>
      by_cases hd : d = c
      · subst hd; exact ho.waiter
      · exact congrArg Channel.waiter (ho.others d hd)
    | ctx n => exact congrArg HostCtx.waiter (hctx n)
  · cases a with
    | worker d =>
      by_cases hd : d = c
      · subst hd; exact ho.inWait
      · exact inWait_worker_congr (congrArg Channel.call (ho.others d hd))
    | ctx n => exact inWait_ctx_congr (congrArg HostCtx.job (hctx n))

theorem WaitersCoherent.program {s : State} (h : WaitersCoherent s) {c : Chan} {x : Channel}
    (hx : Programmed (s.ch c) x) (hw : x.waiter = (s.ch c).waiter) : WaitersCoherent (s.setCh c x) := by
  have hcall : x.call = (s.ch c).call := by rw [hx.rest]
  refine h.congr (fun _ _ => rfl) (fun a => ?_) (fun a => ?_)
  · cases a with
    | worker d => by_cases hd : d = c <;> simp [hd, hw]
    | ctx n => rfl
  · cases a with
    | worker d => exact inWait_worker_congr (by by_cases hd : d = c <;> simp [hd, hcall])
    | ctx n => rfl

theorem WaitersCoherent.job {s : State} (h : WaitersCoherent s) {n : Nat} {j : HostJob}
    (hq : s.inWait (.ctx n) = false) (hw : (setJob n j s).inWait (.ctx n) = false) :
    WaitersCoherent (setJob n j s) := by
  refine h.congr (fun _ _ => rfl) (fun a => ?_) (fun a => ?_)
  · cases a with
    | worker d => rfl
    | ctx m => by_cases hm : m = n <;> simp [setJob, hm]
  · cases a with
    | worker d => rfl
    | ctx m =>
      by_cases hm : m = n
      · rw [hm, hw, hq]
      · exact inWait_ctx_congr (by simp [setJob, hm])

theorem WaitersCoherent.woken {s : State} (h : WaitersCoherent s) {c : Chan} {k : Option Call}
    (hw : s.inWait (.worker c) = true) (hs : (s.ch c).waiter.signalled = true)
    (hk : (setCall c k s).inWait (.worker c) = false) :
    WaitersCoherent
      (s.setCh c { s.ch c with waiter := { (s.ch c).waiter with signalled := false }, call := k }) := by
  refine h.leave hw hs (fun _ _ => rfl) (fun b => ?_) (fun b => ?_)
  · cases b with
    | worker d => by_cases hd : d = c <;> simp [hd]
    | ctx n => simp
  · cases b with
    | worker d =>
      by_cases hd : d = c
      · rw [if_pos (congrArg _ hd), hd, ← hk]
        exact inWait_worker_congr (by simp)
      · rw [if_neg (by simpa using hd)]
        exact inWait_worker_congr (by simp [hd])
    | ctx n => simp [State.inWait]

theorem WaitersCoherent.wokenCtx {s : State} (h : WaitersCoherent s) {n : Nat}
    (hw : s.inWait (.ctx n) = true) (hs : (s.ctx n).waiter.signalled = true) :
    WaitersCoherent (s.setCtx n ⟨{ (s.ctx n).waiter with signalled := false }, .idle⟩) := by
  refine h.leave hw hs (fun _ _ => rfl) (fun b => ?_) (fun b => ?_)
  · cases b with
    | worker d => simp
    | ctx m => by_cases hm : m = n <;> simp [hm]
  · cases b with
    | worker d => simp [State.inWait]
    | ctx m => by_cases hm : m = n <;> simp [State.inWait, hm]

/-! ### Reset, and the list of the host contexts -/

theorem mem_of_sparseGet {α : Type} {k : Nat} {x : α} {l : List (Nat × α)} (h : sparseGet k l = some x) :
    (k, x) ∈ l := by
  induction l with
  | nil => cases h
  | cons e rest ih =>
    obtain ⟨j, y⟩ := e
    simp only [sparseGet] at h
    split at h
    · rename_i hj; cases h; exact hj ▸ List.mem_cons_self
    · exact List.mem_cons_of_mem _ (ih h)

/-- A host context is listed, or at rest. -/
theorem ctx_listed_or_rest (n : Nat) (s : State) : (n, s.ctx n) ∈ s.hosts ∨ s.ctx n = HostCtx.rest := by
  cases h : sparseGet n s.hosts with
  | none => exact .inr (by simp [State.ctx, h])
  | some x =>
    have hx : s.ctx n = x := by simp [State.ctx, h]
    exact .inl (hx ▸ mem_of_sparseGet h)

/-- With no host context held each is idle (70_reset_and_hazards.md R343). -/
theorem job_of_noneHeld {s : State} (h : anyHostHeld s = false) (n : Nat) : (s.ctx n).job = .idle := by
  obtain hn | hn := ctx_listed_or_rest n s
  · simpa using List.any_eq_false.1 h _ hn
  · rw [hn]; rfl

/-- A context in step 2 of a `control` on a channel is one that `controlPending` finds. -/
theorem controlPending_of_job {n : Nat} {c : Chan} {rg fp : Bool} {s : State}
    (h : (s.ctx n).job = .inControl c rg fp) : controlPending c s = true := by
  obtain hn | hn := ctx_listed_or_rest n s
  · exact List.any_eq_true.2 ⟨_, hn, by simp [h]⟩
  · rw [hn] at h; cases h

theorem reset_ch (c : Chan) : State.reset.ch c = Channel.reset := by
  simp [State.ch, State.reset]

theorem reset_sp (i : Fin 32) : State.reset.sp i = ⟨0, 0, [], [], []⟩ := by
  simp [State.sp, State.reset]

theorem subsystemReset_ch (c : Chan) (s : State) : (subsystemReset s).ch c = Channel.reset := reset_ch c

/-- Subsystem reset empties the lists and puts the workers' records to rest; the host contexts, none of them
held, are in no wait. -/
theorem WaitersCoherent.reset {s : State} (h : WaitersCoherent s) (hh : anyHostHeld s = false) :
    WaitersCoherent (subsystemReset s) := by
  have hlist (i : Fin 32) (k : WaitList) : ((subsystemReset s).sp i).list k = [] := by
    rw [show (subsystemReset s).sp i = _ from reset_sp i]; cases k <;> rfl
  have hfree (n : Nat) : s.inWait (.ctx n) = false := inWait_of_job (by rw [job_of_noneHeld hh n]; nofun)
  have hquiet (a : AgentId) : (subsystemReset s).inWait a = false := by
    cases a with
    | worker c => exact inWait_of_noCall (by rw [subsystemReset_ch]; rfl)
    | ctx n => exact hfree n
  have hrecord (a : AgentId) : ((subsystemReset s).waiter a).place = none ∧
      ((subsystemReset s).waiter a).signalled = false := by
    cases a with
    | worker c => rw [waiter_worker, subsystemReset_ch]; exact ⟨rfl, rfl⟩
    | ctx n => exact ⟨h.place_eq_none (hfree n), h.quiet _ (hfree n)⟩
  constructor <;> simp [hlist, hquiet, hrecord]

/-! ### Coherence, and the stops pending, under every move -/

theorem routerOnly_irqClearStatus (p : Fin 2) (m : Word) (s : State) :
    RouterOnly s (irqClearStatus p m s) :=
  RouterOnly.trans (t := s.setPending p (s.pending p &&& ~~~m)) ⟨rfl, rfl⟩ (routerOnly_updateLines _)

theorem Moves.coherent {a : AgentId} {s t : State} (h : Moves a s t) (hs : WaitersCoherent s) :
    WaitersCoherent t := by
  induction h with
  | trans _ _ ih₁ ih₂ => exact ih₂ (ih₁ hs)
  | outside h => exact hs.of_eq (by rw [h]) (by rw [h]) (by rw [h])
  | own h => exact hs.own h
  | performed h => exact hs.syncOp h
  | hold qs hq h =>
    obtain ⟨i, k, v, b, rfl, hb⟩ := syncOp_held h
    exact hs.hold hq qs i k v hb
  | woken k hw hsig hk => exact hs.woken hw hsig hk
  | wokenCtx hw hsig => exact hs.wokenCtx hw hsig
  | program h hw => exact hs.program h hw
  | unlock h => exact hs.wake (hs.held (.worker _) h)
  | unlockForced c => exact hs.unlockForced _
  | job j hq hw => exact hs.job hq hw
  | clear p m => exact hs.router (routerOnly_irqClearStatus p m _)
  | register => exact hs.of_eq rfl rfl rfl
  | reset h => exact hs.reset h

/-- No stop becomes pending and no channel is enabled. -/
theorem StopsPending.congr {s t : State} (h : StopsPending s)
    (hj : ∀ n c rg fp, (t.ctx n).job = .inControl c rg fp → (s.ctx n).job = .inControl c rg fp)
    (he : ∀ c, (t.ch c).enabled = (s.ch c).enabled) : StopsPending t :=
  fun n c rg fp e => (he c).trans (h n c rg fp (hj n c rg fp e))

theorem StopsPending.sync {s t : State} (h : StopsPending s) (hf : SyncFrame s t) : StopsPending t :=
  h.congr (fun n _ _ _ e => by rwa [hf.job] at e) (fun c => by rw [hf.ch c])

theorem StopsPending.of_eq {s t : State} (h : StopsPending s) (hc : t.chs = s.chs)
    (hh : t.hosts = s.hosts) : StopsPending t :=
  h.congr (fun n c rg fp e => by rwa [State.ctx, hh] at e) (fun c => by rw [State.ch, hc]; rfl)

/-- An operation of the store that returns touches no channel but its Waiter record. -/
theorem ch_syncOp {a : AgentId} {s t : State} {r : SyncReq} {v : Reply} (h : syncOp a s r = .returned t v)
    (c : Chan) : t.ch c = { s.ch c with waiter := (t.ch c).waiter } := by
  have hother : ∀ c : Chan, c ≠ c + 1 := by decide
  exact (workerFrame_syncOp (c + 1) h).others c (hother c)

theorem StopsPending.syncOp {a : AgentId} {s t : State} {r : SyncReq} {v : Reply} (h : StopsPending s)
    (ht : syncOp a s r = .returned t v) : StopsPending t :=
  h.congr (fun n _ _ _ e => by rwa [(workerFrame_syncOp 0 ht).job] at e) (fun c => by rw [ch_syncOp ht c])

/-- The job of one host context changes, to step 2 of a `control` only with the channel disabled. -/
theorem StopsPending.setCtx {s : State} (h : StopsPending s) {n : Nat} {x : HostCtx}
    (hx : ∀ c rg fp, x.job = .inControl c rg fp → (s.ch c).enabled = false) :
    StopsPending (s.setCtx n x) := by
  intro m c rg fp e
  rw [ctx_setCtx] at e
  split at e
  · exact hx c rg fp e
  · exact h m c rg fp e

theorem StopsPending.hold {s : State} (h : StopsPending s) (a : AgentId) (qs : List CoreReq)
    (i : Fin 32) (k : WaitList) (v : Word) (b : Option (Fin 8)) :
    StopsPending (holdIn a qs (enqueue a i k v b s)) := by
  cases a with
  | worker c =>
    refine h.congr (fun n _ _ _ e => ?_) (fun d => ?_)
    · simpa [holdIn, enqueue_worker, setCall] using e
    · by_cases hd : d = c <;> simp [holdIn, enqueue_worker, setCall, hd]
  | ctx n =>
    rw [enqueue_ctx]
    have henqueued : StopsPending (s.setCtx n { s.ctx n with waiter := ⟨v, b, false, some (i, k)⟩ }) :=
      h.setCtx fun c rg fp e => h n c rg fp e
    exact StopsPending.setCtx (henqueued.of_eq rfl rfl) nofun

/-- A channel on which a stop is pending is not enabled (48_cdma.md R281). -/
theorem StopsPending.program {s : State} (h : StopsPending s) {c : Chan} {x : Channel}
    (he : x.enabled = true → (s.ch c).enabled = true ∨ controlPending c s = false) :
    StopsPending (s.setCh c x) := by
  intro n d rg fp hj
  have hpending := controlPending_of_job hj
  rw [ch_setCh]
  split
  · rename_i hd
    subst hd
    have hdisabled := h n d rg fp hj
    by_contra hx
    obtain hx | hx := he (Bool.eq_true_of_not_eq_false hx)
    · rw [hdisabled] at hx; cases hx
    · cases hpending.symm.trans hx
  · exact h n d rg fp hj

theorem Moves.stops {a : AgentId} {s t : State} (h : Moves a s t) (hs : StopsPending s) :
    StopsPending t := by
  induction h with
  | trans _ _ ih₁ ih₂ => exact ih₂ (ih₁ hs)
  | outside h => exact hs.of_eq (by rw [h]) (by rw [h])
  | own h =>
    rename_i c _ _
    refine hs.congr (fun n _ _ _ e => ?_) (fun d => ?_)
    · rwa [h.rest] at e
    · by_cases hd : d = c
      · rw [hd, h.enabled]
      · rw [h.others d hd]
  | performed h => exact hs.syncOp h
  | hold qs _ h =>
    obtain ⟨i, k, v, b, rfl, -⟩ := syncOp_held h
    exact hs.hold _ qs i k v b
  | woken => exact hs.program .inl
  | wokenCtx => exact hs.setCtx nofun
  | program _ _ he => exact hs.program he
  | unlock => exact hs.sync (waitersOnly_wake _ _).sync
  | unlockForced c => exact hs.sync (waitersOnly_unlockForced _ _).sync
  | job j _ _ hc => exact hs.setCtx hc
  | clear p m => exact hs.sync (routerOnly_irqClearStatus p m _).sync
  | register => exact hs.of_eq rfl rfl
  | reset h => exact fun n c rg fp e => by rw [subsystemReset_ch]; rfl

theorem ownStep_startRun {c : Chan} {s : State} (h : (s.ch c).call = none) : OwnStep c s (startRun c s) :=
  (onlyChannel_startRun c s).exec.own (by simp [startRun]) (by simp [startRun]) (by simp [startRun, h])

/-- Every event keeps the list of the host contexts canonical. -/
theorem perform_hostsCanonical {e : Event} {s t : State} (h : perform e s = .next t)
    (hs : HostsCanonical s) : HostsCanonical t := by
  cases e with
  | store addr bytes => cases h; exact hs
  | _ => exact (perform_frame (by intro _ _ he; cases he) h).hosts hs

/-- Settles O59: every move keeps coherence and the pending stops, and START ends no handler call, as a parked
worker is in none. -/
theorem stepKeepsWaitersCoherent : Obligations.StepKeepsWaitersCoherent := by
  intro s t hlawful hhosts hwaiters hstops h
  have parked {c : Chan} (hr : (s.ch c).running = false) : ((nextEvent s).2.ch c).call = none := by
    obtain ⟨-, -, hcall⟩ := (hlawful c).rest hr
    rw [ch_nextEvent, hcall]
  have hhosts' : HostsCanonical (nextEvent s).2 := by rw [nextEvent_state]; exact hhosts
  refine ⟨perform_hostsCanonical h hhosts', ?_, ?_⟩
  · exact step_keeps_of_moves (fun hr hu => hu.own (ownStep_startRun (parked hr))) Moves.coherent hwaiters h
  · exact step_keeps_of_moves (fun hr hu => (Moves.own (ownStep_startRun (parked hr))).stops hu)
      Moves.stops hstops h

end Sys2Proof.Machine
end

section
/-! PROOFS. The laws of a channel's run (10_state.md R24, R27) and the global interpreter section
(43_interpreter_loop.md R206), under every step. -/

namespace Sys2Proof.Machine

/-! ### The invariant, channel by channel -/

/-- Channel `c` is lawful; if it owns the section it runs, and inside an instruction it owns the section. -/
structure RunLawful (c : Chan) (s : State) : Prop where
  lawful : (s.ch c).Lawful
  owner_runs : s.owner = some c → (s.ch c).running = true
  inside : (s.ch c).inInstruction = true → s.owner = some c

theorem forall_runLawful_iff {s : State} :
    (∀ c, RunLawful c s) ↔ ChannelsLawful s ∧ SectionExclusive s :=
  ⟨fun h => ⟨fun c => (h c).lawful, fun c => (h c).owner_runs, fun c => (h c).inside⟩,
    fun ⟨hl, hr, hi⟩ c => ⟨hl c, hr c, hi c⟩⟩

theorem inInstruction_of_noCall {x : Channel} (h : x.call = none) :
    x.inInstruction = (x.pos != .idle) := by
  simp [Channel.inInstruction, Channel.sectionGivenUp, h]

theorem inInstruction_congr {x y : Channel} (hp : y.pos = x.pos) (hc : y.call = x.call) :
    y.inInstruction = x.inInstruction := by
  simp only [Channel.inInstruction, Channel.sectionGivenUp, hp, hc]

/-! ### What the host programs -/

theorem Programmed.of_waiter {x y : Channel} (h : y = { x with waiter := y.waiter }) : Programmed x y :=
  ⟨by rw [h], fun hs => .inl (by rwa [h] at hs)⟩

theorem Channel.Lawful.programmed {x y : Channel} (h : x.Lawful) (hp : Programmed x y) : y.Lawful := by
  have hstopped : y.stopped = x.stopped := by rw [hp.rest]
  have hrunning : y.running = x.running := by rw [hp.rest]
  have hinner : y.inner = x.inner := by rw [hp.rest]
  have hfault : y.fault = x.fault := by rw [hp.rest]
  have hpos : y.pos = x.pos := by rw [hp.rest]
  have hcall : y.call = x.call := by rw [hp.rest]
  have hplain : y.gather.inlined = x.gather.inlined := by rw [hp.rest]
  have noStart (hx : x.start = false) (hraise : ¬(x.running = false ∧ x.fault = none)) :
      y.start = false := by
    by_contra hs
    obtain hs | hs := hp.start (Bool.eq_true_of_not_eq_false hs)
    · rw [hx] at hs; cases hs
    · exact hraise hs
  constructor
  case stopped_eq => rw [hstopped, hrunning]; exact h.stopped_eq
  case start_false =>
    intro hr
    rw [hrunning] at hr
    exact noStart (h.start_false hr) fun e => by rw [hr] at e; cases e.1
  case fault_dead =>
    intro hf
    rw [hfault] at hf
    obtain ⟨hr, hs⟩ := h.fault_dead hf
    exact ⟨hrunning.trans hr, noStart hs fun e => by rw [e.2] at hf; cases hf⟩
  case rest => rw [hrunning, hinner, hpos, hcall]; exact h.rest
  case outer_plain => rw [hplain]; exact h.outer_plain
  case inner_inlined => rw [hinner]; exact h.inner_inlined
  case insert_iff => rw [hpos, hinner]; exact h.insert_iff
  case base_outer => rw [hpos, hinner]; exact h.base_outer

theorem RunLawful.programmed {c : Chan} {s t : State} (h : RunLawful c s)
    (hp : Programmed (s.ch c) (t.ch c)) (ho : t.owner = some c ↔ s.owner = some c) : RunLawful c t := by
  have hrunning : (t.ch c).running = (s.ch c).running := by rw [hp.rest]
  have hinside : (t.ch c).inInstruction = (s.ch c).inInstruction :=
    inInstruction_congr (by rw [hp.rest]) (by rw [hp.rest])
  exact ⟨h.lawful.programmed hp, fun e => hrunning.trans (h.owner_runs (ho.1 e)),
    fun e => ho.2 (h.inside (hinside ▸ e))⟩

theorem RunLawful.of_eq {c : Chan} {s t : State} (h : RunLawful c s) (hc : t.chs = s.chs)
    (ho : t.owner = s.owner) : RunLawful c t :=
  h.programmed (.of_waiter (by rw [State.ch, hc]; rfl)) (by rw [ho])

theorem RunLawful.sync {c : Chan} {s t : State} (h : RunLawful c s) (hf : SyncFrame s t) :
    RunLawful c t :=
  h.programmed (.of_waiter (hf.ch c)) (by rw [hf.rest])

theorem owner_syncOp {a : AgentId} {s t : State} {r : SyncReq} {v : Reply}
    (h : syncOp a s r = .returned t v) : t.owner = s.owner := by
  have reevaluated (i : Fin 32) (b : Bool) (u : State) : (reevaluate i b u).owner = u.owner := by
    rw [(syncFrame_reevaluate i b u).rest]
  obtain h | ⟨i, h⟩ | ⟨i, w, h⟩ | ⟨i, w, h⟩ | ⟨j, w, h⟩ := syncOp_returned h <;> rw [h]
  · exact reevaluated ..
  · exact reevaluated ..
  · exact reevaluated ..
  · rfl

theorem channelLawful_reset : Channel.reset.Lawful := by
  constructor <;> simp [Channel.reset]

theorem runLawful_of_reset {c : Chan} {s : State} (hc : s.ch c = Channel.reset) (ho : s.owner = none) :
    RunLawful c s := by
  refine ⟨hc ▸ channelLawful_reset, fun e => ?_, fun e => ?_⟩
  · rw [ho] at e; cases e
  · rw [hc] at e; cases e

/-- No move of a host context breaks the laws of a channel's run. -/
theorem Moves.runLawful {n : Nat} {s t : State} (h : Moves (.ctx n) s t) (hs : ∀ c, RunLawful c s) :
    ∀ c, RunLawful c t := by
  generalize ha : AgentId.ctx n = a at h
  induction h with
  | trans _ _ ih₁ ih₂ => exact ih₂ (ih₁ hs ha) ha
  | outside h => exact fun c => (hs c).of_eq (by rw [h]) (by rw [h])
  | own | woken => cases ha
  | performed h => exact fun c => (hs c).programmed (.of_waiter (ch_syncOp h c)) (by rw [owner_syncOp h])
  | hold qs _ h =>
    obtain ⟨i, k, v, b, rfl, -⟩ := syncOp_held h
    subst ha
    exact fun c => (hs c).of_eq rfl rfl
  | program h =>
    rename_i c x _ _
    intro d
    refine (hs d).programmed ?_ Iff.rfl
    by_cases hd : d = c
    · subst hd; rwa [ch_setCh_self]
    · rw [ch_setCh_ne _ _ _ _ hd]; exact .of_waiter rfl
  | unlock => exact fun c => (hs c).sync (waitersOnly_wake _ _).sync
  | unlockForced => exact fun c => (hs c).sync (waitersOnly_unlockForced _ _).sync
  | clear p m => exact fun c => (hs c).sync (routerOnly_irqClearStatus p m _).sync
  | wokenCtx | job | register => exact fun c => (hs c).of_eq rfl rfl
  | reset => exact fun c => runLawful_of_reset (subsystemReset_ch c _) rfl

/-! ### A worker that holds the section -/

/-- An inner gather and a position that go together (10_state.md R24, 45_gather.md R243, R246). -/
structure InnerFits (i : Option Inner) (p : Pos) : Prop where
  inlined : ∀ y, i = some y → y.g.inlined = true
  insert_iff : p = .insertBurst ↔ ∃ y, i = some y ∧ y.isInsert = true
  base_outer : ∀ o ins inc n, p = .gatherBase o ins inc n → i = none

theorem Channel.Lawful.fits {x : Channel} (h : x.Lawful) : InnerFits x.inner x.pos :=
  ⟨h.inner_inlined, h.insert_iff, h.base_outer⟩

/-- Outside the burst of an inserted gather the position is free, but that a base word needs the outer
gather. -/
theorem InnerFits.setPos {i : Option Inner} {p q : Pos} (h : InnerFits i p) (hp : p ≠ .insertBurst)
    (hq : q ≠ .insertBurst) (hb : ∀ o ins inc n, q = .gatherBase o ins inc n → i = none) :
    InnerFits i q :=
  ⟨h.inlined, iff_of_false hq fun e => hp (h.insert_iff.2 e), hb⟩

theorem innerFits_none {p : Pos} (hp : p ≠ .insertBurst) : InnerFits none p :=
  ⟨nofun, iff_of_false hp nofun, fun _ _ _ _ _ => rfl⟩

theorem innerFits_insert {g : Gather} (hg : g.inlined = true) (off : Word) (inc : Bool) :
    InnerFits (some ⟨g, .insert off inc⟩) .insertBurst :=
  ⟨by rintro y ⟨⟩; exact hg, iff_of_true rfl ⟨_, rfl, rfl⟩, nofun⟩

theorem innerFits_inline {g : Gather} (hg : g.inlined = true) : InnerFits (some ⟨g, .inline⟩) .idle :=
  ⟨by rintro y ⟨⟩; exact hg, iff_of_false nofun (by rintro ⟨y, ⟨⟩, hy⟩; cases hy), nofun⟩

/-- A read word moves the cursor of an inner gather, and nothing else of it. -/
theorem InnerFits.next {y : Inner} {p : Pos} (h : InnerFits (some y) p) :
    InnerFits (some { y with g := y.g.next }) p where
  inlined := by rintro z ⟨⟩; exact h.inlined y rfl
  insert_iff := h.insert_iff.trans
    ⟨by rintro ⟨z, ⟨⟩, hz⟩; exact ⟨_, rfl, hz⟩, by rintro ⟨z, ⟨⟩, hz⟩; exact ⟨_, rfl, hz⟩⟩
  base_outer o ins inc n e := nomatch h.base_outer o ins inc n e

/-- What a worker does to its channel within a run. -/
structure WithinRun (x y : Channel) : Prop where
  rest : y = { x with
    gather := { x.gather with get := y.gather.get }
    inner := y.inner
    cur := y.cur
    waiter := y.waiter
    pos := y.pos
    call := y.call
    fifo := y.fifo }
  fits : InnerFits y.inner y.pos

theorem WithinRun.running {x y : Channel} (h : WithinRun x y) : y.running = x.running := by rw [h.rest]

theorem Channel.Lawful.withinRun {x y : Channel} (h : x.Lawful) (hr : x.running = true)
    (hw : WithinRun x y) : y.Lawful := by
  have hrunning := hw.running.trans hr
  have hstart : y.start = x.start := by rw [hw.rest]
  have hfault : y.fault = x.fault := by rw [hw.rest]
  constructor
  case stopped_eq =>
    rw [hw.running, ← h.stopped_eq, hw.rest]
  case start_false => exact fun _ => hstart.trans (h.start_false hr)
  case fault_dead =>
    intro hf
    rw [hfault] at hf
    obtain ⟨hdead, -⟩ := h.fault_dead hf
    rw [hr] at hdead
    cases hdead
  case rest => intro e; rw [hrunning] at e; cases e
  case outer_plain => rw [hw.rest]; exact h.outer_plain
  case inner_inlined => exact hw.fits.inlined
  case insert_iff => exact hw.fits.insert_iff
  case base_outer => exact hw.fits.base_outer

/-- Worker `c` is in a run and holds the section, no handler being in progress. -/
structure InSection (c : Chan) (s : State) : Prop where
  lawful : (s.ch c).Lawful
  running : (s.ch c).running = true
  noCall : (s.ch c).call = none
  owner : s.owner = some c

/-- What worker `c` leaves at the end of a step: the section kept in its run, or free with no instruction in
progress. -/
structure SectionSettled (c : Chan) (s : State) : Prop where
  lawful : (s.ch c).Lawful
  section_eq : (s.owner = some c ∧ (s.ch c).running = true) ∨
    (s.owner = none ∧ (s.ch c).inInstruction = false)

theorem InSection.settled {c : Chan} {s : State} (h : InSection c s) : SectionSettled c s :=
  ⟨h.lawful, .inl ⟨h.owner, h.running⟩⟩

theorem InSection.within {c : Chan} {s t : State} (h : InSection c s) (ho : t.owner = s.owner)
    (hw : WithinRun (s.ch c) (t.ch c)) (hk : (t.ch c).call = none) : InSection c t :=
  ⟨h.lawful.withinRun h.running hw, hw.running.trans h.running, hk, ho.trans h.owner⟩

theorem InSection.of_eq {c : Chan} {s t : State} (h : InSection c s) (hc : t.chs = s.chs)
    (ho : t.owner = s.owner) : InSection c t := by
  have hch : t.ch c = s.ch c := by rw [State.ch, hc]; rfl
  exact h.within ho (by rw [hch]; exact ⟨rfl, h.lawful.fits⟩) (by rw [hch, h.noCall])

/-- The inner gather and the position are written. -/
theorem InSection.place {c : Chan} {s : State} (h : InSection c s) {i : Option Inner} {p : Pos}
    (hf : InnerFits i p) : InSection c (setPos c p (setInner c i s)) :=
  h.within rfl (by simp only [ch_setPos, ch_setInner]; exact ⟨rfl, hf⟩) (by simp [h.noCall])

theorem InSection.setPos {c : Chan} {s : State} (h : InSection c s) {p : Pos}
    (hf : InnerFits (s.ch c).inner p) : InSection c (setPos c p s) :=
  h.within rfl (by rw [ch_setPos]; exact ⟨rfl, hf⟩) (by simp [h.noCall])

theorem InSection.setInner {c : Chan} {s : State} (h : InSection c s) {i : Option Inner}
    (hf : InnerFits i (s.ch c).pos) : InSection c (setInner c i s) :=
  h.within rfl (by rw [ch_setInner]; exact ⟨rfl, hf⟩) (by simp [h.noCall])

/-- One word is read (43_interpreter_loop.md R203). -/
theorem InSection.advance {c : Chan} {s : State} (h : InSection c s) (r : Reader) :
    InSection c (s.setCh c ((s.ch c).advance r)) := by
  refine h.within rfl ?_ (by simp [h.noCall])
  have hfits := h.lawful.fits
  rw [ch_setCh_self]
  generalize s.ch c = x at hfits
  rcases hx : x.inner with _ | y <;> rw [hx] at hfits <;> cases r <;>
    simp only [Channel.advance, hx]
  · exact ⟨rfl, hx ▸ hfits⟩
  · exact ⟨rfl, hx ▸ hfits⟩
  · exact ⟨rfl, hx ▸ hfits⟩
  · exact ⟨rfl, hfits.next⟩

/-- Between instructions the section may be kept or given up. -/
theorem InSection.settled_setOwner {c : Chan} {s : State} (h : InSection c s)
    (hp : (s.ch c).pos = .idle) {o : Option Chan} (ho : o = some c ∨ o = none) :
    SectionSettled c (s.setOwner o) := by
  refine ⟨h.lawful, ?_⟩
  obtain rfl | rfl := ho
  · exact .inl ⟨rfl, h.running⟩
  · refine .inr ⟨rfl, ?_⟩
    rw [ch_setOwner, inInstruction_of_noCall h.noCall, hp]
    rfl

theorem InSection.ownerReleased {c : Chan} {s : State} (h : InSection c s) : ownerReleased c s = none :=
  if_pos h.owner

theorem InSection.settled_release {c : Chan} {s : State} (h : InSection c s)
    (hp : (s.ch c).pos = .idle) : SectionSettled c (release c s) := by
  rw [release_eq]
  exact h.settled_setOwner hp (.inr h.ownerReleased)

/-- An instruction ends (R201). -/
theorem settled_complete {c : Chan} {s : State} (h : InSection c (Machine.setPos c .idle s)) :
    SectionSettled c (complete c s) := by
  rw [complete, endInstr_eq]
  refine h.settled_setOwner (by simp) ?_
  obtain hkept | hgiven := ownerAfterEnd_cases c (Machine.setPos c .idle s)
  · exact .inl (hkept.trans h.owner)
  · exact .inr (hgiven.trans h.ownerReleased)

theorem InSection.complete {c : Chan} {s : State} (h : InSection c s) (hp : (s.ch c).pos ≠ .insertBurst) :
    SectionSettled c (complete c s) :=
  settled_complete (h.setPos (h.lawful.fits.setPos hp nofun nofun))

/-- An inserted gather is dropped and its instruction ends (45_gather.md R243). -/
theorem InSection.complete_drop {c : Chan} {s : State} (h : InSection c s) :
    SectionSettled c (Machine.complete c (Machine.setInner c none s)) :=
  settled_complete (h.place (innerFits_none nofun))

theorem lawful_raiseFault {c : Chan} {s : State} (h : (s.ch c).Lawful) (hr : (s.ch c).running = true)
    (k : Cause) (v : Word) : ((raiseFault c k v s).ch c).Lawful := by
  have hstart := h.start_false hr
  have hplain := h.outer_plain
  rw [ch_raiseFault]
  constructor <;> simp [hstart, hplain]

theorem raiseFault_inInstruction (c : Chan) (k : Cause) (v : Word) (s : State) :
    ((raiseFault c k v s).ch c).inInstruction = false := by
  rw [ch_raiseFault]; rfl

theorem InSection.raiseFault {c : Chan} {s : State} (h : InSection c s) (k : Cause) (v : Word) :
    SectionSettled c (raiseFault c k v s) := by
  refine ⟨lawful_raiseFault h.lawful h.running k v, .inr ⟨?_, raiseFault_inInstruction c k v s⟩⟩
  rw [raiseFault_eq]
  exact h.ownerReleased

/-! ### Module writes -/

theorem InSection.afterWrite {c : Chan} {s : State} (h : InSection c s) :
    SectionSettled c (afterWrite c s) := by
  have move {p : Pos} (hp : (s.ch c).pos ≠ .insertBurst) (hq : p ≠ .insertBurst)
      (hb : ∀ o ins inc n, p ≠ .gatherBase o ins inc n) : SectionSettled c (Machine.setPos c p s) :=
    (h.setPos (h.lawful.fits.setPos hp hq fun o ins inc n e => absurd e (hb o ins inc n))).settled
  unfold Machine.afterWrite
  cases hp : (s.ch c).pos with
  | burst off left inc =>
    simp only
    split_ifs
    · exact h.complete (by rw [hp]; nofun)
    · exact move (by rw [hp]; nofun) nofun nofun
  | mask off bits i =>
    simp only
    cases nextBit bits (i + 1) with
    | none => exact h.complete (by rw [hp]; nofun)
    | some _ => exact move (by rw [hp]; nofun) nofun nofun
  | insertBurst =>
    obtain ⟨⟨g, kind⟩, hy, hins⟩ := h.lawful.insert_iff.1 hp
    cases kind with
    | inline => cases hins
    | insert off inc =>
      simp only [hy]
      split_ifs
      · exact h.complete_drop
      · have hg : g.inlined = true := h.lawful.inner_inlined _ hy
        exact (h.setInner (hp ▸ innerFits_insert hg _ inc)).settled
  | _ => exact h.complete (by rw [hp]; nofun)

/-- The handler call of a worker that holds the section begins a hold on a full FIFO. -/
theorem InSection.setCall {c : Chan} {s : State} (h : InSection c s) (k : Option Call) :
    SectionSettled c (setCall c k s) := by
  have hw : WithinRun (s.ch c) ((Machine.setCall c k s).ch c) := by
    rw [ch_setCall]; exact ⟨rfl, h.lawful.fits⟩
  exact ⟨h.lawful.withinRun h.running hw, .inl ⟨h.owner, hw.running.trans h.running⟩⟩

/-- A handler's wait gives the section up (40_syncpt.md R130 step A, R134). -/
theorem InSection.beginWait {c : Chan} {s : State} (h : InSection c s) (qs : List CoreReq) (i : Fin 32)
    (k : WaitList) (v : Word) (b : Option (Fin 8)) :
    SectionSettled c (Machine.setCall c (some ⟨qs, .inWait⟩) (enqueue (.worker c) i k v b s)) := by
  rw [setCall_enqueue]
  refine ⟨?_, .inr ⟨h.ownerReleased, ?_⟩⟩
  · rw [ch_setSp, ch_setCh_self]
    exact h.lawful.withinRun h.running ⟨rfl, h.lawful.fits⟩
  · rw [ch_setSp, ch_setCh_self]
    simp [Channel.inInstruction, Channel.sectionGivenUp]

theorem InSection.syncOp {c : Chan} {a : AgentId} {s t : State} {r : SyncReq} {v : Reply}
    (h : InSection c s) (ht : syncOp a s r = .returned t v) : InSection c (answer a v t) := by
  have hsync : InSection c t := by
    refine h.within (owner_syncOp ht) ?_ (by rw [ch_syncOp ht c]; exact h.noCall)
    rw [ch_syncOp ht c]
    exact ⟨rfl, h.lawful.fits⟩
  unfold answer
  split
  · exact hsync
  · exact hsync.of_eq rfl rfl

theorem InSection.fifoPush {c : Chan} {s : State} (h : InSection c s) (v : Word) :
    InSection c (fifoPush c v s) :=
  h.within rfl (by rw [ch_fifoPush]; exact ⟨rfl, h.lawful.fits⟩) (by simp [h.noCall])

theorem InSection.continueCall {c : Chan} {reqs : List CoreReq} {s t : State} (hs : InSection c s)
    (h : continueCall c (runRequests (.worker c) reqs s) = .next t) : SectionSettled c t := by
  have hkeeps : (runRequests (.worker c) reqs s).Keeps (.worker c) (InSection c) :=
    runRequests_keeps InSection.syncOp (fun v hc hu => by cases hc; exact hu.fifoPush v) reqs hs
  refine continueCall_of_keeps hkeeps h (fun u hu => hu.afterWrite) (fun u q w qs hu hq => ?_)
    (fun u qs hu => hu.setCall _)
  obtain ⟨i, k, v, b, rfl, -⟩ := syncOp_held hq
  exact hu.beginWait qs i k v b

theorem InSection.modWrite {c : Chan} {off v : Word} {s t : State} (hs : InSection c s)
    (h : modWrite c off v s = .next t) : SectionSettled c t := by
  obtain ⟨-, ⟨-, rfl⟩ | ⟨m, -, h⟩⟩ := modWrite_next h
  · exact (hs.of_eq (t := dropWrite (.worker c) off v s) rfl rfl).afterWrite
  · exact (hs.of_eq (t := moduleWritten (.worker c) m off v s) rfl rfl).continueCall h

/-! ### Instructions -/

/-- Between instructions, on an outer gather, there is no inner gather. -/
theorem Channel.Lawful.inner_eq_none {x : Channel} (h : x.Lawful) (hp : x.pos = .idle)
    (hr : x.reader = .outer) : x.inner = none := by
  cases hx : x.inner with
  | none => rfl
  | some y =>
    obtain ⟨g, kind⟩ := y
    cases kind with
    | inline => simp [Channel.reader, hx] at hr
    | insert off inc =>
      have hburst := h.insert_iff.2 ⟨_, hx, rfl⟩
      rw [hp] at hburst
      cases hburst

/-- The gather read is inlined exactly if it is the inner one. -/
theorem Channel.Lawful.reader_outer {x : Channel} (h : x.Lawful)
    (hg : (x.view x.reader).inlined = false) : x.reader = .outer := by
  rcases hx : x.inner with _ | ⟨g, _ | _⟩
  · simp [Channel.reader, hx]
  · have hinlined := h.inner_inlined _ hx
    simp [Channel.reader, Channel.view, hx] at hg hinlined
    rw [hg] at hinlined
    cases hinlined
  · simp [Channel.reader, hx]

section
variable {c : Chan} {s : State} (h : InSection c s) (hp : (s.ch c).pos = .idle)
include h hp

theorem InSection.head_complete : SectionSettled c (Machine.complete c s) :=
  h.complete (by rw [hp]; nofun)

/-- The head of a multi-word instruction leaves its worker at a position that asks nothing of the inner
gather. -/
theorem InSection.head_setPos {p : Pos} (hq : p ≠ .insertBurst)
    (hb : ∀ o ins inc n, p = .gatherBase o ins inc n → (s.ch c).inner = none) :
    InSection c (Machine.setPos c p s) :=
  h.setPos (h.lawful.fits.setPos (by rw [hp]; nofun) hq hb)

theorem InSection.startBurst (o : BitVec 12) (n : BitVec 16) (b : Bool) :
    SectionSettled c (startBurst c o n b s) := by
  unfold Machine.startBurst
  split_ifs
  · exact h.head_complete hp
  · exact (h.head_setPos hp (by nofun) (by nofun)).settled

theorem InSection.startMask (o : BitVec 12) (bits : BitVec 16) :
    SectionSettled c (startMask c o bits s) := by
  unfold Machine.startMask
  split_ifs
  · exact h.head_complete hp
  · exact (h.head_setPos hp (by nofun) (by nofun)).settled

theorem InSection.gatherHead (i : Instr) (o : BitVec 12) (b : Bool) (n : BitVec 1) (k : BitVec 14) :
    SectionSettled c (gatherHead c i o b n k s) := by
  unfold Machine.gatherHead
  split_ifs with hg
  · exact h.raiseFault _ _
  · have houter := h.lawful.reader_outer (Bool.eq_false_iff.2 hg)
    have hinner := h.lawful.inner_eq_none hp houter
    exact (h.head_setPos hp (by nofun) fun _ _ _ _ _ => hinner).settled

/-- RESTART (47_restart_chdone.md R265, R266). -/
theorem InSection.restart (p : Ptr) :
    SectionSettled c (Machine.complete c (dropInline c (relocate c p s))) := by
  have hrelocated : InSection c (relocate c p s) :=
    h.within rfl (by rw [ch_relocate]; exact ⟨rfl, h.lawful.fits⟩) (by simp [h.noCall])
  unfold dropInline
  split
  · exact hrelocated.complete_drop
  · exact hrelocated.head_complete (by simp [hp])

end

theorem InSection.acquireStep {c : Chan} {k : Fin 16} {s : State} (h : InSection c s)
    (hp : (s.ch c).pos ≠ .insertBurst) : SectionSettled c (acquireStep c k s) := by
  rw [acquireStep_eq]
  split_ifs
  · rw [← complete_eq]; exact h.complete hp
  · exact h.settled
  · rw [← complete_eq]; exact (h.of_eq (t := s.setMl k _) rfl rfl).complete hp

theorem InSection.releaseStep {c : Chan} {k : Fin 16} {s : State} (h : InSection c s)
    (hp : (s.ch c).pos ≠ .insertBurst) : SectionSettled c (releaseStep c k s) := by
  rw [releaseStep_eq]
  split_ifs
  · rw [← complete_eq]; exact h.complete hp
  · exact h.settled
  · rw [← complete_eq]; exact (h.of_eq (t := s.setMl k _) rfl rfl).complete hp

theorem InSection.countForeign {c : Chan} {k : Fin 16} {s : State} (h : InSection c s) :
    InSection c (countForeign c k s) := by
  unfold Machine.countForeign
  split
  · exact h.of_eq rfl rfl
  · exact h

theorem countForeign_pos (c : Chan) (k : Fin 16) (s : State) :
    ((countForeign c k s).ch c).pos = (s.ch c).pos := by
  unfold countForeign
  split <;> rfl

/-- The head of every instruction, run by the worker that fetched it. -/
theorem InSection.exec {i : Instr} {s t : State} (hs : InSection s.active s)
    (hp : (s.ch s.active).pos = .idle) (h : exec i s = .next t) : SectionSettled s.active t := by
  cases i with
  | imm o v => exact hs.modWrite h
  | setclass o k b =>
    cases h
    have hselected : InSection s.active (selectClass s.active k s) :=
      hs.within rfl (by rw [selectClass, ch_setCh_self]; exact ⟨rfl, hs.lawful.fits⟩)
        (by simp [selectClass, hs.noCall])
    exact hselected.startMask (by simp [selectClass, hp]) _ _
  | incr o n | nonincr o n => cases h; exact hs.startBurst hp _ _ _
  | mask o n => cases h; exact hs.startMask hp _ _
  | restart o => cases h; exact hs.restart hp _
  | gatherInline o n k | gatherInsert o n k => cases h; exact hs.gatherHead hp _ _ _ _ _
  | acquireMlock v =>
    cases h
    have hstanding : InSection s.active (Machine.setPos s.active (.inAcquire (lockOperand v)) s) :=
      hs.head_setPos hp nofun nofun
    exact hstanding.acquireStep (by simp)
  | releaseMlock v =>
    cases h
    have hstanding : InSection s.active (Machine.setPos s.active (.inRelease (lockOperand v)) s) :=
      hs.head_setPos hp nofun nofun
    exact hstanding.countForeign.releaseStep (by rw [countForeign_pos]; simp)
  | chdone v => cases h; exact hs.head_complete hp
  | _ => cases h; exact hs.raiseFault _ _

/-! ### DATA steps -/

theorem InSection.dataStep {c : Chan} {r : Reader} {onStop s t : State} {use : Word → State → Res}
    (hs : InSection c s) (hstop : SectionSettled c onStop)
    (huse : ∀ {w v}, use w (s.setCh c ((s.ch c).advance r)) = .next v → SectionSettled c v)
    (h : dataStep c r onStop use s = .next t) : SectionSettled c t := by
  obtain ⟨-, rfl⟩ | ⟨-, rfl⟩ | ⟨w, -, -, hu⟩ := dataStep_next h
  · exact hs.raiseFault _ _
  · exact hstop
  · exact huse hu

theorem InSection.dataBurst {c : Chan} {off : Word} {s t : State} (hs : InSection c s)
    (hp : (s.ch c).pos ≠ .insertBurst) (h : dataBurst c off s = .next t) : SectionSettled c t :=
  hs.dataStep (hs.complete hp) (fun e => (hs.advance _).modWrite e) h

theorem InSection.dataMask {c : Chan} {off : Word} {bits : BitVec 16} {i : Nat} {s t : State}
    (hs : InSection c s) (hp : (s.ch c).pos ≠ .insertBurst) (h : dataMask c off bits i s = .next t) :
    SectionSettled c t := by
  unfold Machine.dataMask at h
  split at h
  · cases h; exact hs.complete hp
  · rename_i j _
    have hread := hs.advance (s.ch c).reader
    have hmoved : InSection c (Machine.setPos c (.mask off bits j) _) :=
      hread.setPos (hread.lawful.fits.setPos (by simpa using hp) nofun nofun)
    exact hs.dataStep (hs.complete hp) (fun e => hmoved.modWrite e) h

/-- The base word (45_gather.md R241 to R244): nothing, an inserted gather at its burst, or an inlined one
between instructions, with the section given up. -/
theorem InSection.enterGather {c : Chan} {s : State} (h : InSection c s)
    (hp : (s.ch c).pos ≠ .insertBurst) (o : BitVec 12) (ins inc : Bool) (n : BitVec 14) (b : Word) :
    SectionSettled c (enterGather c o ins inc n b s) := by
  unfold Machine.enterGather
  split_ifs
  · exact h.complete hp
  · exact (h.place (innerFits_insert rfl _ inc)).settled
  · exact (h.place (innerFits_inline rfl)).settled_release (by simp)

theorem InSection.dataGatherBase {c : Chan} {o : BitVec 12} {ins inc : Bool} {n : BitVec 14} {s t : State}
    (hs : InSection c s) (hp : (s.ch c).pos ≠ .insertBurst)
    (h : dataGatherBase c o ins inc n s = .next t) : SectionSettled c t :=
  hs.dataStep (hs.complete hp)
    (fun e => by cases e; exact (hs.advance _).enterGather (by simpa using hp) _ _ _ _ _) h

theorem InSection.dataInsert {c : Chan} {s t : State} (hs : InSection c s)
    (hp : (s.ch c).pos = .insertBurst) (h : dataInsert c s = .next t) : SectionSettled c t := by
  obtain ⟨⟨g, kind⟩, hy, hins⟩ := hs.lawful.insert_iff.1 hp
  cases kind with
  | inline => cases hins
  | insert off inc =>
    simp only [Machine.dataInsert, hy] at h
    exact hs.dataStep hs.complete_drop (fun e => (hs.advance _).modWrite e) h

/-! ### Every step of a worker -/

/-- What a step of worker `c` leaves of the laws: its own channel's, and for every other channel whether it
owns the section. -/
structure LeavesLawful (c : Chan) (s t : State) : Prop where
  own : RunLawful c t
  others : ∀ d, d ≠ c → (t.owner = some d ↔ s.owner = some d)

theorem RunLawful.leaves {c : Chan} {s t : State} (h : RunLawful c t) (ho : t.owner = s.owner) :
    LeavesLawful c s t :=
  ⟨h, fun d _ => by rw [ho]⟩

/-- The section was free or the worker's own. -/
theorem SectionSettled.leaves {c : Chan} {s t : State} (h : SectionSettled c t)
    (hs : s.owner = none ∨ s.owner = some c) : LeavesLawful c s t := by
  have hother (d : Chan) (hd : d ≠ c) {o : Option Chan} (ho : o = none ∨ o = some c) : o ≠ some d := by
    obtain rfl | rfl := ho
    · nofun
    · exact fun e => hd (Option.some.inj e).symm
  obtain ⟨ho, hr⟩ | ⟨ho, hi⟩ := h.section_eq
  · exact ⟨⟨h.lawful, fun _ => hr, fun _ => ho⟩,
      fun d hd => iff_of_false (hother d hd (.inr ho)) (hother d hd hs)⟩
  · refine ⟨⟨h.lawful, fun e => ?_, fun e => ?_⟩,
      fun d hd => iff_of_false (hother d hd (.inl ho)) (hother d hd hs)⟩
    · rw [ho] at e; cases e
    · rw [hi] at e; cases e

theorem InSection.leaves {c : Chan} {s t : State} (hs : InSection c s) (h : SectionSettled c t) :
    LeavesLawful c s t := h.leaves (.inr hs.owner)

/-- The section, if the worker held it, is given up between instructions. -/
theorem leavesLawful_released {c : Chan} {s t : State} (hl : (t.ch c).Lawful)
    (ho : t.owner = ownerReleased c s) (hi : (t.ch c).inInstruction = false) : LeavesLawful c s t := by
  refine ⟨⟨hl, fun e => ?_, fun e => ?_⟩, fun d hd => ?_⟩
  · exact absurd (ho.symm.trans e) (ownerReleased_ne c s)
  · rw [hi] at e; cases e
  · rw [ho, ownerReleased_eq_some, and_iff_left hd]

/-- A stop between instructions drops the inlined gather or ends the run (43_interpreter_loop.md R209). -/
theorem leavesLawful_stopGather {c : Chan} {s : State} (h : (s.ch c).Lawful)
    (hr : (s.ch c).running = true) (hk : (s.ch c).call = none) (hp : (s.ch c).pos = .idle) :
    LeavesLawful c s (stopGather c s) := by
  have hout {x : Channel} (hxk : x.call = none) (hxp : x.pos = .idle) : x.inInstruction = false := by
    rw [inInstruction_of_noCall hxk, hxp]; rfl
  unfold stopGather
  split
  · have hw : WithinRun (s.ch c) ((release c (setInner c none s)).ch c) := by
      rw [ch_release, ch_setInner]
      exact ⟨rfl, innerFits_none (by rw [hp]; nofun)⟩
    exact leavesLawful_released (h.withinRun hr hw) (by rw [release_eq]; rfl)
      (hout (by simp [hk]) (by simp [hp]))
  · rename_i hreader
    have hinner := h.inner_eq_none hp hreader
    refine leavesLawful_released ?_ (by rw [finishRun_eq]; rfl) (hout (by simp [hk]) (by simp [hp]))
    have hstart := h.start_false hr
    have hplain := h.outer_plain
    rw [ch_finishRun]
    constructor <;> simp [hstart, hplain, hinner, hp, hk]

/-- The section that is not another's is taken, and a word is read (R201). -/
theorem inSection_fetched {c : Chan} {s : State} (h : (s.ch c).Lawful) (hr : (s.ch c).running = true)
    (hk : (s.ch c).call = none) (r : Reader) :
    InSection c ((takeSection c s).setCh c ((s.ch c).advance r)) :=
  InSection.advance (s := takeSection c s) ⟨h, hr, hk, rfl⟩ r

theorem owner_of_sectionFree {c : Chan} {s : State} (h : sectionTaken c s = false) :
    s.owner = none ∨ s.owner = some c := by
  unfold sectionTaken at h
  cases ho : s.owner with
  | none => exact .inl rfl
  | some d => simpa [ho] using h

theorem leavesLawful_instrStep {c : Chan} {s t : State} (hs : RunLawful c s)
    (hr : (s.ch c).running = true) (hk : (s.ch c).call = none) (h : instrStep c s = .next t) :
    LeavesLawful c s t := by
  have inside (hp : (s.ch c).pos ≠ .idle) : InSection c s :=
    ⟨hs.lawful, hr, hk, hs.inside (by rw [inInstruction_of_noCall hk]; simpa using hp)⟩
  obtain ⟨hp, h⟩ | ⟨_, _, _, hp, h⟩ | ⟨_, _, _, hp, h⟩ | ⟨_, _, _, _, hp, h⟩ | ⟨hp, h⟩ | ⟨k, hp, rfl⟩ |
    ⟨k, hp, rfl⟩ := instrStep_cases h
  · obtain ⟨-, rfl⟩ | ⟨-, rfl⟩ | ⟨-, -, rfl⟩ | ⟨w, -, hfree, -, h⟩ := h
    · exact leavesLawful_released (lawful_raiseFault hs.lawful hr _ _) (by rw [raiseFault_eq]; rfl)
        (raiseFault_inInstruction ..)
    · exact leavesLawful_stopGather hs.lawful hr hk hp
    · exact hs.leaves rfl
    · have hfetched := inSection_fetched hs.lawful hr hk (s.ch c).reader
      have hidle : (((takeSection c s).setCh c ((s.ch c).advance (s.ch c).reader)).ch c).pos = .idle := by
        rw [ch_setCh_self, advance_pos, hp]
      exact (InSection.exec hfetched hidle h).leaves (owner_of_sectionFree hfree)
  all_goals
    have hin : InSection c s := inside (by rw [hp]; nofun)
    refine hin.leaves ?_
  · exact hin.dataBurst (by rw [hp]; nofun) h
  · exact hin.dataMask (by rw [hp]; nofun) h
  · exact hin.dataGatherBase (by rw [hp]; nofun) h
  · exact hin.dataInsert hp h
  · exact hin.acquireStep (by rw [hp]; nofun)
  · exact hin.releaseStep (by rw [hp]; nofun)

/-- A worker goes on with a handler's call in the section. -/
theorem settled_resumeCall {c : Chan} {reqs : List CoreReq} {s t : State} (hl : (s.ch c).Lawful)
    (hr : (s.ch c).running = true) (ho : s.owner = some c) (h : resumeCall c reqs s = .next t) :
    SectionSettled c t := by
  have hw : WithinRun (s.ch c) ((setCall c none s).ch c) := by rw [ch_setCall]; exact ⟨rfl, hl.fits⟩
  have hin : InSection c (setCall c none s) :=
    ⟨hl.withinRun hr hw, hw.running.trans hr, by simp, ho⟩
  exact hin.continueCall h

/-- A worker past its wait takes the section if it is free (40_syncpt.md R130 step C). -/
theorem leavesLawful_reacquire {c : Chan} {reqs : List CoreReq} {s t : State} (hl : (s.ch c).Lawful)
    (hr : (s.ch c).running = true) (h : reacquire c reqs s = .next t) : LeavesLawful c s t := by
  obtain ⟨ho, h⟩ | ⟨-, rfl⟩ := reacquire_next h
  · exact (settled_resumeCall (s := s.setOwner (some c)) hl hr rfl h).leaves (.inl ho)
  · have hw : WithinRun (s.ch c) ((setCall c (some ⟨reqs, .reacquire⟩) s).ch c) := by
      rw [ch_setCall]; exact ⟨rfl, hl.fits⟩
    refine RunLawful.leaves ⟨hl.withinRun hr hw, fun _ => hw.running.trans hr, fun e => ?_⟩ rfl
    simp [Channel.inInstruction, Channel.sectionGivenUp] at e

theorem leavesLawful_callStep {c : Chan} {k : Call} {s t : State} (hs : RunLawful c s)
    (hr : (s.ch c).running = true) (hk : (s.ch c).call = some k) (h : callStep c k s = .next t) :
    LeavesLawful c s t := by
  obtain ⟨reqs, ph⟩ := k
  obtain ⟨rfl, -, h⟩ | ⟨-, -, rfl⟩ | ⟨rfl, h⟩ | ⟨rfl, h⟩ := callStep_cases h
  · have hl := hs.lawful.programmed (y := { s.ch c with
      waiter := { (s.ch c).waiter with signalled := false } }) (.of_waiter rfl)
    have hleft := leavesLawful_reacquire (by simpa using hl) (by simpa using hr) h
    exact ⟨hleft.own, hleft.others⟩
  · exact hs.leaves rfl
  · exact leavesLawful_reacquire hs.lawful hr h
  · have ho : s.owner = some c :=
      hs.inside (by simp [Channel.inInstruction, Channel.sectionGivenUp, hk])
    exact (settled_resumeCall hs.lawful hr ho h).leaves (.inr ho)

/-- START of a parked worker (48_cdma.md R282). -/
theorem leavesLawful_startRun {c : Chan} {s : State} (hs : RunLawful c s)
    (hstart : (s.ch c).start = true) : LeavesLawful c s (startRun c s) := by
  have hsound : (s.ch c).fault = none := by
    by_contra hf
    obtain ⟨-, hdead⟩ := hs.lawful.fault_dead (Option.isSome_iff_ne_none.2 hf)
    rw [hstart] at hdead
    cases hdead
  have hplain := hs.lawful.outer_plain
  refine RunLawful.leaves ⟨?_, fun _ => startRun_running c s, fun e => ?_⟩ rfl
  · constructor <;> simp [startRun, hsound, hplain]
  · simp [startRun, Channel.inInstruction, Channel.sectionGivenUp] at e

theorem leavesLawful_workerStep {c : Chan} {s t : State} (hs : RunLawful c s)
    (h : workerStep c s = .next t) : LeavesLawful c s t := by
  obtain ⟨-, -, rfl⟩ | ⟨-, hstart, rfl⟩ | ⟨k, hr, hk, h⟩ | ⟨hr, hk, h⟩ := workerStep_cases h
  · exact hs.leaves rfl
  · exact leavesLawful_startRun hs hstart
  · exact leavesLawful_callStep hs hr hk h
  · exact leavesLawful_instrStep hs hr hk h

/-- A step of a worker leaves its own channel lawful, and of the others it touches the Waiter records only. -/
theorem workerStep_runLawful {c : Chan} {s t : State} (hs : ∀ d, RunLawful d s)
    (h : workerStep c s = .next t) (d : Chan) : RunLawful d t := by
  have hleft := leavesLawful_workerStep (hs c) h
  by_cases hd : d = c
  · exact hd ▸ hleft.own
  · exact (hs d).programmed (.of_waiter ((workerStep_frame h).others d hd)) (hleft.others d hd)

theorem perform_runLawful {e : Event} {s t : State} (hs : ∀ d, RunLawful d s)
    (h : perform e s = .next t) : ∀ d, RunLawful d t := by
  cases e with
  | worker c => exact workerStep_runLawful hs h
  | host n op =>
    obtain ⟨hj, h⟩ := hostIssue_next h
    exact (hostOp_moves hj h).runLawful hs
  | resume n => exact (hostResume_moves h).runLawful hs
  | store addr bytes => cases h; exact fun d => (hs d).of_eq rfl rfl

/-- Settles O58: a worker inside an instruction holds the section until the instruction ends or waits, and no
other agent touches the section or a channel's run. -/
theorem stepKeepsSectionExclusive : Obligations.StepKeepsSectionExclusive := by
  intro s t hlawful hexclusive h
  have hs : ∀ c, RunLawful c s := forall_runLawful_iff.2 ⟨hlawful, hexclusive⟩
  have hu : ∀ c, RunLawful c (nextEvent s).2 := fun c => by
    rw [nextEvent_state]; exact (hs c).of_eq rfl rfl
  exact forall_runLawful_iff.1 (perform_runLawful hu h)

end Sys2Proof.Machine
end

section
/-! PROOFS. The module registry (10_state.md R38, 42_fifo_registry.md R185, R186) under its two operations and every
step, and the state after subsystem init (10_state.md R44) with every invariant. -/

namespace Sys2Proof.Machine

/-! ### The module registry -/

theorem lookupModule_eq_none_iff {k : BitVec 16} {s : State} :
    lookupModule k s = none ↔ k ∉ s.registry.map Module.classId := by
  simp [lookupModule]

/-- With the class ids distinct a lookup finds exactly what is registered. -/
theorem lookupModule_eq_some_iff {k : BitVec 16} {s : State} (hs : RegistryUnique s) {m : Module} :
    lookupModule k s = some m ↔ m ∈ s.registry ∧ m.classId = k := by
  refine ⟨lookupModule_eq_some, fun ⟨hm, hk⟩ => ?_⟩
  have hfound : lookupModule k s ≠ none := fun hnone =>
    lookupModule_eq_none_iff.1 hnone (List.mem_map.2 ⟨m, hm, hk⟩)
  obtain ⟨n, hn⟩ := Option.ne_none_iff_exists'.1 hfound
  obtain ⟨hn_mem, hnk⟩ := lookupModule_eq_some hn
  rw [hn, List.inj_on_of_nodup_map hs hn_mem hm (hnk.trans hk.symm)]

theorem RegistryUnique.registerModule {s : State} (hs : RegistryUnique s) {m : Module}
    (hm : lookupModule m.classId s = none) : RegistryUnique (registerModule m s) := by
  have hfresh := lookupModule_eq_none_iff.1 hm
  have hone : [m.classId].Nodup := List.nodup_singleton _
  rw [RegistryUnique, Machine.registerModule, setRegistry_registry, List.map_append]
  exact hs.append hone (by simpa using hfresh)

theorem RegistryUnique.of_eq {s t : State} (hs : RegistryUnique s) (h : t.registry = s.registry) :
    RegistryUnique t := by
  rw [RegistryUnique, h]; exact hs

theorem registry_holdIn_enqueue (a : AgentId) (qs : List CoreReq) (i : Fin 32) (k : WaitList) (v : Word)
    (b : Option (Fin 8)) (s : State) : (holdIn a qs (enqueue a i k v b s)).registry = s.registry := by
  cases a with
  | worker c => rw [enqueue_worker]; rfl
  | ctx n => rw [enqueue_ctx]; rfl

/-- A registration alone writes the registry. -/
theorem Moves.registryUnique {a : AgentId} {s t : State} (h : Moves a s t) (hs : RegistryUnique s) :
    RegistryUnique t := by
  induction h with
  | trans _ _ ih₁ ih₂ => exact ih₂ (ih₁ hs)
  | outside h => exact hs.of_eq (by rw [h])
  | own h => exact hs.of_eq (by rw [h.rest])
  | performed h => exact hs.of_eq (workerFrame_syncOp 0 h).registry
  | hold qs _ h =>
    obtain ⟨i, k, v, b, rfl, -⟩ := syncOp_held h
    exact hs.of_eq (registry_holdIn_enqueue ..)
  | unlock => exact hs.of_eq (by rw [(waitersOnly_wake _ _).rest])
  | unlockForced c => exact hs.of_eq (by rw [(waitersOnly_unlockForced _ _).rest])
  | clear p m => exact hs.of_eq (by rw [(routerOnly_irqClearStatus p m _).rest])
  | register h => exact hs.registerModule h
  | woken | wokenCtx | program | job | reset => exact hs

/-- With no worker running a class not yet registered is registered, and a class registered refused (R185). -/
theorem hostRegister_eq {n : Nat} {m : Module} {s : State} (h : anyRunning s = false) :
    hostRegister n m s =
      if m.classId ∈ s.registry.map Module.classId then .refused (.duplicateClass m.classId)
      else returns (.ctx n) .done (registerModule m s) := by
  unfold hostRegister
  by_cases hm : m.classId ∈ s.registry.map Module.classId
  · have hfound : (lookupModule m.classId s).isSome = true :=
      Option.isSome_iff_ne_none.2 fun hnone => lookupModule_eq_none_iff.1 hnone hm
    rw [if_pos hfound, if_pos hm]
  · have hnone := lookupModule_eq_none_iff.2 hm
    rw [if_neg (by simp [hnone]), if_neg hm, if_neg (by simp [h])]

/-- Settles O46: registration by its two guards, lookup by the distinct class ids, which every move keeps. -/
theorem registryOperations : Obligations.RegistryOperations := by
  refine ⟨fun s n rest m k => ⟨fun hi hr => ?_, fun hu hi => ?_⟩, fun s t => ?_⟩
  · exact (step_issue hi).trans (hostRegister_eq (s := s.setAgenda rest) hr)
  · exact ⟨lookupModule k s, step_issue hi, fun n => lookupModule_eq_some_iff hu⟩
  · exact step_keeps_of_moves (fun _ hu => hu) Moves.registryUnique

/-! ### The state after subsystem init (10_state.md R44) -/

theorem reset_base (j : Fin 8) : State.reset.base j = 0 := by simp [State.base, State.reset]

theorem reset_ml (k : Fin 16) : State.reset.ml k = ⟨false, false, 0⟩ := by simp [State.ml, State.reset]

theorem reset_dest (p : Fin 2) : State.reset.dest p = 0 := by simp [State.dest, State.reset]

theorem reset_pending (p : Fin 2) : State.reset.pending p = 0 := by simp [State.pending, State.reset]

theorem reset_line (p : Fin 2) : State.reset.line p = false := by simp [State.line, State.reset]

theorem reset_ctx (n : Nat) : State.reset.ctx n = HostCtx.rest := rfl

/-- A counter of 0 has reached a threshold of 0 (40_syncpt.md R121). -/
theorem reset_thresholdCrossed (i : Fin 32) : thresholdCrossed i State.reset = true := by
  rw [thresholdCrossed, reset_sp]; decide

/-- Settles O52: every register file is filled with its reset value. -/
theorem resetValues : Obligations.ResetValues := by
  refine ⟨reset_sp, reset_base, reset_ml, fun p => ⟨reset_dest p, reset_pending p, reset_line p⟩,
    fun c => ?_, rfl, rfl, rfl, reset_thresholdCrossed⟩
  rw [reset_ch]
  exact ⟨rfl, rfl, rfl, rfl, rfl, rfl, rfl, rfl, rfl, rfl, rfl, rfl, rfl⟩

theorem mutexExclusive_reset : MutexExclusive State.reset := by
  intro k
  rw [reset_ml]
  exact ⟨by simp, by decide⟩

theorem reset_list (i : Fin 32) (k : WaitList) : (State.reset.sp i).list k = [] := by
  rw [reset_sp]; cases k <;> rfl

theorem reset_waiter (a : AgentId) : State.reset.waiter a = Waiter.reset := by
  cases a with
  | worker c => rw [waiter_worker, reset_ch]; rfl
  | ctx n => rfl

theorem reset_inWait (a : AgentId) : State.reset.inWait a = false := by
  cases a with
  | worker c => exact inWait_of_noCall (by rw [reset_ch]; rfl)
  | ctx n => rfl

/-- No agent waits after subsystem init. -/
theorem waitersCoherent_reset : WaitersCoherent State.reset := by
  constructor <;> simp [reset_list, reset_waiter, reset_inWait, Waiter.reset]

theorem stopsPending_reset : StopsPending State.reset := by
  intro n c rg fp hj
  rw [reset_ctx] at hj
  cases hj

/-- Settles O60: no line is up, no mutex owned, no worker in a run, no agent in a wait, nothing registered. -/
theorem resetHasInvariants : Obligations.ResetHasInvariants := by
  obtain ⟨hlawful, hexclusive⟩ := forall_runLawful_iff.1 fun c => runLawful_of_reset (reset_ch c) rfl
  exact ⟨wf_reset, mutexExclusive_reset, linesFollowPending_reset, hlawful, hexclusive, ⟨rfl, nofun⟩,
    waitersCoherent_reset, stopsPending_reset, List.nodup_nil⟩

end Sys2Proof.Machine
end

section
/-! PROOFS. Decoding an encoded word (30_encoding.md R93 to R98, 43_interpreter_loop.md R204), format by
format; the fetching BOUNDARY step; and the canonical form of the DMA window (20_memory.md R61, R62). -/

namespace Sys2Proof

/-! ### The fields of a word, format by format -/

/-- Formats J and N (30_encoding.md R97, R98). -/
theorem fields_low28 (opcode : BitVec 4) (low : BitVec 28) :
    BitVec.extractLsb' (n := 32) 28 4 (opcode ++ low) = opcode ∧ fieldLow28 (opcode ++ low) = low :=
  ⟨BitVec.extractLsb'_append_eq_left, BitVec.extractLsb'_append_eq_right⟩

/-- Format W (R94). -/
theorem fields_payload (opcode : BitVec 4) (offset : BitVec 12) (payload : BitVec 16) :
    BitVec.extractLsb' (n := 32) 28 4 (opcode ++ offset ++ payload) = opcode ∧
      fieldOffset (opcode ++ offset ++ payload) = offset ∧
      fieldPayload (opcode ++ offset ++ payload) = payload := by
  refine ⟨?opcode, ?offset, BitVec.extractLsb'_append_eq_right⟩
  case opcode =>
    exact (BitVec.extractLsb'_append_eq_of_le (by decide)).trans BitVec.extractLsb'_append_eq_left
  case offset =>
    exact (BitVec.extractLsb'_append_eq_of_le (by decide)).trans BitVec.extractLsb'_append_eq_right

/-- Format C (R93). -/
theorem fields_setclass (opcode : BitVec 4) (offset : BitVec 12) (classId : BitVec 10) (bits : BitVec 6) :
    BitVec.extractLsb' (n := 32) 28 4 (opcode ++ offset ++ classId ++ bits) = opcode ∧
      fieldOffset (opcode ++ offset ++ classId ++ bits) = offset ∧
      BitVec.extractLsb' (n := 32) 6 10 (opcode ++ offset ++ classId ++ bits) = classId ∧
      BitVec.extractLsb' (n := 32) 0 6 (opcode ++ offset ++ classId ++ bits) = bits := by
  have above (start len : Nat) (h : 6 ≤ start) :
      BitVec.extractLsb' (n := 32) start len (opcode ++ offset ++ classId ++ bits) =
        BitVec.extractLsb' (start - 6) len (opcode ++ offset ++ classId) :=
    BitVec.extractLsb'_append_eq_of_le h
  refine ⟨?opcode, ?offset, ?classId, BitVec.extractLsb'_append_eq_right⟩
  case opcode =>
    rw [above 28 4 (by decide), BitVec.extractLsb'_append_eq_of_le (by decide)]
    exact BitVec.extractLsb'_append_eq_left
  case offset =>
    rw [fieldOffset, above 16 12 (by decide), BitVec.extractLsb'_append_eq_of_le (by decide)]
    exact BitVec.extractLsb'_append_eq_right
  case classId =>
    rw [above 6 10 (by decide)]
    exact BitVec.extractLsb'_append_eq_right

/-- Format G (R95). -/
theorem fields_gather (opcode : BitVec 4) (offset : BitVec 12) (insert inc : BitVec 1)
    (count : BitVec 14) :
    BitVec.extractLsb' (n := 32) 28 4 (opcode ++ offset ++ insert ++ inc ++ count) = opcode ∧
      fieldOffset (opcode ++ offset ++ insert ++ inc ++ count) = offset ∧
      BitVec.extractLsb' (n := 32) 15 1 (opcode ++ offset ++ insert ++ inc ++ count) = insert ∧
      BitVec.extractLsb' (n := 32) 14 1 (opcode ++ offset ++ insert ++ inc ++ count) = inc ∧
      BitVec.extractLsb' (n := 32) 0 14 (opcode ++ offset ++ insert ++ inc ++ count) = count := by
  have above (start len : Nat) (h : 15 ≤ start) :
      BitVec.extractLsb' (n := 32) start len (opcode ++ offset ++ insert ++ inc ++ count) =
        BitVec.extractLsb' (start - 15) len (opcode ++ offset ++ insert) := by
    refine (BitVec.extractLsb'_append_eq_of_le (by omega)).trans ?_
    rw [BitVec.extractLsb'_append_eq_of_le (by omega), Nat.sub_sub]
  refine ⟨?opcode, ?offset, ?insert, ?inc, BitVec.extractLsb'_append_eq_right⟩
  case opcode =>
    rw [above 28 4 (by decide), BitVec.extractLsb'_append_eq_of_le (by decide)]
    exact BitVec.extractLsb'_append_eq_left
  case offset =>
    rw [fieldOffset, above 16 12 (by decide), BitVec.extractLsb'_append_eq_of_le (by decide)]
    exact BitVec.extractLsb'_append_eq_right
  case insert =>
    rw [above 15 1 (by decide)]
    exact BitVec.extractLsb'_append_eq_right
  case inc =>
    exact (BitVec.extractLsb'_append_eq_of_le (by decide)).trans BitVec.extractLsb'_append_eq_right

/-- Format X (R96). -/
theorem fields_extend (opcode subop : BitVec 4) (value : BitVec 24) :
    BitVec.extractLsb' (n := 32) 28 4 (opcode ++ subop ++ value) = opcode ∧
      BitVec.extractLsb' (n := 32) 24 4 (opcode ++ subop ++ value) = subop ∧
      fieldValue (opcode ++ subop ++ value) = value := by
  refine ⟨?opcode, ?subop, BitVec.extractLsb'_append_eq_right⟩
  case opcode =>
    exact (BitVec.extractLsb'_append_eq_of_le (by decide)).trans BitVec.extractLsb'_append_eq_left
  case subop =>
    exact (BitVec.extractLsb'_append_eq_of_le (by decide)).trans BitVec.extractLsb'_append_eq_right

/-! ### Decoding -/

/-- The two forms of GATHER differ in bit 15 (30_encoding.md R95). -/
theorem decodeGather_eq (w : Word) :
    decodeGather w =
      if w.extractLsb' 15 1 = 1#1 then
        .gatherInsert (fieldOffset w) (w.extractLsb' 14 1) (w.extractLsb' 0 14)
      else .gatherInline (fieldOffset w) (w.extractLsb' 14 1) (w.extractLsb' 0 14) := by
  simp only [decodeGather, BitVec.getLsbD_eq_extractLsb', beq_iff_eq]

/-- Each format's fields are where the decoder looks, and its opcode selects by the number table (R92, R204). -/
theorem decodeWord_encode (i : Instr) : decodeWord (encode i) = i := by
  cases i with
  | setclass offset classId bits =>
    simp only [encode, decodeWord, fields_setclass]
    rfl
  | incr offset payload | nonincr offset payload | mask offset payload | imm offset payload =>
    simp only [encode, decodeWord, fields_payload]
    rfl
  | restart low | chdone low =>
    simp only [encode, decodeWord, fields_low28]
    rfl
  | gatherInline offset inc count | gatherInsert offset inc count =>
    simp only [encode, decodeWord, decodeGather_eq, fields_gather]
    rfl
  | unknown7 low | unknown8 low | unknown9 low | unknownA low | unknownB low | unknownC low
  | unknownD low =>
    simp only [encode, decodeWord, decodeUnknown, fields_low28]
    rfl
  | acquireMlock value | releaseMlock value | extendUndef2 value | extendUndef3 value
  | extendUndef4 value | extendUndef5 value | extendUndef6 value | extendUndef7 value
  | extendUndef8 value | extendUndef9 value | extendUndefA value | extendUndefB value
  | extendUndefC value | extendUndefD value | extendUndefE value | extendUndefF value =>
    simp only [encode, decodeWord, decodeExtend, decodeUndefined, fields_extend]
    rfl

/-- The bytes of a word, put together again (20_memory.md R66). -/
theorem wordOfBytes_bytesOfWord (w : Word) :
    wordOfBytes (w.extractLsb' 0 8) (w.extractLsb' 8 8) (w.extractLsb' 16 8) (w.extractLsb' 24 8) = w := by
  have upper : w.extractLsb' 24 8 ++ w.extractLsb' 16 8 = w.extractLsb' 16 16 :=
    BitVec.extractLsb'_append_extractLsb'_eq_extractLsb' (by decide)
  have middle : w.extractLsb' 16 16 ++ w.extractLsb' 8 8 = w.extractLsb' 8 24 :=
    BitVec.extractLsb'_append_extractLsb'_eq_extractLsb' (by decide)
  rw [wordOfBytes, upper, middle]
  exact BitVec.extractLsb'_append_extractLsb'

theorem decode_bytesOfWord (w : Word) (rest : List Byte) :
    decode (bytesOfWord w ++ rest) = .ok (decodeWord w, rest) := by
  have hword := wordOfBytes_bytesOfWord w
  calc decode (bytesOfWord w ++ rest)
    _ = .ok (decodeWord (wordOfBytes (w.extractLsb' 0 8) (w.extractLsb' 8 8) (w.extractLsb' 16 8)
          (w.extractLsb' 24 8)), rest) := rfl
    _ = .ok (decodeWord w, rest) := by rw [hword]

/-- Settles O1: the four bytes give their word back, and the word its instruction. -/
theorem decodeEncodeAgree : Obligations.DecodeEncodeAgree := by
  intro i rest
  rw [decode_bytesOfWord, decodeWord_encode]

end Sys2Proof

namespace Sys2Proof.Machine

/-! ### The DMA window -/

/-- Settles O54: a store keeps the canonical form, and no other event changes the memory. -/
theorem stepKeepsMemoryCanonical : Obligations.StepKeepsMemoryCanonical := by
  intro s t hs h
  cases he : (nextEvent s).1 with
  | store addr bytes =>
    rw [step_store he] at h
    cases h
    rw [storeBytes_mem, nextEvent_mem]
    exact wf_writeBytes hs addr bytes
  | _ =>
    obtain ⟨hmem, -⟩ := step_mem_cfg (by rw [he]; nofun) h
    rwa [hmem]

/-! ### The fetching BOUNDARY step (43_interpreter_loop.md R201, R203) -/

/-- The channel at a BOUNDARY that fetches: the section taken, the cursor past the word. -/
def fetched (c : Chan) (s : State) : State :=
  (takeSection c s).setCh c ((s.ch c).advance (s.ch c).reader)

theorem currentGather_fetched (c : Chan) (s : State) :
    currentGather c (fetched c s) = (currentGather c s).next := by
  rw [currentGather, fetched, ch_setCh_self]
  exact view_advance (s.ch c)

section
variable {c : Chan} {s : State} (hgo : stopped (s.ch c) (currentGather c s) = .go)
  (hfree : sectionTaken c s = false)
include hgo hfree

/-- The opcode word is admitted: its head is run. -/
theorem boundary_fetched {w : Word} (hw : s.mem.readWord (currentGather c s).wordIndex = some w) :
    boundary c s = exec (decodeWord w) (fetched c s) := by
  have hfetch : fetch c (s.ch c).reader (takeSection c s) = some (w, fetched c s) :=
    fetch_eq_some.2 ⟨hw, rfl⟩
  simp only [boundary, hgo, fetchAndExec, hfree, hfetch, Bool.false_eq_true, if_false]

/-- The opcode word is not admitted (20_memory.md R62). -/
theorem boundary_notAdmitted (hw : s.mem.readWord (currentGather c s).wordIndex = none) :
    boundary c s =
      .refused (.memoryNotAdmitted (byteAddr (currentGather c s).wordIndex).toNat) := by
  have hfetch : fetch c (s.ch c).reader (takeSection c s) = none := by
    have hread : (takeSection c s).mem.readWord
        (((takeSection c s).ch c).view (s.ch c).reader).wordIndex = none := hw
    rw [fetch, hread]
  simp only [boundary, hgo, fetchAndExec, hfree, hfetch, Bool.false_eq_true, if_false]
  rfl

end

/-- Settles O6: the step is a BOUNDARY step, whose fetch reads the four bytes or is refused. -/
theorem stepRunsDecodedInstruction : Obligations.StepRunsDecodedInstruction := by
  intro s c rest hs hp hgo hfree
  obtain ⟨-, -, hidle⟩ := id hp
  have hstep : step s = boundary c (s.setAgenda rest) :=
    (step_instr hs hp).trans (instrStep_idle hidle)
  refine ⟨fun b0 b1 b2 b3 i h0 h1 h2 h3 hdecode => ?admitted, fun hnone => ?notAdmitted⟩
  case admitted =>
    have hw : s.mem.readWord (currentGather c s).wordIndex = some (wordOfBytes b0 b1 b2 b3) :=
      readWord_eq_some.2 ⟨b0, b1, b2, b3, h0, h1, h2, h3, rfl⟩
    obtain rfl : decodeWord (wordOfBytes b0 b1 b2 b3) = i := by
      simpa only [decode, Except.ok.injEq, Prod.mk.injEq, and_true] using hdecode
    refine ⟨fetched c (s.setAgenda rest), ?_, rfl, currentGather_fetched c (s.setAgenda rest)⟩
    exact hstep.trans (boundary_fetched (s := s.setAgenda rest) hgo hfree hw)
  case notAdmitted =>
    exact hstep.trans (boundary_notAdmitted (s := s.setAgenda rest) hgo hfree hnone)

end Sys2Proof.Machine
end

section
/-! PROOFS. The other direction of the encoding (30_encoding.md R105, R107): a word put together again from
the fields its format reads; the opcode table (R92, R96, R103, R104); and the assembler (R108, R109). -/

namespace Sys2Proof

/-! ### A word from its fields, format by format -/

section
variable {w : Word} {opcode : BitVec 4} (hopcode : w.extractLsb' 28 4 = opcode)
include hopcode

/-- Formats J and N (30_encoding.md R97, R98). -/
theorem join_low28 : opcode ++ fieldLow28 w = w := by
  subst hopcode
  exact BitVec.extractLsb'_append_extractLsb'

/-- The opcode and the offset field, the upper half of formats C, W and G (R93 to R95). -/
theorem join_offset : opcode ++ fieldOffset w = w.extractLsb' 16 16 := by
  subst hopcode
  exact BitVec.extractLsb'_append_extractLsb'_eq_extractLsb' (by decide)

/-- Format W (R94). -/
theorem join_payload : opcode ++ fieldOffset w ++ fieldPayload w = w := by
  rw [join_offset hopcode]
  exact BitVec.extractLsb'_append_extractLsb'

/-- Format C (R93). -/
theorem join_setclass :
    opcode ++ fieldOffset w ++ w.extractLsb' 6 10 ++ w.extractLsb' 0 6 = w := by
  have upper : w.extractLsb' 16 16 ++ w.extractLsb' 6 10 = w.extractLsb' 6 26 :=
    BitVec.extractLsb'_append_extractLsb'_eq_extractLsb' (by decide)
  rw [join_offset hopcode, upper]
  exact BitVec.extractLsb'_append_extractLsb'

/-- Format G (R95). -/
theorem join_gather {insert : BitVec 1} (hinsert : w.extractLsb' 15 1 = insert) :
    opcode ++ fieldOffset w ++ insert ++ w.extractLsb' 14 1 ++ w.extractLsb' 0 14 = w := by
  subst hinsert
  have upper : w.extractLsb' 16 16 ++ w.extractLsb' 15 1 = w.extractLsb' 15 17 :=
    BitVec.extractLsb'_append_extractLsb'_eq_extractLsb' (by decide)
  have middle : w.extractLsb' 15 17 ++ w.extractLsb' 14 1 = w.extractLsb' 14 18 :=
    BitVec.extractLsb'_append_extractLsb'_eq_extractLsb' (by decide)
  rw [join_offset hopcode, upper, middle]
  exact BitVec.extractLsb'_append_extractLsb'

/-- Format X (R96). -/
theorem join_extend {subop : BitVec 4} (hsubop : w.extractLsb' 24 4 = subop) :
    opcode ++ subop ++ fieldValue w = w := by
  subst hopcode hsubop
  have upper : w.extractLsb' 28 4 ++ w.extractLsb' 24 4 = w.extractLsb' 24 8 :=
    BitVec.extractLsb'_append_extractLsb'_eq_extractLsb' (by decide)
  rw [upper]
  exact BitVec.extractLsb'_append_extractLsb'

end

/-! ### Encoding a decoded word -/

theorem encode_decodeGather {w : Word} (hopcode : w.extractLsb' 28 4 = Config.opcodes.gather) :
    encode (decodeGather w) = w := by
  rw [decodeGather_eq]
  split
  case isTrue hinsert => exact join_gather hopcode hinsert
  case isFalse hinline => exact join_gather hopcode (by bv_omega)

/-- The undefined sub-operations are 2 to 15, the numbers below 2 being those of R96 (R104). -/
theorem encode_decodeUndefined {w : Word} (hopcode : w.extractLsb' 28 4 = Config.opcodes.extend)
    (hlow : 2 ≤ (w.extractLsb' 24 4).toNat) : encode (decodeUndefined w) = w := by
  have hhigh : (w.extractLsb' 24 4).toNat < 2 ^ 4 := BitVec.isLt _
  unfold decodeUndefined
  generalize hsubop : (w.extractLsb' 24 4).toNat = n at hlow hhigh ⊢
  interval_cases n
  all_goals exact join_extend hopcode (BitVec.eq_of_toNat_eq hsubop)

theorem encode_decodeExtend {w : Word} (hopcode : w.extractLsb' 28 4 = Config.opcodes.extend) :
    encode (decodeExtend w) = w := by
  simp only [decodeExtend]
  split_ifs with hacquire hrelease
  · exact join_extend hopcode hacquire
  · exact join_extend hopcode hrelease
  · simp only [Config.opcodes] at hacquire hrelease
    exact encode_decodeUndefined hopcode (by bv_omega)

/-- The opcodes that R92 gives no instruction are 7 to 13 (R103). -/
theorem encode_decodeUnknown {w : Word} (hlow : 7 ≤ (w.extractLsb' 28 4).toNat)
    (hhigh : (w.extractLsb' 28 4).toNat ≤ 13) : encode (decodeUnknown w) = w := by
  unfold decodeUnknown
  generalize hopcode : (w.extractLsb' 28 4).toNat = n at hlow hhigh ⊢
  interval_cases n
  all_goals exact join_low28 (BitVec.eq_of_toNat_eq hopcode)

/-- Settles O2: what the opcode selects reads every other bit of the word as a field of its format. -/
theorem encodeDecodeAgree : Obligations.EncodeDecodeAgree := by
  intro w
  simp only [decodeWord]
  split_ifs with hsetclass hincr hnonincr hmask himm hrestart hgather hextend hchdone
  · exact join_setclass hsetclass
  · exact join_payload hincr
  · exact join_payload hnonincr
  · exact join_payload hmask
  · exact join_payload himm
  · exact join_low28 hrestart
  · exact encode_decodeGather hgather
  · exact encode_decodeExtend hextend
  · exact join_low28 hchdone
  · simp only [Config.opcodes] at *
    exact encode_decodeUnknown (by bv_omega) (by bv_omega)

/-! ### The opcode table -/

/-- The mask of formats C, W, J and N keeps the opcode (R92, R103). -/
theorem and_opcodeMask (w : Word) : w &&& (0xF0000000 : Word) = w.extractLsb' 28 4 ++ 0#28 := by
  calc w &&& (0xF0000000 : Word)
    _ = (w.extractLsb' 28 4 ++ fieldLow28 w) &&& (BitVec.allOnes 4 ++ 0#28) := by
      rw [join_low28 rfl]
      rfl
    _ = w.extractLsb' 28 4 ++ 0#28 := by
      rw [BitVec.and_append, BitVec.and_allOnes, BitVec.and_zero]

/-- The mask of format X keeps the sub-operation too (R96, R104). -/
theorem and_subopMask (w : Word) :
    w &&& (0xFF000000 : Word) = w.extractLsb' 28 4 ++ w.extractLsb' 24 4 ++ 0#24 := by
  calc w &&& (0xFF000000 : Word)
    _ = (w.extractLsb' 28 4 ++ w.extractLsb' 24 4 ++ fieldValue w) &&&
          (BitVec.allOnes 4 ++ BitVec.allOnes 4 ++ 0#24) := by
      rw [join_extend rfl rfl]
      rfl
    _ = w.extractLsb' 28 4 ++ w.extractLsb' 24 4 ++ 0#24 := by
      simp only [BitVec.and_append, BitVec.and_allOnes, BitVec.and_zero]

/-- The mask of format G keeps the insert bit too (R95). -/
theorem and_insertMask (w : Word) :
    w &&& (0xF0008000 : Word) = w.extractLsb' 28 4 ++ 0#12 ++ w.extractLsb' 15 1 ++ 0#1 ++ 0#14 := by
  calc w &&& (0xF0008000 : Word)
    _ = (w.extractLsb' 28 4 ++ fieldOffset w ++ w.extractLsb' 15 1 ++ w.extractLsb' 14 1 ++
            w.extractLsb' 0 14) &&&
          (BitVec.allOnes 4 ++ 0#12 ++ BitVec.allOnes 1 ++ 0#1 ++ 0#14) := by
      rw [join_gather rfl rfl]
      rfl
    _ = w.extractLsb' 28 4 ++ 0#12 ++ w.extractLsb' 15 1 ++ 0#1 ++ 0#14 := by
      simp only [BitVec.and_append, BitVec.and_allOnes, BitVec.and_zero]

/-- The fixed bits of an instruction's format: the opcode, for GATHER the insert bit (R95), for EXTEND the
sub-operation (R96). -/
def fixedMask : Instr → Word
  | .gatherInline _ _ _ | .gatherInsert _ _ _ => 0xF0008000
  | .acquireMlock _ | .releaseMlock _ | .extendUndef2 _ | .extendUndef3 _ | .extendUndef4 _
  | .extendUndef5 _ | .extendUndef6 _ | .extendUndef7 _ | .extendUndef8 _ | .extendUndef9 _
  | .extendUndefA _ | .extendUndefB _ | .extendUndefC _ | .extendUndefD _ | .extendUndefE _
  | .extendUndefF _ => 0xFF000000
  | _ => 0xF0000000

/-- The row that the encoder gives an instruction. -/
def encoderRow (i : Instr) : OpcodeRow := ⟨fixedMask i, encode i &&& fixedMask i, mnemonic i⟩

/-- The encoder's row is one of the table: no operand reaches the fixed bits, and the number table of
`Config.opcodes` is the table's. -/
theorem encoderRow_mem (i : Instr) : encoderRow i ∈ opcodeTable := by
  cases i with
  | setclass offset classId bits =>
    simp only [encoderRow, fixedMask, mnemonic, encode, and_opcodeMask, fields_setclass]
    decide
  | incr offset payload | nonincr offset payload | mask offset payload | imm offset payload =>
    simp only [encoderRow, fixedMask, mnemonic, encode, and_opcodeMask, fields_payload]
    decide
  | gatherInline offset inc count | gatherInsert offset inc count =>
    simp only [encoderRow, fixedMask, mnemonic, encode, and_insertMask, fields_gather]
    decide
  | restart low | chdone low | unknown7 low | unknown8 low | unknown9 low | unknownA low
  | unknownB low | unknownC low | unknownD low =>
    simp only [encoderRow, fixedMask, mnemonic, encode, and_opcodeMask, fields_low28]
    decide
  | acquireMlock value | releaseMlock value | extendUndef2 value | extendUndef3 value
  | extendUndef4 value | extendUndef5 value | extendUndef6 value | extendUndef7 value
  | extendUndef8 value | extendUndef9 value | extendUndefA value | extendUndefB value
  | extendUndefC value | extendUndefD value | extendUndefE value | extendUndefF value =>
    simp only [encoderRow, fixedMask, mnemonic, encode, and_subopMask, fields_extend]
    decide

/-- No two rows have a name in common. -/
theorem opcodeTable_name_inj :
    ∀ r ∈ opcodeTable, ∀ r' ∈ opcodeTable, r.name = r'.name → r = r' := by decide

/-- Two rows whose fixed bits agree wherever both fix a bit are one row. -/
theorem opcodeTable_separated :
    ∀ r ∈ opcodeTable, ∀ r' ∈ opcodeTable,
      r.pattern &&& r'.mask = r'.pattern &&& r.mask → r = r' := by decide

/-- No word has the fixed bits of two rows (R107). -/
theorem opcodeTable_disjoint {r r' : OpcodeRow} (hr : r ∈ opcodeTable) (hr' : r' ∈ opcodeTable)
    {w : Word} (h : w &&& r.mask = r.pattern) (h' : w &&& r'.mask = r'.pattern) : r = r' := by
  refine opcodeTable_separated r hr r' hr' ?_
  rw [← h, ← h', BitVec.and_assoc, BitVec.and_assoc, BitVec.and_comm r.mask]

/-- Settles O3: the word is the encoder's, so it has the fixed bits of its instruction's row and, the rows
being disjoint, of no other. -/
theorem decoderFollowsOpcodeTable : Obligations.DecoderFollowsOpcodeTable := by
  intro r hr w
  have hmem : encoderRow (decodeWord w) ∈ opcodeTable := encoderRow_mem (decodeWord w)
  have hmatch : w &&& (encoderRow (decodeWord w)).mask = (encoderRow (decodeWord w)).pattern := by
    simp only [encoderRow, encodeDecodeAgree w]
  constructor
  case mp =>
    intro h
    rw [opcodeTable_disjoint hr hmem h hmatch]
    rfl
  case mpr =>
    intro hname
    rwa [← opcodeTable_name_inj _ hmem r hr hname]

/-! ### The assembler -/

/-- An item all of whose fields fit (R109) gives the word of its shifts and ors. -/
theorem assemble_eq_some {a : Asm} {w : Word} (hwf : a.wellFormed = true) (hbits : assembleBits a = w) :
    assemble a = some w := by
  rw [assemble, if_pos hwf, hbits]

/-- An item with a field that does not fit is refused (R109). -/
theorem assemble_eq_none {a : Asm} (hwf : ¬ a.wellFormed = true) : assemble a = none := if_neg hwf

theorem ofNat_eq_of_toNat {n : Nat} {w : Word} (h : n = w.toNat) : BitVec.ofNat 32 n = w := by
  rw [h, BitVec.ofNat_toNat, BitVec.setWidth_eq]

/-- A field that is followed by others, shifted with the fields before it. -/
theorem toNat_append_shiftLeft {m n : Nat} (x : BitVec m) (y : BitVec n) (k : Nat) :
    (x ++ y).toNat <<< k = x.toNat <<< (n + k) ||| y.toNat <<< k := by
  rw [BitVec.toNat_append, Nat.shiftLeft_or_distrib, Nat.shiftLeft_add]

/-- Formats J and N (R97, R98), by the shifts and ors of R109. -/
theorem shifts_low28 (opcode : BitVec 4) (low : BitVec 28) :
    BitVec.ofNat 32 (opcodeBits opcode ||| low.toNat) = opcode ++ low :=
  ofNat_eq_of_toNat (BitVec.toNat_append opcode low).symm

/-- Format W (R94). -/
theorem shifts_payload (opcode : BitVec 4) (offset : BitVec 12) (payload : BitVec 16) :
    BitVec.ofNat 32 (opcodeBits opcode ||| offset.toNat <<< 16 ||| payload.toNat) =
      opcode ++ offset ++ payload := by
  refine ofNat_eq_of_toNat ?_
  rw [BitVec.toNat_append, toNat_append_shiftLeft]
  rfl

/-- Format C (R93). -/
theorem shifts_setclass (opcode : BitVec 4) (offset : BitVec 12) (classId : BitVec 10) (bits : BitVec 6) :
    BitVec.ofNat 32
        (opcodeBits opcode ||| offset.toNat <<< 16 ||| classId.toNat <<< 6 ||| bits.toNat) =
      opcode ++ offset ++ classId ++ bits := by
  refine ofNat_eq_of_toNat ?_
  rw [BitVec.toNat_append, toNat_append_shiftLeft, toNat_append_shiftLeft]
  rfl

/-- Format G (R95). -/
theorem shifts_gather (opcode : BitVec 4) (offset : BitVec 12) (insert inc : BitVec 1)
    (count : BitVec 14) :
    BitVec.ofNat 32 (opcodeBits opcode ||| offset.toNat <<< 16 ||| insert.toNat <<< 15 |||
        inc.toNat <<< 14 ||| count.toNat) =
      opcode ++ offset ++ insert ++ inc ++ count := by
  refine ofNat_eq_of_toNat ?_
  rw [BitVec.toNat_append, toNat_append_shiftLeft, toNat_append_shiftLeft, toNat_append_shiftLeft]
  rfl

/-- Format X (R96). -/
theorem shifts_extend (opcode subop : BitVec 4) (value : BitVec 24) :
    BitVec.ofNat 32 (opcodeBits opcode ||| subop.toNat <<< 24 ||| value.toNat) =
      opcode ++ subop ++ value := by
  refine ofNat_eq_of_toNat ?_
  rw [BitVec.toNat_append, toNat_append_shiftLeft]
  rfl

theorem assemble_setclass (offset : BitVec 12) (classId : BitVec 10) (bits : BitVec 6) :
    assemble (.setclass classId.toNat bits.toNat offset.toNat) =
      some (encode (.setclass offset classId bits)) := by
  refine assemble_eq_some ?_ (shifts_setclass _ offset classId bits)
  simp only [Asm.wellFormed, BitVec.isLt, decide_true, Bool.and_self]

/-- The four items of format W. -/
theorem assemble_payload (offset : BitVec 12) (n : BitVec 16) :
    assemble (.incr offset.toNat n.toNat) = some (encode (.incr offset n)) ∧
    assemble (.nonincr offset.toNat n.toNat) = some (encode (.nonincr offset n)) ∧
    assemble (.mask offset.toNat n.toNat) = some (encode (.mask offset n)) ∧
    assemble (.imm offset.toNat n.toNat) = some (encode (.imm offset n)) := by
  have hwf : (decide (offset.toNat < 2 ^ 12) && decide (n.toNat < 2 ^ 16)) = true := by
    simp only [BitVec.isLt, decide_true, Bool.and_self]
  have hbits (opcode : BitVec 4) := shifts_payload opcode offset n
  exact ⟨assemble_eq_some hwf (hbits _), assemble_eq_some hwf (hbits _),
    assemble_eq_some hwf (hbits _), assemble_eq_some hwf (hbits _)⟩

theorem assemble_restart (offset : BitVec 28) :
    assemble (.restart offset.toNat) = some (encode (.restart offset)) :=
  assemble_eq_some (decide_eq_true offset.isLt) (shifts_low28 _ offset)

/-- The insert field, 0 or 1, selects the form of GATHER (R95). -/
theorem assemble_gather (offset : BitVec 12) (insert inc : BitVec 1) (n : BitVec 14) :
    assemble (.gather offset.toNat insert.toNat inc.toNat n.toNat) =
      some (Config.opcodes.gather ++ offset ++ insert ++ inc ++ n) := by
  refine assemble_eq_some ?_ (shifts_gather _ offset insert inc n)
  have hinsert : insert.toNat < 2 := insert.isLt
  have hinc : inc.toNat < 2 := inc.isLt
  simp only [Asm.wellFormed, BitVec.isLt, hinsert, hinc, decide_true, Bool.and_self]

/-- A lock id is the low 4 bits of the value field (R96; assumption log 28). -/
theorem assemble_lockId (k : Fin 16) :
    assemble (.acquireMlock k) = some (encode (.acquireMlock (BitVec.ofNat 24 k))) ∧
    assemble (.releaseMlock k) = some (encode (.releaseMlock (BitVec.ofNat 24 k))) := by
  have hvalue : (BitVec.ofNat 24 k).toNat = k := by
    rw [BitVec.toNat_ofNat]
    omega
  have hwf : decide ((k : Nat) < 2 ^ 4) = true := decide_eq_true k.isLt
  have hbits (subop : BitVec 4) :
      BitVec.ofNat 32 (opcodeBits Config.opcodes.extend ||| subop.toNat <<< 24 ||| k) =
        Config.opcodes.extend ++ subop ++ BitVec.ofNat 24 k := by
    rw [← shifts_extend, hvalue]
  exact ⟨assemble_eq_some hwf (hbits _), assemble_eq_some hwf (hbits _)⟩

theorem assemble_extend (subop : BitVec 4) (value : BitVec 24) :
    assemble (.extend subop.toNat value.toNat) = some (0xE#4 ++ subop ++ value) := by
  refine assemble_eq_some ?_ (shifts_extend _ subop value)
  simp only [Asm.wellFormed, BitVec.isLt, decide_true, Bool.and_self]

theorem assemble_word (v : Word) : assemble (.word v.toNat) = some v :=
  assemble_eq_some (decide_eq_true v.isLt) (ofNat_eq_of_toNat rfl)

theorem refuses_setclass {classId bits offset : Nat}
    (h : 2 ^ 10 ≤ classId ∨ 2 ^ 6 ≤ bits ∨ 2 ^ 12 ≤ offset) :
    assemble (.setclass classId bits offset) = none := by
  refine assemble_eq_none ?_
  simp only [Asm.wellFormed, Bool.and_eq_true, decide_eq_true_eq]
  omega

/-- The four items of format W. -/
theorem refuses_payload {offset n : Nat} (h : 2 ^ 12 ≤ offset ∨ 2 ^ 16 ≤ n) :
    assemble (.incr offset n) = none ∧ assemble (.nonincr offset n) = none ∧
    assemble (.mask offset n) = none ∧ assemble (.imm offset n) = none := by
  have hwf : ¬ (decide (offset < 2 ^ 12) && decide (n < 2 ^ 16)) = true := by
    simp only [Bool.and_eq_true, decide_eq_true_eq]
    omega
  exact ⟨assemble_eq_none hwf, assemble_eq_none hwf, assemble_eq_none hwf, assemble_eq_none hwf⟩

theorem refuses_gather {offset insert inc n : Nat}
    (h : 2 ^ 12 ≤ offset ∨ 2 ≤ insert ∨ 2 ≤ inc ∨ 2 ^ 14 ≤ n) :
    assemble (.gather offset insert inc n) = none := by
  refine assemble_eq_none ?_
  simp only [Asm.wellFormed, Bool.and_eq_true, decide_eq_true_eq]
  omega

theorem refuses_extend {subop value : Nat} (h : 2 ^ 4 ≤ subop ∨ 2 ^ 24 ≤ value) :
    assemble (.extend subop value) = none := by
  refine assemble_eq_none ?_
  simp only [Asm.wellFormed, Bool.and_eq_true, decide_eq_true_eq]
  omega

/-- An item whose fit is one comparison: RESTART, the lock items and the bare word. -/
theorem not_fits {v bound : Nat} (h : bound ≤ v) : ¬ decide (v < bound) = true := by
  rw [decide_eq_true_eq]
  exact Nat.not_lt.2 h

/-- Settles O4: item by item, first the words given, then the values refused. -/
theorem assemblerEncodes : Obligations.AssemblerEncodes := by
  refine ⟨assemble_setclass, assemble_payload, assemble_restart, ?gatherForms, assemble_lockId,
    assemble_extend, assemble_eq_some rfl rfl, assemble_word, ?refusals⟩
  case gatherForms =>
    exact fun offset inc n => ⟨assemble_gather offset 0#1 inc n, assemble_gather offset 1#1 inc n⟩
  case refusals =>
    refine ⟨fun _ _ _ => refuses_setclass, fun _ _ => refuses_payload, ?restart,
      fun _ _ _ _ => refuses_gather, ?lockId, fun _ _ => refuses_extend, ?word⟩
    case restart => exact fun _ h => assemble_eq_none (not_fits h)
    case lockId => exact fun _ h => ⟨assemble_eq_none (not_fits h), assemble_eq_none (not_fits h)⟩
    case word => exact fun _ h => assemble_eq_none (not_fits h)

/-! ### Written words -/

/-- Settles O5: each word is the one the encoder gives its instruction. -/
theorem writtenWordsDecode : Obligations.WrittenWordsDecode :=
  ⟨decodeWord_encode (.setclass 0x20 5 0b000101), decodeWord_encode (.incr 0x10 2),
    decodeWord_encode (.mask 0x100 0x8005), decodeWord_encode (.gatherInsert 0x30 1 4),
    decodeWord_encode (.gatherInline 0xABC 1 3), decodeWord_encode (.restart 0xFFFFFFF),
    decodeWord_encode (.releaseMlock 0xFFFFF5), decodeWord_encode (.extendUndefF 0x123456),
    decodeWord_encode (.chdone 0xFFFFFFF)⟩

end Sys2Proof
end

section
/-! PROOFS. The sync-point store as a host context sees it (40_syncpt.md R121 to R133, R138 to R141): the threshold
comparison, the mutations, the waits, the bases and the reads. -/

namespace Sys2Proof.Machine

/-! ### The threshold comparison -/

/-- A threshold is reached at a difference of 0 and at one whose top bit and some other bit are set (R121). -/
theorem reached16_iff_diff {cnt : Word} {thr : BitVec 16} :
    reached16 cnt thr = true ↔
      (thr - cnt.setWidth 16).toNat = 0 ∨ 0x8001 ≤ (thr - cnt.setWidth 16).toNat := by
  unfold reached16
  dsimp only
  generalize thr - cnt.setWidth 16 = diff
  have hover : diff.getLsbD 15 = decide (0x8000 ≤ diff.toNat) := BitVec.msb_eq_decide diff
  have hzero : (diff.setWidth 15 == 0) = decide (diff.toNat % 0x8000 = 0) := by
    rw [Bool.eq_iff_iff, beq_iff_eq, decide_eq_true_iff, ← BitVec.toNat_inj, BitVec.toNat_setWidth]
    rfl
  have hlt := diff.isLt
  rw [hover, hzero]
  by_cases hhigh : 0x8000 ≤ diff.toNat <;> by_cases hlow : diff.toNat % 0x8000 = 0 <;>
    simp [hhigh, hlow] <;> omega

/-- The counter is in the half window that begins at the threshold. -/
theorem reached16_iff_window {cnt : Word} {thr : BitVec 16} :
    reached16 cnt thr = true ↔ (cnt.setWidth 16 - thr).toNat ≤ 0x7FFF := by
  rw [reached16_iff_diff, BitVec.toNat_sub, BitVec.toNat_sub]
  have hthr := thr.isLt
  have hcnt := (cnt.setWidth 16).isLt
  omega

/-- Settles O31: the four cases are those of the difference as a number. -/
theorem thresholdComparison : Obligations.ThresholdComparison := by
  intro cnt thr diff overflow isZero
  have hcases : reached16 cnt thr = true ↔ diff.toNat = 0 ∨ 0x8001 ≤ diff.toNat := reached16_iff_diff
  refine ⟨rfl, fun h => ?_, fun h => ?_, fun h => ?_, fun h => hcases.2 (.inr h), ?_⟩
  · rw [hcases, h]; exact .inl rfl
  · rw [← Bool.not_eq_true, hcases]; omega
  · rw [← Bool.not_eq_true, hcases, h]; decide
  · rw [Bool.eq_iff_iff, decide_eq_true_iff]; exact reached16_iff_window

/-! ### An operation of the store issued by a host context -/

section
variable {h : Nat} {rest : List Event} {s t : State} {r : SyncReq}

theorem step_sync (hs : Issued h (.sync r) rest s) : step s = hostSync h r (s.setAgenda rest) :=
  step_issue hs

theorem step_sync_returned {v : Reply} (hs : Issued h (.sync r) rest s)
    (hr : syncOp (.ctx h) (s.setAgenda rest) r = .returned t v) :
    step s = .next (t.emit (.reply (.ctx h) v)) := by
  rw [step_sync hs, hostSync, hr]; rfl

theorem step_sync_refused {e : Refusal} (hs : Issued h (.sync r) rest s)
    (hr : syncOp (.ctx h) (s.setAgenda rest) r = .refused e) : step s = .refused e := by
  rw [step_sync hs, hostSync, hr]

/-- A wait issued by a host context returns at once, or enqueues its record and holds (R130). -/
theorem step_sync_wait {i : Fin 32} {k : WaitList} {v : Word} {b : Option (Fin 8)} {now : Bool}
    (hs : Issued h (.sync r) rest s)
    (hr : syncOp (.ctx h) (s.setAgenda rest) r = waitStepA (.ctx h) i k v b now (s.setAgenda rest)) :
    step s = .next
      (if now then (s.setAgenda rest).emit (.reply (.ctx h) .done)
      else setJob h (.inWait []) (enqueue (.ctx h) i k v b (s.setAgenda rest))) := by
  rw [step_sync hs, hostSync, hr]
  cases now <;> rfl

end

/-- A host context that holds in a wait: its record is enqueued (R130 step A). -/
theorem setJob_enqueue (h : Nat) (qs : List CoreReq) (i : Fin 32) (k : WaitList) (v : Word)
    (b : Option (Fin 8)) (s : State) :
    setJob h (.inWait qs) (enqueue (.ctx h) i k v b s) =
      (s.setSp i ((s.sp i).setList k (.ctx h :: (s.sp i).list k))).setCtx h
        ⟨⟨v, b, false, some (i, k)⟩, .inWait qs⟩ := by
  let record : Waiter := ⟨v, b, false, some (i, k)⟩
  let listed := s.setSp i ((s.sp i).setList k (.ctx h :: (s.sp i).list k))
  have hbusy (j : HostJob) : (⟨record, j⟩ : HostCtx) ≠ HostCtx.rest := by simp [record, HostCtx.rest, Waiter.reset]
  calc setJob h (.inWait qs) (enqueue (.ctx h) i k v b s)
    _ = (listed.setCtx h ⟨record, (s.ctx h).job⟩).setCtx h ⟨record, .inWait qs⟩ := by
      rw [enqueue_ctx, setJob, ctx_setSp, ctx_setCtx_self]; rfl
    _ = listed.setCtx h ⟨record, .inWait qs⟩ := setCtx_setCtx _ h (hbusy _) (hbusy _)

/-- Settles O34: each wait is step A on its own list, with its own threshold and comparison. -/
theorem waitsReturnOrEnqueue : Obligations.WaitsReturnOrEnqueue := by
  intro s h rest i j v cnt r kind w now hr hs
  let u := s.setAgenda rest
  obtain ⟨rfl, rfl, rfl, rfl⟩ | ⟨rfl, rfl, rfl, rfl⟩ | ⟨rfl, rfl, rfl, rfl⟩ := hr
  · rw [step_sync_wait hs (syncOp_wait (.ctx h) u i v), setJob_enqueue]; rfl
  · rw [step_sync_wait hs (syncOp_waitBaseRelative (.ctx h) u i j v), setJob_enqueue]; rfl
  · rw [step_sync_wait hs (syncOp_waitNextIncrement (.ctx h) u i), setJob_enqueue]; rfl

/-- Settles O38: each is one write of its base, with no re-evaluation. -/
theorem basesDoNotWake : Obligations.BasesDoNotWake := fun _ _ _ j _ =>
  ⟨fun hs => step_sync_returned hs (withSyncId_val j _), fun hs => step_sync_returned hs (withSyncId_val j _)⟩

/-- Settles O39: each read returns its value with the state it found. -/
theorem storeReadsChangeNothing : Obligations.StoreReadsChangeNothing :=
  ⟨fun _ _ _ i j =>
    ⟨fun hs => step_sync_returned hs (withSyncId_val i _), fun hs => step_sync_returned hs (withSyncId_val i _),
      fun hs => step_sync_returned hs (withSyncId_val i _), fun hs => step_sync_returned hs (withSyncId_val j _)⟩,
    reset_thresholdCrossed⟩

/-! ### The mutations (R122, R123, R125) -/

/-- Sync-point `i` gets the registers of `x` and nothing else changes but the waiter lists, the Waiter records,
the pending words, the lines and the outputs. -/
structure SpWritten (i : Fin 32) (x : SyncPoint) (s t : State) : Prop where
  counter : (t.sp i).counter = x.counter
  threshold : (t.sp i).threshold = x.threshold
  others : ∀ j, j ≠ i → (t.sp j).counter = (s.sp j).counter ∧ (t.sp j).threshold = (s.sp j).threshold
  ch : ∀ c, t.ch c = { s.ch c with waiter := (t.ch c).waiter }
  job : ∀ h, (t.ctx h).job = (s.ctx h).job
  rest : t = { s with chs := t.chs, sps := t.sps, hosts := t.hosts, irq := t.irq, out := t.out }
  dest : t.irq.dest = s.irq.dest

theorem spWritten_reevaluate (i : Fin 32) (x : SyncPoint) (incremented : Bool) (s : State) :
    SpWritten i x s (reevaluate i incremented (s.setSp i x)) := by
  have hf := syncFrame_reevaluate i incremented (s.setSp i x)
  constructor
  case counter => rw [hf.counter, sp_setSp_self]
  case threshold => rw [hf.threshold, sp_setSp_self]
  case others => intro j hj; rw [hf.counter, hf.threshold, sp_setSp_ne s i j x hj]; exact ⟨rfl, rfl⟩
  case ch => exact hf.ch
  case job => exact hf.job
  case rest => exact hf.rest
  case dest => exact hf.dest

theorem SpWritten.outside {i : Fin 32} {x : SyncPoint} {s t : State} (h : SpWritten i x s t) :
    (∀ a, t.mem.read a = s.mem.read a) ∧ t.bases = s.bases ∧ t.mls = s.mls ∧ t.irq.dest = s.irq.dest ∧
      t.registry = s.registry ∧ t.owner = s.owner ∧ t.diag = s.diag := by
  refine ⟨fun a => ?_, ?_, ?_, h.dest, ?_, ?_, ?_⟩ <;> rw [h.rest]

/-- A mutation issued by a host context completes. -/
theorem step_mutation {h : Nat} {rest : List Event} {s : State} {r : SyncReq} {i : Fin 32} {x : SyncPoint}
    {incremented : Bool} (hs : Issued h (.sync r) rest s)
    (hr : syncOp (.ctx h) (s.setAgenda rest) r =
      .returned (reevaluate i incremented ((s.setAgenda rest).setSp i x)) .done) :
    ∃ u, SpWritten i x (s.setAgenda rest) u ∧ step s = .next (u.emit (.reply (.ctx h) .done)) :=
  ⟨_, spWritten_reevaluate i x incremented _, step_sync_returned hs hr⟩

/-- Settles O32: each mutation writes its register of its sync-point, then re-evaluates. -/
theorem storeOperationsWrite : Obligations.StoreOperationsWrite := by
  intro s h rest i r v hs
  refine ⟨?_, fun id hid hr => step_sync_refused hs (syncOp_badId hid hr)⟩
  rintro (rfl | rfl | rfl)
  all_goals
    obtain ⟨u, hu, hstep⟩ := step_mutation hs (withSyncId_val i _)
    exact ⟨_, hstep, rfl, hu.counter, hu.threshold, hu.others, hu.ch, hu.outside⟩

/-- Settles O33, by induction on the number of increments: each leaves the next one issued by a free context. -/
theorem incrementsAddUp : Obligations.IncrementsAddUp := by
  intro s h n
  induction n generalizing s with
  | zero => exact fun rest i hagenda _ => ⟨s, rfl, hagenda, (BitVec.add_zero _).symm⟩
  | succ n ih =>
    intro rest i hagenda hidle
    obtain ⟨u, hu, hstep⟩ := step_mutation (i := i) ⟨hagenda, hidle⟩ (withSyncId_val i _)
    have hnext : u.agenda = List.replicate n (.host h (.sync (.increment i))) ++ rest := by rw [hu.rest]; rfl
    obtain ⟨t, hrun, hrest, hcounter⟩ :=
      ih (u.emit (.reply (.ctx h) .done)) rest i hnext ((hu.job h).trans hidle)
    refine ⟨t, (runSteps_succ hstep).trans hrun, hrest, ?_⟩
    calc (t.sp i).counter
      _ = (u.sp i).counter + BitVec.ofNat 32 n := hcounter
      _ = (s.sp i).counter + 1 + BitVec.ofNat 32 n := by rw [hu.counter]; rfl
      _ = (s.sp i).counter + BitVec.ofNat 32 (n + 1) := by
        rw [BitVec.add_assoc, BitVec.add_comm 1, BitVec.ofNat_add]; rfl

end Sys2Proof.Machine
end

section
/-! PROOFS. What a re-evaluation, an unlock and a forced stop wake (40_syncpt.md R127, R135 to R137; 48_cdma.md R281). -/

namespace Sys2Proof.Machine

/-! ### What a wake changes -/

/-- The agents of `W`, enqueued on sync-point `i`, leave its lists and are signalled; every other record, every other
sync-point, the registers of `i` and the bases stay as they were. -/
structure Wakes (i : Fin 32) (W : AgentId → Prop) (s t : State) : Prop where
  listed : ∀ a k, a ∈ (t.sp i).list k ↔ a ∈ (s.sp i).list k ∧ ¬ W a
  woken : ∀ a, W a → t.waiter a = { s.waiter a with place := none, signalled := true }
  kept : ∀ a, ¬ W a → t.waiter a = s.waiter a
  others : ∀ j, j ≠ i → t.sp j = s.sp j
  registers : (t.sp i).counter = (s.sp i).counter ∧ (t.sp i).threshold = (s.sp i).threshold
  bases : t.bases = s.bases

theorem Wakes.of_eq {i : Fin 32} {W : AgentId → Prop} {s t : State} (hW : ∀ a, ¬ W a)
    (hsp : t.sps = s.sps) (hwaiter : ∀ a, t.waiter a = s.waiter a) (hbases : t.bases = s.bases) :
    Wakes i W s t := by
  have hall (j : Fin 32) : t.sp j = s.sp j := by rw [State.sp, hsp]; rfl
  exact ⟨fun a k => by simp [hall, hW], fun a ha => absurd ha (hW a), fun a _ => hwaiter a,
    fun j _ => hall j, by simp [hall], hbases⟩

theorem Wakes.congr {i : Fin 32} {V W : AgentId → Prop} {s t : State} (h : Wakes i V s t)
    (hVW : ∀ a, V a ↔ W a) : Wakes i W s t := by
  obtain rfl : V = W := funext fun a => propext (hVW a)
  exact h

theorem Wakes.trans {i : Fin 32} {V W : AgentId → Prop} {s t u : State} (h : Wakes i V s t)
    (g : Wakes i W t u) : Wakes i (fun a => V a ∨ W a) s u where
  listed a k := by rw [g.listed, h.listed, not_or, and_assoc]
  woken a ha := by
    by_cases hW : W a
    · rw [g.woken a hW]
      by_cases hV : V a
      · rw [h.woken a hV]
      · rw [h.kept a hV]
    · rw [g.kept a hW, h.woken a (ha.resolve_right hW)]
  kept a ha := by rw [g.kept a fun hW => ha (.inr hW), h.kept a fun hV => ha (.inl hV)]
  others j hj := (g.others j hj).trans (h.others j hj)
  registers := ⟨g.registers.1.trans h.registers.1, g.registers.2.trans h.registers.2⟩
  bases := g.bases.trans h.bases

theorem wakes_router {i : Fin 32} {s t : State} (h : RouterOnly s t) : Wakes i (fun _ => False) s t := by
  refine .of_eq (fun _ => id) (by rw [h.rest]) (fun a => ?_) (by rw [h.rest])
  rw [h.rest]
  cases a <;> rfl

/-- `Wake` of an agent enqueued on sync-point `i` (R127). -/
theorem wakes_wake {i : Fin 32} {k : WaitList} {a : AgentId} {s : State} (h : WaitersCoherent s)
    (ha : a ∈ (s.sp i).list k) : Wakes i (· = a) s (wake a s) := by
  have hplace : (s.waiter a).place = some (i, k) := (h.listed_iff a i k).1 ha
  have hf := waitersOnly_wake a s
  constructor
  case listed => exact fun b m => h.mem_list_wake a b i m
  case woken => rintro b rfl; rw [waiter_wake, if_pos rfl]
  case kept => intro b hb; rw [waiter_wake, if_neg hb]
  case others =>
    intro j hj
    simp only [wake, hplace, sp_setWaiter]
    exact sp_setSp_ne s i j _ hj
  case registers => exact ⟨hf.counter i, hf.threshold i⟩
  case bases => rw [hf.rest]

/-- The test of agent `b` does not see that another is woken. -/
def WakeStable (test : State → AgentId → Bool) : Prop := ∀ s a b, test (wake a s) b = test s b

/-- Going through enqueued agents wakes exactly those that pass the test at the start. -/
theorem wakes_wakeWhere {test : State → AgentId → Bool} (hstable : WakeStable test) {i : Fin 32}
    {k : WaitList} {l : List AgentId} (hnodup : l.Nodup) {s : State} (h : WaitersCoherent s)
    (hl : ∀ a ∈ l, a ∈ (s.sp i).list k) :
    Wakes i (fun a => a ∈ l ∧ test s a = true) s (wakeWhere test l s) := by
  induction l generalizing s with
  | nil => exact .of_eq (by simp) rfl (fun _ => rfl) rfl
  | cons a rest ih =>
    obtain ⟨ha, hrest⟩ := List.forall_mem_cons.1 hl
    obtain ⟨hfresh, hnodup⟩ := List.nodup_cons.1 hnodup
    by_cases htest : test s a = true
    · have hafter : wakeWhere test (a :: rest) s = wakeWhere test rest (wake a s) := by
        simp [wakeWhere, htest]
      have hstill (b) (hb : b ∈ rest) : b ∈ ((wake a s).sp i).list k :=
        (h.mem_list_wake a b i k).2 ⟨hrest b hb, fun e => hfresh (e ▸ hb)⟩
      rw [hafter]
      refine ((wakes_wake h ha).trans
        (ih hnodup (h.wake (h.inWait_of_mem ha)) hstill)).congr fun b => ?_
      rw [hstable, List.mem_cons, or_and_right]
      exact or_congr_left ⟨fun e => ⟨e, e ▸ htest⟩, And.left⟩
    · have hafter : wakeWhere test (a :: rest) s = wakeWhere test rest s := by
        simp [wakeWhere, htest]
      rw [hafter]
      refine (ih hnodup h hrest).congr fun b => ?_
      rw [List.mem_cons, or_and_right]
      exact ⟨.inr, fun hb => hb.resolve_left fun ⟨e, hpass⟩ => htest (e ▸ hpass)⟩

/-! ### What a re-evaluation judges -/

theorem satisfied_congr {i : Fin 32} {a : AgentId} {s t : State}
    (hcounter : (t.sp i).counter = (s.sp i).counter) (hbases : t.bases = s.bases)
    (hbase : (t.waiter a).baseId = (s.waiter a).baseId)
    (hthreshold : (t.waiter a).threshold = (s.waiter a).threshold) :
    satisfied i t a = satisfied i s a := by
  simp only [satisfied, effectiveThreshold, State.base, hcounter, hbases, hbase, hthreshold]

theorem Wakes.satisfied_eq {i : Fin 32} {W : AgentId → Prop} {s t : State} (h : Wakes i W s t) (a : AgentId) :
    satisfied i t a = satisfied i s a := by
  have hrecord : (t.waiter a).baseId = (s.waiter a).baseId ∧
      (t.waiter a).threshold = (s.waiter a).threshold := by
    by_cases ha : W a
    · rw [h.woken a ha]; exact ⟨rfl, rfl⟩
    · rw [h.kept a ha]; exact ⟨rfl, rfl⟩
  exact satisfied_congr h.registers.1 h.bases hrecord.1 hrecord.2

theorem wakeStable_satisfied (i : Fin 32) : WakeStable (satisfied i) := by
  intro s a b
  have hf := waitersOnly_wake a s
  refine satisfied_congr (hf.counter i) (by rw [hf.rest]) ?_ ?_ <;>
    · rw [waiter_wake]; split
      · rename_i hb; rw [hb]
      · rfl

/-- The waiters of sync-point `i` a re-evaluation wakes: of the first two lists those it satisfies, of the third
all on an increment (R127). -/
def Due (i : Fin 32) (incremented : Bool) (s : State) (a : AgentId) : Prop :=
  (a ∈ (s.sp i).wAbs ∧ satisfied i s a = true) ∨ (a ∈ (s.sp i).wRel ∧ satisfied i s a = true) ∨
    (a ∈ (s.sp i).wInc ∧ incremented = true)

theorem WaitersCoherent.wakeList {s : State} (h : WaitersCoherent s) (test : State → AgentId → Bool) (i : Fin 32)
    (k : WaitList) : WaitersCoherent (Machine.wakeWhere test ((s.sp i).list k) s) :=
  h.wakeWhere test fun _ ha => h.inWait_of_mem ha

/-- One stage of a re-evaluation, after stages that have woken the agents of `W`. -/
theorem Wakes.stage {i : Fin 32} {W : AgentId → Prop} {s t : State} (h : Wakes i W s t)
    {test : State → AgentId → Bool} (hstable : WakeStable test) (heq : ∀ a, test t a = test s a) (k : WaitList)
    (ht : WaitersCoherent t) :
    Wakes i (fun a => W a ∨ (a ∈ (s.sp i).list k ∧ test s a = true)) s
      (wakeWhere test ((t.sp i).list k) t) := by
  refine (h.trans (wakes_wakeWhere hstable (ht.nodup i k) ht fun _ => id)).congr fun a => ?_
  rw [h.listed, heq]
  by_cases ha : W a <;> simp [ha]

theorem wakes_reevaluate {i : Fin 32} {incremented : Bool} {s : State} (h : WaitersCoherent s) :
    Wakes i (Due i incremented s) s (reevaluate i incremented s) := by
  have hrouter := routerOnly_irqLatch i s
  have hlatch : Wakes i (fun _ => False) s (irqLatch i s) := wakes_router hrouter
  have hlatched := h.router hrouter
  have hjudged := hlatched.wakeList (satisfied i) i .abs
  have habs := hlatch.stage (wakeStable_satisfied i) hlatch.satisfied_eq .abs hlatched
  have hrel := habs.stage (wakeStable_satisfied i) habs.satisfied_eq .rel hjudged
  cases incremented with
  | false => exact hrel.congr fun a => by simp [Due, SyncPoint.list]
  | true =>
    have hinc := hrel.stage (test := fun _ _ => true) (fun _ _ _ => rfl) (fun _ => rfl) .inc
      (hjudged.wakeList (satisfied i) i .rel)
    exact hinc.congr fun a => by simp [Due, SyncPoint.list, or_assoc]

/-- In a coherent state a record in the absolute list is judged by its own threshold (R127). -/
theorem satisfied_abs {i : Fin 32} {a : AgentId} {s : State} (h : WaitersCoherent s)
    (ha : a ∈ (s.sp i).wAbs) :
    satisfied i s a = reached16 (s.sp i).counter ((s.waiter a).threshold.setWidth 16) := by
  have hbase : (s.waiter a).baseId = none := by
    have := h.based a i .abs ((h.listed_iff a i .abs).1 ha)
    simpa using this
  simp only [satisfied, effectiveThreshold, hbase]

/-- In a coherent state a record in the base-relative list is judged by the sum with its base (R127, R132). -/
theorem satisfied_rel {i : Fin 32} {a : AgentId} {s : State} (h : WaitersCoherent s)
    (ha : a ∈ (s.sp i).wRel) :
    satisfied i s a = true ↔ ∃ j, (s.waiter a).baseId = some j ∧
      reached16 (s.sp i).counter ((s.base j + (s.waiter a).threshold).setWidth 16) = true := by
  have hsome := (h.based a i .rel ((h.listed_iff a i .rel).1 ha)).2 rfl
  obtain ⟨j, hj⟩ := Option.isSome_iff_exists.1 hsome
  simp [satisfied, effectiveThreshold, hj]

/-- Settles O35: stage by stage, a re-evaluation wakes the waiters that are due, judged as they stood. -/
theorem reevaluationWakesExactly : Obligations.ReevaluationWakesExactly := by
  intro s i incremented h t wakes
  have hdue (a : AgentId) : Due i incremented s a ↔ wakes a :=
    or_congr (and_congr_right fun ha => by rw [satisfied_abs h ha])
      (or_congr (and_congr_right fun ha => satisfied_rel h ha) .rfl)
  have hwakes : Wakes i wakes s t := (wakes_reevaluate h).congr hdue
  exact ⟨hwakes.listed, hwakes.woken, hwakes.kept, hwakes.others, hwakes.registers⟩

/-! ### Unlocking a waiter -/

/-- A forced unlock wakes an enqueued agent and leaves any other (R136). -/
theorem unlockForced_eq {a : AgentId} {s : State} (h : WaitersCoherent s) :
    unlockForced a s = if (s.waiter a).place = none then s else wake a s := by
  have hholds (i : Fin 32) : (s.sp i).holds a = true ↔ ∃ k, (s.waiter a).place = some (i, k) := by
    simp only [← h.listed_iff, SyncPoint.holds, Bool.or_eq_true, List.contains_iff_mem]
    refine ⟨fun ha => ?_, fun ⟨k, hk⟩ => by cases k <;> simp_all [SyncPoint.list]⟩
    obtain (ha | ha) | ha := ha
    exacts [⟨.abs, ha⟩, ⟨.rel, ha⟩, ⟨.inc, ha⟩]
  rw [unlockForced]
  cases hp : (s.waiter a).place with
  | none => simp [hholds, hp]
  | some p => obtain ⟨i, k⟩ := p; simp [hholds, hp]

/-- The worker of channel `c` has been released from its wait, no other agent has left or entered a list, and no
counter has moved. -/
structure Released (c : Chan) (s t : State) : Prop where
  waiter : (t.ch c).waiter = { (s.ch c).waiter with place := none, signalled := true }
  unlisted : ∀ j k, AgentId.worker c ∉ (t.sp j).list k
  others : ∀ j k a, a ≠ .worker c → (a ∈ (t.sp j).list k ↔ a ∈ (s.sp j).list k)
  counter : ∀ j, (t.sp j).counter = (s.sp j).counter

theorem Released.of_eq {c : Chan} {s t u : State} (h : Released c s t) (hch : u.chs = t.chs)
    (hsp : u.sps = t.sps) : Released c s u := by
  obtain ⟨hwaiter, hunlisted, hothers, hcounter⟩ := h
  constructor <;> simpa only [State.ch, State.sp, hch, hsp]

theorem released_wake {c : Chan} {s : State} (h : WaitersCoherent s) : Released c s (wake (.worker c) s) where
  waiter := by
    have := waiter_wake (.worker c) (.worker c) s
    simpa using this
  unlisted j k := by rw [h.mem_list_wake]; exact fun ha => ha.2 rfl
  others j k a ha := by rw [h.mem_list_wake]; exact and_iff_left ha
  counter := (waitersOnly_wake (.worker c) s).counter

/-- The channel is disabled before its waiter is unlocked (48_cdma.md R281). -/
theorem WaitersCoherent.disable {s : State} (h : WaitersCoherent s) (c : Chan) :
    WaitersCoherent (s.setCh c { s.ch c with enabled := false }) :=
  h.program ⟨rfl, .inl⟩ rfl

theorem controlStop_eq {s : State} (h : WaitersCoherent s) (c : Chan) :
    controlStop c s =
      if (s.ch c).waiter.place = none then s.setCh c { s.ch c with enabled := false }
      else wake (.worker c) (s.setCh c { s.ch c with enabled := false }) := by
  rw [controlStop, wakeAllChannelWaiters, unlockForced_eq (h.disable c), waiter_worker, ch_setCh_self]

/-- Step 1 of a stop, with no other `control` pending on the channel (48_cdma.md R281). -/
theorem hostControl_stop {h : Nat} {c : Chan} {rg fp : Bool} {s : State} (hfree : controlPending c s = false) :
    hostControl h c true rg fp s = .next (setJob h (.inControl c rg fp) (controlStop c s)) := by
  simp [hostControl, hfree, setJob]

theorem hostControl_overlap {h : Nat} {c : Chan} {stop rg fp : Bool} {s : State}
    (hpending : controlPending c s = true) : hostControl h c stop rg fp s = .refused .controlOverlap := by
  simp [hostControl, hpending]

theorem controlStop_released {s : State} (h : WaitersCoherent s) {c : Chan}
    (hp : (s.ch c).waiter.place ≠ none) :
    ((controlStop c s).ch c).enabled = false ∧ Released c s (controlStop c s) := by
  have hr := released_wake (c := c) (h.disable c)
  rw [controlStop_eq h, if_neg hp]
  refine ⟨?_, ?_, hr.unlisted, hr.others, hr.counter⟩
  · rw [(waitersOnly_wake _ _).ch c, ch_setCh_self]
  · rw [hr.waiter, ch_setCh_self]

/-- Both unlock operations on an enqueued record: refused on an enabled channel, else a wake (R137). -/
theorem hostUnlock_enqueued {h : Nat} {c : Chan} {s : State} (hcoherent : WaitersCoherent s)
    (hp : (s.ch c).waiter.place ≠ none) :
    hostUnlockWaiter h c s = (if (s.ch c).enabled = true then .refused .cancelWithoutStop
      else returns (.ctx h) .done (wake (.worker c) s)) ∧
    hostUnlockForced h c s = hostUnlockWaiter h c s := by
  have hrefused : cancelRefused c s = (s.ch c).enabled := by
    simp [cancelRefused, Option.isSome_iff_ne_none.2 hp]
  rw [hostUnlockWaiter, hostUnlockForced, if_neg hp, hrefused, unlockForced_eq hcoherent, waiter_worker, if_neg hp]
  exact ⟨rfl, rfl⟩

/-- Settles O40: the stop and the unlocks wake the record exactly if it is enqueued, under their guards. -/
theorem forcedStopReleasesWaiter : Obligations.ForcedStopReleasesWaiter := by
  intro s h c rest stop rg fp hcoherent u freed
  have hu : WaitersCoherent u := hcoherent.of_eq rfl rfl rfl
  have released {t : State} (ht : Released c u t) : freed t := ⟨ht.waiter, ht.unlisted, ht.others, ht.counter⟩
  refine ⟨fun hs hfree => ?stop, fun hs hpending => ?overlap, fun hs hp => ?enqueued, fun hp => ⟨fun hs => ?idle,
    fun hs => ?idleForced⟩⟩
  case stop =>
    have hstep : step s = .next (setJob h (.inControl c rg fp) (controlStop c u)) := by
      rw [step_issue hs]; exact (withId_val c _).trans (hostControl_stop hfree)
    split
    · rename_i hp
      have hstop : controlStop c u = u.setCh c { u.ch c with enabled := false } :=
        (controlStop_eq hu c).trans (if_pos hp)
      rw [hstep, hstop]; rfl
    · rename_i hp
      obtain ⟨hdisabled, hreleased⟩ := controlStop_released hu hp
      exact ⟨_, hstep, hdisabled, released (hreleased.of_eq rfl rfl), by rw [ctx_setJob]⟩
  case overlap =>
    rw [step_issue hs]; exact (withId_val c _).trans (hostControl_overlap hpending)
  case enqueued =>
    obtain ⟨hunlock, hforced⟩ := hostUnlock_enqueued (h := h) hu hp
    have hstep : step s = hostUnlockWaiter h c u := by
      obtain hs | hs := hs
      · rw [step_issue hs]; exact withId_val c _
      · rw [step_issue hs]; exact (withId_val c _).trans hforced
    rw [hstep, hunlock]
    split
    · rename_i henabled; exact if_pos henabled
    · rename_i henabled
      exact ⟨_, if_neg henabled, released ((released_wake hu).of_eq rfl rfl)⟩
  case idle =>
    rw [step_issue hs]; exact (withId_val c _).trans (if_pos hp)
  case idleForced =>
    have hkept : unlockForced (.worker c) u = u := (unlockForced_eq hu).trans (if_pos hp)
    have hallowed : ¬ cancelRefused c u = true := by
      have hnone : (u.ch c).waiter.place = none := hp
      simp [cancelRefused, hnone]
    rw [step_issue hs]
    exact (withId_val c _).trans ((if_neg hallowed).trans (congrArg (returns (.ctx h) .done) hkept))

end Sys2Proof.Machine
end

section
/-! PROOFS. The end of a hold inside a module write (40_syncpt.md R130, R134; 42_fifo_registry.md R181, R189), and
module accesses issued by a host context (R188, R190). -/

namespace Sys2Proof.Machine

/-! ### The end of a hold of a worker -/

/-- A step of a worker inside a handler's call. -/
theorem step_call {s : State} {c : Chan} {rest : List Event} {k : Call} (hs : Scheduled c rest s)
    (hr : (s.ch c).running = true) (hk : (s.ch c).call = some k) : step s = callStep c k (s.setAgenda rest) := by
  rw [step_worker hs]
  simp [workerStep, hr, hk]

/-- A worker past its wait takes the section back if it is free, and else waits for it (R130 step C). -/
theorem reacquire_eq (c : Chan) (qs : List CoreReq) (s : State) :
    reacquire c qs s =
      if s.owner = none then
        continueCall c (runRequests (.worker c) qs ((s.setCh c { s.ch c with call := none }).setOwner (some c)))
      else .next (s.setCh c { s.ch c with call := some ⟨qs, .reacquire⟩ }) := by
  unfold reacquire
  cases s.owner <;> rfl

/-- Writing back the call a worker stands in changes nothing. -/
theorem setCh_call_self {s : State} {c : Chan} {k : Option Call} (hk : (s.ch c).call = k) :
    s.setCh c { s.ch c with call := k } = s := by
  subst hk
  exact setCh_ch s c

theorem callStep_wait (c : Chan) (qs : List CoreReq) (s : State) :
    callStep c ⟨qs, .inWait⟩ s =
      if (s.ch c).waiter.signalled = false then .next s
      else reacquire c qs (s.setCh c
        { s.ch c with waiter := { (s.ch c).waiter with signalled := false } }) := by
  cases h : (s.ch c).waiter.signalled <;> simp [callStep, h]

/-- A step of a worker held in a wait: the hold, or the taking back of the section (R130 steps B and C, R134). -/
theorem step_wait {s : State} {c : Chan} {rest : List Event} {qs : List CoreReq} (hs : Scheduled c rest s)
    (hr : (s.ch c).running = true) (hk : (s.ch c).call = some ⟨qs, .inWait⟩) :
    let u := s.setAgenda rest
    let awake := { s.ch c with waiter := { (s.ch c).waiter with signalled := false } }
    step s =
      if (s.ch c).waiter.signalled = false then .next u
      else if s.owner = none then
        continueCall c (runRequests (.worker c) qs ((u.setCh c { awake with call := none }).setOwner (some c)))
      else .next (u.setCh c { awake with call := some ⟨qs, .reacquire⟩ }) := by
  rw [step_call hs hr hk, callStep_wait, reacquire_eq, setCh_setCh, setCh_setCh, ch_setCh_self]
  rfl

theorem callStep_push {s : State} {c : Chan} {w : Word} {qs : List CoreReq}
    (hk : (s.ch c).call = some ⟨.push w :: qs, .inPush⟩) :
    callStep c ⟨.push w :: qs, .inPush⟩ s =
      if (s.ch c).fifo.full then .next s
      else continueCall c (runRequests (.worker c) qs
        (s.setCh c { s.ch c with call := none, fifo := (s.ch c).fifo.push w })) := by
  have hend : callStep c ⟨.push w :: qs, .inPush⟩ s =
      continueCall c (runRequests (.worker c) (.push w :: qs) (setCall c none s)) := rfl
  have hhold : setCall c (some ⟨.push w :: qs, .inPush⟩) (setCall c none s) = s := by
    simpa [setCall] using setCh_call_self hk
  rw [hend, continueCall_push, hhold]
  simp [setCall, fifoPush]

/-- With no request left the module write is complete, and with it IMM and the last word of a burst. -/
theorem continueCall_done {s : State} {c : Chan}
    (hp : (s.ch c).pos = .idle ∨ ∃ off inc, (s.ch c).pos = .burst off 1 inc) :
    continueCall c (runRequests (.worker c) [] s) = .next (instrDone c s) := by
  obtain ⟨-, -, hlast⟩ := handlerWaitGivesUpSection
  exact hlast s c hp

/-! ### The end of a hold of a host context -/

theorem step_resume_wait {s : State} {h : Nat} {rest : List Event} {qs : List CoreReq}
    (hs : s.agenda = .resume h :: rest) (hj : (s.ctx h).job = .inWait qs) :
    step s = hostWaitStep h qs (s.setAgenda rest) := by
  rw [step_resume hs, hostResume, ctx_setAgenda, hj]

theorem hostWaitStep_eq (h : Nat) (qs : List CoreReq) (s : State) :
    hostWaitStep h qs s =
      if (s.ctx h).waiter.signalled = false then .next s
      else continueHost h (runRequests (.ctx h) qs
        (s.setCtx h ⟨{ (s.ctx h).waiter with signalled := false }, .idle⟩)) := by
  cases hw : (s.ctx h).waiter.signalled <;> simp [hostWaitStep, hw]

/-- Settles O37: each hold has its own end, and a woken worker's is the taking back of the section. -/
theorem wokenWorkerRetakesSection : Obligations.WokenWorkerRetakesSection := by
  constructor
  case left =>
    intro s c rest qs hs hr u awake retaken go
    refine ⟨step_wait hs hr, fun hk => ?reacquire, fun hk hw ho hp => ?complete, fun w hk => ?push⟩
    case reacquire =>
      have hhold : u.setCh c { u.ch c with call := some ⟨qs, .reacquire⟩ } = u := setCh_call_self hk
      rw [step_call hs hr hk]
      exact (reacquire_eq c qs u).trans (by rw [hhold]; rfl)
    case complete =>
      have hretaken : ((retaken awake).ch c).pos = (s.ch c).pos := by simp [retaken, awake]
      have hgo : step s = continueCall c (runRequests (.worker c) [] (retaken awake)) :=
        ((step_wait hs hr hk).trans (if_neg (by simp [hw]))).trans (if_pos ho)
      exact hgo.trans (continueCall_done (by rwa [hretaken]))
    case push =>
      rw [step_call hs hr hk]
      exact callStep_push (s := u) hk
  case right =>
    intro s h rest qs hs hj u t
    have hstep := (step_resume_wait hs hj).trans (hostWaitStep_eq h qs u)
    refine ⟨hstep, fun hw hqs => ?_⟩
    subst hqs
    exact hstep.trans (if_neg (by rw [Bool.not_eq_false]; exact hw))

/-! ### Module accesses issued by a host context -/

theorem hostDispatchWrite_beyond {h : Nat} {k : BitVec 16} {off v : Word} {s : State}
    (ho : 0xFFF < off.toNat) : hostDispatchWrite h k off v s = .refused (.offsetBeyond12 off) :=
  if_pos (show Config.maxOffset < off from BitVec.lt_def.2 ho)

theorem hostDispatchWrite_none {h : Nat} {k : BitVec 16} {off v : Word} {s : State} (ho : off.toNat ≤ 0xFFF)
    (hm : lookupModule k s = none) :
    hostDispatchWrite h k off v s = returns (.ctx h) .done (dropWrite (.ctx h) off v s) := by
  rw [hostDispatchWrite, if_neg (not_maxOffset_lt ho), hm]

theorem hostDispatchWrite_some {h : Nat} {k : BitVec 16} {off v : Word} {m : Module} {s : State}
    (ho : off.toNat ≤ 0xFFF) (hm : lookupModule k s = some m) :
    hostDispatchWrite h k off v s =
      continueHost h (runRequests (.ctx h) (handlerRequests m off v s.fresh)
        (moduleWritten (.ctx h) m off v s)) := by
  rw [hostDispatchWrite, if_neg (not_maxOffset_lt ho), hm]

/-- Every host context but `h` goes on with what it was doing. -/
def OtherJobsKept (h : Nat) (s t : State) : Prop := ∀ g, g ≠ h → (t.ctx g).job = (s.ctx g).job

theorem otherJobsKept_setCtx (h : Nat) (x : HostCtx) (s : State) : OtherJobsKept h s (s.setCtx h x) :=
  fun g hg => by rw [ctx_setCtx_ne s h g x hg]

theorem otherJobsKept_runRequests {h : Nat} {qs : List CoreReq} {s t : State}
    (ht : (runRequests (.ctx h) qs s).state = some t) : OtherJobsKept h s t := by
  refine runRequests_rel (P := OtherJobsKept h) (fun _ _ _ => rfl)
    (fun hst htu g hg => (htu g hg).trans (hst g hg)) (fun hr g _ => ?_) (fun hr => ?_)
    (fun _ _ _ hd => by cases hd) qs ht
  · rw [(workerFrame_answer _ 0 _ _).job, (workerFrame_syncOp 0 hr).job]
  · obtain ⟨i, k, v, b, rfl, -⟩ := syncOp_held hr
    rw [enqueue_ctx]
    exact otherJobsKept_setCtx h _ _

theorem otherJobsKept_continueHost {h : Nat} {qs : List CoreReq} {s t : State}
    (ht : continueHost h (runRequests (.ctx h) qs s) = .next t) : OtherJobsKept h s t := by
  obtain ⟨u, hu, rfl⟩ | ⟨qs', ph, u, hu, rfl⟩ := continueHost_next ht
  · exact otherJobsKept_runRequests (t := u) (by rw [hu]; rfl)
  · have hkept := otherJobsKept_runRequests (t := u) (by rw [hu]; rfl)
    exact fun g hg => (otherJobsKept_setCtx h _ u g hg).trans (hkept g hg)

/-- Settles O47: a write is dropped or reaches its module, whose handler's requests follow in the context of the
caller; a read answers the free value. -/
theorem hostModuleAccess : Obligations.HostModuleAccess := by
  intro s h rest k off v
  refine ⟨fun hs => ?write, fun hs => ?read⟩
  case write =>
    have hstep : step s = hostDispatchWrite h k off v (s.setAgenda rest) := step_issue hs
    rw [hstep]
    split
    · exact hostDispatchWrite_beyond ‹_›
    · rename_i ho
      have ho : off.toNat ≤ 0xFFF := Nat.not_lt.1 ho
      split
      · rename_i hm
        exact hostDispatchWrite_none (s := s.setAgenda rest) ho hm
      · rename_i m hm
        obtain ⟨-, rfl⟩ := lookupModule_eq_some hm
        intro u
        have hwrite : hostDispatchWrite h m.classId off v (s.setAgenda rest) =
            continueHost h (runRequests (.ctx h) (handlerRequests m off v s.fresh) u) :=
          hostDispatchWrite_some (s := s.setAgenda rest) ho hm
        have silent (hq : handlerRequests m off v s.fresh = []) :
            hostDispatchWrite h m.classId off v (s.setAgenda rest) =
              .next { u with out := .reply (.ctx h) .done :: u.out } := by
          rw [hwrite, hq]; rfl
        refine ⟨hwrite, silent, fun r qs t hq hp => ?_, fun t g hg ht => ⟨?_, fun hq => ?_⟩⟩
        · have hfirst := hwrite.trans (by rw [hq, runRequests_performed hp])
          exact ⟨hfirst, fun hqs => by rw [hfirst, hqs]; rfl⟩
        · exact otherJobsKept_continueHost (hwrite.symm.trans ht) g hg
        · cases (silent hq).symm.trans ht; rfl
  case read =>
    have hstep : step s = hostDispatchRead h k off (s.setAgenda rest) := step_issue hs
    rw [hstep]
    cases hm : lookupModule k s with
    | none =>
      have hnone : lookupModule k (s.setAgenda rest) = none := hm
      simp only [hostDispatchRead, hnone]
    | some m =>
      have hsome : lookupModule k (s.setAgenda rest) = some m := hm
      simp only [hostDispatchRead, hsome]
      exact ⟨_, rfl⟩

end Sys2Proof.Machine
end

section
/-! PROOFS. The hardware mutex table (41_mlock.md R160 to R165, 46_extend.md R256, R257): the writes it can get, that
every step makes at most one of them and so keeps the table exclusive, and the mutex operations of a worker and of
the CPU. -/

namespace Sys2Proof.Machine

/-! ### The writes of the mutex table -/

/-- At most one of the CPU and a channel owns the slot, and the recorded owner is a channel (R160). -/
def SlotExclusive (x : Mlock) : Prop := ¬(x.cpuOwns = true ∧ x.channelOwns = true) ∧ x.owner.toNat < 8

/-- What one step can make of a mutex table `m`: nothing; one of the four operations on a slot, an acquire only
where the slot is not owned by another party (R161, R162, R164, R165); or the table after subsystem reset. -/
inductive TableWrite (m : Vector Mlock 16) : Vector Mlock 16 → Prop
  | kept : TableWrite m m
  | acquired (c : Chan) (k : Fin 16) (hfree : ¬(m[k].cpuOwns = true ∨ m[k].channelOwns = true)) :
      TableWrite m (m.set k ⟨true, false, BitVec.ofNat 4 c⟩)
  | released (k : Fin 16) : TableWrite m (m.set k { m[k] with channelOwns := false })
  | cpuAcquired (k : Fin 16) (hfree : m[k].channelOwns = false) :
      TableWrite m (m.set k { m[k] with cpuOwns := true })
  | cpuReleased (k : Fin 16) : TableWrite m (m.set k { m[k] with cpuOwns := false })
  | reset : TableWrite m State.reset.mls

theorem TableWrite.of_eq {m n : Vector Mlock 16} (h : n = m) : TableWrite m n := h ▸ .kept

theorem slotExclusive_set {m : Vector Mlock 16} (hm : ∀ d : Fin 16, SlotExclusive m[d]) (k : Fin 16) {x : Mlock}
    (hx : SlotExclusive x) (d : Fin 16) : SlotExclusive (m.set k x)[d] := by
  simp only [Fin.getElem_fin, Vector.getElem_set]
  split
  · exact hx
  · exact hm d

/-- A channel's number fits the owner field and names a channel. -/
theorem ownerOfChan_lt (c : Chan) : (BitVec.ofNat 4 c.val).toNat < 8 := by
  have := c.isLt
  rw [BitVec.toNat_ofNat]
  omega

/-- An acquire sets one owner where there is none, and a release clears one. -/
theorem TableWrite.exclusive {m n : Vector Mlock 16} (h : TableWrite m n)
    (hm : ∀ d : Fin 16, SlotExclusive m[d]) : ∀ d : Fin 16, SlotExclusive n[d] := by
  cases h with
  | kept => exact hm
  | acquired c k => exact slotExclusive_set hm k ⟨by simp, ownerOfChan_lt c⟩
  | released k => exact slotExclusive_set hm k ⟨by simp, (hm k).2⟩
  | cpuAcquired k hfree =>
    refine slotExclusive_set hm k ⟨fun ⟨_, howned⟩ => ?_, (hm k).2⟩
    exact absurd howned (Bool.eq_false_iff.1 hfree)
  | cpuReleased k => exact slotExclusive_set hm k ⟨by simp, (hm k).2⟩
  | reset => exact mutexExclusive_reset

/-! ### What leaves the mutex table alone -/

theorem WriteFrame.mls {c : Chan} {s t : State} (h : WriteFrame c s t) : t.mls = s.mls := by rw [h.rest]

theorem WaitersOnly.mls {s t : State} (h : WaitersOnly s t) : t.mls = s.mls := by rw [h.rest]

theorem RouterOnly.mls {s t : State} (h : RouterOnly s t) : t.mls = s.mls := by rw [h.rest]

theorem SyncFrame.mls {s t : State} (h : SyncFrame s t) : t.mls = s.mls := by rw [h.rest]

theorem syncOp_returned_mls {a : AgentId} {s t : State} {r : SyncReq} {v : Reply}
    (h : syncOp a s r = .returned t v) : t.mls = s.mls := by
  obtain h | ⟨i, h⟩ | ⟨i, w, h⟩ | ⟨i, w, h⟩ | ⟨j, w, h⟩ := syncOp_returned h <;> rw [h]
  · exact (syncFrame_reevaluate i _ _).mls
  · exact (syncFrame_reevaluate i _ _).mls
  · exact (syncFrame_reevaluate i _ _).mls
  · rfl

theorem syncOp_held_mls {a : AgentId} {s t : State} {r : SyncReq} (h : syncOp a s r = .held t) :
    t.mls = s.mls := by
  obtain ⟨i, k, v, b, rfl, -⟩ := syncOp_held h
  cases a with
  | worker c => rw [enqueue_worker]; rfl
  | ctx n => rw [enqueue_ctx]; rfl

theorem runRequests_mls {a : AgentId} {reqs : List CoreReq} {s t : State}
    (h : (runRequests a reqs s).state = some t) : t.mls = s.mls :=
  runRequests_rel (P := fun s t => t.mls = s.mls) (fun _ => rfl) (fun hst htu => htu.trans hst)
    (fun hr => (writeFrame_answer _ _ 0 _).mls.trans (syncOp_returned_mls hr)) syncOp_held_mls
    (fun c v u _ => (writeFrame_fifoPush c v u).mls) reqs h

theorem continueCall_mls {c : Chan} {reqs : List CoreReq} {s t : State}
    (h : continueCall c (runRequests (.worker c) reqs s) = .next t) : t.mls = s.mls := by
  obtain ⟨u, hu, rfl⟩ | ⟨qs, ph, u, hu, rfl⟩ := continueCall_next h
  · exact (onlyChannel_afterWrite c u).mls.trans (runRequests_mls (by rw [hu]; rfl))
  · exact (onlyChannel_setCall c _ u).mls.trans (runRequests_mls (by rw [hu]; rfl))

theorem continueHost_mls {n : Nat} {reqs : List CoreReq} {s t : State}
    (h : continueHost n (runRequests (.ctx n) reqs s) = .next t) : t.mls = s.mls := by
  obtain ⟨u, hu, rfl⟩ | ⟨qs, ph, u, hu, rfl⟩ := continueHost_next h
  all_goals exact runRequests_mls (t := u) (by rw [hu]; rfl)

theorem modWrite_mls {c : Chan} {off v : Word} {s t : State} (h : modWrite c off v s = .next t) :
    t.mls = s.mls := by
  obtain ⟨-, ⟨-, rfl⟩ | ⟨m, -, h⟩⟩ := modWrite_next h
  · exact (onlyChannel_afterWrite c _).mls
  · exact (continueCall_mls h).trans rfl

theorem resumeCall_mls {c : Chan} {reqs : List CoreReq} {s t : State} (h : resumeCall c reqs s = .next t) :
    t.mls = s.mls :=
  (continueCall_mls h).trans rfl

theorem reacquire_mls {c : Chan} {reqs : List CoreReq} {s t : State} (h : reacquire c reqs s = .next t) :
    t.mls = s.mls := by
  obtain ⟨-, h⟩ | ⟨-, rfl⟩ := reacquire_next h
  · exact (resumeCall_mls h).trans rfl
  · rfl

theorem callStep_mls {c : Chan} {k : Call} {s t : State} (h : callStep c k s = .next t) : t.mls = s.mls := by
  obtain ⟨-, -, h⟩ | ⟨-, -, rfl⟩ | ⟨-, h⟩ | ⟨-, h⟩ := callStep_cases h
  · exact (reacquire_mls h).trans rfl
  · rfl
  · exact reacquire_mls h
  · exact resumeCall_mls h

theorem dataStep_mls {c : Chan} {r : Reader} {onStop s t : State} {use : Word → State → Res}
    (hstop : onStop.mls = s.mls) (huse : ∀ w u v, use w u = .next v → v.mls = u.mls)
    (h : dataStep c r onStop use s = .next t) : t.mls = s.mls := by
  obtain ⟨-, rfl⟩ | ⟨-, rfl⟩ | ⟨w, -, -, hu⟩ := dataStep_next h
  · exact (onlyChannel_raiseFault c _ _ s).mls
  · exact hstop
  · exact (huse _ _ _ hu).trans rfl

theorem dataMask_mls {c : Chan} {off : Word} {bits : BitVec 16} {i : Nat} {s t : State}
    (h : dataMask c off bits i s = .next t) : t.mls = s.mls := by
  unfold dataMask at h
  split at h
  · cases h; exact (onlyChannel_complete c s).mls
  · refine dataStep_mls (onlyChannel_complete c s).mls (fun _ _ _ hw => ?_) h
    exact (modWrite_mls hw).trans rfl

theorem dataInsert_mls {c : Chan} {s t : State} (h : dataInsert c s = .next t) : t.mls = s.mls := by
  unfold dataInsert at h
  split at h
  · exact dataStep_mls (onlyChannel_complete c (setInner c none s)).mls (fun _ _ _ hw => modWrite_mls hw) h
  · cases h; exact (onlyChannel_complete c s).mls

/-! ### What a worker writes of the mutex table -/

theorem tableWrite_acquireStep (c : Chan) (k : Fin 16) (s : State) :
    TableWrite s.mls (acquireStep c k s).mls := by
  rw [acquireStep_eq]
  split_ifs with _ hfree
  · exact .of_eq (onlyChannel_instrDone c s).mls
  · exact .kept
  · exact .acquired c k hfree

theorem tableWrite_releaseStep (c : Chan) (k : Fin 16) (s : State) :
    TableWrite s.mls (releaseStep c k s).mls := by
  rw [releaseStep_eq]
  split_ifs
  · exact .of_eq (onlyChannel_instrDone c s).mls
  · exact .kept
  · exact .released k

theorem countForeign_mls (c : Chan) (k : Fin 16) (s : State) : (countForeign c k s).mls = s.mls := by
  unfold countForeign
  split <;> rfl

/-- The head of an instruction: the two of EXTEND alone write the mutex table. -/
theorem tableWrite_exec {i : Instr} {s t : State} (h : exec i s = .next t) : TableWrite s.mls t.mls := by
  cases i with
  | imm o v => exact .of_eq (modWrite_mls h)
  | setclass o k b => cases h; exact .of_eq (onlyChannel_startMask s.active _ _ (selectClass s.active k s)).mls
  | incr o n | nonincr o n => cases h; exact .of_eq (onlyChannel_startBurst s.active _ _ _ s).mls
  | mask o n => cases h; exact .of_eq (onlyChannel_startMask s.active _ _ s).mls
  | restart o => cases h; exact .of_eq (onlyChannel_restart s.active _ s).mls
  | gatherInline o n k | gatherInsert o n k =>
    cases h; exact .of_eq (onlyChannel_gatherHead s.active _ _ _ _ _ s).mls
  | acquireMlock v => cases h; exact tableWrite_acquireStep s.active _ (setPos s.active _ s)
  | releaseMlock v =>
    cases h
    have hcounted := countForeign_mls s.active (lockOperand v) (setPos s.active (.inRelease (lockOperand v)) s)
    have hwrite := tableWrite_releaseStep s.active (lockOperand v)
      (countForeign s.active (lockOperand v) (setPos s.active (.inRelease (lockOperand v)) s))
    rwa [hcounted] at hwrite
  | chdone v => cases h; exact .of_eq (onlyChannel_complete s.active s).mls
  | _ => cases h; exact .of_eq (onlyChannel_raiseFault s.active _ _ s).mls

theorem tableWrite_instrStep {c : Chan} {s t : State} (h : instrStep c s = .next t) :
    TableWrite s.mls t.mls := by
  obtain ⟨-, h⟩ | ⟨_, _, _, -, h⟩ | ⟨_, _, _, -, h⟩ | ⟨_, _, _, _, -, h⟩ | ⟨-, h⟩ | ⟨k, -, rfl⟩ |
    ⟨k, -, rfl⟩ := instrStep_cases h
  · obtain ⟨-, rfl⟩ | ⟨-, rfl⟩ | ⟨-, -, rfl⟩ | ⟨w, -, -, -, h⟩ := h
    · exact .of_eq (onlyChannel_raiseFault c _ _ s).mls
    · exact .of_eq (onlyChannel_stopGather c s).mls
    · exact .kept
    · exact tableWrite_exec (s := fetched c s) h
  · exact .of_eq (dataStep_mls (onlyChannel_complete c s).mls (fun _ _ _ hw => modWrite_mls hw) h)
  · exact .of_eq (dataMask_mls h)
  · refine .of_eq (dataStep_mls (onlyChannel_complete c s).mls (fun _ _ _ hw => ?_) h)
    cases hw
    exact (onlyChannel_enterGather c _ _ _ _ _ _).mls
  · exact .of_eq (dataInsert_mls h)
  · exact tableWrite_acquireStep c k s
  · exact tableWrite_releaseStep c k s

theorem tableWrite_workerStep {c : Chan} {s t : State} (h : workerStep c s = .next t) :
    TableWrite s.mls t.mls := by
  obtain ⟨-, -, rfl⟩ | ⟨-, -, rfl⟩ | ⟨k, -, -, h⟩ | ⟨-, -, h⟩ := workerStep_cases h
  · exact .kept
  · exact .of_eq (onlyChannel_startRun c s).mls
  · exact .of_eq (callStep_mls h)
  · exact tableWrite_instrStep h

/-! ### What a host context writes of the mutex table -/

theorem returns_mls {a : AgentId} {r : Reply} {s t : State} (h : returns a r s = .next t) : t.mls = s.mls := by
  rw [returns_next h]; rfl

/-- An operation that returns writes of the table what it did before it returned. -/
theorem tableWrite_returns {a : AgentId} {r : Reply} {s t u : State} (hw : TableWrite s.mls t.mls)
    (h : returns a r t = .next u) : TableWrite s.mls u.mls := by
  rwa [returns_mls h]

theorem finishJob_mls {n : Nat} {r : Reply} {s t : State} (h : finishJob n r s = .next t) : t.mls = s.mls :=
  (returns_mls h).trans rfl

theorem hostResume_mls {n : Nat} {s t : State} (h : hostResume n s = .next t) : t.mls = s.mls := by
  obtain rfl | ⟨qs, -, h⟩ | ⟨c, rg, fp, -, -, h⟩ | ⟨c, -, -, h⟩ | ⟨c, v, -, -, h⟩ := hostResume_cases h
  · rfl
  · obtain ⟨-, rfl⟩ | ⟨-, h⟩ := hostWaitStep_cases h
    · rfl
    · exact (continueHost_mls h).trans rfl
  · exact (finishJob_mls h).trans (onlyChannel_controlResetGet c rg fp s).mls
  · exact (finishJob_mls h).trans rfl
  · exact (finishJob_mls h).trans rfl

theorem hostControl_mls {n : Nat} {c : Chan} {st rg fp : Bool} {s t : State}
    (h : hostControl n c st rg fp s = .next t) : t.mls = s.mls := by
  unfold hostControl at h
  split_ifs at h
  · cases h; exact (waitersOnly_unlockForced (.worker c) _).mls
  · exact (returns_mls h).trans (onlyChannel_controlEnable c rg fp s).mls

theorem hostSync_mls {n : Nat} {r : SyncReq} {s t : State} (h : hostSync n r s = .next t) : t.mls = s.mls := by
  unfold hostSync at h
  split at h
  · rename_i hr; exact (returns_mls h).trans (syncOp_returned_mls hr)
  · rename_i hr; cases h; exact (syncOp_held_mls hr :)
  · cases h

theorem hostDispatchWrite_mls {n : Nat} {k : BitVec 16} {off v : Word} {s t : State}
    (h : hostDispatchWrite n k off v s = .next t) : t.mls = s.mls := by
  unfold hostDispatchWrite at h
  split at h
  · cases h
  · split at h
    · exact (returns_mls h).trans rfl
    · exact (continueHost_mls h).trans rfl

theorem hostDispatchRead_mls {n : Nat} {k : BitVec 16} {off : Word} {s t : State}
    (h : hostDispatchRead n k off s = .next t) : t.mls = s.mls := by
  unfold hostDispatchRead at h
  split at h
  · cases h
  · exact (returns_mls h).trans rfl

theorem hostPush_mls {n : Nat} {c : Chan} {v : Word} {s t : State} (h : hostPush n c v s = .next t) :
    t.mls = s.mls := by
  unfold hostPush at h
  split_ifs at h
  · cases h; rfl
  · exact (returns_mls h).trans rfl

theorem hostPop_mls {n : Nat} {c : Chan} {s t : State} (h : hostPop n c s = .next t) : t.mls = s.mls := by
  unfold hostPop at h
  split_ifs at h
  · cases h; rfl
  · exact (returns_mls h).trans rfl

theorem tableWrite_cpuTryAcquire (k : Fin 16) (s : State) : TableWrite s.mls (cpuTryAcquire k s).mls := by
  unfold cpuTryAcquire
  split_ifs with hfree
  · exact .kept
  · exact .cpuAcquired k (Bool.eq_false_iff.2 hfree)

/-- The operations of the host: `cpu_try_acquire`, `cpu_release` and subsystem reset alone write the mutex
table. -/
theorem tableWrite_hostOp {n : Nat} {op : HostOp} {s t : State} (h : hostOp n op s = .next t) :
    TableWrite s.mls t.mls := by
  cases op with
  | init c =>
    obtain ⟨c, -, h⟩ := withId_next h
    unfold hostInit at h
    split_ifs at h
    exact .of_eq ((returns_mls h).trans rfl)
  | setBase c v =>
    obtain ⟨c, -, h⟩ := withId_next h
    exact .of_eq ((returns_mls h).trans (onlyChannel_cdmaSetBase c v s).mls)
  | setPut c v =>
    obtain ⟨c, -, h⟩ := withId_next h
    exact .of_eq ((returns_mls h).trans (onlyChannel_cdmaSetPut c v s).mls)
  | setEnd c | cpuGetRaw k | irqSetDest p m | irqGetDest p | irqGetStatus p =>
    obtain ⟨_, -, h⟩ := withId_next h
    exact .of_eq ((returns_mls h).trans rfl)
  | control c st rg fp =>
    obtain ⟨c, -, h⟩ := withId_next h
    exact .of_eq (hostControl_mls h)
  | sync r => exact .of_eq (hostSync_mls h)
  | unlockWaiter c =>
    obtain ⟨c, -, h⟩ := withId_next h
    unfold hostUnlockWaiter at h
    split_ifs at h
    exact .of_eq ((returns_mls h).trans (waitersOnly_wake _ s).mls)
  | unlockWaiterForced c =>
    obtain ⟨c, -, h⟩ := withId_next h
    unfold hostUnlockForced at h
    split_ifs at h
    exact .of_eq ((returns_mls h).trans (waitersOnly_unlockForced _ s).mls)
  | cpuTryAcquire k =>
    obtain ⟨k, -, h⟩ := withId_next h
    exact tableWrite_returns (tableWrite_cpuTryAcquire k s) h
  | cpuRelease k =>
    obtain ⟨k, -, h⟩ := withId_next h
    exact tableWrite_returns (t := cpuRelease k s) (.cpuReleased k) h
  | wakeAllChannelWaiters | lookup k => exact .of_eq ((returns_mls h).trans rfl)
  | register m =>
    simp only [hostOp, hostRegister] at h
    split_ifs at h
    exact .of_eq ((returns_mls h).trans rfl)
  | dispatchWrite k off v => exact .of_eq (hostDispatchWrite_mls h)
  | dispatchRead k off => exact .of_eq (hostDispatchRead_mls h)
  | push c v =>
    obtain ⟨c, -, h⟩ := withId_next h
    exact .of_eq (hostPush_mls h)
  | pop c =>
    obtain ⟨c, -, h⟩ := withId_next h
    exact .of_eq (hostPop_mls h)
  | popNonempty c =>
    obtain ⟨c, -, h⟩ := withId_next h
    unfold hostPopNonempty at h
    split_ifs at h
    exact .of_eq ((returns_mls h).trans rfl)
  | irqClearStatus p m =>
    obtain ⟨p, -, h⟩ := withId_next h
    exact .of_eq ((returns_mls h).trans (routerOnly_irqClearStatus p m s).mls)
  | subsystemReset =>
    simp only [hostOp, hostReset] at h
    split_ifs at h
    exact tableWrite_returns (t := subsystemReset s) .reset h

/-! ### Every step -/

/-- Every step makes at most one write of the mutex table. -/
theorem tableWrite_step {s t : State} (h : step s = .next t) : TableWrite s.mls t.mls := by
  obtain ⟨u, hu, hevent⟩ := step_cases h
  have hmls : u.mls = s.mls := by rw [hu]
  rw [← hmls]
  obtain ⟨c, -, h⟩ | ⟨n, op, -, -, h⟩ | ⟨n, -, h⟩ | ⟨addr, bytes, -, rfl⟩ := hevent
  · exact tableWrite_workerStep h
  · exact tableWrite_hostOp h
  · exact .of_eq (hostResume_mls h)
  · exact .kept

/-- Settles O56: a step makes at most one write of the mutex table, and each keeps every slot exclusive. -/
theorem stepKeepsMutexExclusive : Obligations.StepKeepsMutexExclusive :=
  fun _ _ hs h => (tableWrite_step h).exclusive hs

/-! ### ACQUIRE_MLOCK and RELEASE_MLOCK -/

theorem instrDone_setMl_setPos (c : Chan) (k : Fin 16) (p : Pos) (x : Mlock) (s : State) :
    instrDone c ((setPos c p s).setMl k x) = instrDone c (s.setMl k x) :=
  instrDone_setPos c p (s.setMl k x)

/-- A step of ACQUIRE_MLOCK by a worker put at position `p`: it stands there only if it holds (46_extend.md R256). -/
theorem acquireStep_setPos (c : Chan) (k : Fin 16) (p : Pos) (s : State) :
    acquireStep c k (setPos c p s) =
      if (s.ch c).enabled = false then instrDone c s
      else if (s.ml k).cpuOwns = true ∨ (s.ml k).channelOwns = true then standing c p s
      else instrDone c (s.setMl k ⟨true, false, BitVec.ofNat 4 c⟩) := by
  rw [acquireStep_eq, ch_setPos, instrDone_setPos, instrDone_setMl_setPos]
  rfl

/-- Settles O25: the head stands at `in_acquire(k)` and takes the step of that position. -/
theorem acquireMlock : Obligations.AcquireMlock := by
  intro s value c k
  have hhead : exec (.acquireMlock value) s = .next (acquireStep c k (setPos c (.inAcquire k) s)) := rfl
  exact ⟨_, hhead, fun a => by rw [(exec_frame hhead).mem], acquireStep_setPos c k (.inAcquire k) s⟩

/-- A step of RELEASE_MLOCK by a worker put at position `p`: it stands there only if it holds (R257). -/
theorem releaseStep_setPos (c : Chan) (k : Fin 16) (p : Pos) (s : State) :
    releaseStep c k (setPos c p s) =
      if (s.ch c).enabled = false then instrDone c s
      else if (s.ml k).cpuOwns = true ∨
        ((s.ml k).channelOwns = true ∧ (s.ml k).owner ≠ BitVec.ofNat 4 c) then standing c p s
      else instrDone c (s.setMl k { s.ml k with channelOwns := false }) := by
  rw [releaseStep_eq, ch_setPos, instrDone_setPos, instrDone_setMl_setPos]
  rfl

/-- The counter moves whatever the position of the worker (R165). -/
theorem countForeign_setPos (c : Chan) (k : Fin 16) (p : Pos) (s : State) :
    countForeign c k (setPos c p s) = setPos c p (countForeign c k s) := by
  have hslot : (setPos c p s).ml k = s.ml k := rfl
  simp only [countForeign_eq, ch_setPos, hslot]
  split_ifs <;> rfl

/-- The head of RELEASE_MLOCK: a foreign slot is counted where it holds the worker (R165, R257). -/
theorem releaseStep_countForeign (c : Chan) (k : Fin 16) (p : Pos) (s : State) :
    releaseStep c k (countForeign c k (setPos c p s)) =
      if (s.ch c).enabled = false then instrDone c s
      else if (s.ml k).channelOwns = true ∧ (s.ml k).owner ≠ BitVec.ofNat 4 c then
        standing c p (s.setDiag { s.diag with foreignRelease := s.diag.foreignRelease + 1 })
      else if (s.ml k).cpuOwns = true then standing c p s
      else instrDone c (s.setMl k { s.ml k with channelOwns := false }) := by
  rw [countForeign_setPos, countForeign_eq]
  by_cases hcount : (s.ch c).enabled = true ∧ (s.ml k).channelOwns = true ∧ (s.ml k).owner ≠ BitVec.ofNat 4 c
  case pos =>
    rw [if_pos hcount, releaseStep_setPos]
    simp [hcount]
  case neg =>
    rw [if_neg hcount, releaseStep_setPos]
    cases he : (s.ch c).enabled with
    | false => rfl
    | true =>
      have hown : ¬((s.ml k).channelOwns = true ∧ (s.ml k).owner ≠ BitVec.ofNat 4 c) :=
        fun hforeign => hcount ⟨he, hforeign⟩
      simp only [hown, or_false, if_false]

/-- Settles O26: the head counts a foreign slot and takes the step of `in_release(k)`. -/
theorem releaseMlock : Obligations.ReleaseMlock := by
  intro s value c k foreign
  have hhead : exec (.releaseMlock value) s =
      .next (releaseStep c k (countForeign c k (setPos c (.inRelease k) s))) := rfl
  exact ⟨_, hhead, fun a => by rw [(exec_frame hhead).mem], releaseStep_countForeign c k (.inRelease k) s⟩

/-! ### The hold of a mutex instruction -/

theorem instrStep_inAcquire {c : Chan} {k : Fin 16} {s : State} (hp : (s.ch c).pos = .inAcquire k) :
    instrStep c s = .next (acquireStep c k s) := by rw [instrStep, hp]

theorem instrStep_inRelease {c : Chan} {k : Fin 16} {s : State} (hp : (s.ch c).pos = .inRelease k) :
    instrStep c s = .next (releaseStep c k s) := by rw [instrStep, hp]

/-- Settles O27: the hold condition is evaluated afresh in every step at the position. -/
theorem heldMutexInstructionReevaluates : Obligations.HeldMutexInstructionReevaluates := by
  intro s c rest k hs u
  refine ⟨fun hp => ?acquire, fun hp => ?release⟩
  case acquire =>
    obtain ⟨-, -, hpos⟩ := id hp
    have hstep : step s = .next (acquireStep c k u) := (step_instr hs hp).trans (instrStep_inAcquire hpos)
    exact hstep.trans (congrArg _ (acquireStep_eq c k u))
  case release =>
    obtain ⟨-, -, hpos⟩ := id hp
    have hstep : step s = .next (releaseStep c k u) := (step_instr hs hp).trans (instrStep_inRelease hpos)
    exact hstep.trans (congrArg _ (releaseStep_eq c k u))

/-! ### The CPU flavour -/

/-- Settles O43: each operation is one access to its slot, and returns. -/
theorem cpuMutexOperations : Obligations.CpuMutexOperations := by
  intro s h rest k reply
  refine ⟨fun hs => ?tryAcquire, fun hs => ?release, fun hs => ?getRaw⟩
  case tryAcquire =>
    have hstep : step s = returns (.ctx h) (.flag (!(s.ml k).channelOwns)) (cpuTryAcquire k (s.setAgenda rest)) :=
      (step_issue hs).trans (withId_val k _)
    rw [hstep, cpuTryAcquire, ml_setAgenda]
    cases (s.ml k).channelOwns <;> rfl
  case release => exact (step_issue hs).trans (withId_val k _)
  case getRaw => exact (step_issue hs).trans (withId_val k _)

end Sys2Proof.Machine
end

section
/-! PROOFS. The command FIFO as a queue (10_state.md R37, 42_fifo_registry.md R184), and the FIFO operations of a host
context with their holds (R181 to R183). -/

namespace Sys2Proof.Machine

/-! ### The entries of a FIFO -/

theorem Fifo.entries_length (f : Fifo) : f.entries.length = f.held := by simp [Fifo.entries]

theorem Fifo.held_le (f : Fifo) : f.held ≤ 31 := Nat.le_of_lt_succ (f.wr - f.rd).isLt

theorem Fifo.full_iff_held {f : Fifo} : f.full = true ↔ f.held = 31 := by
  rw [Fifo.full, Fifo.held, beq_iff_eq]
  constructor <;> intro h <;> bv_omega

theorem Fifo.empty_iff_held {f : Fifo} : f.empty = true ↔ f.held = 0 := by
  rw [Fifo.empty, Fifo.held, beq_iff_eq]
  constructor <;> intro h <;> bv_omega

/-- The slot behind the last entry is the one the next push writes. -/
theorem Fifo.rd_add_held (f : Fifo) : f.rd + BitVec.ofNat 5 f.held = f.wr := by
  rw [Fifo.held]
  bv_omega

theorem Fifo.held_push {f : Fifo} (h : f.full = false) (v : Word) : (f.push v).held = f.held + 1 := by
  have hfull : ¬ f.wr + 1 = f.rd := by simpa [Fifo.full] using h
  simp only [Fifo.held, Fifo.push]
  bv_omega

theorem Fifo.held_pop {f : Fifo} (h : f.empty = false) : f.held = f.pop.held + 1 := by
  have hempty : ¬ f.rd = f.wr := by simpa [Fifo.empty] using h
  simp only [Fifo.held, Fifo.pop]
  bv_omega

theorem fifoSlot_inj {i j : BitVec 5} : fifoSlot i = fifoSlot j ↔ i = j :=
  ⟨fun h => BitVec.eq_of_toFin_eq h, congrArg _⟩

/-- A push writes the slot at the write index. -/
theorem Fifo.push_slot (f : Fifo) (v : Word) (i : BitVec 5) :
    (f.push v).buf[fifoSlot i] = if i = f.wr then v else f.buf[fifoSlot i] := by
  simp only [Fifo.push, Fin.getElem_fin, Vector.getElem_set, Fin.val_inj, fifoSlot_inj, eq_comm]

/-- No entry lies in the slot the next push writes. -/
theorem Fifo.entry_slot_ne {f : Fifo} {n : Nat} (h : n < f.held) : f.rd + BitVec.ofNat 5 n ≠ f.wr := by
  rw [Fifo.held] at h
  bv_omega

/-- A push that does not hold adds at the end (R181, R184). -/
theorem Fifo.entries_push {f : Fifo} (h : f.full = false) (v : Word) :
    (f.push v).entries = f.entries ++ [v] := by
  have hkept : ∀ n ∈ List.range f.held,
      (f.push v).buf[fifoSlot ((f.push v).rd + BitVec.ofNat 5 n)] = f.buf[fifoSlot (f.rd + BitVec.ofNat 5 n)] :=
    fun n hn => (f.push_slot v _).trans (if_neg (f.entry_slot_ne (List.mem_range.1 hn)))
  have hnew : (f.push v).buf[fifoSlot ((f.push v).rd + BitVec.ofNat 5 f.held)] = v :=
    (f.push_slot v _).trans (if_pos f.rd_add_held)
  rw [Fifo.entries, held_push h, List.range_succ, List.map_append, List.map_congr_left hkept,
    List.map_singleton, hnew]
  rfl

/-- A pop that does not hold takes the front (R182, R184). -/
theorem Fifo.entries_pop {f : Fifo} (h : f.empty = false) : f.entries = f.front :: f.pop.entries := by
  have hshift (n : Nat) : f.rd + BitVec.ofNat 5 (n + 1) = f.pop.rd + BitVec.ofNat 5 n := by
    rw [Fifo.pop, BitVec.ofNat_add, BitVec.add_comm (BitVec.ofNat 5 n), ← BitVec.add_assoc]
    rfl
  have hfront : f.buf[fifoSlot (f.rd + BitVec.ofNat 5 0)] = f.front := by
    simp only [BitVec.add_zero, Fifo.front]
  rw [Fifo.entries, held_pop h, List.range_succ_eq_map, List.map_cons, hfront, List.map_map]
  simp only [Function.comp_def, Nat.succ_eq_add_one, hshift]
  rfl

/-- Settles O44: the entries of a FIFO after a push and after a pop. -/
theorem fifoKeepsOrder : Obligations.FifoKeepsOrder := fun f v =>
  ⟨fun h => f.entries_push h v, f.entries_pop, f.entries_length, f.entries_length.trans_le f.held_le⟩

/-! ### The FIFO operations of a host context -/

/-- Settles O45: each operation tests its hold in the step that issues it and in each that goes on with it. -/
theorem fifoOperationsHold : Obligations.FifoOperationsHold := by
  intro s h c rest v u pushed popped
  refine ⟨?full, ?empty, fun hi => ?push, fun hi => ?pop, fun hs hj => ?resumePush, fun hs hj => ?resumePop,
    fun hi => ?popNonempty⟩
  case full => rw [Fifo.entries_length]; exact Fifo.full_iff_held
  case empty => rw [← List.length_eq_zero_iff, Fifo.entries_length]; exact Fifo.empty_iff_held
  case push =>
    have hstep : step s = hostPush h c v u := (step_issue hi).trans (withId_val c _)
    rw [hstep, apply_ite Host.Outcome.next]
    rfl
  case pop =>
    have hstep : step s = hostPop h c u := (step_issue hi).trans (withId_val c _)
    rw [hstep, apply_ite Host.Outcome.next]
    rfl
  case resumePush =>
    have hstep : step s = hostResume h u := step_resume hs
    have hjob : (u.ctx h).job = .inPush c v := hj
    rw [hstep, hostResume, hjob, apply_ite Host.Outcome.next]
    rfl
  case resumePop =>
    have hstep : step s = hostResume h u := step_resume hs
    have hjob : (u.ctx h).job = .inPop c := hj
    rw [hstep, hostResume, hjob, apply_ite Host.Outcome.next]
    rfl
  case popNonempty => exact (step_issue hi).trans (withId_val c _)

end Sys2Proof.Machine
end

section
/-! PROOFS. The data words of the register-write instructions and of an inserted gather (43_interpreter_loop.md R205,
44_module_write_opcodes.md R221 to R224, 45_gather.md R243): one word, and the whole run word by word. -/

namespace Sys2Proof.Machine

/-! ### The words ahead of a cursor -/

section
variable {c : Chan} {g : Gather} {w : Word} {ws : List Word} {s : State} (h : WordsAhead c g (w :: ws) s)
include h

/-- A cursor with a word ahead is not stopped (R202). -/
theorem WordsAhead.go : stopped (s.ch c) g = .go := by
  obtain ⟨henabled, hwords⟩ := h
  obtain ⟨hput, hend, -⟩ := hwords 0 (Nat.zero_lt_succ _)
  rw [BitVec.add_zero] at hput hend
  exact stopped_eq_go.2 ⟨henabled, hput, hend⟩

theorem WordsAhead.readWord : s.mem.readWord g.wordIndex = some w := by
  obtain ⟨-, -, hread⟩ := h.2 0 (Nat.zero_lt_succ _)
  rwa [BitVec.add_zero] at hread

/-- Past the first word the others are ahead, in every state with the same memory and stop condition. -/
theorem WordsAhead.tail {t : State} (henabled : (t.ch c).enabled = (s.ch c).enabled)
    (hend : (t.ch c).endPtr = (s.ch c).endPtr) (hmem : t.mem = s.mem) : WordsAhead c g.next ws t := by
  refine ⟨henabled.trans h.1, fun j hj => ?_⟩
  have hcursor (p : Ptr) : p + 1 + BitVec.ofNat 30 j = p + BitVec.ofNat 30 (j + 1) := by
    rw [BitVec.add_assoc, Nat.add_comm j, BitVec.ofNat_add]
    rfl
  have hindex : g.next.wordIndex + BitVec.ofNat 30 j = g.wordIndex + BitVec.ofNat 30 (j + 1) := by
    rw [← hcursor, Gather.wordIndex, Gather.wordIndex, Gather.next, BitVec.add_assoc g.base g.get 1]
  obtain ⟨hput, hstop, hread⟩ := h.2 (j + 1) (Nat.succ_lt_succ hj)
  rw [hindex, hmem, hend]
  simp only [Gather.next, hcursor]
  exact ⟨hput, hstop, hread⟩

/-- A DATA step with a word ahead uses it (R205). -/
theorem dataStep_ahead {r : Reader} {onStop : State} {use : Word → State → Res}
    (hg : (s.ch c).view r = g) : dataStep c r onStop use s = use w (s.setCh c ((s.ch c).advance r)) := by
  subst hg
  have hfetch : fetch c r s = some (w, s.setCh c ((s.ch c).advance r)) := fetch_eq_some.2 ⟨h.readWord, rfl⟩
  rw [dataStep, h.go]
  simp only [hfetch]

end

/-! ### The channel past `n` words -/

theorem advance_reader (x : Channel) : x.advance x.reader = x.readOn 1 := by
  rcases hx : x.inner with _ | ⟨g, _ | _⟩ <;>
    simp [Channel.advance, Channel.reader, Channel.readOn, Gather.next, hx]

theorem readOn_readOn (x : Channel) (m n : Nat) : (x.readOn m).readOn n = x.readOn (m + n) := by
  rcases hx : x.inner with _ | ⟨g, _ | _⟩ <;>
    simp [Channel.readOn, hx, BitVec.ofNat_add, BitVec.add_assoc]

theorem readOn_setPos (x : Channel) (p : Pos) (n : Nat) :
    ({ x with pos := p } : Channel).readOn n = { x.readOn n with pos := p } := by
  rcases hx : x.inner with _ | ⟨g, _ | _⟩ <;> simp [Channel.readOn, hx]

theorem readOn_setCur (x : Channel) (k : Option (BitVec 10)) (n : Nat) :
    ({ x with cur := k } : Channel).readOn n = { x.readOn n with cur := k } := by
  rcases hx : x.inner with _ | ⟨g, _ | _⟩ <;> simp [Channel.readOn, hx]

@[simp] theorem readOn_cur (x : Channel) (n : Nat) : (x.readOn n).cur = x.cur := by
  rcases hx : x.inner with _ | ⟨g, _ | _⟩ <;> simp [Channel.readOn, hx]

@[simp] theorem readOn_enabled (x : Channel) (n : Nat) : (x.readOn n).enabled = x.enabled := by
  rcases hx : x.inner with _ | ⟨g, _ | _⟩ <;> simp [Channel.readOn, hx]

@[simp] theorem readOn_endPtr (x : Channel) (n : Nat) : (x.readOn n).endPtr = x.endPtr := by
  rcases hx : x.inner with _ | ⟨g, _ | _⟩ <;> simp [Channel.readOn, hx]

@[simp] theorem readOn_running (x : Channel) (n : Nat) : (x.readOn n).running = x.running := by
  rcases hx : x.inner with _ | ⟨g, _ | _⟩ <;> simp [Channel.readOn, hx]

@[simp] theorem readOn_call (x : Channel) (n : Nat) : (x.readOn n).call = x.call := by
  rcases hx : x.inner with _ | ⟨g, _ | _⟩ <;> simp [Channel.readOn, hx]

@[simp] theorem readOn_pos (x : Channel) (n : Nat) : (x.readOn n).pos = x.pos := by
  rcases hx : x.inner with _ | ⟨g, _ | _⟩ <;> simp [Channel.readOn, hx]

/-- The gather read past one word is the gather read, past that word. -/
theorem view_readOn (x : Channel) : (x.readOn 1).view (x.readOn 1).reader = (x.view x.reader).next := by
  rw [← advance_reader]
  exact view_advance x

/-! ### What follows a module write -/

/-- A write of a burst is its last, or the burst moves on (R222, R223). -/
theorem afterWrite_burst {c : Chan} {s : State} {off : Word} {left : BitVec 16} {inc : Bool}
    (hp : (s.ch c).pos = .burst off left inc) :
    afterWrite c s = if left = 1 then instrDone c s
      else standing c (.burst (off + if inc then 1 else 0) (left - 1) inc) s := by
  have hlast : left - 1 = 0 ↔ left = 1 := sub_eq_zero
  simp only [afterWrite, hp, hlast, complete_eq]
  rfl

/-- A write of a masked write is its last, or it moves past the bit (R224). -/
theorem afterWrite_mask {c : Chan} {s : State} {off : Word} {bits : BitVec 16} {i : Nat}
    (hp : (s.ch c).pos = .mask off bits i) :
    afterWrite c s = if nextBit bits (i + 1) = none then instrDone c s
      else standing c (.mask off bits (i + 1)) s := by
  simp only [afterWrite, hp]
  cases nextBit bits (i + 1) with
  | none => exact complete_eq c s
  | some j => rfl

/-- A write of an inserted gather is its last, and the gather is dropped, or it moves on (R243). -/
theorem afterWrite_insert {c : Chan} {s : State} {g : Gather} {off : Word} {inc : Bool}
    (hp : (s.ch c).pos = .insertBurst) (hi : (s.ch c).inner = some ⟨g, .insert off inc⟩) :
    afterWrite c s = if g.get = g.put then instrDone c (setInner c none s)
      else setInner c (some ⟨g, .insert (off + if inc then 1 else 0) inc⟩) s := by
  simp only [afterWrite, hp, hi, complete_eq]
  rfl

/-! ### Written words -/

/-- The state after channel `c` has written the words `ws` to the offsets `offs`, its record then being `x`;
with `ended` its instruction is complete. -/
def written (c : Chan) (rest : List Event) (ended : Bool) (offs ws : List Word) (x : Channel) (n : Nat)
    (s : State) : State :=
  State.setCh { s with
    agenda := rest
    owner := if ended then ownerAfterEnd c s else s.owner
    out := (List.zipWith (writeOutput c s) offs ws).reverse ++ s.out
    diag := diagAfter c ws.length s
    fresh := n } c x

@[simp] theorem ch_written (c : Chan) (rest : List Event) (ended : Bool) (offs ws : List Word) (x : Channel)
    (n : Nat) (s : State) : (written c rest ended offs ws x n s).ch c = x := ch_setCh_self ..

/-- The step is one word's write, with the outcome of `Obligations.BurstDataWord`. -/
def WritesWord (c : Chan) (rest : List Event) (off w : Word) (before after : Channel) (ended : Bool)
    (s : State) : Prop :=
  step s = modWrite c off w ((s.setAgenda rest).setCh c before) ∧
    if 0xFFF < off.toNat then step s = .refused (.offsetBeyond12 off)
    else Silent c off w s → ∃ n, step s = .next (written c rest ended [off] [w] after n s)

theorem writeOutput_congr {c : Chan} {s t : State} (h : currentModule c t = currentModule c s) :
    writeOutput c t = writeOutput c s := by
  unfold writeOutput
  rw [h]

theorem diagAfter_congr {c : Chan} {s t : State} (h : currentModule c t = currentModule c s)
    (hd : t.diag = s.diag) (n : Nat) : diagAfter c n t = diagAfter c n s := by
  unfold diagAfter
  rw [h, hd]

/-- A step that is a module write is one word's write, if `after` is what follows the write. -/
theorem writesWord_of_modWrite {c : Chan} {rest : List Event} {off w : Word} {before after : Channel}
    {ended : Bool} {s : State} (hstep : step s = modWrite c off w ((s.setAgenda rest).setCh c before))
    (hcur : before.cur = (s.ch c).cur)
    (hafter : ∀ t : State, t.ch c = before →
      afterWrite c t = (t.setCh c after).setOwner (if ended then ownerAfterEnd c t else t.owner)) :
    WritesWord c rest off w before after ended s := by
  let u := (s.setAgenda rest).setCh c before
  have hbefore : u.ch c = before := ch_setCh_self ..
  refine ⟨hstep, ?_⟩
  split_ifs with ho
  · exact hstep.trans (modWrite_beyond ho w u)
  · intro hq
    have hmodule : currentModule c u = currentModule c s := currentModule_congr (hbefore ▸ hcur) rfl
    obtain ⟨n, hn⟩ := modWrite_silent (s := u) (Nat.le_of_not_lt ho) fun m hm => hq m (hmodule ▸ hm)
    rw [writeOutput_congr hmodule, diagAfter_congr hmodule rfl] at hn
    refine ⟨n, hstep.trans (hn.trans (congrArg _ ?_))⟩
    refine (hafter _ ?_).trans ?_
    · exact hbefore
    · exact congrArg (fun chs : Vector Channel 8 => { written c rest ended [off] [w] after n s with chs })
        (Vector.set_set ..)

/-! ### One data word -/

section
variable {c : Chan} {rest : List Event} {w : Word} {ws : List Word} {s : State} (hs : Scheduled c rest s)
include hs

/-- One data word of a burst (R222, R223). -/
theorem writesWord_burst {off : Word} {left : BitVec 16} {inc : Bool} (hp : AtPos c (.burst off left inc) s)
    (hw : WordsAhead c (currentGather c s) (w :: ws) s) :
    WritesWord c rest off w ((s.ch c).readOn 1)
      { (s.ch c).readOn 1 with
        pos := if left = 1 then .idle else .burst (off + if inc then 1 else 0) (left - 1) inc }
      (left == 1) s := by
  obtain ⟨-, -, hpos⟩ := id hp
  refine writesWord_of_modWrite ?step (readOn_cur ..) fun t ht => ?after
  case step =>
    have hdata : instrStep c (s.setAgenda rest) = dataBurst c off (s.setAgenda rest) := by
      rw [instrStep, ch_setAgenda, hpos]
    rw [step_instr hs hp, hdata, ← advance_reader]
    exact dataStep_ahead (s := s.setAgenda rest) hw rfl
  case after =>
    rw [afterWrite_burst (by rw [ht, readOn_pos, hpos]), instrDone, standing, ht]
    simp only [beq_iff_eq]
    split_ifs <;> rfl

/-- One data word of a masked write (R221, R224). -/
theorem writesWord_mask {off : Word} {bits : BitVec 16} {i j : Nat} (hp : AtPos c (.mask off bits i) s)
    (hj : nextBit bits i = some j) (hw : WordsAhead c (currentGather c s) (w :: ws) s) :
    WritesWord c rest (off + BitVec.ofNat 32 j) w { (s.ch c).readOn 1 with pos := .mask off bits j }
      { (s.ch c).readOn 1 with
        pos := if nextBit bits (j + 1) = none then .idle else .mask off bits (j + 1) }
      (nextBit bits (j + 1)).isNone s := by
  obtain ⟨-, -, hpos⟩ := id hp
  refine writesWord_of_modWrite ?step (readOn_cur ..) fun t ht => ?after
  case step =>
    have hdata : instrStep c (s.setAgenda rest) = dataMask c off bits i (s.setAgenda rest) := by
      rw [instrStep, ch_setAgenda, hpos]
    rw [step_instr hs hp, hdata, dataMask, hj, ← advance_reader]
    refine (dataStep_ahead (s := s.setAgenda rest) hw rfl).trans ?_
    simp [setPos]
  case after =>
    rw [afterWrite_mask (off := off) (bits := bits) (i := j) (by rw [ht]), instrDone, standing, ht]
    simp only [Option.isNone_iff_eq_none]
    split_ifs <;> rfl

/-- One data word of an inserted gather (R243). -/
theorem writesWord_insert {g : Gather} {off : Word} {inc : Bool} (hp : AtPos c .insertBurst s)
    (hi : (s.ch c).inner = some ⟨g, .insert off inc⟩) (hw : WordsAhead c g (w :: ws) s) :
    WritesWord c rest off w { s.ch c with inner := some ⟨g.next, .insert off inc⟩ }
      (if g.next.get = g.next.put then { s.ch c with inner := none, pos := .idle }
        else { s.ch c with inner := some ⟨g.next, .insert (off + if inc then 1 else 0) inc⟩ })
      (g.next.get == g.next.put) s := by
  obtain ⟨-, -, hpos⟩ := id hp
  refine writesWord_of_modWrite ?step rfl fun t ht => ?after
  case step =>
    have hdata : instrStep c (s.setAgenda rest) = dataInsert c (s.setAgenda rest) := by
      rw [instrStep, ch_setAgenda, hpos]
    rw [step_instr hs hp, hdata, dataInsert, ch_setAgenda, hi]
    refine (dataStep_ahead (s := s.setAgenda rest) hw (by simp [Channel.view, hi])).trans ?_
    simp [Channel.advance, hi]
  case after =>
    rw [afterWrite_insert (g := g.next) (off := off) (inc := inc) (by rw [ht, hpos]) (by rw [ht]), instrDone,
      ch_setInner, setInner, setInner, setCh_setCh, ht]
    simp only [beq_iff_eq]
    split_ifs <;> rfl

end

/-- Settles O15: one data word of each form. -/
theorem burstDataWord : Obligations.BurstDataWord := by
  intro s c rest w hs u word x
  exact ⟨fun off left inc hp hw => writesWord_burst hs hp hw,
    fun off bits i j hp hj hw => writesWord_mask hs hp hj hw,
    fun g off inc hp hi hw => writesWord_insert hs hp hi hw⟩

end Sys2Proof.Machine
end

section
/-! PROOFS. The register-write instructions and an inserted gather, run to completion without interruption
(43_interpreter_loop.md R201, R205, 44_module_write_opcodes.md R221 to R224, 45_gather.md R243): word by word, each
word's state being ready for the next. -/

namespace Sys2Proof.Machine

/-! ### Written words, one after the other -/

/-- The counters after some writes, and after some more. -/
theorem diagAfter_add {c : Chan} {s t : State} {m : Nat} (h : currentModule c t = currentModule c s)
    (hd : t.diag = diagAfter c m s) (n : Nat) : diagAfter c n t = diagAfter c (m + n) s := by
  unfold diagAfter at hd ⊢
  cases hm : currentModule c s with
  | none => simp_all [BitVec.ofNat_add, BitVec.add_assoc]
  | some x => simp_all

theorem diagAfter_zero (c : Chan) (s : State) : diagAfter c 0 s = s.diag := by
  unfold diagAfter
  cases currentModule c s <;> simp

theorem currentModule_written {c : Chan} {rest : List Event} {ended : Bool} {offs ws : List Word} {x : Channel}
    {n : Nat} {s : State} (hcur : x.cur = (s.ch c).cur) :
    currentModule c (written c rest ended offs ws x n s) = currentModule c s :=
  currentModule_congr ((congrArg Channel.cur (ch_written ..)).trans hcur) rfl

/-- Past a word written, the gather interpreted is past it. -/
theorem currentGather_written (c : Chan) (rest : List Event) (ended : Bool) (offs ws : List Word) (p : Pos) (n : Nat)
    (s : State) :
    currentGather c (written c rest ended offs ws { (s.ch c).readOn 1 with pos := p } n s) =
      (currentGather c s).next := by
  rw [currentGather, ch_written]
  exact view_readOn _

/-- A word written and then the others are all of them written. -/
theorem written_written {c : Chan} {rest rest' : List Event} {ended : Bool} {off w : Word} {offs ws : List Word}
    {x y : Channel} {m n : Nat} {s : State} (hcur : x.cur = (s.ch c).cur) :
    written c rest ended offs ws y n (written c rest' false [off] [w] x m s) =
      written c rest ended (off :: offs) (w :: ws) y n s := by
  have hmodule : currentModule c (written c rest' false [off] [w] x m s) = currentModule c s :=
    currentModule_written hcur
  have hdiag : diagAfter c ws.length (written c rest' false [off] [w] x m s) =
      diagAfter c (w :: ws).length s := by
    rw [diagAfter_add (m := 1) hmodule rfl, Nat.add_comm]
    rfl
  rw [written, hdiag, writeOutput_congr hmodule]
  simp [written, State.setCh, ownerAfterEnd, ownerReleased]

/-! ### Words due -/

theorem AlwaysSilent.silent {c : Chan} {s : State} (h : AlwaysSilent c s) (off w : Word) : Silent c off w s :=
  fun m hm => by rw [handlerRequests, h m hm]; rfl

theorem AlwaysSilent.congr {c : Chan} {s t : State} (h : AlwaysSilent c s)
    (hm : currentModule c t = currentModule c s) : AlwaysSilent c t := fun m ht => h m (hm ▸ ht)

/-- The words `ws`, ahead in `g`, are due to be written to the offsets `offs`, all of them registers of a module that
asks nothing of the core. -/
structure WordsDue (c : Chan) (g : Gather) (offs ws : List Word) (s : State) : Prop where
  inRange : ∀ off ∈ offs, off.toNat ≤ 0xFFF
  ahead : WordsAhead c g ws s
  silent : AlwaysSilent c s

/-- A word due is written in the step. -/
theorem WordsDue.step {c : Chan} {g : Gather} {off w : Word} {offs ws : List Word} {s : State}
    (h : WordsDue c g (off :: offs) (w :: ws) s) {rest : List Event} {before after : Channel} {ended : Bool}
    (hw : WritesWord c rest off w before after ended s) :
    ∃ n, Machine.step s = .next (written c rest ended [off] [w] after n s) := by
  obtain ⟨-, hwrite⟩ := hw
  rw [if_neg (Nat.not_lt.2 (h.inRange off List.mem_cons_self))] at hwrite
  exact hwrite (h.silent.silent off w)

/-- The words after one that has been written are due. -/
theorem WordsDue.tail {c : Chan} {g : Gather} {off w : Word} {offs ws : List Word} {s : State}
    (h : WordsDue c g (off :: offs) (w :: ws) s) {rest : List Event} {x : Channel} {ended : Bool} {n : Nat}
    (hcur : x.cur = (s.ch c).cur) (henabled : x.enabled = (s.ch c).enabled)
    (hend : x.endPtr = (s.ch c).endPtr) :
    WordsDue c g.next offs ws (written c rest ended [off] [w] x n s) where
  inRange o ho := h.inRange o (List.mem_cons_of_mem _ ho)
  ahead := h.ahead.tail (by rw [ch_written, henabled]) (by rw [ch_written, hend]) rfl
  silent := h.silent.congr (currentModule_written hcur)

/-! ### Runs of words -/

/-- `P offs ws y s` says where in an instruction channel `c` stands in `s`, with the words `ws` to be written to
`offs` and its record `y` at the end. It is kept word by word: the step writes the first word, and at the last one
the record is `y`, else `P` holds of the others. -/
def KeptByWords (c : Chan) (P : List Word → List Word → Channel → State → Prop) : Prop :=
  ∀ (rest : List Event) (offs : List Word) (w : Word) (ws : List Word) (y : Channel) (s : State),
    Scheduled c rest s → P offs (w :: ws) y s →
    ∃ off offs' x n, offs = off :: offs' ∧ step s = .next (written c rest ws.isEmpty [off] [w] x n s) ∧
      x.cur = (s.ch c).cur ∧ (ws = [] → x = y) ∧
      (ws ≠ [] → P offs' ws y (written c rest false [off] [w] x n s))

/-- Run without interruption, an instruction kept word by word writes all its words and is complete. -/
theorem KeptByWords.runSteps {c : Chan} {P : List Word → List Word → Channel → State → Prop}
    (hP : KeptByWords c P) {rest : List Event} {offs ws : List Word} {y : Channel} {s : State} (hne : ws ≠ [])
    (hagenda : s.agenda = List.replicate ws.length (.worker c) ++ rest) (h : P offs ws y s) :
    ∃ n, runSteps ws.length s = .next (written c rest true offs ws y n s) := by
  induction ws generalizing offs s with
  | nil => exact absurd rfl hne
  | cons w ws ih =>
    have hscheduled : Scheduled c (List.replicate ws.length (.worker c) ++ rest) s := hagenda
    obtain ⟨off, offs, x, n, rfl, hstep, hcur, hlast, hmore⟩ :=
      hP (List.replicate ws.length (.worker c) ++ rest) offs w ws y s hscheduled h
    rw [List.length_cons, runSteps_succ hstep]
    cases ws with
    | nil =>
      obtain rfl := hlast rfl
      have hend (t : State) : Machine.runSteps 0 t = .next t := rfl
      refine ⟨n, (hend _).trans (congrArg _ ?_)⟩
      simp [written]
    | cons v vs =>
      obtain ⟨m, hm⟩ := ih (List.cons_ne_nil v vs) rfl (hmore (List.cons_ne_nil v vs))
      rw [written_written hcur] at hm
      exact ⟨m, hm⟩

/-! ### Bursts -/

/-- The offsets of `n` words: consecutive registers, or one register (R222, R223, R243). -/
def burstOffsets (off : Word) (inc : Bool) (n : Nat) : List Word :=
  (List.range n).map fun j => off + if inc then BitVec.ofNat 32 j else 0

theorem burstOffsets_succ (off : Word) (inc : Bool) (n : Nat) :
    burstOffsets off inc (n + 1) = off :: burstOffsets (off + if inc then 1 else 0) inc n := by
  have hshift (j : Nat) : off + BitVec.ofNat 32 (j + 1) = off + 1 + BitVec.ofNat 32 j := by
    rw [BitVec.add_assoc, Nat.add_comm, BitVec.ofNat_add]
    rfl
  rw [burstOffsets, List.range_succ_eq_map, List.map_cons, List.map_map]
  congr 1
  · cases inc <;> simp
  · refine List.map_congr_left fun j _ => ?_
    cases inc
    · simp
    · exact hshift j

theorem burstOffsets_inRange {off : Word} {inc : Bool} {n : Nat}
    (h : if inc then off.toNat + n ≤ 0x1000 else off.toNat ≤ 0xFFF) :
    ∀ o ∈ burstOffsets off inc n, o.toNat ≤ 0xFFF := by
  intro o ho
  obtain ⟨j, hj, rfl⟩ := List.mem_map.1 ho
  rw [List.mem_range] at hj
  cases inc
  · simpa using h
  · simp only [if_true, BitVec.toNat_add, BitVec.toNat_ofNat] at h ⊢
    omega

/-- The record at the end of `n` more words, seen past the first of them. -/
theorem readOn_one_readOn (x : Channel) (p : Pos) (n : Nat) :
    { ({ x.readOn 1 with pos := p } : Channel).readOn n with pos := .idle } =
      { x.readOn (n + 1) with pos := .idle } := by
  rw [readOn_setPos, readOn_readOn, Nat.add_comm]

/-- Channel `c` stands in a burst with the words `ws` to come (R222, R223). -/
def BurstDue (c : Chan) (inc : Bool) (offs ws : List Word) (y : Channel) (s : State) : Prop :=
  ∃ off left, AtPos c (.burst off left inc) s ∧ left.toNat = ws.length ∧ offs = burstOffsets off inc ws.length ∧
    WordsDue c (currentGather c s) offs ws s ∧ y = { (s.ch c).readOn ws.length with pos := .idle }

theorem keptByWords_burst (c : Chan) (inc : Bool) : KeptByWords c (BurstDue c inc) := by
  rintro rest _ w ws _ s hs ⟨off, left, hp, hleft, rfl, hdue, rfl⟩
  rw [List.length_cons] at hleft hdue ⊢
  rw [burstOffsets_succ] at hdue ⊢
  have hlast : left = 1 ↔ ws = [] := by
    rw [← List.length_eq_zero_iff]
    bv_omega
  have hended : (left == 1) = ws.isEmpty :=
    Bool.eq_iff_iff.2 (by rw [beq_iff_eq, List.isEmpty_iff, hlast])
  obtain ⟨n, hstep⟩ := hdue.step (hended ▸ writesWord_burst hs hp hdue.ahead)
  refine ⟨off, _, _, n, rfl, hstep, readOn_cur .., fun hnil => ?last, fun hne => ?more⟩
  case last =>
    rw [if_pos (hlast.2 hnil), hnil]
    rfl
  case more =>
    obtain ⟨hrunning, hcall, -⟩ := hp
    have hleft' : (left - 1).toNat = ws.length := by bv_omega
    rw [if_neg (mt hlast.1 hne)]
    refine ⟨_, left - 1, ⟨?_, ?_, ?_⟩, hleft', rfl, ?_, ?_⟩
    · simpa using hrunning
    · simpa using hcall
    · simp
    · rw [currentGather_written]
      exact hdue.tail (by simp) (by simp) (by simp)
    · rw [ch_written]
      exact (readOn_one_readOn ..).symm

/-! ### Inserted gathers -/

/-- Channel `c` stands in an inserted gather with the words `ws` left in its region (R243). -/
def InsertDue (c : Chan) (inc : Bool) (offs ws : List Word) (y : Channel) (s : State) : Prop :=
  ∃ g off, AtPos c .insertBurst s ∧ (s.ch c).inner = some ⟨g, .insert off inc⟩ ∧
    g.put = g.get + BitVec.ofNat 30 ws.length ∧ offs = burstOffsets off inc ws.length ∧
    WordsDue c g offs ws s ∧ y = { s.ch c with inner := none, pos := .idle }

theorem keptByWords_insert (c : Chan) (inc : Bool) : KeptByWords c (InsertDue c inc) := by
  rintro rest _ w ws _ s hs ⟨g, off, hp, hi, hput, rfl, hdue, rfl⟩
  rw [List.length_cons] at hput hdue ⊢
  rw [burstOffsets_succ] at hdue ⊢
  have hput' : g.next.put = g.next.get + BitVec.ofNat 30 ws.length := by
    rw [Gather.next, hput, Nat.add_comm, BitVec.ofNat_add, ← BitVec.add_assoc]
    rfl
  have hlast : g.next.get = g.next.put ↔ ws = [] := by
    refine ⟨fun hdrained => ?_, fun hnil => by rw [hput', hnil]; simp⟩
    cases ws with
    | nil => rfl
    | cons v vs =>
      obtain ⟨-, hmore, -⟩ := stopped_eq_go.1 (hdue.ahead.tail (t := s) rfl rfl rfl).go
      exact absurd hdrained hmore
  have hended : (g.next.get == g.next.put) = ws.isEmpty :=
    Bool.eq_iff_iff.2 (by rw [beq_iff_eq, List.isEmpty_iff, hlast])
  obtain ⟨n, hstep⟩ := hdue.step (hended ▸ writesWord_insert hs hp hi hdue.ahead)
  refine ⟨off, _, _, n, rfl, hstep, ?cur, fun hnil => ?last, fun hne => ?more⟩
  case cur => split_ifs <;> rfl
  case last => rw [if_pos (hlast.2 hnil)]
  case more =>
    rw [if_neg (mt hlast.1 hne)]
    refine ⟨g.next, off + if inc then 1 else 0, ?_, ?_, hput', rfl, hdue.tail rfl rfl rfl, ?_⟩
    · rw [AtPos, ch_written]
      exact hp
    · rw [ch_written]
    · rw [ch_written]

/-- Settles O21: an inserted gather is kept word by word. -/
theorem insertedGatherWritesEveryWord : Obligations.InsertedGatherWritesEveryWord := by
  intro s c rest g off inc ws hagenda hp hi _ hne hput hahead hrange hsilent
  have hdue : WordsDue c g (burstOffsets off inc ws.length) ws s :=
    ⟨burstOffsets_inRange hrange, hahead, hsilent⟩
  obtain ⟨n, hn⟩ :=
    (keptByWords_insert c inc).runSteps hne hagenda ⟨g, off, hp, hi, hput, rfl, hdue, rfl⟩
  refine ⟨n, hn.trans ?_⟩
  rw [written, burstOffsets, List.zipWith_map_left]
  rfl

/-! ### Masked writes -/

/-- The numbers of the bits set in `bits`, from bit `i` up (R224). -/
def bitsFrom (bits : BitVec 16) (i : Nat) : List Nat :=
  (List.range 16).filter fun j => i ≤ j && bits.getLsbD j

theorem bitsFrom_zero (bits : BitVec 16) : bitsFrom bits 0 = (List.range 16).filter bits.getLsbD := by
  simp [bitsFrom]

theorem nextBit_eq_head (bits : BitVec 16) (i : Nat) : nextBit bits i = (bitsFrom bits i).head? :=
  (List.head?_filter ..).symm

theorem bitsFrom_sorted (bits : BitVec 16) (i : Nat) : (bitsFrom bits i).Pairwise (· < ·) :=
  List.pairwise_lt_range.filter _

/-- Past the lowest bit come the others. -/
theorem bitsFrom_succ {bits : BitVec 16} {i j : Nat} {l : List Nat} (h : bitsFrom bits i = j :: l) :
    bitsFrom bits (j + 1) = l := by
  have hij : i ≤ j := by
    have hmem : j ∈ bitsFrom bits i := h ▸ List.mem_cons_self
    simp only [bitsFrom, List.mem_filter, Bool.and_eq_true, decide_eq_true_eq] at hmem
    omega
  have habove : ∀ k ∈ l, j < k := (List.pairwise_cons.1 (h ▸ bitsFrom_sorted bits i)).1
  calc bitsFrom bits (j + 1)
    _ = (bitsFrom bits i).filter (j < ·) := by
      rw [bitsFrom, bitsFrom, List.filter_filter]
      refine List.filter_congr fun k _ => ?_
      by_cases hk : j < k
      · simp [hk, Nat.succ_le_of_lt hk, (by omega : i ≤ k)]
      · simp [hk]
    _ = l.filter (j < ·) := by rw [h, List.filter_cons_of_neg (by simp)]
    _ = l := List.filter_eq_self.2 fun k hk => decide_eq_true (habove k hk)

theorem bitsFrom_zero_eq_nil {bits : BitVec 16} : bitsFrom bits 0 = [] ↔ bits = 0 := by
  rw [bitsFrom_zero, List.filter_eq_nil_iff]
  constructor
  · intro h
    refine BitVec.eq_of_getLsbD_eq fun j hj => ?_
    simpa using h j (List.mem_range.2 hj)
  · rintro rfl
    simp

/-- Channel `c` stands in a masked write with the words `ws` to come (R221, R224). -/
def MaskDue (c : Chan) (off : Word) (bits : BitVec 16) (offs ws : List Word) (y : Channel) (s : State) : Prop :=
  ∃ i, AtPos c (.mask off bits i) s ∧ (bitsFrom bits i).length = ws.length ∧
    offs = (bitsFrom bits i).map (fun j => off + BitVec.ofNat 32 j) ∧
    WordsDue c (currentGather c s) offs ws s ∧ y = { (s.ch c).readOn ws.length with pos := .idle }

theorem keptByWords_mask (c : Chan) (off : Word) (bits : BitVec 16) : KeptByWords c (MaskDue c off bits) := by
  rintro rest _ w ws _ s hs ⟨i, hp, hlen, rfl, hdue, rfl⟩
  obtain ⟨j, l, hbits⟩ := List.exists_cons_of_length_eq_add_one hlen
  have hnext : bitsFrom bits (j + 1) = l := bitsFrom_succ hbits
  rw [hbits, List.length_cons, List.length_cons, Nat.add_right_cancel_iff] at hlen
  rw [hbits, List.map_cons] at hdue ⊢
  have hj : nextBit bits i = some j := by rw [nextBit_eq_head, hbits, List.head?_cons]
  have hlast : nextBit bits (j + 1) = none ↔ ws = [] := by
    rw [nextBit_eq_head, hnext, List.head?_eq_none_iff, ← List.length_eq_zero_iff, hlen,
      List.length_eq_zero_iff]
  have hended : (nextBit bits (j + 1)).isNone = ws.isEmpty :=
    Bool.eq_iff_iff.2 (by rw [Option.isNone_iff_eq_none, List.isEmpty_iff, hlast])
  obtain ⟨n, hstep⟩ := hdue.step (hended ▸ writesWord_mask hs hp hj hdue.ahead)
  refine ⟨_, _, _, n, rfl, hstep, readOn_cur .., fun hnil => ?last, fun hne => ?more⟩
  case last =>
    rw [if_pos (hlast.2 hnil), hnil]
    rfl
  case more =>
    obtain ⟨hrunning, hcall, -⟩ := hp
    rw [if_neg (mt hlast.1 hne)]
    refine ⟨j + 1, ⟨?_, ?_, ?_⟩, hnext ▸ hlen, by rw [hnext], ?_, ?_⟩
    · simpa using hrunning
    · simpa using hcall
    · simp
    · rw [currentGather_written]
      exact hdue.tail (by simp) (by simp) (by simp)
    · rw [ch_written]
      exact (readOn_one_readOn ..).symm

/-! ### The heads (43_interpreter_loop.md R201) -/

theorem startBurst_eq (c : Chan) (offset : BitVec 12) (n : BitVec 16) (inc : Bool) (s : State) :
    startBurst c offset n inc s = if n = 0 then instrDone c s
      else standing c (.burst (offset.setWidth 32) n inc) s := by
  rw [startBurst, complete_eq]
  rfl

theorem startMask_eq (c : Chan) (offset : BitVec 12) (bits : BitVec 16) (s : State) :
    startMask c offset bits s = if bits = 0 then instrDone c s
      else standing c (.mask (offset.setWidth 32) bits 0) s := by
  rw [startMask, complete_eq]
  rfl

/-- The fetching step of an instruction runs its head. -/
theorem step_head {c : Chan} {l : List Event} {i : Instr} {ws : List Word} {s : State} (hs : Scheduled c l s)
    (hp : AtPos c .idle s) (hfree : sectionTaken c s = false)
    (hw : WordsAhead c (currentGather c s) (encode i :: ws) s) :
    step s = exec i (fetched c (s.setAgenda l)) := by
  obtain ⟨-, -, hidle⟩ := id hp
  have hfetch : boundary c (s.setAgenda l) = exec (decodeWord (encode i)) (fetched c (s.setAgenda l)) :=
    boundary_fetched (s := s.setAgenda l) hw.go hfree hw.readWord
  rw [step_instr hs hp, instrStep_idle (by exact hidle), hfetch, decodeWord_encode]

theorem ch_fetched (c : Chan) (s : State) : (fetched c s).ch c = (s.ch c).readOn 1 := by
  rw [fetched, ch_setCh_self, advance_reader]

theorem currentModule_fetched (c : Chan) (s : State) : currentModule c (fetched c s) = currentModule c s :=
  currentModule_congr (by rw [ch_fetched, readOn_cur]) rfl

theorem currentModule_standing (c : Chan) (p : Pos) (s : State) :
    currentModule c (standing c p s) = currentModule c s :=
  currentModule_congr (by simp [standing]) rfl

/-- The worker stands where the head leaves it. -/
theorem AtPos.head {c : Chan} {s : State} (h : AtPos c .idle s) (p : Pos) :
    AtPos c p (standing c p (fetched c s)) := by
  obtain ⟨hrunning, hcall, -⟩ := h
  rw [AtPos, standing, ch_setCh_self, ch_fetched, readOn_running, readOn_call]
  exact ⟨hrunning, hcall, rfl⟩

/-- The words behind the opcode word are due once it is fetched. -/
theorem wordsDue_fetched {c : Chan} {p : Pos} {w : Word} {offs ws : List Word} {s : State}
    (hrange : ∀ off ∈ offs, off.toNat ≤ 0xFFF) (hw : WordsAhead c (currentGather c s) (w :: ws) s)
    (hq : AlwaysSilent c s) :
    WordsDue c (currentGather c (standing c p (fetched c s))) offs ws (standing c p (fetched c s)) where
  inRange := hrange
  ahead := by
    have hg : currentGather c (standing c p (fetched c s)) = (currentGather c s).next := by
      rw [currentGather, standing, ch_setCh_self, ch_fetched]
      exact view_readOn _
    rw [hg]
    exact hw.tail (by simp [standing, ch_fetched]) (by simp [standing, ch_fetched]) rfl
  silent := hq.congr ((currentModule_standing ..).trans (currentModule_fetched c s))

/-- The words written by an instruction that has just been fetched: the step that fetched it took the section, and
its end gives it up or keeps it. -/
theorem written_fetched {c : Chan} {rest : List Event} {offs ws : List Word} {n : Nat} {s : State}
    (hpos : (s.ch c).pos = .idle) :
    written c rest true offs ws { ((fetched c s).ch c).readOn ws.length with pos := .idle } n (fetched c s) =
      State.setCh { s with
        agenda := rest
        active := c
        owner := if s.cfg.granularity = .instruction then none else some c
        out := (List.zipWith (writeOutput c s) offs ws).reverse ++ s.out
        diag := diagAfter c ws.length s
        fresh := n } c ((s.ch c).readOn (ws.length + 1)) := by
  have hx : { (s.ch c).readOn (1 + ws.length) with pos := .idle } = (s.ch c).readOn (ws.length + 1) := by
    rw [← hpos, ← readOn_pos (s.ch c) (1 + ws.length), Nat.add_comm]
  have howner : ownerAfterEnd c (fetched c s) = if s.cfg.granularity = .instruction then none else some c := by
    simp [ownerAfterEnd, ownerReleased, fetched, takeSection]
  rw [written, ch_fetched, readOn_readOn, hx, howner, writeOutput_congr (currentModule_fetched c s),
    diagAfter_congr (currentModule_fetched c s) rfl]
  simp [State.setCh, fetched, takeSection, State.setOwner, State.setActive]

/-- The position the writes began at is not seen behind them. -/
theorem written_standing (c : Chan) (rest : List Event) (ended : Bool) (offs ws : List Word) (x : Channel) (n : Nat)
    (p : Pos) (s : State) : written c rest ended offs ws x n (standing c p s) = written c rest ended offs ws x n s := by
  have howner : ownerAfterEnd c (standing c p s) = ownerAfterEnd c s := rfl
  rw [written, howner, writeOutput_congr (currentModule_standing c p s),
    diagAfter_congr (currentModule_standing c p s) rfl]
  simp [written, standing, State.setCh]

theorem readOn_zero (x : Channel) : x.readOn 0 = x := by
  obtain ⟨gather, -, -, -, -, -, inner, -, -, -, -, -, -⟩ := x
  rcases inner with _ | ⟨g, _ | _⟩ <;> simp [Channel.readOn]

/-- An instruction without a word to write is complete at once. -/
theorem written_nil (c : Chan) (offs : List Word) (s : State) :
    written c s.agenda true offs [] { (s.ch c).readOn 0 with pos := .idle } s.fresh s = instrDone c s := by
  rw [written, List.length_nil, diagAfter_zero, readOn_zero]
  simp [instrDone, State.setCh, State.setOwner]

/-- An instruction whose head either is complete or leaves its words due writes all of them and is complete. -/
theorem KeptByWords.runSteps_head {c : Chan} {P : List Word → List Word → Channel → State → Prop}
    (hP : KeptByWords c P) {rest : List Event} {offs ws : List Word} {p : Pos} {s t : State}
    (hagenda : t.agenda = List.replicate ws.length (.worker c) ++ rest)
    (hstep : step s = .next (if ws = [] then instrDone c t else standing c p t))
    (hdue : ws ≠ [] → P offs ws { (t.ch c).readOn ws.length with pos := .idle } (standing c p t)) :
    ∃ n, Machine.runSteps (ws.length + 1) s =
      .next (written c rest true offs ws { (t.ch c).readOn ws.length with pos := .idle } n t) := by
  rw [runSteps_succ hstep]
  by_cases hnil : ws = []
  · subst hnil
    have hend (u : State) : Machine.runSteps 0 u = .next u := rfl
    obtain rfl : t.agenda = rest := hagenda
    exact ⟨t.fresh, (hend _).trans (congrArg _ (written_nil c offs t).symm)⟩
  · obtain ⟨n, hn⟩ := hP.runSteps (s := standing c p t) hnil hagenda (hdue hnil)
    rw [written_standing] at hn
    rw [if_neg hnil]
    exact ⟨n, hn⟩

/-- An instruction run from the fetch of its opcode word: `s` is the state before the fetch, and `u` is `s` with the
class that the head selects. -/
theorem KeptByWords.runSteps_fetched {c : Chan} {P : List Word → List Word → Channel → State → Prop}
    (hP : KeptByWords c P) {rest : List Event} {offs ws : List Word} {p : Pos} {s u : State}
    (hpos : (u.ch c).pos = .idle) {t : State}
    (ht : t = fetched c (u.setAgenda (List.replicate ws.length (.worker c) ++ rest)))
    (hstep : step s = .next (if ws = [] then instrDone c t else standing c p t))
    (hdue : ws ≠ [] → P offs ws { (t.ch c).readOn ws.length with pos := .idle } (standing c p t)) :
    ∃ n, Machine.runSteps (ws.length + 1) s = .next (State.setCh { u with
      agenda := rest
      active := c
      owner := if u.cfg.granularity = .instruction then none else some c
      out := (List.zipWith (writeOutput c u) offs ws).reverse ++ u.out
      diag := diagAfter c ws.length u
      fresh := n } c ((u.ch c).readOn (ws.length + 1))) := by
  subst ht
  obtain ⟨n, hn⟩ := hP.runSteps_head rfl hstep hdue
  exact ⟨n, hn.trans (congrArg _ (written_fetched hpos))⟩

/-- Settles O16: the head of a burst, and then its words. -/
theorem burstsWriteEveryWord : Obligations.BurstsWriteEveryWord := by
  intro s c rest offset n ws inc hagenda hp hfree hlen hw hrange hq
  obtain ⟨-, -, hpos⟩ := id hp
  rw [← hlen] at hagenda hrange ⊢
  let t := fetched c (s.setAgenda (List.replicate ws.length (.worker c) ++ rest))
  let p : Pos := .burst (offset.setWidth 32) n inc
  have hzero : n = 0 ↔ ws = [] := by
    rw [← List.length_eq_zero_iff, hlen, ← BitVec.toNat_inj]
    rfl
  have hstep : step s = .next (if ws = [] then instrDone c t else standing c p t) := by
    have hhead : step s = .next (startBurst c offset n inc t) := by
      refine (step_head hagenda hp hfree hw).trans ?_
      cases inc <;> rfl
    simp only [hhead, startBurst_eq, hzero, p]
  have hoffset : if inc then (offset.setWidth 32 : Word).toNat + ws.length ≤ 0x1000
      else (offset.setWidth 32 : Word).toNat ≤ 0xFFF := by
    have hoff : (offset.setWidth 32 : Word).toNat = offset.toNat := by
      rw [BitVec.toNat_setWidth]
      omega
    cases inc
    · simp only [Bool.false_eq_true, if_false]
      omega
    · simpa [hoff] using hrange rfl
  have hdue : WordsDue c (currentGather c (standing c p t)) (burstOffsets (offset.setWidth 32) inc ws.length) ws
      (standing c p t) :=
    wordsDue_fetched (s := s.setAgenda _) (burstOffsets_inRange hoffset) hw hq
  obtain ⟨m, hm⟩ := (keptByWords_burst c inc).runSteps_fetched hpos rfl hstep fun _ =>
    ⟨_, n, AtPos.head (s := s.setAgenda _) hp p, hlen.symm, rfl, hdue, by simp [standing, readOn_setPos]⟩
  refine ⟨m, hm.trans ?_⟩
  rw [burstOffsets, List.zipWith_map_left]

/-- `s` with the class `cur` selected on channel `c`. -/
def withCur (c : Chan) (cur : Option (BitVec 10)) (s : State) : State := s.setCh c { s.ch c with cur := cur }

/-- A class selected behind the fetch might have been selected before it. -/
theorem selectClass_fetched (c : Chan) (k : BitVec 10) (s : State) :
    selectClass c k (fetched c s) =
      fetched c (withCur c (if s.registry.any (fun m => m.classId == k.setWidth 16) then some k else none) s) := by
  rw [selectClass, lookupModule_isSome, ch_fetched]
  simp [fetched, withCur, takeSection, State.setCh, advance_reader, readOn_setCur, State.ch, classOperand,
    State.setOwner, State.setActive]

/-- The fetching step of MASK, or of SETCLASS with the class it selects (R221, R224). -/
theorem step_maskHead {c : Chan} {l : List Event} {i : Instr} {offset : BitVec 12} {bits : BitVec 16}
    {cur : Option (BitVec 10)} {ws : List Word} {s : State}
    (hi : (i = .mask offset bits ∧ cur = (s.ch c).cur) ∨
      (∃ k b, i = .setclass offset k b ∧ bits = b.setWidth 16 ∧
        cur = if s.registry.any (fun m => m.classId == k.setWidth 16) then some k else none))
    (hs : Scheduled c l s) (hp : AtPos c .idle s) (hfree : sectionTaken c s = false)
    (hw : WordsAhead c (currentGather c s) (encode i :: ws) s) :
    step s = .next (startMask c offset bits (fetched c ((withCur c cur s).setAgenda l))) := by
  rw [step_head hs hp hfree hw]
  rcases hi with ⟨rfl, rfl⟩ | ⟨k, b, rfl, rfl, rfl⟩
  case inl =>
    have hkept : withCur c (s.ch c).cur s = s := setCh_ch s c
    rw [hkept]
    rfl
  case inr =>
    have hhead : exec (.setclass offset k b) (fetched c (s.setAgenda l)) =
        .next (startMask c offset (b.setWidth 16) (selectClass c k (fetched c (s.setAgenda l)))) := rfl
    rw [hhead, selectClass_fetched]
    rfl

/-- Settles O17: the head of a masked write, and then its words. -/
theorem maskWritesAscending : Obligations.MaskWritesAscending := by
  intro s c rest i offset bits cur ws hi hagenda hp hfree hlen hw hrange u hq
  have hu : u.ch c = { s.ch c with cur := cur } := ch_setCh_self ..
  have hpu : AtPos c .idle u := by
    rw [AtPos, hu]
    exact hp
  obtain ⟨-, -, hpos⟩ := id hpu
  let t := fetched c (u.setAgenda (List.replicate ws.length (.worker c) ++ rest))
  let p : Pos := .mask (offset.setWidth 32) bits 0
  rw [← bitsFrom_zero] at hlen ⊢
  have hzero : bits = 0 ↔ ws = [] := by
    rw [← List.length_eq_zero_iff, hlen, List.length_eq_zero_iff, bitsFrom_zero_eq_nil]
  have hstep : step s = .next (if ws = [] then instrDone c t else standing c p t) := by
    have hhead : step s = .next (startMask c offset bits t) := step_maskHead hi hagenda hp hfree hw
    simp only [hhead, startMask_eq, hzero, p]
  have hoffset : ∀ off ∈ (bitsFrom bits 0).map (fun j => offset.setWidth 32 + BitVec.ofNat 32 j),
      off.toNat ≤ 0xFFF := by
    intro off hoff
    obtain ⟨j, hj, rfl⟩ := List.mem_map.1 hoff
    rw [bitsFrom_zero, List.mem_filter, List.mem_range] at hj
    obtain ⟨hj, hset⟩ := hj
    have hle := hrange j hj hset
    rw [BitVec.toNat_add, BitVec.toNat_setWidth, BitVec.toNat_ofNat]
    omega
  have hwu : WordsAhead c (currentGather c u) (encode i :: ws) u := by
    have hg : currentGather c u = currentGather c s := by
      rw [currentGather, hu]
      rfl
    rw [hg, WordsAhead, hu]
    exact hw
  have hdue : WordsDue c (currentGather c (standing c p t))
      ((bitsFrom bits 0).map fun j => offset.setWidth 32 + BitVec.ofNat 32 j) ws (standing c p t) :=
    wordsDue_fetched (s := u.setAgenda _) hoffset hwu hq
  obtain ⟨m, hm⟩ := (keptByWords_mask c (offset.setWidth 32) bits).runSteps_fetched hpos rfl hstep
    fun _ => ⟨0, AtPos.head (s := u.setAgenda _) hpu p, hlen.symm, rfl, hdue, by simp [standing, readOn_setPos]⟩
  refine ⟨m, hm.trans ?_⟩
  rw [List.zipWith_map_left]
  simp only [State.setCh, u, Vector.set_set]

end Sys2Proof.Machine
end

section
/-! PROOFS. What stops the interpreter (43_interpreter_loop.md R201, R202, R205, R207, R209): the end of a run, of an
inlined gather and of an instruction in its middle, the end boundary, and a word of an unknown opcode. -/

namespace Sys2Proof.Machine

/-! ### The stop condition, case by case (R202) -/

/-- A step of a channel `x` on the gather `g` has the outcome `r`: `onStop` if it is disabled or drained, and else
`onEnd` at the end boundary of a gather that is not inlined. -/
def StopsInOrder (x : Channel) (g : Gather) (onStop onEnd r : Res) : Prop :=
  if x.enabled = false ∨ g.get = g.put then r = onStop
  else g.inlined = false ∧ g.get = x.endPtr → r = onEnd

/-- The two outcomes are those of the verdicts `stop` and `fatal`. -/
theorem stopsInOrder_of_verdict {x : Channel} {g : Gather} {onStop onEnd r : Res}
    (hstop : stopped x g = .stop → r = onStop) (hfatal : stopped x g = .fatal → r = onEnd) :
    StopsInOrder x g onStop onEnd r := by
  unfold StopsInOrder
  split
  · next h => exact hstop (stopped_eq_stop.2 h)
  · next h =>
    obtain ⟨henabled, hput⟩ := not_or.1 h
    rintro ⟨hinlined, hend⟩
    exact hfatal (stopped_eq_fatal.2 ⟨Bool.eq_true_of_not_eq_false henabled, hput, hinlined, hend⟩)

/-- For a gather that is not inlined the end boundary is the cursor alone (R202). -/
theorem StopsInOrder.of_not_inlined {x : Channel} {g : Gather} {onStop onEnd r : Res}
    (h : StopsInOrder x g onStop onEnd r) (hinlined : g.inlined = false) :
    if x.enabled = false ∨ g.get = g.put then r = onStop else g.get = x.endPtr → r = onEnd := by
  simpa only [StopsInOrder, hinlined, true_and] using h

/-! ### The BOUNDARY step -/

theorem boundary_stop {c : Chan} {s : State} (h : stopped (s.ch c) (currentGather c s) = .stop) :
    boundary c s = .next (stopGather c s) := by
  rw [boundary, h]

theorem boundary_fatal {c : Chan} {s : State} (h : stopped (s.ch c) (currentGather c s) = .fatal) :
    boundary c s = .next (faultTaken c .endReached (endInfo (currentGather c s)) s) := by
  rw [boundary, h, ← raiseFault_eq]

/-- A worker between instructions takes a BOUNDARY step. -/
theorem step_boundary {s : State} {c : Chan} {rest : List Event} (hs : Scheduled c rest s)
    (hp : AtPos c .idle s) : step s = boundary c (s.setAgenda rest) := by
  obtain ⟨-, -, hidle⟩ := id hp
  exact (step_instr hs hp).trans (instrStep_idle hidle)

theorem currentGather_outer {c : Chan} {s : State} (h : (s.ch c).inner = none) :
    currentGather c s = (s.ch c).gather := by
  simp [currentGather, Channel.reader, Channel.view, h]

theorem currentGather_inline {c : Chan} {s : State} {g : Gather} (h : (s.ch c).inner = some ⟨g, .inline⟩) :
    currentGather c s = g := by
  simp [currentGather, Channel.reader, Channel.view, h]

/-- The stop of the outer gather ends the run (48_cdma.md R283). -/
theorem stopGather_outer {c : Chan} {s : State} (h : (s.ch c).inner = none) :
    stopGather c s = runFinished c s := by
  simp [stopGather, Channel.reader, h, finishRun_eq]

/-- The stop of an inlined gather drops it and gives the section up (43_interpreter_loop.md R209). -/
theorem stopGather_inline {c : Chan} {s : State} {g : Gather} (h : (s.ch c).inner = some ⟨g, .inline⟩) :
    stopGather c s = (s.setCh c { s.ch c with inner := none }).setOwner (ownerReleased c s) := by
  simp only [stopGather, Channel.reader, h, release_eq]
  rfl

/-- A BOUNDARY step on the outer gather ends the run on a stop. -/
theorem boundary_outer_stops {c : Chan} {s : State} (hinner : (s.ch c).inner = none) :
    StopsInOrder (s.ch c) (s.ch c).gather (.next (runFinished c s))
      (.next (faultTaken c .endReached (endInfo (s.ch c).gather) s)) (boundary c s) := by
  rw [← currentGather_outer hinner, ← stopGather_outer hinner]
  exact stopsInOrder_of_verdict boundary_stop boundary_fatal

/-- Settles O8: with no inner gather the BOUNDARY step works on the outer one, whose stop ends the run. -/
theorem boundaryStopsInOrder : Obligations.BoundaryStopsInOrder := by
  intro s c rest hs hp hinner hinlined
  rw [step_boundary hs hp]
  exact (boundary_outer_stops (s := s.setAgenda rest) hinner).of_not_inlined hinlined

/-- Settles O22: the inlined gather is the current one, and its stop drops it. -/
theorem inlineGatherReturns : Obligations.InlineGatherReturns := by
  intro s c rest g hs hp hinner hstop
  let u := s.setAgenda rest
  have hgather : currentGather c u = g := currentGather_inline hinner
  have hverdict : stopped (u.ch c) (currentGather c u) = .stop := by
    rw [hgather]
    exact stopped_eq_stop.2 hstop
  have hdropped : stopGather c u = (u.setCh c { u.ch c with inner := none }).setOwner (ownerReleased c u) :=
    stopGather_inline hinner
  refine ⟨stopGather c u, (step_boundary hs hp).trans (boundary_stop hverdict), onlyChannel_stopGather c u,
    ?channel, ?owner⟩
  case channel => rw [hdropped, ch_setOwner, ch_setCh_self]; rfl
  case owner => rw [hdropped]; rfl

/-! ### The DATA steps (R205) -/

/-- A DATA step is abandoned on a stop and faults at the end boundary. -/
theorem dataStep_stops (c : Chan) (r : Reader) (onStop : State) (use : Word → State → Res) (s : State) :
    StopsInOrder (s.ch c) ((s.ch c).view r) (.next onStop)
      (.next (faultTaken c .endReached (endInfo ((s.ch c).view r)) s)) (dataStep c r onStop use s) :=
  stopsInOrder_of_verdict (fun h => by rw [dataStep, h]) (fun h => by rw [dataStep, h, ← raiseFault_eq])

section
variable {c : Chan} {s : State}

/-- A burst is abandoned on a stop (44_module_write_opcodes.md R222, R223). -/
theorem instrStep_burst_stops {off : Word} {left : BitVec 16} {inc : Bool}
    (hpos : (s.ch c).pos = .burst off left inc) :
    StopsInOrder (s.ch c) (currentGather c s) (.next (instrDone c s))
      (.next (faultTaken c .endReached (endInfo (currentGather c s)) s)) (instrStep c s) := by
  rw [instrStep, hpos, ← complete_eq]
  exact dataStep_stops c (s.ch c).reader (complete c s) _ s

/-- A masked write with a bit left is abandoned on a stop (R224). -/
theorem instrStep_mask_stops {off : Word} {bits : BitVec 16} {i : Nat} (hpos : (s.ch c).pos = .mask off bits i)
    (hbit : nextBit bits i ≠ none) :
    StopsInOrder (s.ch c) (currentGather c s) (.next (instrDone c s))
      (.next (faultTaken c .endReached (endInfo (currentGather c s)) s)) (instrStep c s) := by
  obtain ⟨j, hj⟩ := Option.ne_none_iff_exists'.1 hbit
  have hdata : instrStep c s = dataMask c off bits i s := by rw [instrStep, hpos]
  rw [hdata, dataMask, hj, ← complete_eq]
  exact dataStep_stops c (s.ch c).reader (complete c s) _ s

/-- A GATHER that awaits its base word is abandoned on a stop of the outer gather (45_gather.md R241). -/
theorem instrStep_gatherBase_stops {offset : BitVec 12} {ins inc : Bool} {n : BitVec 14}
    (hpos : (s.ch c).pos = .gatherBase offset ins inc n) :
    StopsInOrder (s.ch c) (s.ch c).gather (.next (instrDone c s))
      (.next (faultTaken c .endReached (endInfo (s.ch c).gather) s)) (instrStep c s) := by
  rw [instrStep, hpos, ← complete_eq]
  exact dataStep_stops c .outer (complete c s) _ s

/-- An inserted gather is dropped on a stop (R243). -/
theorem instrStep_insertBurst_stops {g : Gather} {off : Word} {inc : Bool} (hpos : (s.ch c).pos = .insertBurst)
    (hinner : (s.ch c).inner = some ⟨g, .insert off inc⟩) :
    StopsInOrder (s.ch c) g (.next (instrDone c (s.setCh c { s.ch c with inner := none })))
      (.next (faultTaken c .endReached (endInfo g) s)) (instrStep c s) := by
  have hview : (s.ch c).view .inner = g := by simp only [Channel.view, hinner]
  have hdata : instrStep c s = dataInsert c s := by rw [instrStep, hpos]
  rw [hdata, dataInsert, hinner, ← complete_eq, ← hview]
  exact dataStep_stops c .inner (complete c (setInner c none s)) _ s

end

/-- Settles O9: at each position the step is the DATA step of that position. -/
theorem dataWordStops : Obligations.DataWordStops := by
  intro s c rest p hs hp u stops
  obtain ⟨-, -, hpos⟩ := id hp
  have hstep : step s = instrStep c u := step_instr hs hp
  simp only [stops, hstep]
  refine ⟨?current, ?base, ?insert⟩
  case current =>
    rintro (⟨off, left, inc, rfl⟩ | ⟨off, bits, i, rfl, hbit⟩)
    · exact instrStep_burst_stops (s := u) hpos
    · exact instrStep_mask_stops (s := u) hpos hbit
  case base =>
    rintro ⟨offset, ins, inc, n, rfl⟩
    exact instrStep_gatherBase_stops (s := u) hpos
  case insert =>
    rintro g off inc rfl hinner
    exact instrStep_insertBurst_stops (s := u) hpos hinner

/-! ### Words of an unknown opcode (R207) -/

theorem unknownOpcode_eq (i : Instr) (s : State) :
    unknownOpcode i s = .next (faultTaken s.active .unknownOpcode (encode i) s) := by
  rw [unknownOpcode, raiseFault_eq]

/-- Settles O29: every word without an instruction faults with the word that encodes it. -/
theorem unknownOpcodesFault : Obligations.UnknownOpcodesFault := fun s v =>
  ⟨unknownOpcode_eq (.unknown7 v) s, unknownOpcode_eq (.unknown8 v) s, unknownOpcode_eq (.unknown9 v) s,
    unknownOpcode_eq (.unknownA v) s, unknownOpcode_eq (.unknownB v) s, unknownOpcode_eq (.unknownC v) s,
    unknownOpcode_eq (.unknownD v) s⟩

end Sys2Proof.Machine
end

section
/-! PROOFS. The heads of the register-write instructions (44_module_write_opcodes.md R221 to R224): each is complete at
once if it has no word to write, and else leaves its writes due, with nothing but its own channel changed. -/

namespace Sys2Proof.Machine

/-! ### The class that SETCLASS selects (R221) -/

/-- SETCLASS selects by the registry alone: the class if some module is registered under it, and else none. -/
theorem selectClass_eq (c : Chan) (k : BitVec 10) (s : State) :
    selectClass c k s =
      withCur c (if s.registry.any (fun m => m.classId == k.setWidth 16) then some k else none) s := by
  rw [selectClass, lookupModule_isSome]
  rfl

theorem onlyChannel_selectClass (c : Chan) (k : BitVec 10) (s : State) : OnlyChannel c s (selectClass c k s) :=
  onlyChannel_setCh c _ s

/-- Widened, the mask of SETCLASS has no bit set exactly if it had none. -/
theorem setclassMask_eq_zero {bits : BitVec 6} : setclassMask bits = 0 ↔ bits = 0 := by
  rw [setclassMask]
  bv_omega

/-! ### The heads -/

/-- Settles O11: SETCLASS is the head of a masked write behind the selection of the class. -/
theorem setclassSelects : Obligations.SetclassSelects := by
  intro s offset classId bits
  have hframe : OnlyChannel s.active s
      (startMask s.active offset (setclassMask bits) (selectClass s.active classId s)) :=
    (onlyChannel_selectClass ..).trans (onlyChannel_startMask ..)
  refine ⟨_, rfl, hframe, ?_⟩
  simp only [startMask_eq, setclassMask_eq_zero, selectClass_eq]
  rfl

/-- Settles O12: INCR and NONINCR are the head of a burst, the one with an ascending offset. -/
theorem burstHeadsComplete : Obligations.BurstHeadsComplete := fun s offset n =>
  ⟨⟨_, rfl, onlyChannel_startBurst s.active offset n true s, startBurst_eq s.active offset n true s⟩,
    _, rfl, onlyChannel_startBurst s.active offset n false s, startBurst_eq s.active offset n false s⟩

/-- Settles O13: MASK is the head of a masked write. -/
theorem maskHeadCompletes : Obligations.MaskHeadCompletes := fun s offset bits =>
  ⟨_, rfl, onlyChannel_startMask s.active offset bits s, startMask_eq s.active offset bits s⟩

end Sys2Proof.Machine
end

section
/-! PROOFS. GATHER (45_gather.md R240 to R244): the heads of both forms, and the step that consumes the base word. -/

namespace Sys2Proof.Machine

/-! ### The heads (R240) -/

/-- In a gather that is not inlined the head leaves the base word awaited. -/
theorem gatherHead_plain {c : Chan} {s : State} (h : (currentGather c s).inlined = false) (i : Instr)
    (offset : BitVec 12) (ins : Bool) (inc : BitVec 1) (n : BitVec 14) :
    gatherHead c i offset ins inc n s = standing c (.gatherBase offset ins (inc == 1) n) s := by
  simp only [gatherHead, h, Bool.false_eq_true, if_false]
  rfl

/-- In an inlined gather the head faults with the word that encodes the instruction. -/
theorem gatherHead_inlined {c : Chan} {s : State} (h : (currentGather c s).inlined = true) (i : Instr)
    (offset : BitVec 12) (ins : Bool) (inc : BitVec 1) (n : BitVec 14) :
    gatherHead c i offset ins inc n s = faultTaken c .nestedGather (encode i) s := by
  rw [gatherHead, if_pos h, raiseFault_eq]

/-- Settles O18: both forms run the head, in a gather that is not inlined. -/
theorem gatherHeadsAwaitBase : Obligations.GatherHeadsAwaitBase := fun _ offset inc n h =>
  ⟨⟨_, rfl, onlyChannel_gatherHead .., gatherHead_plain h (.gatherInline offset inc n) offset false inc n⟩,
    _, rfl, onlyChannel_gatherHead .., gatherHead_plain h (.gatherInsert offset inc n) offset true inc n⟩

/-- Settles O19: both forms run the head, in an inlined gather. -/
theorem nestedGatherFaults : Obligations.NestedGatherFaults := fun _ offset inc n h =>
  ⟨congrArg _ (gatherHead_inlined h (.gatherInline offset inc n) offset false inc n),
    congrArg _ (gatherHead_inlined h (.gatherInsert offset inc n) offset true inc n)⟩

/-! ### The base word (R241 to R244) -/

section
variable {n : BitVec 14} (c : Chan) (offset : BitVec 12) (inc : Bool) (b : Word) (s : State)

/-- With `count = 0` the base word completes the instruction, in either form (R242). -/
theorem enterGather_zero (ins : Bool) : enterGather c offset ins inc 0 b s = instrDone c s := by
  rw [enterGather, if_pos rfl, complete_eq]

/-- The base word of the insert form leaves the burst over the region due (R243). -/
theorem enterGather_insert (hn : n ≠ 0) :
    enterGather c offset true inc n b s = s.setCh c
      { s.ch c with inner := some ⟨newGather b n, .insert (offset.setWidth 32) inc⟩, pos := .insertBurst } := by
  rw [enterGather, if_neg hn, if_pos rfl, setPos, setInner, setCh_setCh, ch_setCh_self]
  rfl

/-- The base word of the inline form makes the region the current gather and gives the section up (R244). -/
theorem enterGather_inline (hn : n ≠ 0) :
    enterGather c offset false inc n b s =
      (s.setCh c { s.ch c with inner := some ⟨newGather b n, .inline⟩, pos := .idle }).setOwner
        (ownerReleased c s) := by
  rw [enterGather, if_neg hn, if_neg Bool.false_ne_true, release_eq, setPos, setInner, setCh_setCh, ch_setCh_self]
  rfl

end

/-- The step of a GATHER that awaits its base word consumes that word from the outer gather (R241). -/
theorem step_gatherBase {s : State} {c : Chan} {rest : List Event} {offset : BitVec 12} {ins inc : Bool}
    {n : BitVec 14} {b : Word} (hs : Scheduled c rest s) (hp : AtPos c (.gatherBase offset ins inc n) s)
    (hw : WordsAhead c (s.ch c).gather [b] s) :
    step s = .next (enterGather c offset ins inc n b
      ((s.setAgenda rest).setCh c { s.ch c with gather := (s.ch c).gather.next })) := by
  obtain ⟨-, -, hpos⟩ := id hp
  have hdata : instrStep c (s.setAgenda rest) = dataGatherBase c offset ins inc n (s.setAgenda rest) := by
    rw [instrStep, ch_setAgenda, hpos]
  rw [step_instr hs hp, hdata]
  exact dataStep_ahead (s := s.setAgenda rest) hw rfl

/-- Settles O20: the cursor moves past the base word, and then the word's three cases are those of
`enterGather`. -/
theorem gatherBaseWord : Obligations.GatherBaseWord := by
  intro s c rest offset ins inc n b hs hp hw
  have hframe : OnlyChannel c (s.setAgenda rest) (enterGather c offset ins inc n b
      ((s.setAgenda rest).setCh c { s.ch c with gather := (s.ch c).gather.next })) :=
    (onlyChannel_setCh ..).trans (onlyChannel_enterGather ..)
  refine ⟨_, step_gatherBase hs hp hw, hframe, ?_⟩
  by_cases hn : n = 0
  · subst hn
    rw [enterGather_zero, instrDone, ch_setOwner, ch_setCh_self, ch_setCh_self]
    exact ⟨rfl, rfl⟩
  · cases ins with
    | true =>
      rw [enterGather_insert (hn := hn), ch_setCh_self, ch_setCh_self]
      simp only [hn, if_false, if_true]
      exact ⟨rfl, rfl⟩
    | false =>
      rw [enterGather_inline (hn := hn), ch_setOwner, ch_setCh_self, ch_setCh_self]
      simp only [hn, if_false, Bool.false_eq_true]
      exact ⟨rfl, rfl⟩

end Sys2Proof.Machine
end

section
/-! PROOFS. EXTEND with an undefined sub-operation (46_extend.md R258): one fault, of which only the opcode word differs
from sub-operation to sub-operation. -/

namespace Sys2Proof.Machine

theorem extendUndef_eq (i : Instr) (s : State) :
    extendUndef i s = .next (faultTaken s.active .unknownExtendSubop (encode i) s) := by
  rw [extendUndef, raiseFault_eq]

/-- Settles O28: each undefined sub-operation runs `extendUndef` on itself, so that the fault records the word that
encodes it (decision D16). -/
theorem undefinedSubopsFault : Obligations.UndefinedSubopsFault := fun s v =>
  ⟨extendUndef_eq (.extendUndef2 v) s, extendUndef_eq (.extendUndef3 v) s, extendUndef_eq (.extendUndef4 v) s,
    extendUndef_eq (.extendUndef5 v) s, extendUndef_eq (.extendUndef6 v) s, extendUndef_eq (.extendUndef7 v) s,
    extendUndef_eq (.extendUndef8 v) s, extendUndef_eq (.extendUndef9 v) s, extendUndef_eq (.extendUndefA v) s,
    extendUndef_eq (.extendUndefB v) s, extendUndef_eq (.extendUndefC v) s, extendUndef_eq (.extendUndefD v) s,
    extendUndef_eq (.extendUndefE v) s, extendUndef_eq (.extendUndefF v) s⟩

end Sys2Proof.Machine
end

section
/-! PROOFS. Who writes the outer cursor (47_restart_chdone.md R265, 48_cdma.md R281, R286): the fetches and the RESTART
of its worker, `control`, and subsystem reset; everything else leaves the cursor of every channel. -/

namespace Sys2Proof.Machine

/-! ### What leaves every cursor -/

/-- The outer cursor of every channel stands where it stood. -/
structure CursorsKept (s t : State) : Prop where
  get : ∀ c, (t.ch c).gather.get = (s.ch c).gather.get

theorem CursorsKept.trans {s t u : State} (h : CursorsKept s t) (g : CursorsKept t u) : CursorsKept s u :=
  ⟨fun c => (g.get c).trans (h.get c)⟩

/-- An update of anything but the channels. -/
theorem CursorsKept.of_chs {s t : State} (h : t.chs = s.chs) : CursorsKept s t :=
  ⟨fun c => by rw [State.ch, h]; rfl⟩

theorem CursorsKept.refl (s : State) : CursorsKept s s := .of_chs rfl

/-- What touches the Waiter records of the channels only. -/
theorem CursorsKept.of_waiters {s t : State} (h : ∀ c, t.ch c = { s.ch c with waiter := (t.ch c).waiter }) :
    CursorsKept s t := ⟨fun c => by rw [h c]⟩

/-- An operation on one channel that leaves its outer gather. -/
theorem OnlyChannel.cursorsKept {c : Chan} {s t : State} (h : OnlyChannel c s t)
    (hg : (t.ch c).gather = (s.ch c).gather) : CursorsKept s t := by
  refine ⟨fun d => ?_⟩
  by_cases hd : d = c
  · rw [hd, hg]
  · rw [h.others d hd]

theorem cursorsKept_setCh {c : Chan} {x : Channel} {s : State} (hx : x.gather.get = (s.ch c).gather.get) :
    CursorsKept s (s.setCh c x) := by
  refine ⟨fun d => ?_⟩
  by_cases hd : d = c
  · rw [hd, ch_setCh_self, hx]
  · rw [ch_setCh_ne s c d x hd]

/-! ### The requests of a handler (42_fifo_registry.md R189) -/

theorem cursorsKept_answer (a : AgentId) (r : Reply) (s : State) : CursorsKept s (answer a r s) := by
  unfold answer
  split <;> exact .of_chs rfl

theorem cursorsKept_held {a : AgentId} {s t : State} {r : SyncReq} (h : syncOp a s r = .held t) :
    CursorsKept s t := by
  obtain ⟨i, k, v, b, rfl, -⟩ := syncOp_held h
  cases a with
  | worker c =>
    rw [enqueue_worker]
    exact CursorsKept.trans (t := s.setCh c _) (cursorsKept_setCh (by rfl)) (.of_chs rfl)
  | ctx n => exact .of_chs rfl

theorem cursorsKept_runRequests {a : AgentId} {reqs : List CoreReq} {s t : State}
    (h : (runRequests a reqs s).state = some t) : CursorsKept s t :=
  runRequests_rel CursorsKept.refl CursorsKept.trans
    (fun hr => (CursorsKept.of_waiters (ch_syncOp hr)).trans (cursorsKept_answer _ _ _)) cursorsKept_held
    (fun _ _ _ _ => cursorsKept_setCh rfl) reqs h

/-! ### What a worker does to its cursor but fetch and RESTART -/

theorem cursorsKept_setPos (c : Chan) (p : Pos) (s : State) : CursorsKept s (setPos c p s) := cursorsKept_setCh rfl

theorem cursorsKept_setInner (c : Chan) (y : Option Inner) (s : State) : CursorsKept s (setInner c y s) :=
  cursorsKept_setCh rfl

theorem cursorsKept_setCall (c : Chan) (k : Option Call) (s : State) : CursorsKept s (setCall c k s) :=
  cursorsKept_setCh rfl

theorem cursorsKept_complete (c : Chan) (s : State) : CursorsKept s (complete c s) :=
  (onlyChannel_complete c s).cursorsKept (by simp)

theorem cursorsKept_raiseFault (c : Chan) (k : Cause) (v : Word) (s : State) :
    CursorsKept s (raiseFault c k v s) :=
  (onlyChannel_raiseFault c k v s).cursorsKept (by simp)

theorem cursorsKept_stopGather (c : Chan) (s : State) : CursorsKept s (stopGather c s) :=
  (onlyChannel_stopGather c s).cursorsKept (by unfold stopGather; split <;> simp)

theorem cursorsKept_afterWrite (c : Chan) (s : State) : CursorsKept s (afterWrite c s) := by
  unfold afterWrite
  cases (s.ch c).pos with
  | burst off left inc =>
    simp only
    split_ifs
    · exact cursorsKept_complete c s
    · exact cursorsKept_setPos c _ s
  | mask off bits i =>
    simp only
    cases nextBit bits (i + 1) with
    | none => exact cursorsKept_complete c s
    | some _ => exact cursorsKept_setPos c _ s
  | insertBurst =>
    simp only
    split
    · split_ifs
      · exact (cursorsKept_setInner c none s).trans (cursorsKept_complete c _)
      · exact cursorsKept_setInner c _ s
    · exact cursorsKept_complete c s
  | _ => exact cursorsKept_complete c s

theorem cursorsKept_continueCall {c : Chan} {reqs : List CoreReq} {s t : State}
    (h : continueCall c (runRequests (.worker c) reqs s) = .next t) : CursorsKept s t := by
  obtain ⟨u, hu, rfl⟩ | ⟨qs, ph, u, hu, rfl⟩ := continueCall_next h
  · exact (cursorsKept_runRequests (by rw [hu]; rfl)).trans (cursorsKept_afterWrite c u)
  · exact (cursorsKept_runRequests (by rw [hu]; rfl)).trans (cursorsKept_setCall c _ u)

theorem cursorsKept_modWrite {c : Chan} {off v : Word} {s t : State} (h : modWrite c off v s = .next t) :
    CursorsKept s t := by
  obtain ⟨-, ⟨-, rfl⟩ | ⟨m, -, h⟩⟩ := modWrite_next h
  · exact CursorsKept.trans (t := dropWrite (.worker c) off v s) (.of_chs rfl) (cursorsKept_afterWrite c _)
  · exact CursorsKept.trans (t := moduleWritten (.worker c) m off v s) (.of_chs rfl) (cursorsKept_continueCall h)

theorem cursorsKept_resumeCall {c : Chan} {reqs : List CoreReq} {s t : State}
    (h : resumeCall c reqs s = .next t) : CursorsKept s t :=
  (cursorsKept_setCall c none s).trans (cursorsKept_continueCall h)

theorem cursorsKept_reacquire {c : Chan} {reqs : List CoreReq} {s t : State}
    (h : reacquire c reqs s = .next t) : CursorsKept s t := by
  obtain ⟨-, h⟩ | ⟨-, rfl⟩ := reacquire_next h
  · exact CursorsKept.trans (t := s.setOwner (some c)) (.of_chs rfl) (cursorsKept_resumeCall h)
  · exact cursorsKept_setCall c _ s

theorem cursorsKept_callStep {c : Chan} {k : Call} {s t : State} (h : callStep c k s = .next t) :
    CursorsKept s t := by
  obtain ⟨-, -, h⟩ | ⟨-, -, rfl⟩ | ⟨-, h⟩ | ⟨-, h⟩ := callStep_cases h
  · exact CursorsKept.trans (t := s.setCh c _) (cursorsKept_setCh (by rfl)) (cursorsKept_reacquire h)
  · exact .refl t
  · exact cursorsKept_reacquire h
  · exact cursorsKept_resumeCall h

theorem cursorsKept_startBurst (c : Chan) (offset : BitVec 12) (n : BitVec 16) (inc : Bool) (s : State) :
    CursorsKept s (startBurst c offset n inc s) :=
  (onlyChannel_startBurst c offset n inc s).cursorsKept (by unfold startBurst; split <;> simp)

theorem cursorsKept_startMask (c : Chan) (offset : BitVec 12) (bits : BitVec 16) (s : State) :
    CursorsKept s (startMask c offset bits s) :=
  (onlyChannel_startMask c offset bits s).cursorsKept (by unfold startMask; split <;> simp)

theorem cursorsKept_gatherHead (c : Chan) (i : Instr) (offset : BitVec 12) (ins : Bool) (inc : BitVec 1)
    (n : BitVec 14) (s : State) : CursorsKept s (gatherHead c i offset ins inc n s) :=
  (onlyChannel_gatherHead c i offset ins inc n s).cursorsKept (by unfold gatherHead; split <;> simp)

theorem cursorsKept_enterGather (c : Chan) (offset : BitVec 12) (ins inc : Bool) (n : BitVec 14) (b : Word)
    (s : State) : CursorsKept s (enterGather c offset ins inc n b s) :=
  (onlyChannel_enterGather c offset ins inc n b s).cursorsKept (by unfold enterGather; split_ifs <;> simp)

theorem cursorsKept_acquireStep (c : Chan) (k : Fin 16) (s : State) : CursorsKept s (acquireStep c k s) := by
  rw [acquireStep_eq, ← complete_eq, ← complete_eq]
  split_ifs
  · exact cursorsKept_complete c s
  · exact .refl s
  · exact CursorsKept.trans (t := s.setMl k _) (.of_chs rfl) (cursorsKept_complete c _)

theorem cursorsKept_releaseStep (c : Chan) (k : Fin 16) (s : State) : CursorsKept s (releaseStep c k s) := by
  rw [releaseStep_eq, ← complete_eq, ← complete_eq]
  split_ifs
  · exact cursorsKept_complete c s
  · exact .refl s
  · exact CursorsKept.trans (t := s.setMl k _) (.of_chs rfl) (cursorsKept_complete c _)

theorem cursorsKept_countForeign (c : Chan) (k : Fin 16) (s : State) : CursorsKept s (countForeign c k s) := by
  unfold countForeign
  split <;> exact .of_chs rfl

/-! ### The fetches and the RESTART of a worker (R203, R265) -/

/-- RESTART moves the outer cursor to its target, in an inlined gather too. -/
theorem get_restart (c : Chan) (p : Ptr) (s : State) :
    ((complete c (dropInline c (relocate c p s))).ch c).gather.get = p := by
  rw [ch_complete, dropInline]
  split <;> simp

/-- The head of every instruction but RESTART leaves every cursor. -/
theorem cursorsKept_exec {i : Instr} {s t : State} (hi : ∀ offset, i ≠ .restart offset)
    (h : exec i s = .next t) : CursorsKept s t := by
  cases i with
  | restart offset => exact absurd rfl (hi offset)
  | imm o v => exact cursorsKept_modWrite h
  | setclass o k b =>
    cases h
    exact CursorsKept.trans (t := selectClass s.active k s) (cursorsKept_setCh rfl) (cursorsKept_startMask ..)
  | incr o n | nonincr o n => cases h; exact cursorsKept_startBurst ..
  | mask o n => cases h; exact cursorsKept_startMask ..
  | gatherInline o n k | gatherInsert o n k => cases h; exact cursorsKept_gatherHead ..
  | acquireMlock v => cases h; exact (cursorsKept_setPos ..).trans (cursorsKept_acquireStep ..)
  | releaseMlock v =>
    cases h
    exact ((cursorsKept_setPos ..).trans (cursorsKept_countForeign ..)).trans (cursorsKept_releaseStep ..)
  | chdone v => cases h; exact cursorsKept_complete ..
  | _ => cases h; exact cursorsKept_raiseFault ..

/-- The outer cursor of channel `c` stands where it stood or has moved past one word. -/
def CursorRead (c : Chan) (s t : State) : Prop :=
  (t.ch c).gather.get = (s.ch c).gather.get ∨ (t.ch c).gather.get = (s.ch c).gather.get + 1

theorem CursorsKept.read {s t : State} (h : CursorsKept s t) (c : Chan) : CursorRead c s t := .inl (h.get c)

theorem CursorRead.trans_kept {c : Chan} {s t u : State} (h : CursorRead c s t) (g : CursorsKept t u) :
    CursorRead c s u := by
  rwa [CursorRead, g.get c]

/-- One word is read, from the outer gather or the inner one (R203). -/
theorem cursorRead_advance (c : Chan) (r : Reader) (s : State) :
    CursorRead c s (s.setCh c ((s.ch c).advance r)) := by
  rw [CursorRead, ch_setCh_self]
  cases hinner : (s.ch c).inner with
  | none => exact .inr (by simp [Channel.advance, hinner, Gather.next])
  | some y =>
    cases r with
    | inner => exact .inl (by simp [Channel.advance, hinner])
    | outer => exact .inr rfl

/-- A DATA step reads at most its word (R205). -/
theorem cursorRead_dataStep {c : Chan} {r : Reader} {onStop s t : State} {use : Word → State → Res}
    (hstop : CursorsKept s onStop) (huse : ∀ w u v, use w u = .next v → CursorsKept u v)
    (h : dataStep c r onStop use s = .next t) : CursorRead c s t := by
  obtain ⟨-, rfl⟩ | ⟨-, rfl⟩ | ⟨w, -, -, hu⟩ := dataStep_next h
  · exact (cursorsKept_raiseFault c _ _ s).read c
  · exact hstop.read c
  · exact (cursorRead_advance c r s).trans_kept (huse _ _ _ hu)

theorem cursorRead_dataMask {c : Chan} {off : Word} {bits : BitVec 16} {i : Nat} {s t : State}
    (h : dataMask c off bits i s = .next t) : CursorRead c s t := by
  unfold dataMask at h
  split at h
  · cases h; exact (cursorsKept_complete c s).read c
  · exact cursorRead_dataStep (cursorsKept_complete c s)
      (fun _ _ _ hw => (cursorsKept_setPos ..).trans (cursorsKept_modWrite hw)) h

theorem cursorRead_dataInsert {c : Chan} {s t : State} (h : dataInsert c s = .next t) : CursorRead c s t := by
  unfold dataInsert at h
  split at h
  · exact cursorRead_dataStep ((cursorsKept_setInner c none s).trans (cursorsKept_complete c _))
      (fun _ _ _ hw => cursorsKept_modWrite hw) h
  · cases h; exact (cursorsKept_complete c s).read c

/-- Worker `c` fetches a RESTART at a BOUNDARY, and `p` is its target (R201, R265). -/
def RestartFetched (c : Chan) (p : Ptr) (s : State) : Prop :=
  ∃ (w : Word) (offset : BitVec 28),
    AtPos c .idle s ∧ stopped (s.ch c) (currentGather c s) = .go ∧
    s.mem.readWord (currentGather c s).wordIndex = some w ∧ decodeWord w = .restart offset ∧
    p = offset.setWidth 30 <<< s.cfg.restartShift

/-- A BOUNDARY step that runs the head of what it fetched. -/
theorem cursor_fetched {c : Chan} {w : Word} {s t : State} (hp : AtPos c .idle s)
    (hgo : stopped (s.ch c) (currentGather c s) = .go)
    (hw : s.mem.readWord (currentGather c s).wordIndex = some w)
    (h : exec (decodeWord w) (fetched c s) = .next t) :
    CursorRead c s t ∨ RestartFetched c (t.ch c).gather.get s := by
  by_cases hi : ∃ offset, decodeWord w = .restart offset
  · obtain ⟨offset, hi⟩ := hi
    rw [hi] at h
    cases h
    exact .inr ⟨w, offset, hp, hgo, hw, hi, get_restart c _ (fetched c s)⟩
  · have hread : CursorRead c s (fetched c s) := cursorRead_advance c _ (takeSection c s)
    exact .inl (hread.trans_kept (cursorsKept_exec (not_exists.1 hi) h))

/-- A worker reads at most one word of its outer gather in a step, or has fetched a RESTART. -/
theorem cursor_instrStep {c : Chan} {s t : State} (hr : (s.ch c).running = true) (hk : (s.ch c).call = none)
    (h : instrStep c s = .next t) : CursorRead c s t ∨ RestartFetched c (t.ch c).gather.get s := by
  obtain ⟨hp, h⟩ | ⟨_, _, _, -, h⟩ | ⟨_, _, _, -, h⟩ | ⟨_, _, _, _, -, h⟩ | ⟨-, h⟩ | ⟨k, -, rfl⟩ |
    ⟨k, -, rfl⟩ := instrStep_cases h
  · obtain ⟨-, rfl⟩ | ⟨-, rfl⟩ | ⟨-, -, rfl⟩ | ⟨w, hgo, -, hw, h⟩ := h
    · exact .inl ((cursorsKept_raiseFault c _ _ s).read c)
    · exact .inl ((cursorsKept_stopGather c s).read c)
    · exact .inl (.inl rfl)
    · exact cursor_fetched ⟨hr, hk, hp⟩ hgo hw h
  · exact .inl (cursorRead_dataStep (cursorsKept_complete c s) (fun _ _ _ hw => cursorsKept_modWrite hw) h)
  · exact .inl (cursorRead_dataMask h)
  · exact .inl (cursorRead_dataStep (cursorsKept_complete c s)
      (fun _ _ _ hw => by cases hw; exact cursorsKept_enterGather ..) h)
  · exact .inl (cursorRead_dataInsert h)
  · exact .inl ((cursorsKept_acquireStep c k s).read c)
  · exact .inl ((cursorsKept_releaseStep c k s).read c)

theorem cursor_workerStep {c : Chan} {s t : State} (h : workerStep c s = .next t) :
    CursorRead c s t ∨ RestartFetched c (t.ch c).gather.get s := by
  obtain ⟨-, -, rfl⟩ | ⟨-, -, rfl⟩ | ⟨k, -, -, h⟩ | ⟨hr, hk, h⟩ := workerStep_cases h
  · exact .inl (.inl rfl)
  · exact .inl ((cursorsKept_setCh rfl : CursorsKept s (startRun c s)).read c)
  · exact .inl ((cursorsKept_callStep h).read c)
  · exact cursor_instrStep hr hk h

/-! ### What the host does to a cursor (R275 to R281) -/

theorem cursorsKept_returns {a : AgentId} {r : Reply} {s t u : State} (hk : CursorsKept s t)
    (h : returns a r t = .next u) : CursorsKept s u := by
  rw [returns_next h]; exact hk.trans (.of_chs rfl)

theorem cursorsKept_returns_chs {a : AgentId} {r : Reply} {s t u : State} (h : returns a r t = .next u)
    (ht : t.chs = s.chs) : CursorsKept s u :=
  cursorsKept_returns (.of_chs ht) h

theorem cursorsKept_cdmaRun (c : Chan) (s : State) : CursorsKept s (cdmaRun c s) := by
  unfold cdmaRun
  split
  · exact cursorsKept_setCh rfl
  · exact .refl s

theorem cursorsKept_controlStop (c : Chan) (s : State) : CursorsKept s (controlStop c s) :=
  CursorsKept.trans (t := s.setCh c { s.ch c with enabled := false }) (cursorsKept_setCh rfl)
    (.of_waiters (waitersOnly_unlockForced (.worker c) _).ch)

/-- Where `control` puts the cursor of channel `c` if it is to reset it (R281). -/
def resetTarget (c : Chan) (fp : Bool) (s : State) : Ptr := if fp then (s.ch c).gather.put else 0

theorem get_controlResetGet (c d : Chan) (rg fp : Bool) (s : State) :
    ((controlResetGet d rg fp s).ch c).gather.get = (s.ch c).gather.get ∨
      rg = true ∧ d = c ∧ ((controlResetGet d rg fp s).ch c).gather.get = resetTarget c fp s := by
  cases rg with
  | false => exact .inl rfl
  | true =>
    by_cases hd : c = d
    · subst hd
      exact .inr ⟨rfl, rfl, by simp [controlResetGet, resetTarget]⟩
    · exact .inl (by rw [(onlyChannel_controlResetGet d true fp s).others c hd])

theorem get_controlEnable (c d : Chan) (rg fp : Bool) (s : State) :
    ((controlEnable d rg fp s).ch c).gather.get = ((controlResetGet d rg fp s).ch c).gather.get := by
  let t := controlResetGet d rg fp s
  have hk : CursorsKept t (t.setCh d { t.ch d with enabled := true }) := cursorsKept_setCh rfl
  exact (hk.trans (cursorsKept_cdmaRun d _)).get c

/-- `control` puts the cursor of its channel, and only if it is to reset it, to 0 or to `put`. -/
theorem get_hostControl {n : Nat} {c d : Chan} {stop rg fp : Bool} {s t : State}
    (h : hostControl n d stop rg fp s = .next t) :
    (t.ch c).gather.get = (s.ch c).gather.get ∨
      rg = true ∧ d = c ∧ (t.ch c).gather.get = resetTarget c fp s := by
  unfold hostControl at h
  split_ifs at h
  · cases h
    exact .inl ((cursorsKept_controlStop d s).get c)
  · rw [returns_next h, ch_emit, get_controlEnable]
    exact get_controlResetGet c d rg fp s

theorem cursorsKept_continueHost {n : Nat} {reqs : List CoreReq} {s t : State}
    (h : continueHost n (runRequests (.ctx n) reqs s) = .next t) : CursorsKept s t := by
  obtain ⟨u, hu, rfl⟩ | ⟨qs, ph, u, hu, rfl⟩ := continueHost_next h
  · exact (cursorsKept_runRequests (t := u) (by rw [hu]; rfl)).trans (.of_chs rfl)
  · exact (cursorsKept_runRequests (t := u) (by rw [hu]; rfl)).trans (.of_chs rfl)

theorem cursorsKept_hostWaitStep {n : Nat} {reqs : List CoreReq} {s t : State}
    (h : hostWaitStep n reqs s = .next t) : CursorsKept s t := by
  obtain ⟨-, rfl⟩ | ⟨-, h⟩ := hostWaitStep_cases h
  · exact .refl t
  · exact CursorsKept.trans (t := s.setCtx n _) (.of_chs rfl) (cursorsKept_continueHost h)

theorem cursorsKept_fifoPush (c : Chan) (v : Word) (s : State) : CursorsKept s (fifoPush c v s) :=
  cursorsKept_setCh rfl

theorem cursorsKept_fifoPop (c : Chan) (s : State) : CursorsKept s (fifoPop c s) := cursorsKept_setCh rfl

/-- A scheduled host context puts a cursor only where its pending `control` asks for it. -/
theorem get_hostResume {n : Nat} {s t : State} (h : hostResume n s = .next t) (c : Chan) :
    (t.ch c).gather.get = (s.ch c).gather.get ∨
      ∃ fp, (s.ctx n).job = .inControl c true fp ∧ (t.ch c).gather.get = resetTarget c fp s := by
  obtain rfl | ⟨qs, -, h⟩ | ⟨d, rg, fp, hj, -, h⟩ | ⟨d, -, -, h⟩ | ⟨d, v, -, -, h⟩ := hostResume_cases h
  · exact .inl rfl
  · exact .inl ((cursorsKept_hostWaitStep h).get c)
  · rw [finishJob_next h, ch_emit, setJob, ch_setCtx]
    refine (get_controlResetGet c d rg fp s).imp_right ?_
    rintro ⟨rfl, rfl, hget⟩
    exact ⟨fp, hj, hget⟩
  · rw [finishJob_next h]
    exact .inl ((cursorsKept_fifoPop d s).get c)
  · rw [finishJob_next h]
    exact .inl ((cursorsKept_fifoPush d v s).get c)

/-- The operations of the host but a `control` that is to reset the cursor, and subsystem reset, leave every
cursor; `init` finds its channel in its reset state (R275). -/
theorem cursorsKept_hostOp {n : Nat} {op : HostOp} {s t : State}
    (hcontrol : ∀ c stop fp, op ≠ .control c stop true fp) (hreset : op ≠ .subsystemReset)
    (h : hostOp n op s = .next t) : CursorsKept s t := by
  cases op with
  | init c =>
    obtain ⟨c, -, h⟩ := withId_next h
    unfold hostInit at h
    split_ifs at h with hinit
    rw [← hinit, setCh_ch] at h
    exact cursorsKept_returns (.refl s) h
  | setBase c v | setPut c v =>
    obtain ⟨c, -, h⟩ := withId_next h
    refine cursorsKept_returns (.trans ?_ (cursorsKept_cdmaRun c _)) h
    exact cursorsKept_setCh rfl
  | setEnd c v =>
    obtain ⟨c, -, h⟩ := withId_next h
    exact cursorsKept_returns (t := cdmaSetEnd c v s) (cursorsKept_setCh rfl) h
  | control c stop rg fp =>
    obtain ⟨d, -, h⟩ := withId_next h
    refine ⟨fun e => (get_hostControl h).resolve_right ?_⟩
    rintro ⟨rfl, -, -⟩
    exact hcontrol c stop fp rfl
  | sync r =>
    simp only [hostOp, hostSync] at h
    split at h
    · rename_i hr; exact cursorsKept_returns (.of_waiters (ch_syncOp hr)) h
    · rename_i hr; cases h; exact (cursorsKept_held hr).trans (.of_chs rfl)
    · cases h
  | unlockWaiter c =>
    obtain ⟨c, -, h⟩ := withId_next h
    unfold hostUnlockWaiter at h
    split_ifs at h
    exact cursorsKept_returns (.of_waiters (waitersOnly_wake (.worker c) s).ch) h
  | unlockWaiterForced c =>
    obtain ⟨c, -, h⟩ := withId_next h
    unfold hostUnlockForced at h
    split_ifs at h
    exact cursorsKept_returns (.of_waiters (waitersOnly_unlockForced (.worker c) s).ch) h
  | cpuTryAcquire k =>
    obtain ⟨k, -, h⟩ := withId_next h
    refine cursorsKept_returns ?_ h
    unfold cpuTryAcquire
    split <;> exact .of_chs rfl
  | cpuRelease k | cpuGetRaw k =>
    obtain ⟨k, -, h⟩ := withId_next h
    exact cursorsKept_returns_chs h rfl
  | wakeAllChannelWaiters | lookup k => exact cursorsKept_returns (.refl s) h
  | register m =>
    simp only [hostOp, hostRegister] at h
    split_ifs at h
    exact cursorsKept_returns_chs h rfl
  | dispatchWrite k off v =>
    simp only [hostOp, hostDispatchWrite] at h
    split at h
    · cases h
    · split at h
      · exact cursorsKept_returns_chs h rfl
      · exact CursorsKept.trans (t := moduleWritten (.ctx n) _ off v s) (.of_chs rfl)
          (cursorsKept_continueHost h)
  | dispatchRead k off =>
    simp only [hostOp, hostDispatchRead] at h
    split at h
    · cases h
    · exact cursorsKept_returns_chs h rfl
  | push c v =>
    obtain ⟨c, -, h⟩ := withId_next h
    unfold hostPush at h
    split_ifs at h
    · cases h; exact .of_chs rfl
    · exact cursorsKept_returns (cursorsKept_fifoPush c v s) h
  | pop c =>
    obtain ⟨c, -, h⟩ := withId_next h
    unfold hostPop at h
    split_ifs at h
    · cases h; exact .of_chs rfl
    · exact cursorsKept_returns (cursorsKept_fifoPop c s) h
  | popNonempty c =>
    obtain ⟨c, -, h⟩ := withId_next h
    unfold hostPopNonempty at h
    split_ifs at h
    exact cursorsKept_returns (cursorsKept_fifoPop c s) h
  | irqSetDest p m | irqGetDest p | irqGetStatus p =>
    obtain ⟨p, -, h⟩ := withId_next h
    exact cursorsKept_returns_chs h rfl
  | irqClearStatus p m =>
    obtain ⟨p, -, h⟩ := withId_next h
    exact cursorsKept_returns (.of_waiters (routerOnly_irqClearStatus p m s).sync.ch) h
  | subsystemReset => exact absurd rfl hreset

/-- A `control` that is to reset the cursor writes that of its own channel. -/
theorem get_hostOp_control {n d : Nat} {stop fp : Bool} {s t : State}
    (h : hostOp n (.control d stop true fp) s = .next t) (c : Chan) :
    (t.ch c).gather.get = (s.ch c).gather.get ∨ d = c.val ∧ (t.ch c).gather.get = resetTarget c fp s := by
  obtain ⟨e, rfl, hop⟩ := withId_next h
  refine (get_hostControl hop).imp_right ?_
  rintro ⟨-, rfl, hget⟩
  exact ⟨rfl, hget⟩

/-- Subsystem reset puts every cursor to 0 (70_reset_and_hazards.md R340). -/
theorem get_hostOp_reset {n : Nat} {s t : State} (h : hostOp n .subsystemReset s = .next t) (c : Chan) :
    (t.ch c).gather.get = 0 := by
  simp only [hostOp, hostReset] at h
  split_ifs at h
  rw [returns_next h, ch_emit, subsystemReset_ch]
  rfl

/-! ### Every step -/

/-- A step of worker `d` touches no cursor but its own. -/
theorem get_workerStep {d : Chan} {s t : State} (h : workerStep d s = .next t) (c : Chan) :
    (t.ch c).gather.get = (s.ch c).gather.get ∨ d = c ∧
      ((t.ch c).gather.get = (s.ch c).gather.get + 1 ∨ RestartFetched c (t.ch c).gather.get s) := by
  by_cases hd : c = d
  · subst hd
    obtain (hkept | hread) | hrestart := cursor_workerStep h
    · exact .inl hkept
    · exact .inr ⟨rfl, .inl hread⟩
    · exact .inr ⟨rfl, .inr hrestart⟩
  · exact .inl (by rw [(workerStep_frame h).others c hd])

/-- Settles O51: event by event, with the cursor of one agent's channel written and every other one kept. -/
theorem onlyTheseWriteGet : Obligations.OnlyTheseWriteGet := by
  intro s t c h get get'
  obtain ⟨agenda, fresh, hu⟩ : ∃ agenda fresh, (nextEvent s).2 = { s with agenda := agenda, fresh := fresh } :=
    ⟨_, _, nextEvent_state s⟩
  rw [step, hu] at h
  split
  case h_1 d he => rw [he] at h; exact get_workerStep h c
  case h_2 n d stop fp he => rw [he] at h; exact get_hostOp_control (hostIssue_next h).2 c
  case h_3 n he => rw [he] at h; exact get_hostOp_reset (hostIssue_next h).2 c
  case h_4 n he => rw [he] at h; exact get_hostResume h c
  case h_5 _ hworker hcontrol hreset hresume =>
    cases he : (nextEvent s).1 with
    | worker d => exact absurd he (hworker d)
    | host n op =>
      rw [he] at h
      have hkept := cursorsKept_hostOp (fun d stop fp e => hcontrol n d stop fp (e ▸ he))
        (fun e => hreset n (e ▸ he)) (hostIssue_next h).2
      exact hkept.get c
    | resume n => exact absurd he (hresume n)
    | store addr bytes => rw [he] at h; cases h; rfl

end Sys2Proof.Machine
end

section
/-! PROOFS. RESTART and CHDONE (47_restart_chdone.md R265 to R267): what each leaves of its channel, and that nothing else
changes. -/

namespace Sys2Proof.Machine

/-! ### RESTART (R265, R266) -/

theorem dropInline_inline {c : Chan} {s : State} {g : Gather} (h : (s.ch c).inner = some ⟨g, .inline⟩) :
    dropInline c s = setInner c none s := by
  simp [dropInline, Channel.reader, h]

theorem dropInline_outer {c : Chan} {s : State} (h : ∀ g, (s.ch c).inner ≠ some ⟨g, .inline⟩) :
    dropInline c s = s := by
  have hreader : (s.ch c).reader = .outer := by
    unfold Channel.reader
    split
    · rename_i g hinner; exact absurd hinner (h g)
    · rfl
  rw [dropInline, hreader]

theorem owner_complete (c : Chan) (s : State) : (complete c s).owner = ownerAfterEnd c s := by
  rw [complete_eq]; rfl

/-- Settles O23: the relocated channel with its inlined gather dropped, if it has one, and then the end of an
instruction. -/
theorem restartRelocates : Obligations.RestartRelocates := by
  intro s offset
  let relocated := relocate s.active (restartTarget s.cfg.restartShift offset) s
  refine ⟨complete s.active (dropInline s.active relocated), rfl, onlyChannel_restart .., ?_⟩
  intro target x
  have hch : relocated.ch s.active =
      { s.ch s.active with gather := { (s.ch s.active).gather with get := target } } := ch_relocate ..
  rw [ch_complete, owner_complete]
  split
  · rename_i g hinner
    rw [dropInline_inline (g := g) (by rw [hch, hinner]), ch_setInner, hch]
    exact ⟨rfl, rfl⟩
  · rename_i houter
    rw [dropInline_outer (by rw [hch]; exact houter), hch]
    exact ⟨rfl, rfl⟩

/-! ### CHDONE (R267) -/

theorem exec_chdone (ignored : BitVec 28) (s : State) :
    exec (.chdone ignored) s = .next (instrDone s.active s) :=
  congrArg Host.Outcome.next (complete_eq s.active s)

/-- An instruction that ends with its fetch leaves the cursor's advance, and the section as its end leaves it. -/
theorem instrDone_fetched {c : Chan} {s : State} (hp : (s.ch c).pos = .idle) :
    instrDone c (fetched c s) =
      (((s.setCh c ((s.ch c).advance (s.ch c).reader)).setActive c).setOwner
        (if s.cfg.granularity = .instruction then none else some c)) := by
  have hch : (fetched c s).ch c = (s.ch c).advance (s.ch c).reader := ch_setCh_self ..
  have hstands : { (fetched c s).ch c with pos := .idle } = (s.ch c).advance (s.ch c).reader := by
    have hpos : ((fetched c s).ch c).pos = .idle := by rw [hch, advance_pos, hp]
    rw [← hpos]
    exact hch
  have howner : ownerReleased c (fetched c s) = none := if_pos rfl
  rw [instrDone, hstands, ownerAfterEnd, howner, fetched, setCh_setCh]
  rfl

/-- Settles O24: the head is the end of an instruction, and the step that fetches it a BOUNDARY step. -/
theorem chdoneChangesNothing : Obligations.ChdoneChangesNothing := by
  refine ⟨fun s ignored => ⟨_, exec_chdone ignored s, onlyChannel_instrDone s.active s, rfl⟩,
    fun s c rest ignored hs hp hgo hfree hw => ?_⟩
  obtain ⟨-, -, hidle⟩ := id hp
  let u := s.setAgenda rest
  have hdecode : decodeWord (0xF#4 ++ ignored) = .chdone ignored := decodeWord_encode (.chdone ignored)
  calc step s
    _ = boundary c u := step_boundary hs hp
    _ = exec (.chdone ignored) (fetched c u) := by rw [boundary_fetched (s := u) hgo hfree hw, hdecode]
    _ = .next (instrDone c (fetched c u)) := exec_chdone ignored (fetched c u)
    _ = _ := congrArg Host.Outcome.next (instrDone_fetched (s := u) hidle)

end Sys2Proof.Machine
end

section
/-! PROOFS. The control protocol of a channel (48_cdma.md R277 to R281, R285) as a host context sees it, and what ends it:
a fault, which lasts until subsystem reset (60_exceptions.md R304, R307). -/

namespace Sys2Proof.Machine

/-! ### The pointer registers and the start of a run (R277 to R281) -/

/-- Settles O48: each records its pointer, and the first two evaluate the run condition on the channel written. -/
theorem pointerRegistersAreSet : Obligations.PointerRegistersAreSet := by
  intro s h c rest v p g raised done
  let u := s.setAgenda rest
  have run (x : Channel) : returns (.ctx h) .done (cdmaRun c (u.setCh c x)) = done (raised x) := by
    rw [cdmaRun_setCh]; rfl
  refine ⟨fun hs => ?base, fun hs => ?put, fun hs => ?limit⟩
  case base => exact (step_issue hs).trans ((withId_val c _).trans (run _))
  case put => exact (step_issue hs).trans ((withId_val c _).trans (run _))
  case limit => exact (step_issue hs).trans (withId_val c _)

theorem controlResetGet_eq (c : Chan) (rg fp : Bool) (s : State) :
    controlResetGet c rg fp s = s.setCh c { s.ch c with gather := { (s.ch c).gather with
      get := if rg then resetTarget c fp s else (s.ch c).gather.get } } := by
  cases rg with
  | false => exact (setCh_ch s c).symm
  | true => rfl

/-- An enabled channel starts if words are queued, it does not run and has no fault (R280). -/
theorem cdmaRun_enabled {c : Chan} {x : Channel} {s : State} (hx : x.enabled = true) :
    cdmaRun c (s.setCh c x) = s.setCh c { x with
      start := x.start || (x.gather.get != x.gather.put && !x.running && x.fault.isNone) } := by
  have hcond : (x.gather.get != x.gather.put && !x.running && x.fault.isNone) = true ↔
      x.enabled = true ∧ x.gather.get ≠ x.gather.put ∧ x.running = false ∧ x.fault = none := by
    simp [hx, and_assoc]
  rw [cdmaRun_setCh, ← if_congr hcond rfl rfl]
  split
  · next h => rw [h, Bool.or_true]
  · next h => rw [Bool.eq_false_iff.2 h, Bool.or_false]

theorem hostControl_enable {h : Nat} {c : Chan} {rg fp : Bool} {s : State} (hfree : controlPending c s = false) :
    hostControl h c false rg fp s = returns (.ctx h) .done (controlEnable c rg fp s) := by
  simp [hostControl, hfree]

/-- Settles O49: the cursor is reset as asked, the channel enabled, and the run condition evaluated on it. -/
theorem controlEnables : Obligations.ControlEnables := by
  intro s h c rest rg fp hs hfree g get x
  let u := s.setAgenda rest
  have henable : controlEnable c rg fp u = u.setCh c x := by
    rw [controlEnable, controlResetGet_eq, setCh_setCh, ch_setCh_self, cdmaRun_enabled rfl]
    rfl
  calc step s
    _ = hostControl h c false rg fp u := (step_issue hs).trans (withId_val c _)
    _ = returns (.ctx h) .done (controlEnable c rg fp u) := hostControl_enable hfree
    _ = _ := by rw [henable]; rfl

/-! ### The end of a stop (R281, R285) -/

/-- A parked worker is out of any wait. -/
theorem place_eq_none_of_parked {c : Chan} {s : State} (hlawful : (s.ch c).Lawful) (hcoherent : WaitersCoherent s)
    (hr : (s.ch c).running = false) : (s.ch c).waiter.place = none := by
  obtain ⟨-, -, hcall⟩ := hlawful.rest hr
  exact hcoherent.place_eq_none (a := .worker c) (inWait_of_noCall hcall)

theorem hostResume_control {h : Nat} {c : Chan} {rg fp : Bool} {s : State}
    (hj : (s.ctx h).job = .inControl c rg fp) :
    hostResume h s =
      if (s.ch c).stopped then finishJob h .done (controlResetGet c rg fp s) else .next s := by
  rw [hostResume, hj]

/-- Settles O50: the context goes on when the channel is stopped, which it is exactly when it does not run, and a channel
that does not run has nothing in progress. -/
theorem stopIsSynchronous : Obligations.StopIsSynchronous := by
  intro s h c rest rg fp hagenda hj hlawful hexclusive hcoherent hstops
  let u := s.setAgenda rest
  have hl := hlawful c
  have hstep : step s = if (u.ch c).stopped then finishJob h .done (controlResetGet c rg fp u) else .next u :=
    (step_resume hagenda).trans (hostResume_control hj)
  have hstopped : (u.ch c).stopped = !(s.ch c).running := hl.stopped_eq
  rw [hstep, hstopped]
  cases hr : (s.ch c).running with
  | true => rfl
  | false =>
    obtain ⟨hinner, -, -⟩ := hl.rest hr
    obtain ⟨howns, -⟩ := hexclusive
    have hnot : s.owner ≠ some c := fun ho => Bool.false_ne_true (hr.symm.trans (howns c ho))
    let v := controlResetGet c rg fp u
    let t := (setJob h .idle v).emit (.reply (.ctx h) .done)
    have hv : v = u.setCh c { s.ch c with gather := { (s.ch c).gather with
        get := if rg then resetTarget c fp u else (s.ch c).gather.get } } := controlResetGet_eq c rg fp u
    have hch : t.ch c = v.ch c := rfl
    have hjob : (t.ctx h).job = .idle := by rw [ctx_emit, ctx_setJob]
    have hout : t.out = .reply (.ctx h) .done :: v.out := rfl
    have howner : t.owner = v.owner := rfl
    refine ⟨t, rfl, hjob, ?_⟩
    rw [hout, howner, hch, hv, ch_setCh_self]
    exact ⟨rfl, hstops h c rg fp hj, hr, hinner, hnot, place_eq_none_of_parked hl hcoherent hr, rfl⟩

/-! ### A fault lasts until subsystem reset (60_exceptions.md R304, R307) -/

theorem RunsKept.fault {s t : State} (h : RunsKept s t) (c : Chan) : (t.ch c).fault = (s.ch c).fault := by
  rw [h.ch c]

/-- A faulted channel has no step of its own, and no other agent but subsystem reset touches its fault or its
run. -/
theorem faultKept_perform {c : Chan} {e : Event} {s t : State} (hlawful : (s.ch c).Lawful)
    (hf : (s.ch c).fault.isSome = true) (hreset : ∀ h, e ≠ .host h .subsystemReset)
    (h : perform e s = .next t) :
    (t.ch c).fault = (s.ch c).fault ∧ (t.ch c).running = (s.ch c).running := by
  have of_kept (hk : RunsKept s t) := And.intro (hk.fault c) (hk.running c)
  cases e with
  | worker d =>
    by_cases hd : c = d
    · subst hd
      obtain ⟨hr, hstart⟩ := hlawful.fault_dead hf
      obtain rfl : s = t := Host.Outcome.next.inj ((workerStep_parked hr hstart).symm.trans h)
      exact ⟨rfl, rfl⟩
    · rw [(workerStep_frame h).others c hd]
      exact ⟨rfl, rfl⟩
  | host n op => exact of_kept (runsKept_hostOp (fun hop => hreset n (hop ▸ rfl)) (hostIssue_next h).2)
  | resume n => exact of_kept (runsKept_hostResume h)
  | store addr bytes => cases h; exact ⟨rfl, rfl⟩

/-- Settles O30: a faulted channel is dead, and what could revive it or rewrite its fault is its own worker alone. -/
theorem faultPersistsUntilReset : Obligations.FaultPersistsUntilReset := by
  intro s t c f hlawful h hreset hf
  have hsome : (s.ch c).fault.isSome = true := by rw [hf]; rfl
  obtain ⟨hdead, -⟩ := (hlawful c).fault_dead hsome
  have hch := ch_nextEvent s c
  obtain ⟨hfault, hrunning⟩ := faultKept_perform (hch ▸ hlawful c) (hch ▸ hsome) hreset h
  rw [hch] at hfault hrunning
  exact ⟨hfault.trans hf, hrunning.trans hdead⟩

end Sys2Proof.Machine
end

section
/-! PROOFS. The IRQ router (60_exceptions.md R313 to R316): the callback of a line, what a re-evaluation latches, and the
router's registers; and subsystem reset (70_reset_and_hazards.md R340 to R343). -/

namespace Sys2Proof.Machine

/-! ### The lines and their callbacks (R316) -/

/-- The callback of the line of CPU `p` that goes from one level to another: one on a change, none else. -/
def lineCallback (p : Fin 2) (before after : Bool) : List Output :=
  if after = before then [] else if after then [.irqRaise p] else [.irqLower p]

theorem lineLevel_eq (pending : Word) : lineLevel pending = decide (pending ≠ 0) := by
  rw [lineLevel, bne, beq_eq_decide, decide_not]

@[simp] theorem setLine_line (p : Fin 2) (s : State) : s.setLine p (s.line p) = s := by
  simp [State.setLine, State.line]

/-- The line update of one CPU puts its line at the level of its pending word, with the callback of the change. -/
theorem updateLine_eq (p : Fin 2) (s : State) :
    updateLine p s = { s.setLine p (lineLevel (s.pending p)) with
      out := lineCallback p (s.line p) (lineLevel (s.pending p)) ++ s.out } := by
  unfold updateLine lineCallback
  dsimp only
  split
  · next h => rw [h, setLine_line]; rfl
  · cases lineLevel (s.pending p) <;> rfl

/-- Bits cleared can take a line down and not up. -/
theorem lineCallback_clear (p : Fin 2) (v m : Word) :
    lineCallback p (lineLevel v) (lineLevel (v &&& ~~~m)) = if v ≠ 0 ∧ v &&& ~~~m = 0 then [.irqLower p] else [] := by
  by_cases hv : v = 0#32
  · subst hv; simp [lineCallback]
  · have hup : lineLevel v = true := by rw [lineLevel_eq]; exact decide_eq_true hv
    rw [hup]
    by_cases hm : v &&& ~~~m = 0#32 <;> simp [lineCallback, lineLevel_eq, hv, hm]

theorem updateLine_follows {p : Fin 2} {s : State} (h : s.line p = lineLevel (s.pending p)) :
    updateLine p s = s := if_pos h.symm

theorem out_updateLines (s : State) :
    (updateLines s).out = lineCallback 1 (s.line 1) (lineLevel (s.pending 1)) ++
      lineCallback 0 (s.line 0) (lineLevel (s.pending 0)) ++ s.out := by
  simp only [updateLines, updateLine_eq 1, pending_updateLine, line_updateLine]
  rw [updateLine_eq 0, List.append_assoc]
  rfl

/-- If only the line of CPU `p` can be off its level, the update of both lines is that of `p`. -/
theorem updateLines_single {p : Fin 2} {s : State} (h : ∀ q, q ≠ p → s.line q = lineLevel (s.pending q)) :
    updateLines s = updateLine p s := by
  match p with
  | 0 =>
    refine updateLine_follows ?_
    rw [line_updateLine, pending_updateLine, if_neg (by decide)]
    exact h 1 (by decide)
  | 1 => rw [updateLines, updateLine_follows (h 0 (by decide))]

/-! ### Latching (R313) -/

/-- Latching changes of a pending word the bit of the sync-point only. -/
theorem getLsbD_latched (i : Fin 32) (p : Fin 2) (s : State) {n : Nat} (hn : n < 32) :
    (latched i p s).getLsbD n =
      ((s.pending p).getLsbD n || (decide (n = i.val) && (s.dest p).getLsbD n)) := by
  have hbit : BitVec.getLsbD (((1 <<< i.val : Nat)) : Word) n = decide (n = i.val) := by
    rw [BitVec.natCast_eq_ofNat, BitVec.getLsbD_ofNat, Nat.one_shiftLeft, Nat.testBit_two_pow, decide_eq_true hn,
      Bool.true_and]
    exact decide_eq_decide.2 eq_comm
  rw [latched, BitVec.getLsbD_or, BitVec.getLsbD_and, hbit, Bool.and_comm]

theorem pending_irqLatch (i : Fin 32) (p : Fin 2) (s : State) :
    (irqLatch i s).pending p = if thresholdCrossed i s then latched i p s else s.pending p := by
  rw [irqLatch, pending_updateLines]
  split
  · match p with
    | 0 => rw [pending_setPending_ne _ _ _ _ (by decide), pending_setPending_self]
    | 1 => rw [pending_setPending_self]
  · rfl

theorem line_irqLatch (i : Fin 32) (p : Fin 2) (s : State) :
    (irqLatch i s).line p = lineLevel ((irqLatch i s).pending p) :=
  updateLines_follow _ p

theorem out_irqLatch (i : Fin 32) (s : State) :
    (irqLatch i s).out = lineCallback 1 (s.line 1) ((irqLatch i s).line 1) ++
      lineCallback 0 (s.line 0) ((irqLatch i s).line 0) ++ s.out := by
  simp only [irqLatch, out_updateLines, line_updateLines]
  split <;> rfl

theorem WaitersOnly.out {s t : State} (h : WaitersOnly s t) : t.out = s.out := by rw [h.rest]

/-- The wakes of a re-evaluation come after its latching. -/
theorem waitersOnly_irqLatch_reevaluate (i : Fin 32) (incremented : Bool) (s : State) :
    WaitersOnly (irqLatch i s) (reevaluate i incremented s) := by
  have wakes (test : State → AgentId → Bool) (l : List AgentId) {u : State} (h : WaitersOnly (irqLatch i s) u) :
      WaitersOnly (irqLatch i s) (wakeWhere test l u) := h.trans (waitersOnly_wakeWhere test l u)
  unfold reevaluate
  dsimp only
  split
  · exact wakes _ _ (wakes _ _ (wakes _ _ (.refl _)))
  · exact wakes _ _ (wakes _ _ (.refl _))

/-- Settles O41: of a re-evaluation the router sees the latching alone. -/
theorem reevaluationLatches : Obligations.ReevaluationLatches := by
  intro s i incremented t callback
  have hw : WaitersOnly (irqLatch i s) t := waitersOnly_irqLatch_reevaluate i incremented s
  have hpending (p : Fin 2) : t.pending p = (irqLatch i s).pending p := by rw [State.pending, hw.irq]; rfl
  have hline (p : Fin 2) : t.line p = (irqLatch i s).line p := by rw [State.line, hw.irq]; rfl
  refine ⟨fun p n hn => ?pending, fun p => ⟨?dest, ?line⟩, ?out⟩
  case pending =>
    rw [hpending, pending_irqLatch, thresholdCrossed]
    split
    · next hreached => rw [getLsbD_latched i p s hn, hreached, Bool.and_true]
    · next hreached => rw [Bool.eq_false_iff.2 hreached, Bool.and_false, Bool.or_false]
  case dest => rw [State.dest, (syncFrame_reevaluate i incremented s).dest]; rfl
  case line => rw [hline, hpending, line_irqLatch, lineLevel_eq]
  case out =>
    have hcallback (p : Fin 2) : callback p = lineCallback p (s.line p) ((irqLatch i s).line p) := by
      rw [← hline]; rfl
    rw [hcallback, hcallback, ← out_irqLatch, hw.out]

/-! ### The router's registers (R314, R315) -/

/-- Clearing pending bits of CPU `p`, with the lines at their levels (R315, R316): the word, its line, and the lower
callback if no bit is left. -/
theorem irqClearStatus_eq {p : Fin 2} {s : State} (h : LinesFollowPending s) (m : Word) :
    irqClearStatus p m s = { s with
      irq := { s.irq with
        pending := s.irq.pending.set p (s.pending p &&& ~~~m)
        line := s.irq.line.set p (decide (s.pending p &&& ~~~m ≠ 0)) }
      out := if s.pending p ≠ 0 ∧ s.pending p &&& ~~~m = 0 then .irqLower p :: s.out else s.out } := by
  let u := s.setPending p (s.pending p &&& ~~~m)
  have hothers (q : Fin 2) (hq : q ≠ p) : u.line q = lineLevel (u.pending q) := by
    rw [pending_setPending_ne _ _ _ _ hq]
    exact h q
  have hword : u.pending p = s.pending p &&& ~~~m := pending_setPending_self ..
  have hline : u.line p = lineLevel (s.pending p) := h p
  rw [irqClearStatus, updateLines_single hothers, updateLine_eq, hword, hline, lineCallback_clear, lineLevel_eq]
  split <;> rfl

/-- Settles O42: each operation writes its register, and the one that can move a line makes its callback. -/
theorem routerRegisters : Obligations.RouterRegisters := by
  intro s h rest p m hlines
  refine ⟨fun hs => ?_, fun hs => ?_, fun hs => ?_, fun hs => ?_⟩
  · exact (step_issue hs).trans (withId_val p _)
  · exact (step_issue hs).trans (withId_val p _)
  · exact (step_issue hs).trans (withId_val p _)
  · refine (step_issue hs).trans ((withId_val p _).trans ?_)
    rw [irqClearStatus_eq (s := s.setAgenda rest) hlines]
    rfl

/-! ### Subsystem reset (70_reset_and_hazards.md R340 to R343) -/

theorem anyHostHeld_iff {s : State} : anyHostHeld s = true ↔ ∃ e ∈ s.hosts, e.2.job ≠ .idle := by
  simp [anyHostHeld]

/-- Settles O53: with no context held the operation is `subsystemReset`, which writes every element anew. -/
theorem subsystemResetClears : Obligations.SubsystemResetClears := by
  intro s h rest hs
  have hstep : step s = hostReset h (s.setAgenda rest) := step_issue hs
  rw [hstep]
  split
  · next hheld => exact if_pos (anyHostHeld_iff.2 hheld)
  · next hfree => exact if_neg (mt anyHostHeld_iff.1 hfree)

end Sys2Proof.Machine
end
